-- ==== Sys2Proof/Word.lean ====
section
/-! DEFINITION. The word types of the model and the finite tables keyed by numbers. -/

namespace Sys2Proof

abbrev Byte := BitVec 8
abbrev W16 := BitVec 16
abbrev W32 := BitVec 32
abbrev W64 := BitVec 64
/-- A program counter, a virtual or a physical address: 52 bits (R65, R399). -/
abbrev Addr := BitVec 52

/-- A finite table: keys strictly rising, and no entry equal to what an absent key reads as. -/
abbrev Tbl (α : Type) := List (Nat × α)

/-- Keys strictly rising and no entry equal to `d`, the value an absent key reads as. -/
def Tbl.wf {α : Type} [DecidableEq α] (d : α) : Tbl α → Bool
  | [] => true
  | [e] => e.2 ≠ d
  | e :: f :: m => e.2 ≠ d && e.1 < f.1 && Tbl.wf d (f :: m)

/-- The entry at key `k`, or `d` where the table lists none. -/
def Tbl.get {α : Type} (d : α) : Tbl α → Nat → α
  | [], _ => d
  | e :: m, k => if e.1 = k then e.2 else Tbl.get d m k

/-- Takes the entry at key `k` out. -/
def Tbl.erase {α : Type} : Tbl α → Nat → Tbl α
  | [], _ => []
  | e :: m, k => if e.1 = k then m else e :: Tbl.erase m k

/-- Puts `v` at key `k`, in the place its key gives it. -/
def Tbl.insert {α : Type} : Tbl α → Nat → α → Tbl α
  | [], k, v => [(k, v)]
  | e :: m, k, v =>
    if e.1 = k then (k, v) :: m
    else if k < e.1 then (k, v) :: e :: m
    else e :: Tbl.insert m k v

/-- The table with key `k` reading `v`; an entry equal to the default `d` is not listed. -/
def Tbl.set {α : Type} [DecidableEq α] (d : α) (m : Tbl α) (k : Nat) (v : α) : Tbl α :=
  if v = d then Tbl.erase m k else Tbl.insert m k v

end Sys2Proof
end

