-- ==== Sys2Proof/Syntax.lean ====
section
/-! DEFINITION. The instructions and steps of the part: one constructor per row of the opcode table. -/

namespace Sys2Proof

/-- The SCP field (R42). -/
inductive Scope where
  | lane | warp | sheaf | block
  deriving DecidableEq, Repr

/-- The PR field: a predicate p0-p7, perhaps negated (R66, R67). -/
structure Guard where
  neg : Bool
  idx : BitVec 3
  deriving DecidableEq, Repr

/-- The common header of an instruction word, less OP and DK (R66). `sig` none stands for SIG 0. -/
structure Hdr where
  scp : Scope
  pr : Guard
  wait : BitVec 6
  sig : Option (Fin 6)
  deriving DecidableEq, Repr

/-- A source operand: the K field selects how A is read (R71). -/
inductive Src where
  /-- K 00: v[A], x[A], t[A], or the scalar index on the AS. -/
  | vec (a : BitVec 8)
  /-- K 01: scalar index A (R72). -/
  | scl (a : BitVec 8)
  /-- K 10: constant word c[A] (R74). -/
  | cst (a : BitVec 8)
  /-- K 11: signed inline literal (R74). -/
  | lit (a : BitVec 8)
  deriving DecidableEq, Repr

/-- A register destination: DK and D (R68). -/
inductive Dst where
  | vec (d : BitVec 8)
  | scl (d : BitVec 8)
  deriving DecidableEq, Repr

/-- FN of IADD, ISUB, IMUL and IMAD (R132). -/
inductive AddForm where | w32 | w64 | ss | us deriving DecidableEq, Repr
/-- FN of IMULHI, IMIN and IMAX (R133). -/
inductive CmpForm where | s32 | u32 | s64 | u64 deriving DecidableEq, Repr
/-- FN<1:0> of IABS (R134). -/
inductive AbsForm where | w32 | w64 | ss | ss64 deriving DecidableEq, Repr
/-- cond of ICMP (R140). -/
inductive ICond where | eq | ne | lt | le | gt | ge deriving DecidableEq, Repr
/-- cond of FCMP and TCMP (R163, R193). -/
inductive FCond where | eq | ne | lt | le | gt | ge | un | ord deriving DecidableEq, Repr
/-- combine of ICMP and FCMP (R140). -/
inductive Comb where | write | and | or deriving DecidableEq, Repr
/-- What HINFO reads (R147). -/
inductive HKind where | len | attr | base deriving DecidableEq, Repr
/-- A rounding mode as the arithmetic knows it (R104). -/
inductive Rm where | rne | rtz | rdn | rup | rmm | stoch deriving DecidableEq, Repr
/-- The 2-bit rounding field of F-3S (R104). -/
inductive Rm2 where | rne | rtz | dyn deriving DecidableEq, Repr
/-- The 3-bit rounding field (R104). -/
inductive Rm3 where | mode (m : Rm) | dyn deriving DecidableEq, Repr
/-- FP32, FP16 or BF16 (R99). -/
inductive FTy where | f32 | f16 | bf16 deriving DecidableEq, Repr
/-- FP8 formats (R101). -/
inductive F8 where | e4 | e5 deriving DecidableEq, Repr
/-- The narrow formats of CVTW (R172). -/
inductive FNarrow where | e4 | e5 | f4 deriving DecidableEq, Repr
/-- Integer types of CVTFI and CVTIF (R169). -/
inductive ITy where | i32 | ui32 | i64 | ui64 deriving DecidableEq, Repr
/-- FN of FSGN (R162). -/
inductive SgnOp where | cpy | neg | xor deriving DecidableEq, Repr
/-- SHFL modes (R150). -/
inductive ShflMode where | idx | up | dn | bfly deriving DecidableEq, Repr
/-- XRED and XSCAN operations (R153). -/
inductive RedOp where | add | smin | smax | umin | umax | and | or | xor deriving DecidableEq, Repr
/-- The source and kind of a VOTE (R152). -/
inductive VoteKind where
  | all (p : BitVec 3) | any (p : BitVec 3) | ballot (p : BitVec 3) | uni (w64 : Bool) (a : Src)
  deriving DecidableEq, Repr
/-- A destination that may be a predicate (R67, R152). -/
inductive PDst where | pred (p : BitVec 3) | scl (d : BitVec 8) deriving DecidableEq, Repr

/-- SZ of F-M (R69). -/
inductive Size where | b8 | b16 | b32 | b64 | b128 deriving DecidableEq, Repr
/-- MS of F-M (R69, R256). -/
inductive MScope where | warp | block | core | device | system deriving DecidableEq, Repr
/-- SEM of F-M, as each instruction reads it (R69, R243, R270). -/
inductive Sem where | plain | acqrel | both deriving DecidableEq, Repr
/-- The memory fields of F-M: size, scope, semantics, ordering class, handle and offset (R69, R238). -/
structure MArg where
  sz : Size
  ms : MScope
  sem : Sem
  oc : BitVec 4
  hd : BitVec 8
  off : Src
  deriving DecidableEq, Repr
/-- Operations of ATOM and RED (R270). -/
inductive AOp where
  | add | and | or | xor | smin | smax | umin | umax | xchg | cas | incw | bfadd | fadd
  deriving DecidableEq, Repr
/-- The data group of ATOM and RED: DK and D<7:2> (R271). -/
structure AGrp where
  scl : Bool
  n : BitVec 6
  deriving DecidableEq, Repr
/-- CFENCE kinds (R264). -/
inductive FenceKind where | full | rel | acq deriving DecidableEq, Repr
/-- Link register of CALL (R210). -/
inductive Link where | pair (m : BitVec 7) | scl (s : BitVec 6) deriving DecidableEq, Repr
/-- Barrier kinds (R463). -/
inductive BarKind where | blk | cor | job deriving DecidableEq, Repr
/-- Tile element types (R177). -/
inductive TTy where | f32 | f16 | bf16 | e4 | e5 | f4 | i32 | i8 | i4 deriving DecidableEq, Repr
/-- TUN operations (R192). -/
inductive TUnOp where
  | mov | abs | neg | relu | rcp | rsq | sqrt | exp2 | log2 | sin | cos
  deriving DecidableEq, Repr
/-- TRED axes (R195). -/
inductive TAxis where | row | col | all deriving DecidableEq, Repr
/-- TRED operations (R195). -/
inductive TRedOp where | add | max | min deriving DecidableEq, Repr
/-- Pattern width of FILL (R319). -/
inductive FillW where | w1 | w2 | w4 | w8 deriving DecidableEq, Repr
/-- Disparity limit of VSTEREO (R332). -/
inductive DMax where | d64 | d128 | d256 deriving DecidableEq, Repr
/-- Width of LZ.PUSH (R496). -/
inductive PushW where | w16 | w32 | w64 deriving DecidableEq, Repr
/-- The hart streams q0, q1, q4 and q5 (R494, R496). -/
inductive HPort where | q0 | q1 | q4 | q5 deriving DecidableEq, Repr

/-- Who writes a register of the device configuration space (R23). -/
inductive Party where
  /-- the safety island -/
  | island
  /-- a hart in M or HS mode -/
  | hyper
  /-- system software of a virtual interface -/
  | vi (v : Nat)
  deriving DecidableEq, Repr

/-- A firmware image as it reaches the island's check: bytes 0x00 to 0x3F of its header, its payload at 0x1000, and whether the signatures of
the header, at 0x40 and 0x80, verify over the two (R506). -/
structure Image where
  head : List Byte
  payload : List Byte
  edOk : Bool
  mlOk : Bool
  deriving DecidableEq, Repr

/-- What the drive reports of a storage launch (R311, R336): blocks done and, on failure, its NVMe status. -/
structure DriveReport where
  blocks : Nat
  err : Option W16
  deriving DecidableEq, Repr

/-- A sensor stream: the interface that it lands for, and its number there (R287). -/
structure Ingest where
  vi : Nat
  stream : Nat
  deriving DecidableEq, Repr

/-- An access of an application core to memory (R256, R284). -/
inductive HartAcc where
  /-- n bytes at an address that the hart translates, to its register rd -/
  | load (va : Nat) (n : Nat) (rd : Nat)
  | store (va : Nat) (n : Nat) (v : W64)
  /-- FENCE rw,rw (R256) -/
  | fence
  /-- its L2 writes its oldest dirty line back (R284) -/
  | writeback
  /-- a write of satp (0), vsatp (1) or hgatp (2) by its software (R399; log entry 51) -/
  | translate (which : Nat) (v : W64)
  deriving DecidableEq, Repr

/-- The instructions, engine words, LZ instructions and device steps: one constructor per row of the opcode table. -/
inductive Instr where
  /-- NOP n: `n` holds n - 1 (R85). -/
  | nop (h : Hdr) (n : W16)
  /-- R132. -/
  | iadd (h : Hdr) (f : AddForm) (d : Dst) (a : Src) (b : Src)
  /-- R132. -/
  | isub (h : Hdr) (f : AddForm) (d : Dst) (a : Src) (b : Src)
  /-- R132. -/
  | imul (h : Hdr) (f : AddForm) (d : Dst) (a : Src) (b : Src)
  /-- R133. -/
  | imulhi (h : Hdr) (f : CmpForm) (d : Dst) (a : Src) (b : Src)
  /-- R132. -/
  | imad (h : Hdr) (f : AddForm) (d : Dst) (a : Src) (b : Src) (c : Src)
  /-- R133. -/
  | imin (h : Hdr) (f : CmpForm) (d : Dst) (a : Src) (b : Src)
  /-- R133. -/
  | imax (h : Hdr) (f : CmpForm) (d : Dst) (a : Src) (b : Src)
  /-- R134. -/
  | iabs (h : Hdr) (f : AbsForm) (d : Dst) (a : Src)
  /-- R135. -/
  | and (h : Hdr) (w64 : Bool) (inv : Bool) (d : Dst) (a : Src) (b : Src)
  /-- R135. -/
  | or (h : Hdr) (w64 : Bool) (inv : Bool) (d : Dst) (a : Src) (b : Src)
  /-- R135. -/
  | xor (h : Hdr) (w64 : Bool) (inv : Bool) (d : Dst) (a : Src) (b : Src)
  /-- R136. -/
  | shl (h : Hdr) (w64 : Bool) (rot : Bool) (d : Dst) (a : Src) (b : Src)
  /-- R136. -/
  | shr (h : Hdr) (w64 : Bool) (arith : Bool) (d : Dst) (a : Src) (b : Src)
  /-- R137. -/
  | bfx (h : Hdr) (w64 : Bool) (sgn : Bool) (d : Dst) (a : Src) (b : Src) (c : Src)
  /-- R137. -/
  | bfi (h : Hdr) (w64 : Bool) (d : Dst) (a : Src) (b : Src) (c : Src)
  /-- R138. -/
  | popc (h : Hdr) (w64 : Bool) (d : Dst) (a : Src)
  /-- R138. -/
  | clz (h : Hdr) (w64 : Bool) (d : Dst) (a : Src)
  /-- R138. -/
  | ctz (h : Hdr) (w64 : Bool) (d : Dst) (a : Src)
  /-- R138. -/
  | brev (h : Hdr) (w64 : Bool) (d : Dst) (a : Src)
  /-- R139. -/
  | clmul (h : Hdr) (w64 : Bool) (hi : Bool) (d : Dst) (a : Src) (b : Src)
  /-- R140. -/
  | icmp (h : Hdr) (c : ICond) (u : Bool) (w64 : Bool) (k : Comb) (p : BitVec 3) (a : Src) (b : Src)
  /-- R141. -/
  | sel (h : Hdr) (w64 : Bool) (d : Dst) (a : Src) (b : Src) (neg : Bool) (p : BitVec 3)
  /-- R142. -/
  | plop (h : Hdr) (p : BitVec 3) (pa : BitVec 3) (pb : BitVec 3) (lut : BitVec 4)
  /-- R143. -/
  | mov (h : Hdr) (w64 : Bool) (d : Dst) (a : Src)
  /-- R144. -/
  | movl (h : Hdr) (d : Dst) (lit : W32)
  /-- R145; with `lo`, b is the zero field. -/
  | movs (h : Hdr) (w64 : Bool) (lo : Bool) (d : BitVec 8) (a : BitVec 8) (b : Src)
  /-- R146. -/
  | lea (h : Hdr) (sc : BitVec 2) (d : Dst) (a : Src) (b : Src)
  /-- R147. -/
  | hinfo (h : Hdr) (k : HKind) (d : Dst) (a : Src)
  /-- R160. -/
  | fadd (h : Hdr) (rm : Rm2) (d : Dst) (a : Src) (b : Src)
  /-- R160. -/
  | fsub (h : Hdr) (rm : Rm2) (d : Dst) (a : Src) (b : Src)
  /-- R160. -/
  | fmul (h : Hdr) (rm : Rm2) (d : Dst) (a : Src) (b : Src)
  /-- R160. -/
  | ffma (h : Hdr) (rm : Rm2) (d : Dst) (a : Src) (b : Src) (c : Src)
  /-- R161. -/
  | fmin (h : Hdr) (d : Dst) (a : Src) (b : Src)
  /-- R161. -/
  | fmax (h : Hdr) (d : Dst) (a : Src) (b : Src)
  /-- R162. -/
  | fsgn (h : Hdr) (op : SgnOp) (d : Dst) (a : Src) (b : Src)
  /-- R163. -/
  | fcmp (h : Hdr) (c : FCond) (k : Comb) (p : BitVec 3) (a : Src) (b : Src)
  /-- R164. -/
  | fclass (h : Hdr) (t : FTy) (hi : Bool) (d : Dst) (a : Src)
  /-- R165. -/
  | hadd2 (h : Hdr) (bf : Bool) (dyn : Bool) (d : Dst) (a : Src) (b : Src)
  /-- R165. -/
  | hmul2 (h : Hdr) (bf : Bool) (dyn : Bool) (d : Dst) (a : Src) (b : Src)
  /-- R165. -/
  | hfma2 (h : Hdr) (bf : Bool) (dyn : Bool) (d : Dst) (a : Src) (b : Src) (c : Src)
  /-- R165. -/
  | hmin2 (h : Hdr) (bf : Bool) (d : Dst) (a : Src) (b : Src)
  /-- R165. -/
  | hmax2 (h : Hdr) (bf : Bool) (d : Dst) (a : Src) (b : Src)
  /-- R166. -/
  | rcp (h : Hdr) (d : Dst) (a : Src)
  /-- R166. -/
  | rsq (h : Hdr) (d : Dst) (a : Src)
  /-- R166. -/
  | sqrt (h : Hdr) (d : Dst) (a : Src)
  /-- R166. -/
  | exp2 (h : Hdr) (d : Dst) (a : Src)
  /-- R166. -/
  | log2 (h : Hdr) (d : Dst) (a : Src)
  /-- R166. -/
  | sin (h : Hdr) (d : Dst) (a : Src)
  /-- R166. -/
  | cos (h : Hdr) (d : Dst) (a : Src)
  /-- R167. -/
  | dot2 (h : Hdr) (bf : Bool) (rz : Bool) (d : Dst) (a : Src) (b : Src) (c : Src)
  /-- R167. -/
  | dot4 (h : Hdr) (fa : F8) (fb : F8) (d : Dst) (a : Src) (b : Src) (c : Src)
  /-- R168. -/
  | cvtf (h : Hdr) (pk : Bool) (hi : Bool) (dst : FTy) (src : FTy) (rm : Rm3) (d : Dst) (a : Src) (b : Src)
  /-- R169. -/
  | cvtfi (h : Hdr) (hi : Bool) (ity : ITy) (fty : FTy) (rm : Rm3) (d : Dst) (a : Src)
  /-- R169. -/
  | cvtif (h : Hdr) (ity : ITy) (fty : FTy) (rm : Rm3) (d : Dst) (a : Src)
  /-- R170. -/
  | cvt8 (h : Hdr) (unpk : Bool) (byte : BitVec 2) (nosat : Bool) (t : F8) (rm : Rm3) (d : Dst) (a : Src) (b : Src)
  /-- R171. -/
  | cvt4 (h : Hdr) (unpk : Bool) (nib : BitVec 3) (rm : Rm3) (d : Dst) (a : Src) (b : Src)
  /-- R172. -/
  | cvtw (h : Hdr) (unpk : Bool) (t : FNarrow) (nosat : Bool) (rm : Rm3) (d : Dst) (a : Src) (b : Src)
  /-- R174. -/
  | rseed (h : Hdr) (a : Src)
  /-- R175. -/
  | rnext (h : Hdr) (j : BitVec 5) (f : Bool) (d : Dst)
  /-- R150. -/
  | shfl (h : Hdr) (mode : ShflMode) (seg : BitVec 4) (w64 : Bool) (d : Dst) (a : Src) (b : Src)
  /-- R151. -/
  | perm (h : Hdr) (m : BitVec 4) (d : Dst) (a : Src) (b : Src)
  /-- R152. -/
  | vote (h : Hdr) (k : VoteKind) (d : PDst)
  /-- R153. -/
  | xred (h : Hdr) (op : RedOp) (w64 : Bool) (d : Dst) (a : Src)
  /-- R153. -/
  | xscan (h : Hdr) (op : RedOp) (w64 : Bool) (ex : Bool) (d : BitVec 8) (a : Src)
  /-- R154. -/
  | xadd (h : Hdr) (w64 : Bool) (d : BitVec 8) (a : Src) (cnt : BitVec 8)
  /-- R243. -/
  | ld (h : Hdr) (sx : Bool) (d : Dst) (m : MArg)
  /-- R243; d names the data. -/
  | st (h : Hdr) (d : Dst) (m : MArg)
  /-- R250. -/
  | ldpoll (h : Hdr) (sx : Bool) (d : Dst) (m : MArg)
  /-- R251. -/
  | pref (h : Hdr) (mere : Bool) (hd : BitVec 8) (off : Src)
  /-- R252. -/
  | cctl (h : Hdr) (inv : Bool) (sys : Bool) (hd : BitVec 8) (off : Src)
  /-- R255. -/
  | commit (h : Hdr)
  /-- R248. -/
  | ldsp (h : Hdr) (sx : Bool) (d : Dst) (m : MArg)
  /-- R248. -/
  | stsp (h : Hdr) (d : Dst) (m : MArg)
  /-- R270. -/
  | atom (h : Hdr) (op : AOp) (g : AGrp) (m : MArg)
  /-- R274. -/
  | ldres (h : Hdr) (d : Dst) (m : MArg)
  /-- R275. -/
  | stcond (h : Hdr) (d : Dst) (m : MArg)
  /-- R270. -/
  | red (h : Hdr) (op : AOp) (g : AGrp) (m : MArg)
  /-- R281. -/
  | redflush (h : Hdr)
  /-- R264. -/
  | cfence (h : Hdr) (k : FenceKind) (ms : MScope) (mask : W16)
  /-- R208. -/
  | bra (h : Hdr) (fn : BitVec 8) (off : W32)
  /-- R209. -/
  | brx (h : Hdr) (fn : BitVec 8) (a : Src)
  /-- R210. -/
  | call (h : Hdr) (l : Link) (off : W32)
  /-- R209. -/
  | ret (h : Hdr) (a : Src)
  /-- R211; n is IMM<15:0>. -/
  | loop (h : Hdr) (n : W16) (a : Src)
  /-- R216. -/
  | regang (h : Hdr) (mask : BitVec 8)
  /-- R217. -/
  | elect (h : Hdr) (p : BitVec 3) (w : Option (Fin 6)) (k : BitVec 8)
  /-- R218, the plain yield. -/
  | yield (h : Hdr) (off : W32)
  /-- R218, YIELD.C. -/
  | yieldC (h : Hdr) (w : Fin 6) (off : W32)
  /-- R219, the plain variant. -/
  | spawn (h : Hdr) (p : BitVec 3) (off : W32)
  /-- R219, SPAWN.W. -/
  | spawnW (h : Hdr) (p : BitVec 3) (off : W32)
  /-- R220. -/
  | exit (h : Hdr)
  /-- R221. -/
  | svc (h : Hdr) (code : W16)
  /-- R222. -/
  | setpl (h : Hdr) (a : Src)
  /-- R223. -/
  | ckpt (h : Hdr) (id : BitVec 8) (rows : BitVec 9) (a : Src)
  /-- R224. -/
  | setsh (h : Hdr) (none : Bool) (n : BitVec 4)
  /-- R225. -/
  | trap (h : Hdr) (code : W16)
  /-- R390. -/
  | brq (h : Hdr) (n : Bool) (off : W32)
  /-- R463. -/
  | barSync (h : Hdr) (k : BarKind) (n : BitVec 4)
  /-- R463. -/
  | barArv (h : Hdr) (k : BarKind) (n : BitVec 4)
  /-- R463. -/
  | barWt (h : Hdr) (k : BarKind) (n : BitVec 4)
  /-- R459. -/
  | sempPost (h : Hdr) (s : BitVec 4) (n : BitVec 8)
  /-- R459. -/
  | sempInit (h : Hdr) (s : BitVec 4) (v : BitVec 8) (ceil : BitVec 8)
  /-- R460. -/
  | semwWait (h : Hdr) (s : BitVec 4) (n : BitVec 8)
  /-- R460. -/
  | semwTry (h : Hdr) (p : BitVec 3) (s : BitVec 4) (n : BitVec 8)
  /-- R460. -/
  | semwRd (h : Hdr) (d : BitVec 8) (s : BitVec 4)
  /-- R466. -/
  | rsectEnter (h : Hdr)
  /-- R466. -/
  | rsectExit (h : Hdr)
  /-- R468. -/
  | gpstart (h : Hdr) (d : BitVec 8)
  /-- R469. -/
  | gpwait (h : Hdr) (t : Src)
  /-- R469. -/
  | gptest (h : Hdr) (p : BitVec 3) (t : Src)
  /-- R470. -/
  | dfree (h : Hdr) (len : BitVec 8) (hd : BitVec 8) (off : Src)
  /-- R444. -/
  | subPub (h : Hdr) (d : BitVec 8) (hd : BitVec 8) (off : Src)
  /-- R444. -/
  | subSub (h : Hdr) (d : BitVec 8) (hd : BitVec 8) (off : Src)
  /-- R446. -/
  | unsub (h : Hdr) (all : Bool) (e : BitVec 4)
  /-- R447. -/
  | subflush (h : Hdr) (all : Bool) (e : BitVec 4)
  /-- R187. -/
  | tld (h : Hdr) (str : Bool) (t : BitVec 8) (m : MArg)
  /-- R187. -/
  | tst (h : Hdr) (str : Bool) (t : BitVec 8) (m : MArg)
  /-- R186. -/
  | tzero (h : Hdr) (t : BitVec 8)
  /-- R185. -/
  | tshapeImm (h : Hdr) (v : W16)
  /-- R185. -/
  | tshapeReg (h : Hdr) (a : Src)
  /-- R191; f is the rounding or wrap field, read by SHAPE.TYPE (R184). -/
  | tadd (h : Hdr) (f : BitVec 2) (d : BitVec 8) (a : Src) (b : Src)
  /-- R191. -/
  | tsub (h : Hdr) (f : BitVec 2) (d : BitVec 8) (a : Src) (b : Src)
  /-- R191. -/
  | tmul (h : Hdr) (f : BitVec 2) (d : BitVec 8) (a : Src) (b : Src)
  /-- R191. -/
  | tfma (h : Hdr) (f : BitVec 2) (d : BitVec 8) (a : Src) (b : Src) (c : Src)
  /-- R191. -/
  | tmin (h : Hdr) (d : BitVec 8) (a : Src) (b : Src)
  /-- R191. -/
  | tmax (h : Hdr) (d : BitVec 8) (a : Src) (b : Src)
  /-- R192. -/
  | tun (h : Hdr) (op : TUnOp) (f : BitVec 2) (d : BitVec 8) (a : Src)
  /-- R193. -/
  | tcmp (h : Hdr) (c : FCond) (u : Bool) (d : BitVec 8) (a : Src) (b : Src)
  /-- R194. -/
  | tsel (h : Hdr) (d : BitVec 8) (a : Src) (b : Src) (m : BitVec 8)
  /-- R195. -/
  | tred (h : Hdr) (op : TRedOp) (axis : TAxis) (f : BitVec 2) (d : Dst) (a : Src)
  /-- R188. -/
  | tbc (h : Hdr) (axis : TAxis) (d : BitVec 8) (a : Src)
  /-- R189. -/
  | ttr (h : Hdr) (d : BitVec 8) (a : BitVec 8)
  /-- R190. -/
  | tcvt (h : Hdr) (src : TTy) (nosat : Bool) (rm : Rm3) (d : BitVec 8) (a : BitVec 8)
  /-- R197. -/
  | accrd (h : Hdr) (nosat : Bool) (clr : Bool) (f : BitVec 2) (d : BitVec 8) (row : Src) (col : Src)
  /-- R197. -/
  | accwr (h : Hdr) (add : Bool) (t : BitVec 8) (row : Src) (col : Src)
  /-- R196. -/
  | accwin (h : Hdr) (split : Bool) (base : BitVec 8) (lim : BitVec 8)
  /-- R199. -/
  | lease (h : Hdr) (n : BitVec 7)
  /-- R199. -/
  | unlease (h : Hdr)
  /-- R229. -/
  | xret (h : Hdr)
  /-- R230. -/
  | killBlk (h : Hdr)
  /-- R230. -/
  | killCtx (h : Hdr)
  /-- R226. -/
  | srd (h : Hdr) (d : BitVec 8) (reg : BitVec 8)
  /-- R226. -/
  | swr (h : Hdr) (reg : BitVec 8) (a : Src)
  /-- R413. -/
  | tlbinvVa (h : Hdr) (leaf : Bool) (a : Src) (b : Src)
  /-- R413. -/
  | tlbinvCtx (h : Hdr) (b : Src)
  /-- R413. -/
  | tlbinvVi (h : Hdr)
  /-- R415. -/
  | hinv (h : Hdr) (all : Bool) (n : BitVec 8) (ctx : Option Src)
  /-- R307. -/
  | lit (v : BitVec 15)
  /-- R307. -/
  | litx (v : BitVec 14)
  /-- R307. -/
  | dup
  /-- R307. -/
  | drop
  /-- R307. -/
  | swap
  /-- R307. -/
  | stackOver
  /-- R307. -/
  | add
  /-- R307. -/
  | mul
  /-- R307. -/
  | clr
  /-- 0xFFFF (R307). -/
  | engineNop
  /-- A value that names no word (R87). -/
  | engineWord (w : W16)
  /-- R316. -/
  | copy1d (r : Bool)
  /-- R316. -/
  | copy2d (r : Bool)
  /-- R316. -/
  | copy3d (r : Bool)
  /-- R318. -/
  | gather (r : Bool) (sc : Bool) (i64 : Bool)
  /-- R318. -/
  | scatter (r : Bool) (sc : Bool) (i64 : Bool)
  /-- R319. -/
  | fill (r : Bool) (w : FillW)
  /-- R320. -/
  | sempost (r : Bool) (s : BitVec 4)
  /-- R320. -/
  | semwait (r : Bool) (s : BitVec 4)
  /-- R322. -/
  | note
  /-- R348. -/
  | mma (r : Bool) (x4 : Bool) (z : Bool)
  /-- R349. -/
  | mmas (r : Bool) (q : Bool) (x4 : Bool) (z : Bool)
  /-- R350. -/
  | mmax (r : Bool) (x4 : Bool) (z : Bool)
  /-- R351. -/
  | accz (r : Bool) (x4 : Bool)
  /-- R351. -/
  | accdrain (r : Bool) (nosat : Bool) (x4 : Bool) (clr : Bool)
  /-- R351. -/
  | accload (r : Bool) (x4 : Bool) (add : Bool)
  /-- R323. -/
  | bvhset (r : Bool)
  /-- R325. -/
  | rayhit (r : Bool)
  /-- R326. -/
  | rayrad (r : Bool)
  /-- R326. -/
  | rayknn (r : Bool)
  /-- R330. -/
  | vremap (r : Bool)
  /-- R331. -/
  | vpyr (r : Bool)
  /-- R332. -/
  | vstereo (r : Bool) (win7 : Bool) (dmax : DMax)
  /-- R333. -/
  | vflow (r : Bool) (b16 : Bool)
  /-- R334. -/
  | vchain (r : Bool)
  /-- R336. -/
  | stwr (r : Bool) (fua : Bool) (b : BitVec 3)
  /-- R336. -/
  | strd (r : Bool) (b : BitVec 3)
  /-- R337. -/
  | sflush (r : Bool) (b : BitVec 3)
  /-- R81; h is the header as far as it can be read. -/
  | illegalOpcode (op : BitVec 8) (h : Hdr)
  /-- R497. -/
  | lzPush (w : PushW) (q : HPort) (rs1 : BitVec 5)
  /-- R498. -/
  | lzPop (q : HPort) (rd : BitVec 5)
  /-- R499. -/
  | lzFence (mask : BitVec 6)
  /-- R501. -/
  | lzSubmit (arm : Bool) (rs1 : BitVec 5) (rd : BitVec 5)
  /-- R502. -/
  | lzTime (rd : BitVec 5)
  /-- R500. -/
  | lzWaitq (q : HPort) (rs1 : BitVec 5) (rd : BitVec 5)
  /-- R496. -/
  | lzIllegalInstruction (w : W32)
  /-- The scope that thread t waits in issues once its last member has arrived (R46). -/
  | scopedRendezvous (t : Nat)
  /-- Result `id` of thread t lands (R78). -/
  | resultLanding (t : Nat) (id : Nat)
  /-- Store `id` of thread t is acknowledged (R247). -/
  | storeAck (t : Nat) (id : Nat)
  /-- R232. -/
  | asyncTrapEntry (t : Nat)
  /-- R34. -/
  | warpExitComplete (t : Nat)
  /-- R38. -/
  | streamRotation (t : Nat)
  /-- R394. -/
  | spawnQueuePlace (core : Nat)
  /-- R342. -/
  | leaseGrant (g : Nat)
  /-- Semaphore `k` serves its head take (R458). -/
  | semTakeServed (k : Nat)
  /-- R464; own is the block, core or interface. -/
  | barrierRelease (k : BarKind) (own : Nat) (n : Nat)
  /-- R467. -/
  | graceSlotComplete (ctx : Nat) (slot : Nat)
  /-- The running launch of stream k ends (R310); the report is the drive's, used by storage words only. -/
  | launchCompletion (k : Nat) (rep : DriveReport)
  /-- R311. -/
  | storageTimeout (k : Nat)
  /-- A store of x to release page v (R359). -/
  | cardDoorbell (v : Nat) (x : W64)
  /-- A write of a card's word 0 that sets ARM (R360). -/
  | cardArm (who : Party) (off : Nat) (x : W64)
  /-- R360. -/
  | periodicRelease (card : Nat)
  /-- R383. -/
  | jobCompletion (card : Nat)
  /-- R365. -/
  | blockPlacement (tile : Bool)
  /-- R371. -/
  | simtBlockSave (blk : Nat)
  /-- R372. -/
  | tileBlockSave (blk : Nat)
  /-- R372. -/
  | blockRestore (blk : Nat)
  /-- R376. -/
  | deadlineMiss (card : Nat)
  /-- R377. -/
  | budgetTime (card : Nat)
  /-- R378. -/
  | checkpointOverdue (t : Nat)
  /-- R474. -/
  | dtStep (who : Party) (x : W64)
  /-- R472. -/
  | dtRate (who : Party) (x : W64)
  /-- R483. -/
  | railSwitch (c : Nat)
  /-- R299. -/
  | droopReplay (c : Nat)
  /-- R484. -/
  | droopHoldEnd (c : Nat)
  /-- R299. -/
  | brownout (c : Nat)
  /-- Compute and cache diode of every pair, signed Q12.4 (R486). -/
  | thermalRead (temps : List (W16 × W16))
  /-- R509. -/
  | watchdog (e : Nat)
  /-- R512. -/
  | islRestart (who : Party) (x : W64)
  /-- The next step of a restart of engine e (R510). -/
  | engineRestart (e : Nat)
  /-- R290. -/
  | gateWayRequest (who : Party) (slice : Nat) (x : W64)
  /-- R290. -/
  | ungateWay (who : Party) (slice : Nat) (x : W64)
  /-- R291. -/
  | gatingDone (slice : Nat)
  /-- R288. -/
  | mereCarve (who : Party) (x : W64)
  /-- R531. -/
  | mereInj (who : Party) (x : W64)
  /-- The scrub reads the line of one slot (R292). -/
  | merePatrolScrub (slot : Nat)
  /-- R292. -/
  | dramPatrolScrub (line : Nat)
  /-- R385. -/
  | lpddr6Refresh (ch : Nat) (bank : Nat)
  /-- R287. -/
  | sensorStreamWrite (v : Ingest) (pa : Nat) (bytes : List Byte)
  /-- R407. -/
  | walkReread (t : Nat)
  /-- R407. -/
  | migrationStall (t : Nat)
  /-- R416. -/
  | xltInvVa (who : Party) (v : Nat) (x : W64)
  /-- R416. -/
  | xltInvCtx (who : Party) (v : Nat) (x : W64)
  /-- R416. -/
  | xltInvVi (who : Party) (v : Nat) (x : W64)
  /-- R416. -/
  | xltHinv (who : Party) (v : Nat) (x : W64)
  /-- R416. -/
  | xltHinvAll (who : Party) (v : Nat) (x : W64)
  /-- R414. -/
  | xltInvDone (v : Nat) (hinv : Bool)
  /-- R417. -/
  | splReq (who : Party) (v : Nat) (x : W64)
  /-- R417. -/
  | splinterDone (v : Nat)
  /-- R396. -/
  | svcRequestEnqueue (v : Nat)
  /-- R397. -/
  | svcReply (who : Party) (v : Nat) (x : W64)
  /-- R441. -/
  | remoteAccess (t : Nat) (id : Nat)
  /-- A flit with `errs` bit errors in its header (R453). -/
  | gutterFlitArrival (st : Nat) (west : Bool) (lane : Nat) (errs : Nat)
  /-- R454. -/
  | packetLost (t : Nat) (id : Nat)
  /-- R452. -/
  | deadLane (west : Bool) (lane : Nat)
  /-- R448. -/
  | batchIdleFlush (core : Nat) (e : Nat)
  /-- R449. -/
  | batchEntryApply (n : Nat)
  /-- R451. -/
  | subAckTimeout (core : Nat) (e : Nat) (peer : Nat)
  /-- R495. -/
  | hcpCtl (who : Party) (hart : Nat) (x : W64)
  /-- R495. -/
  | hcpSem (who : Party) (hart : Nat) (n : Nat) (x : W64)
  /-- A write of VI_SIMT, or of VI_TILE (R503). -/
  | viSimt (who : Party) (v : Nat) (tile : Bool) (x : W64)
  /-- R503. -/
  | viUnitHandover (v : Nat)
  /-- R507. -/
  | powerGoodBoot (flash : List Image) (stepsOk : Bool)
  /-- R508. -/
  | recoveryImage (img : Image)
  /-- R4, R23. -/
  | registerWrite (who : Party) (off : Nat) (x : W64)
  /-- R500. -/
  | lzWaitqTimeLimit (hart : Nat)
  /-- R497. -/
  | hartInterrupt (hart : Nat)
  /-- R315. -/
  | qpaceGapElapsed (u : Nat) (port : Nat)
  /-- R284. -/
  | applicationCoreAccess (hart : Nat) (acc : HartAcc)
  /-- R477. -/
  | weirWindowEdge
  /-- R295. -/
  | ctxKill
  /-- R296. -/
  | pageRetire
  /-- R295. -/
  | wayQuar
  /-- R532. -/
  | mereInjection
  /-- R438. -/
  | rafterRecompile
  /-- R493. -/
  | siltPersist
  deriving DecidableEq, Repr

/-- The register files that R294 protects by register. -/
inductive RegFile where | v | s | t | h | k | status deriving DecidableEq, Repr

/-- An error that storage comes to by itself (R292-R294; log entry 46). One in a register, an accumulator, a scratchpad, the Mere or LPDDR6
waits there for its first consumer; one in a store buffer or a dirty cache line is met as it comes. -/
inductive Upset where
  /-- a register of thread or block `own` comes to hold an uncorrectable error; `n` is the sheaf of an h-register, and the 64-byte segment of a
  t-register -/
  | register (file : RegFile) (own n r : Nat)
  /-- a 64-byte segment of an array's accumulator row -/
  | accumulator (arr : Nat) (row seg : Nat)
  /-- the code word of a SIMT core's scratchpad that holds a byte -/
  | scratchpad (core : Nat) (addr : Nat)
  /-- the same of a tile group's scratchpad -/
  | groupScratchpad (group : Nat) (addr : Nat)
  /-- an entry of a contained block's store buffer -/
  | buffer (block : Nat) (line : Nat)
  | dirtyLine (core : Nat) (line : Nat)
  /-- a dirty line of an application core's L2 -/
  | hartLine (h : Nat) (line : Nat)
  /-- the stored form of a line in the Mere, with its owner field or without -/
  | mereLine (line : Nat) (unreadable : Bool)
  | carvedLine (line : Nat)
  /-- a line of LPDDR6 -/
  | dram (line : Nat)
  /-- an error that the code of a unit corrects, by its SOURCE -/
  | corrected (source : Nat)
  /-- a self-check of the island fails (R493) -/
  | island
  deriving DecidableEq, Repr

/-- One entry of the schedule: which party moves next, or what the outside world does (log entry 2). -/
inductive Activity where
  /-- scheduler `sched` of SIMT core u, or the AS (0) or XS (1) of tile core 64 + m, issues (R53) -/
  | issue (core : Nat) (sched : Nat)
  /-- a named gang of a thread issues -/
  | issueAt (t : Nat) (gang : BitVec 8)
  /-- the front end dequeues the next word of a stream, if it is that stream's turn (R306) -/
  | front (k : Nat)
  /-- the front end of a stream dequeues a word of the stream whose turn it is (R306) -/
  | serve (k : Nat)
  | hart (h : Nat)
  | event (i : Instr)
  /-- device time passes -/
  | tick (ns : Nat)
  /-- a line leaves an L1 (R237) -/
  | evict (core : Nat) (line : Nat)
  /-- a translation or a handle copy leaves its structure (R410, R415) -/
  | drop (n : Nat)
  | dropHandle (n : Nat)
  /-- hart 0's software starts another hart (R507) -/
  | startHart (h : Nat) (pc : W64)
  | upset (u : Upset)
  deriving DecidableEq, Repr, Inhabited

end Sys2Proof
end

