-- ==== Sys2Proof/Config.lean ====
section
/-! DEFINITION. What an implementation fixes and the values the manual leaves open. -/

namespace Sys2Proof.Config

/-- A value the manual calls undefined or does not state (R6): nothing constrains it.
`clock` counts the steps of the run and `tag` tells apart the values that one step needs (log entry 3). -/
opaque free (clock tag : Nat) : W64

/-- Which of the results within two units of the last place EXP2, LOG2, SIN and COS give (R112): the operation, the operand
and the number of candidates choose; the answer is taken modulo that number (log entry 9). -/
opaque transcendental (op : Nat) (x : W32) (n : Nat) : Nat

/-- The LPDDR6 channel that the hash of R401 gives a physical line; taken modulo the channels (log entry 10). -/
opaque channel (line : Nat) : Nat

/-- Whether a power cluster lies in quarter k of its course's length, of which R485 speaks and which no rule maps (log entry 11). -/
opaque inQuarter (cluster k : Nat) : Bool

/-- Which of the slots that still fit the first stage of a compilation gives an ordered pair of cores on a gutter; the answer is taken modulo
their number (R438, log entry 12). -/
opaque firstSlot (clock pair : Nat) (west : Bool) : Nat

/-- The check word that a save computes over the rest of a header (R374, R375): the manual gives no formula (log entry 52). -/
opaque headerCheck (bytes : List Byte) : W64

/-- What moves next once the agenda of the state is empty: which party acts and what the outside world does, at each step (log entry 2). -/
opaque schedule (clock : Nat) : Activity

/-- How many steps the schedule has between two entries of the fixed round of issuing and serving parties, by the number of the entry: some
number, so that every party's turn comes (R52, R53, R306; log entry 2). -/
opaque gap (n : Nat) : Nat

end Sys2Proof.Config
end

