-- ==== Sys2Proof/Decode.lean ====
section
/-! DEFINITION. From words to instructions and back: Lerzil words (R65-R85), engine words (R86, R87) and the LZ words (R496). -/

namespace Sys2Proof

/-! ## Fields and codes -/

/-- Reading a field either succeeds or names the lowest bit of the offending field (R233). -/
abbrev Dec (α : Type) := Except Nat α

/-- Goes on when `b` holds; otherwise the field whose lowest bit is `bit` offends. -/
def need (b : Bool) (bit : Nat) : Dec Unit := if b then .ok () else .error bit

/-- A field that must be zero (R70). -/
def zero {n : Nat} (f : BitVec n) (bit : Nat) : Dec Unit := need (f == 0#n) bit

/-- The value a field codes, from the list of its values in code order; a code beyond the list is reserved. -/
def pick {α : Type} (l : List α) (n : Nat) (bit : Nat) : Dec α :=
  match l[n]? with
  | some x => .ok x
  | none => .error bit

def allAddForm : List AddForm := [.w32, .w64, .ss, .us]
def allCmpForm : List CmpForm := [.s32, .u32, .s64, .u64]
def allAbsForm : List AbsForm := [.w32, .w64, .ss, .ss64]
def allICond : List ICond := [.eq, .ne, .lt, .le, .gt, .ge]
def allFCond : List FCond := [.eq, .ne, .lt, .le, .gt, .ge, .un, .ord]
def allComb : List Comb := [.write, .and, .or]
def allHKind : List HKind := [.len, .attr, .base]
def allRm2 : List Rm2 := [.rne, .rtz, .dyn]
def allRm3 : List Rm3 :=
  [.mode .rne, .mode .rtz, .mode .rdn, .mode .rup, .mode .rmm, .mode .stoch, .dyn]
def allFTy : List FTy := [.f32, .f16, .bf16]
def allF8 : List F8 := [.e4, .e5]
def allFNarrow : List FNarrow := [.e4, .e5, .f4]
def allITy : List ITy := [.i32, .ui32, .i64, .ui64]
def allSgnOp : List SgnOp := [.cpy, .neg, .xor]
def allShflMode : List ShflMode := [.idx, .up, .dn, .bfly]
def allRedOp : List RedOp := [.add, .smin, .smax, .umin, .umax, .and, .or, .xor]
def allSize : List Size := [.b8, .b16, .b32, .b64, .b128]
def allMScope : List MScope := [.warp, .block, .core, .device, .system]
def allSem : List Sem := [.plain, .acqrel, .both]
def allAOp : List AOp :=
  [.add, .and, .or, .xor, .smin, .smax, .umin, .umax, .xchg, .cas, .incw, .bfadd, .fadd]
def allFenceKind : List FenceKind := [.full, .rel, .acq]
def allBarKind : List BarKind := [.blk, .cor, .job]
def allTTy : List TTy := [.f32, .f16, .bf16, .e4, .e5, .f4, .i32, .i8, .i4]
def allTUnOp : List TUnOp := [.mov, .abs, .neg, .relu, .rcp, .rsq, .sqrt, .exp2, .log2, .sin, .cos]
def allTAxis : List TAxis := [.row, .col, .all]
def allTRedOp : List TRedOp := [.add, .max, .min]
def allFillW : List FillW := [.w1, .w2, .w4, .w8]
def allDMax : List DMax := [.d64, .d128, .d256]
def allPushW : List PushW := [.w16, .w32, .w64]
def allScope : List Scope := [.lane, .warp, .sheaf, .block]

/-- The code of a value: its place in the list of the field's values. -/
def code {α : Type} [BEq α] (n : Nat) (l : List α) (x : α) : BitVec n := BitVec.ofNat n (l.idxOf x)

/-- Reads a K and an A field (R71). -/
def srcOf (k : BitVec 2) (a : BitVec 8) : Src :=
  if k = 0 then .vec a else if k = 1 then .scl a else if k = 2 then .cst a else .lit a

def Src.k : Src → BitVec 2
  | .vec _ => 0 | .scl _ => 1 | .cst _ => 2 | .lit _ => 3

def Src.a : Src → BitVec 8
  | .vec a => a | .scl a => a | .cst a => a | .lit a => a

/-- A register destination from DK and D (R68). -/
def dstOf (dk : Bool) (d : BitVec 8) : Dst := if dk then .scl d else .vec d

def Dst.dk : Dst → Bool
  | .vec _ => false | .scl _ => true

def Dst.d : Dst → BitVec 8
  | .vec d => d | .scl d => d

/-- Whether a source may differ from lane to lane. -/
def Src.isVec : Src → Bool
  | .vec _ => true
  | _ => false

def Src.isPort : Src → Bool
  | .scl a => 96 ≤ a.toNat && a.toNat < 112
  | _ => false

def Dst.isVec : Dst → Bool
  | .vec _ => true
  | _ => false

def Dst.isPort : Dst → Bool
  | .scl a => 96 ≤ a.toNat && a.toNat < 112
  | _ => false

/-! ## The six formats (R69) -/

/-- The fields of F-3S. -/
structure F3S where
  fn : BitVec 2
  a3 : BitVec 8
  k3 : BitVec 2
  a2 : BitVec 8
  k2 : BitVec 2
  a1 : BitVec 8
  k1 : BitVec 2
  d : BitVec 8
  deriving DecidableEq, Repr

/-- The fields of F-2S. -/
structure F2S where
  fn : BitVec 12
  a2 : BitVec 8
  k2 : BitVec 2
  a1 : BitVec 8
  k1 : BitVec 2
  d : BitVec 8
  deriving DecidableEq, Repr

/-- The fields of F-M. -/
structure FM where
  fn : BitVec 2
  sz : BitVec 3
  ms : BitVec 3
  sem : BitVec 2
  oc : BitVec 4
  a : BitVec 8
  k : BitVec 2
  hd : BitVec 8
  d : BitVec 8
  deriving DecidableEq, Repr

/-- The fields of F-S. -/
structure FS where
  imm : BitVec 22
  a1 : BitVec 8
  k1 : BitVec 2
  d : BitVec 8
  deriving DecidableEq, Repr

def F3S.pack (f : F3S) : BitVec 40 := f.fn ++ f.a3 ++ f.k3 ++ f.a2 ++ f.k2 ++ f.a1 ++ f.k1 ++ f.d
def F2S.pack (f : F2S) : BitVec 40 := f.fn ++ f.a2 ++ f.k2 ++ f.a1 ++ f.k1 ++ f.d
def FM.pack (f : FM) : BitVec 40 :=
  f.fn ++ f.sz ++ f.ms ++ f.sem ++ f.oc ++ f.a ++ f.k ++ f.hd ++ f.d
def FS.pack (f : FS) : BitVec 40 := f.imm ++ f.a1 ++ f.k1 ++ f.d

/-- Bits [63:24] of a word read as F-3S; bit numbers here are 24 below those of the word. -/
def F3S.of (b : BitVec 40) : F3S :=
  { fn := b.extractLsb' 38 2, a3 := b.extractLsb' 30 8, k3 := b.extractLsb' 28 2,
    a2 := b.extractLsb' 20 8, k2 := b.extractLsb' 18 2, a1 := b.extractLsb' 10 8,
    k1 := b.extractLsb' 8 2, d := b.extractLsb' 0 8 }

def F2S.of (b : BitVec 40) : F2S :=
  { fn := b.extractLsb' 28 12, a2 := b.extractLsb' 20 8, k2 := b.extractLsb' 18 2,
    a1 := b.extractLsb' 10 8, k1 := b.extractLsb' 8 2, d := b.extractLsb' 0 8 }

def FM.of (b : BitVec 40) : FM :=
  { fn := b.extractLsb' 38 2, sz := b.extractLsb' 35 3, ms := b.extractLsb' 32 3,
    sem := b.extractLsb' 30 2, oc := b.extractLsb' 26 4, a := b.extractLsb' 18 8,
    k := b.extractLsb' 16 2, hd := b.extractLsb' 8 8, d := b.extractLsb' 0 8 }

def FS.of (b : BitVec 40) : FS :=
  { imm := b.extractLsb' 18 22, a1 := b.extractLsb' 10 8, k1 := b.extractLsb' 8 2,
    d := b.extractLsb' 0 8 }

/-! ## The header (R66) -/

/-- The header fields as bits. -/
structure RawHdr where
  dk : Bool
  sig : BitVec 3
  wait : BitVec 6
  neg : Bool
  idx : BitVec 3
  scp : BitVec 2
  op : BitVec 8
  deriving DecidableEq, Repr

def RawHdr.pack (r : RawHdr) : BitVec 24 :=
  BitVec.ofBool r.dk ++ r.sig ++ r.wait ++ BitVec.ofBool r.neg ++ r.idx ++ r.scp ++ r.op

def RawHdr.of (b : BitVec 24) : RawHdr :=
  { dk := b.getLsbD 23, sig := b.extractLsb' 20 3, wait := b.extractLsb' 14 6,
    neg := b.getLsbD 13, idx := b.extractLsb' 10 3, scp := b.extractLsb' 8 2,
    op := b.extractLsb' 0 8 }

/-- SIG: 0 names no counter, 1 to 6 name wc0 to wc5, 7 is reserved. -/
def sigOf (s : BitVec 3) : Option (Fin 6) :=
  if h : 1 ≤ s.toNat ∧ s.toNat ≤ 6 then some ⟨s.toNat - 1, by omega⟩ else none

def sigBits : Option (Fin 6) → BitVec 3
  | none => 0
  | some n => BitVec.ofNat 3 (n.val + 1)

def scopeOf (s : BitVec 2) : Scope :=
  if s = 0 then .lane else if s = 1 then .warp else if s = 2 then .sheaf else .block

def Scope.bits : Scope → BitVec 2
  | .lane => 0 | .warp => 1 | .sheaf => 2 | .block => 3

/-- The header as far as it can be read: a reserved SIG reads as none. -/
def RawHdr.hdr (r : RawHdr) : Hdr :=
  { scp := scopeOf r.scp, pr := { neg := r.neg, idx := r.idx }, wait := r.wait, sig := sigOf r.sig }

def Hdr.raw (op : BitVec 8) (h : Hdr) (dk : Bool) : RawHdr :=
  { dk := dk, sig := sigBits h.sig, wait := h.wait, neg := h.pr.neg, idx := h.pr.idx,
    scp := h.scp.bits, op := op }

/-- A whole word from its header and body. -/
def wordOf (op : BitVec 8) (h : Hdr) (dk : Bool) (body : BitVec 40) : W64 :=
  body ++ (h.raw op dk).pack

/-! ## Field checks shared by the descriptions -/

/-- A predicate destination (R67). -/
def pdst (dk : Bool) (d : BitVec 8) : Dec (BitVec 3) := do
  need (!dk) 23
  zero (d.extractLsb' 3 5) 27
  return d.extractLsb' 0 3

def predD (p : BitVec 3) : BitVec 8 := 0#5 ++ p

/-- An instruction without a destination (R70). -/
def noD (dk : Bool) (d : BitVec 8) : Dec Unit := do
  need (!dk) 23
  zero d 24

def noSrc3 (f : F3S) : Dec Unit := do
  zero f.k3 52
  zero f.a3 54

def noSrc2 (f : F2S) : Dec Unit := do
  zero f.k2 42
  zero f.a2 44

def noSrc1S (f : FS) : Dec Unit := do
  zero f.k1 32
  zero f.a1 34

/-- A guard that must be p1-p7 without negation, since it is also the result (R250, R272, R275). -/
def guardResult (h : Hdr) : Dec Unit := need (!h.pr.neg && h.pr.idx != 0) 10

def noGuard (h : Hdr) : Dec Unit := need (!h.pr.neg && h.pr.idx == 0) 10

/-- The memory fields of F-M (R69). -/
def margOf (f : FM) : Dec MArg := do
  let sem ← pick allSem f.sem.toNat 54
  let ms ← pick allMScope f.ms.toNat 56
  let sz ← pick allSize f.sz.toNat 59
  return { sz := sz, ms := ms, sem := sem, oc := f.oc, hd := f.hd, off := srcOf f.k f.a }

def packM (fn : BitVec 2) (d : BitVec 8) (m : MArg) : BitVec 40 :=
  FM.pack { fn := fn, sz := code 3 allSize m.sz, ms := code 3 allMScope m.ms,
            sem := code 2 allSem m.sem, oc := m.oc, a := m.off.a, k := m.off.k, hd := m.hd, d := d }

/-- An F-M word that uses only H, K, A and perhaps FN and D. -/
def bareM (f : FM) : Dec Unit := do
  zero f.oc 50
  zero f.sem 54
  zero f.ms 56
  zero f.sz 59

def offOk (off : W32) : Dec Unit := zero (off.extractLsb' 0 3) 32

/-! ## The primary opcode map (R83) -/

/-- Which group of R82 an opcode belongs to. -/
inductive Group where
  | nop | int | float | lane | mem | fence | ctl | sync | tile | sys
  deriving DecidableEq, Repr

/-- The six formats. -/
inductive Fmt where | f3s | f2s | fl | fm | fb | fs deriving DecidableEq, Repr

/-- A row of the opcode map: the opcode, its format, the scopes it permits and its group. -/
structure OpRow where
  op : Nat
  fmt : Fmt
  scopes : List Scope
  group : Group
  deriving DecidableEq, Repr

def scLWHB : List Scope := [.lane, .warp, .sheaf, .block]
def scLWH : List Scope := [.lane, .warp, .sheaf]
def scLW : List Scope := [.lane, .warp]
def scWHB : List Scope := [.warp, .sheaf, .block]
def scWH : List Scope := [.warp, .sheaf]

/-- Rows for opcodes `lo` to `lo + n - 1` of one kind. -/
def opRows (lo n : Nat) (f : Fmt) (sc : List Scope) (g : Group) : List OpRow :=
  (List.range n).map fun i => { op := lo + i, fmt := f, scopes := sc, group := g }

/-- The map of R83. -/
def opMap : List OpRow :=
  opRows 0x00 1 .fl scLWHB .nop ++
  opRows 0x01 7 .f3s scLWHB .int ++ opRows 0x08 1 .f2s scLWHB .int ++
  opRows 0x10 7 .f3s scLWHB .int ++ opRows 0x17 4 .f2s scLWHB .int ++ opRows 0x1B 1 .f3s scLWHB .int ++
  opRows 0x20 1 .f2s scLWHB .int ++ opRows 0x21 2 .f3s scLWHB .int ++ opRows 0x23 1 .f2s scLWHB .int ++
  opRows 0x24 1 .fl scLWHB .int ++ opRows 0x25 1 .f2s scLWH .int ++ opRows 0x26 1 .f3s scLWHB .int ++
  opRows 0x27 1 .f2s [.lane, .warp, .block] .int ++
  opRows 0x40 7 .f3s scLWHB .float ++ opRows 0x47 2 .f2s scLWHB .float ++
  opRows 0x50 5 .f3s scLWHB .float ++ opRows 0x58 7 .f2s scLWHB .float ++
  opRows 0x60 2 .f3s scLWHB .float ++ opRows 0x64 6 .f2s scLWHB .float ++ opRows 0x6C 2 .f2s scLW .float ++
  opRows 0x70 6 .f2s scWH .lane ++
  opRows 0x80 5 .fm scLWHB .mem ++ opRows 0x85 1 .fs [.block] .mem ++ opRows 0x86 2 .fm scLWHB .mem ++
  opRows 0x90 4 .fm scLWHB .mem ++ opRows 0x94 1 .fs scLWHB .mem ++ opRows 0x95 1 .fs scLWHB .fence ++
  opRows 0xA0 1 .fb scLWHB .ctl ++ opRows 0xA1 1 .f2s scLWHB .ctl ++ opRows 0xA2 1 .fb scLWHB .ctl ++
  opRows 0xA3 1 .f2s scLWHB .ctl ++ opRows 0xA4 1 .fs scLW .ctl ++ opRows 0xA5 1 .fs [.lane] .ctl ++
  opRows 0xA6 1 .fs scLWHB .ctl ++ opRows 0xA7 2 .fb scLW .ctl ++ opRows 0xA9 1 .fs [.lane] .ctl ++
  opRows 0xAA 1 .fs scLW .ctl ++ opRows 0xAB 1 .f2s scLW .ctl ++ opRows 0xAC 1 .fs [.lane] .ctl ++
  opRows 0xAD 1 .fs scLW .ctl ++ opRows 0xAE 1 .fs scLWHB .ctl ++ opRows 0xAF 1 .fb [.lane] .ctl ++
  opRows 0xB0 1 .fs scWHB .sync ++ opRows 0xB1 2 .fs scLWHB .sync ++ opRows 0xB3 1 .fs [.warp] .sync ++
  opRows 0xB4 3 .fs scWHB .sync ++ opRows 0xB7 1 .fm scLW .sync ++ opRows 0xB8 1 .fm scWHB .sync ++
  opRows 0xB9 2 .fs scWHB .sync ++
  opRows 0xC0 2 .fm scLW .tile ++ opRows 0xC2 1 .f2s scLW .tile ++ opRows 0xC3 1 .fs scLW .tile ++
  opRows 0xC4 6 .f3s scLW .tile ++ opRows 0xCA 1 .f2s scLW .tile ++ opRows 0xCB 2 .f3s scLW .tile ++
  opRows 0xCD 4 .f2s scLW .tile ++ opRows 0xD1 2 .f3s scLWH .tile ++ opRows 0xD3 3 .fs scLWHB .tile ++
  opRows 0xE0 2 .fs [.lane] .sys ++ opRows 0xE2 2 .fs scLW .sys ++ opRows 0xE4 1 .f2s [.lane] .sys ++
  opRows 0xE5 1 .fs [.lane] .sys

/-- The row of an opcode, if it is assigned. -/
def opRow (op : Nat) : Option OpRow := opMap.find? fun r => r.op == op

/-! ## Decoding each format -/

def decFL (op : Nat) (h : Hdr) (dk : Bool) (b : BitVec 40) : Dec Instr := do
  let d := b.extractLsb' 0 8
  let lit := b.extractLsb' 8 32
  if op = 0x00 then
    noD dk d
    zero (lit.extractLsb' 16 16) 48
    return .nop h (lit.extractLsb' 0 16)
  else
    return .movl h (dstOf dk d) lit

def dec3S (op : Nat) (h : Hdr) (dk : Bool) (f : F3S) : Dec Instr := do
  let d := dstOf dk f.d
  let a := srcOf f.k1 f.a1
  let b := srcOf f.k2 f.a2
  let c := srcOf f.k3 f.a3
  let fn := f.fn.toNat
  let b0 := f.fn.getLsbD 0
  let b1 := f.fn.getLsbD 1
  match op with
  | 0x01 => noSrc3 f; return .iadd h (← pick allAddForm fn 62) d a b
  | 0x02 => noSrc3 f; return .isub h (← pick allAddForm fn 62) d a b
  | 0x03 => noSrc3 f; return .imul h (← pick allAddForm fn 62) d a b
  | 0x04 => noSrc3 f; return .imulhi h (← pick allCmpForm fn 62) d a b
  | 0x05 => return .imad h (← pick allAddForm fn 62) d a b c
  | 0x06 => noSrc3 f; return .imin h (← pick allCmpForm fn 62) d a b
  | 0x07 => noSrc3 f; return .imax h (← pick allCmpForm fn 62) d a b
  | 0x10 => noSrc3 f; return .and h b0 b1 d a b
  | 0x11 => noSrc3 f; return .or h b0 b1 d a b
  | 0x12 => noSrc3 f; return .xor h b0 b1 d a b
  | 0x13 => noSrc3 f; return .shl h b0 b1 d a b
  | 0x14 => noSrc3 f; return .shr h b0 b1 d a b
  | 0x15 => return .bfx h b0 b1 d a b c
  | 0x16 => need (!b1) 63; return .bfi h b0 d a b c
  | 0x1B => noSrc3 f; return .clmul h b1 b0 d a b
  | 0x21 =>
    zero f.k3 52
    need (!(f.a3.getLsbD 3 && f.a3.extractLsb' 0 3 == 0#3)) 57
    zero (f.a3.extractLsb' 4 4) 58
    need (!b1) 63
    return .sel h b0 d a b (f.a3.getLsbD 3) (f.a3.extractLsb' 0 3)
  | 0x22 =>
    let p ← pdst dk f.d
    zero f.k1 32
    zero (f.a1.extractLsb' 3 5) 37
    zero f.k2 42
    zero (f.a2.extractLsb' 3 5) 47
    need (f.k3 == 3#2) 52
    zero (f.a3.extractLsb' 4 4) 58
    zero f.fn 62
    return .plop h p (f.a1.extractLsb' 0 3) (f.a2.extractLsb' 0 3) (f.a3.extractLsb' 0 4)
  | 0x26 => noSrc3 f; return .lea h f.fn d a b
  | 0x40 => noSrc3 f; return .fadd h (← pick allRm2 fn 62) d a b
  | 0x41 => noSrc3 f; return .fsub h (← pick allRm2 fn 62) d a b
  | 0x42 => noSrc3 f; return .fmul h (← pick allRm2 fn 62) d a b
  | 0x43 => return .ffma h (← pick allRm2 fn 62) d a b c
  | 0x44 => noSrc3 f; zero f.fn 62; return .fmin h d a b
  | 0x45 => noSrc3 f; zero f.fn 62; return .fmax h d a b
  | 0x46 => noSrc3 f; return .fsgn h (← pick allSgnOp fn 62) d a b
  | 0x50 => noSrc3 f; return .hadd2 h b0 b1 d a b
  | 0x51 => noSrc3 f; return .hmul2 h b0 b1 d a b
  | 0x52 => return .hfma2 h b0 b1 d a b c
  | 0x53 => noSrc3 f; need (!b1) 63; return .hmin2 h b0 d a b
  | 0x54 => noSrc3 f; need (!b1) 63; return .hmax2 h b0 d a b
  | 0x60 => return .dot2 h b0 b1 d a b c
  | 0x61 => return .dot4 h (if b0 then .e5 else .e4) (if b1 then .e5 else .e4) d a b c
  | 0xC4 => need (!dk) 23; noSrc3 f; need (f.fn != 3#2) 62; return .tadd h f.fn f.d a b
  | 0xC5 => need (!dk) 23; noSrc3 f; need (f.fn != 3#2) 62; return .tsub h f.fn f.d a b
  | 0xC6 => need (!dk) 23; noSrc3 f; need (f.fn != 3#2) 62; return .tmul h f.fn f.d a b
  | 0xC7 => need (!dk) 23; need (f.fn != 3#2) 62; return .tfma h f.fn f.d a b c
  | 0xC8 => need (!dk) 23; noSrc3 f; zero f.fn 62; return .tmin h f.d a b
  | 0xC9 => need (!dk) 23; noSrc3 f; zero f.fn 62; return .tmax h f.d a b
  | 0xCB =>
    need (!dk) 23
    need (f.k3 == 3#2) 52
    let cond ← pick allFCond f.a3.toNat 54
    need (!b1) 63
    return .tcmp h cond b0 f.d a b
  | 0xCC =>
    need (!dk) 23
    zero f.k3 52
    zero f.fn 62
    return .tsel h f.d a b f.a3
  | 0xD1 =>
    need (!dk) 23
    need (f.k1 != 0#2) 32
    need (f.k2 != 0#2) 42
    need (f.k3 == 3#2) 52
    zero (f.a3.extractLsb' 2 6) 56
    need (f.fn != 3#2) 62
    return .accrd h (f.a3.getLsbD 0) (f.a3.getLsbD 1) f.fn f.d a b
  | _ =>
    need (!dk) 23
    need (f.k1 != 0#2) 32
    need (f.k2 != 0#2) 42
    need (f.k3 == 3#2) 52
    zero (f.a3.extractLsb' 1 7) 55
    zero f.fn 62
    return .accwr h (f.a3.getLsbD 0) f.d a b

def dec2S (op : Nat) (h : Hdr) (dk : Bool) (f : F2S) : Dec Instr := do
  let d := dstOf dk f.d
  let a := srcOf f.k1 f.a1
  let b := srcOf f.k2 f.a2
  let fn (lo n : Nat) := (f.fn.extractLsb' lo n).toNat
  let bit (i : Nat) := f.fn.getLsbD i
  match op with
  | 0x08 =>
    noSrc2 f
    zero (f.fn.extractLsb' 2 10) 54
    return .iabs h (← pick allAbsForm (fn 0 2) 52) d a
  | 0x17 => noSrc2 f; zero (f.fn.extractLsb' 1 11) 53; return .popc h (bit 0) d a
  | 0x18 => noSrc2 f; zero (f.fn.extractLsb' 1 11) 53; return .clz h (bit 0) d a
  | 0x19 => noSrc2 f; zero (f.fn.extractLsb' 1 11) 53; return .ctz h (bit 0) d a
  | 0x1A => noSrc2 f; zero (f.fn.extractLsb' 1 11) 53; return .brev h (bit 0) d a
  | 0x20 =>
    let p ← pdst dk f.d
    let c ← pick allICond (fn 0 3) 52
    let k ← pick allComb (fn 5 2) 57
    zero (f.fn.extractLsb' 7 5) 59
    return .icmp h c (bit 3) (bit 4) k p a b
  | 0x23 => noSrc2 f; zero (f.fn.extractLsb' 1 11) 53; return .mov h (bit 0) d a
  | 0x25 =>
    need dk 23
    zero f.k1 32
    if bit 1 then noSrc2 f
    zero (f.fn.extractLsb' 2 10) 54
    return .movs h (bit 0) (bit 1) f.d f.a1 b
  | 0x27 =>
    noSrc2 f
    let k ← pick allHKind (fn 0 2) 52
    zero (f.fn.extractLsb' 2 10) 54
    return .hinfo h k d a
  | 0x47 =>
    let p ← pdst dk f.d
    let c ← pick allFCond (fn 0 3) 52
    zero (f.fn.extractLsb' 3 2) 55
    let k ← pick allComb (fn 5 2) 57
    zero (f.fn.extractLsb' 7 5) 59
    return .fcmp h c k p a b
  | 0x48 =>
    noSrc2 f
    let t ← pick allFTy (fn 0 2) 52
    need (!(bit 2 && t == .f32)) 54
    zero (f.fn.extractLsb' 3 9) 55
    return .fclass h t (bit 2) d a
  | 0x58 => noSrc2 f; zero f.fn 52; return .rcp h d a
  | 0x59 => noSrc2 f; zero f.fn 52; return .rsq h d a
  | 0x5A => noSrc2 f; zero f.fn 52; return .sqrt h d a
  | 0x5B => noSrc2 f; zero f.fn 52; return .exp2 h d a
  | 0x5C => noSrc2 f; zero f.fn 52; return .log2 h d a
  | 0x5D => noSrc2 f; zero f.fn 52; return .sin h d a
  | 0x5E => noSrc2 f; zero f.fn 52; return .cos h d a
  | 0x64 =>
    let pk := bit 8
    if !pk then noSrc2 f
    let rm ← pick allRm3 (fn 0 3) 52
    let src ← pick allFTy (fn 3 2) 55
    let dst ← pick allFTy (fn 5 2) 57
    need (!(dst == .f32 && rm != .mode .rne)) 52
    need (dst != src) 57
    need (!(bit 7 && src == .f32)) 59
    need (!(pk && (src != .f32 || dst == .f32))) 60
    zero (f.fn.extractLsb' 9 3) 61
    return .cvtf h pk (bit 7) dst src rm d a b
  | 0x65 =>
    noSrc2 f
    let rm ← pick allRm3 (fn 0 3) 52
    need (rm != .mode .stoch) 52
    let fty ← pick allFTy (fn 3 2) 55
    let ity ← pick allITy (fn 5 2) 57
    need (!(bit 7 && fty == .f32)) 59
    zero (f.fn.extractLsb' 8 4) 60
    return .cvtfi h (bit 7) ity fty rm d a
  | 0x66 =>
    noSrc2 f
    let rm ← pick allRm3 (fn 0 3) 52
    need (rm != .mode .stoch) 52
    let fty ← pick allFTy (fn 3 2) 55
    let ity ← pick allITy (fn 5 2) 57
    zero (f.fn.extractLsb' 7 5) 59
    return .cvtif h ity fty rm d a
  | 0x67 =>
    let unpk := bit 7
    if unpk then noSrc2 f
    let rm ← pick allRm3 (fn 0 3) 52
    need (!(unpk && rm != .mode .rne)) 52
    need (!(unpk && bit 4)) 56
    zero (f.fn.extractLsb' 8 4) 60
    return .cvt8 h unpk (f.fn.extractLsb' 5 2) (bit 4) (if bit 3 then .e5 else .e4) rm d a b
  | 0x68 =>
    let unpk := bit 8
    if unpk then noSrc2 f
    let rm ← pick allRm3 (fn 0 3) 52
    need (!(unpk && rm != .mode .rne)) 52
    zero (f.fn.extractLsb' 3 1) 55
    zero (f.fn.extractLsb' 4 1) 56
    zero (f.fn.extractLsb' 9 3) 61
    return .cvt4 h unpk (f.fn.extractLsb' 5 3) rm d a b
  | 0x69 =>
    let unpk := bit 8
    let rm ← pick allRm3 (fn 0 3) 52
    need (!(unpk && rm == .mode .stoch)) 52
    zero (f.fn.extractLsb' 3 2) 55
    let t ← pick allFNarrow (fn 6 2) 58
    need (!(bit 5 && (t == .f4 || unpk))) 57
    zero (f.fn.extractLsb' 9 3) 61
    return .cvtw h unpk t (bit 5) rm d a b
  | 0x6C => noD dk f.d; noSrc2 f; zero f.fn 52; return .rseed h a
  | 0x6D =>
    zero f.k1 32
    zero f.a1 34
    noSrc2 f
    zero (f.fn.extractLsb' 0 1) 52
    zero (f.fn.extractLsb' 7 5) 59
    return .rnext h (f.fn.extractLsb' 2 5) (bit 1) d
  | 0x70 =>
    let mode ← pick allShflMode (fn 0 2) 52
    need (fn 3 4 ≤ 9) 55
    zero (f.fn.extractLsb' 7 5) 59
    return .shfl h mode (f.fn.extractLsb' 3 4) (bit 2) d a b
  | 0x71 =>
    need (h.scp != .warp || f.fn.extractLsb' 0 4 == 0#4) 52
    zero (f.fn.extractLsb' 4 8) 56
    return .perm h (f.fn.extractLsb' 0 4) d a b
  | 0x72 =>
    let pd ← if dk then pure (PDst.scl f.d) else (do let p ← pdst dk f.d; return PDst.pred p)
    need (!(fn 0 2 == 2 && !dk)) 23
    let k ← if fn 0 2 = 3 then pure (VoteKind.uni (bit 2) a)
      else (do
        zero f.k1 32
        zero (f.a1.extractLsb' 3 5) 37
        need (!bit 2) 54
        let p := f.a1.extractLsb' 0 3
        return if fn 0 2 = 0 then VoteKind.all p else if fn 0 2 = 1 then .any p else .ballot p)
    noSrc2 f
    zero (f.fn.extractLsb' 3 9) 55
    return .vote h k pd
  | 0x73 =>
    noSrc2 f
    let op ← pick allRedOp (fn 0 3) 52
    need (!bit 4) 56
    zero (f.fn.extractLsb' 5 7) 57
    return .xred h op (bit 3) d a
  | 0x74 =>
    need (!dk) 23
    noSrc2 f
    let op ← pick allRedOp (fn 0 3) 52
    zero (f.fn.extractLsb' 5 7) 57
    return .xscan h op (bit 3) (bit 4) f.d a
  | 0x75 =>
    need (!dk) 23
    need (f.k2 == 1#2) 42
    need (f.a2 != 0#8 && f.a2.toNat < 96) 44
    zero (f.fn.extractLsb' 1 11) 53
    return .xadd h (bit 0) f.d a f.a2
  | 0xA1 =>
    noD dk f.d
    noSrc2 f
    need (h.scp == .lane || f.fn.extractLsb' 0 8 == 0#8) 52
    zero (f.fn.extractLsb' 8 4) 60
    return .brx h (f.fn.extractLsb' 0 8) a
  | 0xA3 => noD dk f.d; noSrc2 f; zero f.fn 52; return .ret h a
  | 0xAB => noD dk f.d; noSrc2 f; zero f.fn 52; return .setpl h a
  | 0xC2 =>
    need (!dk) 23
    zero f.k1 32
    zero f.a1 34
    noSrc2 f
    zero f.fn 52
    return .tzero h f.d
  | 0xCA =>
    need (!dk) 23
    noSrc2 f
    let op ← pick allTUnOp (fn 0 4) 52
    need (fn 4 2 != 3) 56
    zero (f.fn.extractLsb' 6 6) 58
    return .tun h op (f.fn.extractLsb' 4 2) f.d a
  | 0xCD =>
    let axis ← pick allTAxis (fn 0 2) 52
    let op ← pick allTRedOp (fn 2 2) 54
    need (!(dk && axis != .all)) 23
    need (f.k1 == 0#2) 32
    noSrc2 f
    need (fn 4 2 != 3 && (op == .add || fn 4 2 == 0)) 56
    zero (f.fn.extractLsb' 6 6) 58
    return .tred h op axis (f.fn.extractLsb' 4 2) d a
  | 0xCE =>
    need (!dk) 23
    let axis ← pick allTAxis (fn 0 2) 52
    need (axis == .all || f.k1 == 0#2) 32
    noSrc2 f
    zero (f.fn.extractLsb' 2 10) 54
    return .tbc h axis f.d a
  | 0xCF =>
    need (!dk) 23
    zero f.k1 32
    noSrc2 f
    zero f.fn 52
    return .ttr h f.d f.a1
  | 0xD0 =>
    need (!dk) 23
    zero f.k1 32
    noSrc2 f
    let src ← pick allTTy (fn 0 4) 52
    let rm ← pick allRm3 (fn 4 3) 56
    zero (f.fn.extractLsb' 8 4) 60
    return .tcvt h src (bit 7) rm f.d f.a1
  | _ =>
    noD dk f.d
    need (fn 0 2 != 3) 52
    need (!(bit 2 && fn 0 2 != 0)) 54
    zero (f.fn.extractLsb' 3 9) 55
    if fn 0 2 = 0 then
      return .tlbinvVa h (bit 2) a b
    else if fn 0 2 = 1 then
      zero f.k1 32
      zero f.a1 34
      return .tlbinvCtx h b
    else
      zero f.k1 32
      zero f.a1 34
      noSrc2 f
      return .tlbinvVi h

def decFM (op : Nat) (h : Hdr) (dk : Bool) (f : FM) : Dec Instr := do
  let d := dstOf dk f.d
  let b0 := f.fn.getLsbD 0
  let b1 := f.fn.getLsbD 1
  let off := srcOf f.k f.a
  let acode := (f.d.extractLsb' 0 2).toNat * 4 + f.fn.toNat
  let grp : AGrp := { scl := dk, n := f.d.extractLsb' 2 6 }
  match op with
  | 0x80 =>
    let m ← margOf f
    need (m.sem != .both) 54
    need (!(b0 && (m.sz == .b64 || m.sz == .b128))) 62
    need (!b1) 63
    return .ld h b0 d m
  | 0x81 => let m ← margOf f; need (m.sem != .both) 54; zero f.fn 62; return .st h d m
  | 0x82 =>
    guardResult h
    let m ← margOf f
    need (m.sem != .both) 54
    need (!(b0 && (m.sz == .b64 || m.sz == .b128))) 62
    need (!b1) 63
    return .ldpoll h b0 d m
  | 0x83 => noD dk f.d; bareM f; need (!b1) 62; return .pref h b0 f.hd off
  | 0x84 =>
    noD dk f.d
    zero f.oc 50
    zero f.sem 54
    need (f.ms == 3#3 || f.ms == 4#3) 56
    zero f.sz 59
    need (!b1) 62
    return .cctl h b0 (f.ms == 4#3) f.hd off
  | 0x86 =>
    let m ← margOf f
    need (m.sem != .both) 54
    need (!(b0 && (m.sz == .b64 || m.sz == .b128))) 62
    need (!b1) 63
    return .ldsp h b0 d m
  | 0x87 => let m ← margOf f; need (m.sem != .both) 54; zero f.fn 62; return .stsp h d m
  | 0x90 =>
    let o ← pick allAOp acode 24
    need (!(dk && 16 ≤ grp.n.toNat)) 26
    let m ← margOf f
    need (m.sz == .b32 || m.sz == .b64) 59
    need (!(o == .fadd && m.sz == .b64)) 59
    if o == .bfadd then guardResult h
    return .atom h o grp m
  | 0x91 =>
    let m ← margOf f
    need (m.sem != .both) 54
    need (m.ms == .device || m.ms == .system) 56
    need (m.sz == .b32 || m.sz == .b64) 59
    zero f.fn 62
    return .ldres h d m
  | 0x92 =>
    guardResult h
    let m ← margOf f
    need (m.sem != .both) 54
    need (m.ms == .device || m.ms == .system) 56
    need (m.sz == .b32 || m.sz == .b64) 59
    zero f.fn 62
    return .stcond h d m
  | 0x93 =>
    let o ← pick allAOp acode 24
    need (o != .xchg && o != .cas && o != .bfadd) 24
    need (!(dk && 16 ≤ grp.n.toNat)) 26
    let m ← margOf f
    need (m.sem != .both) 54
    need (m.sz == .b32 || m.sz == .b64) 59
    need (!(o == .fadd && m.sz == .b64)) 59
    return .red h o grp m
  | 0xB7 => need dk 23; bareM f; zero f.fn 62; return .dfree h f.d f.hd off
  | 0xB8 =>
    need dk 23
    need (f.d.toNat % 2 == 0 && 2 ≤ f.d.toNat && f.d.toNat ≤ 62) 24
    bareM f
    need (!b1) 62
    return if b0 then .subSub h f.d f.hd off else .subPub h f.d f.hd off
  | _ =>
    need (!dk) 23
    let m ← margOf f
    need (m.sz == .b8) 59
    need (!(b0 && f.k != 1#2)) 40
    need (!(b0 && (f.a.toNat % 2 != 0 || f.a.toNat < 2 || 62 < f.a.toNat))) 42
    need (!b1) 63
    return if op = 0xC0 then .tld h b0 f.d m else .tst h b0 f.d m

def decFB (op : Nat) (h : Hdr) (dk : Bool) (b : BitVec 40) : Dec Instr := do
  let fn := b.extractLsb' 0 8
  let off := b.extractLsb' 8 32
  need (!dk) 23
  match op with
  | 0xA0 =>
    need (h.scp == .lane || fn.toNat ≤ 1) 24
    offOk off
    return .bra h fn off
  | 0xA2 =>
    if fn.getLsbD 7 then
      need (fn.extractLsb' 0 6 != 0#6) 24
      need (!fn.getLsbD 6) 30
      offOk off
      return .call h (.scl (fn.extractLsb' 0 6)) off
    else
      need (h.scp != .block) 24
      offOk off
      return .call h (.pair (fn.extractLsb' 0 7)) off
  | 0xA7 =>
    let w := fn.extractLsb' 0 3
    need (w != 7#3) 24
    zero (fn.extractLsb' 3 5) 27
    offOk off
    return match sigOf w with
      | none => .yield h off
      | some c => .yieldC h c off
  | 0xA8 =>
    zero (fn.extractLsb' 4 4) 28
    offOk off
    let p := fn.extractLsb' 1 3
    return if fn.getLsbD 0 then .spawnW h p off else .spawn h p off
  | _ =>
    zero (fn.extractLsb' 1 7) 25
    offOk off
    return .brq h (fn.getLsbD 0) off

def decFS (op : Nat) (h : Hdr) (dk : Bool) (f : FS) : Dec Instr := do
  let a := srcOf f.k1 f.a1
  let im (lo n : Nat) := f.imm.extractLsb' lo n
  match op with
  | 0x85 => noD dk f.d; noSrc1S f; zero f.imm 42; return .commit h
  | 0x94 => noD dk f.d; noSrc1S f; zero f.imm 42; return .redflush h
  | 0x95 =>
    noD dk f.d
    noSrc1S f
    need (im 0 16 != 0#16) 42
    let ms ← pick allMScope (im 16 3).toNat 58
    let k ← pick allFenceKind (im 19 2).toNat 61
    zero (im 21 1) 63
    return .cfence h k ms (im 0 16)
  | 0xA4 =>
    noD dk f.d
    need (f.k1 != 0#2) 32
    zero (im 16 6) 58
    return .loop h (im 0 16) a
  | 0xA5 =>
    noGuard h
    noD dk f.d
    noSrc1S f
    zero (im 8 14) 50
    return .regang h (im 0 8)
  | 0xA6 =>
    let p ← pdst dk f.d
    noSrc1S f
    need (im 0 3 != 7#3) 42
    need ((im 0 3 == 0#3) == (im 3 8 == 0#8)) 45
    zero (im 11 11) 53
    return .elect h p (sigOf (im 0 3)) (im 3 8)
  | 0xA9 => noD dk f.d; noSrc1S f; zero f.imm 42; return .exit h
  | 0xAA => noD dk f.d; noSrc1S f; zero (im 16 6) 58; return .svc h (im 0 16)
  | 0xAC =>
    noD dk f.d
    need ((im 8 9).toNat ≤ 256) 50
    zero (im 17 5) 59
    return .ckpt h (im 0 8) (im 8 9) a
  | 0xAD => noD dk f.d; noSrc1S f; zero (im 5 17) 47; return .setsh h ((im 4 1) == 1#1) (im 0 4)
  | 0xAE => noD dk f.d; noSrc1S f; zero (im 16 6) 58; return .trap h (im 0 16)
  | 0xB0 =>
    noGuard h
    noD dk f.d
    noSrc1S f
    let k ← pick allBarKind (im 0 2).toNat 42
    need (k == .blk || (im 2 4).toNat < (if k == .cor then 8 else 4)) 44
    zero (im 8 14) 50
    let n := im 2 4
    if im 6 2 = 0 then return .barSync h k n
    else if im 6 2 = 1 then return .barArv h k n
    else
      need (im 6 2 == 2#2) 48
      return .barWt h k n
  | 0xB1 =>
    noD dk f.d
    noSrc1S f
    if im 4 2 = 0 then
      need (im 6 8 != 0#8) 48
      zero (im 14 8) 56
      return .sempPost h (im 0 4) (im 6 8)
    else
      need (im 4 2 == 1#2) 46
      need ((im 6 8).toNat ≤ (im 14 8).toNat) 48
      need (im 14 8 != 0#8) 56
      return .sempInit h (im 0 4) (im 6 8) (im 14 8)
  | 0xB2 =>
    noSrc1S f
    zero (im 14 8) 56
    if im 4 2 = 0 then
      noD dk f.d
      need (im 6 8 != 0#8) 48
      return .semwWait h (im 0 4) (im 6 8)
    else if im 4 2 = 1 then
      let p ← pdst dk f.d
      need (im 6 8 != 0#8) 48
      return .semwTry h p (im 0 4) (im 6 8)
    else
      need (im 4 2 == 2#2) 46
      need dk 23
      zero (im 6 8) 48
      return .semwRd h f.d (im 0 4)
  | 0xB3 =>
    noGuard h
    noD dk f.d
    noSrc1S f
    zero (im 1 21) 43
    return if im 0 1 = 1 then .rsectExit h else .rsectEnter h
  | 0xB4 => noGuard h; need dk 23; noSrc1S f; zero f.imm 42; return .gpstart h f.d
  | 0xB5 => noGuard h; noD dk f.d; zero f.imm 42; return .gpwait h a
  | 0xB6 =>
    noGuard h
    let p ← pdst dk f.d
    zero f.imm 42
    return .gptest h p a
  | 0xB9 =>
    noD dk f.d
    noSrc1S f
    need (!(im 4 1 == 1#1 && im 0 4 != 0#4)) 42
    zero (im 5 17) 47
    return .unsub h (im 4 1 == 1#1) (im 0 4)
  | 0xBA =>
    noD dk f.d
    noSrc1S f
    need (!(im 4 1 == 1#1 && im 0 4 != 0#4)) 42
    zero (im 5 17) 47
    return .subflush h (im 4 1 == 1#1) (im 0 4)
  | 0xC3 =>
    noD dk f.d
    if im 21 1 = 1 then
      need (f.k1 != 0#2) 32
      zero (im 0 21) 42
      return .tshapeReg h a
    else
      noSrc1S f
      zero (im 16 5) 58
      return .tshapeImm h (im 0 16)
  | 0xD3 =>
    noD dk f.d
    noSrc1S f
    need ((im 0 8).toNat ≤ (im 8 8).toNat) 42
    need (!(im 16 1 == 1#1 && (h.scp == .lane || h.scp == .warp))) 58
    zero (im 17 5) 59
    return .accwin h (im 16 1 == 1#1) (im 0 8) (im 8 8)
  | 0xD4 =>
    noD dk f.d
    noSrc1S f
    need ((im 0 7).toNat ≤ 64) 42
    zero (im 7 15) 49
    return .lease h (im 0 7)
  | 0xD5 => noD dk f.d; noSrc1S f; zero f.imm 42; return .unlease h
  | 0xE0 => noD dk f.d; noSrc1S f; zero f.imm 42; return .xret h
  | 0xE1 =>
    noD dk f.d
    noSrc1S f
    zero (im 1 21) 43
    return if im 0 1 = 1 then .killCtx h else .killBlk h
  | 0xE2 => need dk 23; noSrc1S f; zero (im 8 14) 50; return .srd h f.d (im 0 8)
  | 0xE3 =>
    noD dk f.d
    need (f.k1 != 0#2) 32
    zero (im 8 14) 50
    return .swr h (im 0 8) a
  | _ =>
    noD dk f.d
    if im 9 1 = 0 then noSrc1S f
    need (!(im 8 1 == 1#1 && im 0 8 != 0#8)) 42
    zero (im 10 12) 52
    return .hinv h (im 8 1 == 1#1) (im 0 8) (if im 9 1 = 1 then some a else none)

/-- Reads the body of a word whose opcode is assigned. -/
def decBody (r : OpRow) (h : Hdr) (dk : Bool) (b : BitVec 40) : Dec Instr :=
  match r.fmt with
  | .f3s => dec3S r.op h dk (F3S.of b)
  | .f2s => dec2S r.op h dk (F2S.of b)
  | .fl => decFL r.op h dk b
  | .fm => decFM r.op h dk (FM.of b)
  | .fb => decFB r.op h dk b
  | .fs => decFS r.op h dk (FS.of b)

/-- Why a word is no instruction: its opcode and header, the status register that an SRD or SWR names, whose privilege is checked first
(R81, R226), and the lowest bit of the offending field (R70). -/
structure BadWord where
  op : BitVec 8
  h : Hdr
  reg : Option Nat
  bit : Nat
  deriving DecidableEq, Repr

/-- Any 64-bit word, read as R81 orders it: an unassigned opcode is the illegal-opcode row, an ill-formed word is named by
its offending field. -/
def decode64 (w : W64) : Except BadWord Instr :=
  let r := RawHdr.of (w.extractLsb' 0 24)
  let h := r.hdr
  match opRow r.op.toNat with
  | none => .ok (.illegalOpcode r.op h)
  | some row =>
    let reg : Option Nat := if r.op == 0xE2#8 || r.op == 0xE3#8 then some (w.extractLsb' 42 8).toNat else none
    if r.neg && r.idx == 0#3 then .error { op := r.op, h := h, reg := reg, bit := 10 }
    else if r.sig == 7#3 then .error { op := r.op, h := h, reg := reg, bit := 20 }
    else
      match decBody row h r.dk (w.extractLsb' 24 40) with
      | .ok i => .ok i
      | .error b => .error { op := r.op, h := h, reg := reg, bit := b }

/-! ## Engine words (R86, R87, R307, R343) -/

/-- The words of group `g`, select `sel` (bits [7:5]) and modifiers `m` (bits [4:0]). -/
def decGroup16 (g sel : Nat) (m : BitVec 5) : Option Instr :=
  let r := m.getLsbD 4
  let b0 := m.getLsbD 0
  let b1 := m.getLsbD 1
  let b2 := m.getLsbD 2
  let b3 := m.getLsbD 3
  let low := m.extractLsb' 0 4
  let b := m.extractLsb' 0 3
  let guard (ok : Bool) (i : Instr) : Option Instr := if ok then some i else none
  match g, sel with
  | 1, 0 => guard (low == 0) (.copy1d r)
  | 1, 1 => guard (low == 0) (.copy2d r)
  | 1, 2 => guard (low == 0) (.copy3d r)
  | 1, 3 => guard (!b2 && !b3) (.gather r b1 b0)
  | 1, 4 => guard (!b2 && !b3) (.scatter r b1 b0)
  | 1, 5 => if b2 || b3 then none else (allFillW[(m.extractLsb' 0 2).toNat]?).map (.fill r)
  | 2, 0 => some (.sempost r low)
  | 2, 1 => some (.semwait r low)
  | 2, 2 => guard (m == 0) .note
  | 3, 0 => guard (!b2 && !b3) (.mma r b1 b0)
  | 3, 1 => guard (!b3) (.mmas r b2 b1 b0)
  | 3, 2 => guard (!b2 && !b3) (.mmax r b1 b0)
  | 3, 3 => guard (!b0 && !b2 && !b3) (.accz r b1)
  | 3, 4 => guard (!b3) (.accdrain r b2 b1 b0)
  | 3, 5 => guard (!b2 && !b3) (.accload r b1 b0)
  | 4, 0 => guard (low == 0) (.bvhset r)
  | 4, 1 => guard (low == 0) (.rayhit r)
  | 4, 2 => guard (low == 0) (.rayrad r)
  | 4, 3 => guard (low == 0) (.rayknn r)
  | 5, 0 => guard (low == 0) (.vremap r)
  | 5, 1 => guard (low == 0) (.vpyr r)
  | 5, 2 => if b3 then none else (allDMax[(m.extractLsb' 0 2).toNat]?).map (.vstereo r b2)
  | 5, 3 => guard (!b1 && !b2 && !b3) (.vflow r b0)
  | 5, 4 => guard (low == 0) (.vchain r)
  | 6, 0 => some (.stwr r b3 b)
  | 6, 1 => guard (!b3) (.strd r b)
  | 6, 2 => guard (!b3) (.sflush r b)
  | _, _ => none

/-- Any 16-bit word: a value that names no word is the ENGINE_WORD row (R87). -/
def decode16 (w : W16) : Instr :=
  if w.getLsbD 15 = false then .lit (w.extractLsb' 0 15)
  else if w.getLsbD 14 = false then .litx (w.extractLsb' 0 14)
  else if w.toNat = 0xC000 then .dup
  else if w.toNat = 0xC001 then .drop
  else if w.toNat = 0xC002 then .swap
  else if w.toNat = 0xC003 then .stackOver
  else if w.toNat = 0xC004 then .add
  else if w.toNat = 0xC005 then .mul
  else if w.toNat = 0xC006 then .clr
  else if w.toNat = 0xFFFF then .engineNop
  else if w.extractLsb' 12 4 = 0xC#4 then
    match decGroup16 (w.extractLsb' 8 4).toNat (w.extractLsb' 5 3).toNat (w.extractLsb' 0 5) with
    | some i => i
    | none => .engineWord w
  else .engineWord w

/-- A word of the range 0xC100-0xC6FF. -/
def group16 (g sel : Nat) (m : BitVec 5) : W16 := 0xC#4 ++ BitVec.ofNat 4 g ++ BitVec.ofNat 3 sel ++ m

def mods (r b3 b2 b1 b0 : Bool) : BitVec 5 :=
  BitVec.ofBool r ++ BitVec.ofBool b3 ++ BitVec.ofBool b2 ++ BitVec.ofBool b1 ++ BitVec.ofBool b0

/-- The word of an engine instruction. -/
def encode16 : Instr → Option W16
  | .lit v => some (0#1 ++ v)
  | .litx v => some (2#2 ++ v)
  | .dup => some 0xC000
  | .drop => some 0xC001
  | .swap => some 0xC002
  | .stackOver => some 0xC003
  | .add => some 0xC004
  | .mul => some 0xC005
  | .clr => some 0xC006
  | .engineNop => some 0xFFFF
  | .engineWord w => some w
  | .copy1d r => some (group16 1 0 (mods r false false false false))
  | .copy2d r => some (group16 1 1 (mods r false false false false))
  | .copy3d r => some (group16 1 2 (mods r false false false false))
  | .gather r sc i64 => some (group16 1 3 (mods r false false sc i64))
  | .scatter r sc i64 => some (group16 1 4 (mods r false false sc i64))
  | .fill r w => some (group16 1 5 (BitVec.ofBool r ++ 0#2 ++ code 2 allFillW w))
  | .sempost r s => some (group16 2 0 (BitVec.ofBool r ++ s))
  | .semwait r s => some (group16 2 1 (BitVec.ofBool r ++ s))
  | .note => some (group16 2 2 0)
  | .mma r x4 z => some (group16 3 0 (mods r false false x4 z))
  | .mmas r q x4 z => some (group16 3 1 (mods r false q x4 z))
  | .mmax r x4 z => some (group16 3 2 (mods r false false x4 z))
  | .accz r x4 => some (group16 3 3 (mods r false false x4 false))
  | .accdrain r nosat x4 clr => some (group16 3 4 (mods r false nosat x4 clr))
  | .accload r x4 add => some (group16 3 5 (mods r false false x4 add))
  | .bvhset r => some (group16 4 0 (mods r false false false false))
  | .rayhit r => some (group16 4 1 (mods r false false false false))
  | .rayrad r => some (group16 4 2 (mods r false false false false))
  | .rayknn r => some (group16 4 3 (mods r false false false false))
  | .vremap r => some (group16 5 0 (mods r false false false false))
  | .vpyr r => some (group16 5 1 (mods r false false false false))
  | .vstereo r win7 dmax => some (group16 5 2 (BitVec.ofBool r ++ 0#1 ++ BitVec.ofBool win7 ++ code 2 allDMax dmax))
  | .vflow r b16 => some (group16 5 3 (mods r false false false b16))
  | .vchain r => some (group16 5 4 (mods r false false false false))
  | .stwr r fua b => some (group16 6 0 (BitVec.ofBool r ++ BitVec.ofBool fua ++ b))
  | .strd r b => some (group16 6 1 (BitVec.ofBool r ++ 0#1 ++ b))
  | .sflush r b => some (group16 6 2 (BitVec.ofBool r ++ 0#1 ++ b))
  | _ => none

/-- The ports that accept an engine word (R86); an unnamed word is accepted by none. -/
def Instr.acceptedBy (i : Instr) (port : Nat) : Bool :=
  match i with
  | .lit _ | .litx _ | .dup | .drop | .swap | .stackOver | .add | .mul | .clr | .engineNop
  | .sempost _ _ | .semwait _ _ | .note => port ≤ 5
  | .copy1d _ | .copy2d _ | .copy3d _ | .fill _ _ => port = 0
  | .gather _ _ _ | .scatter _ _ _ => port = 1
  | .bvhset _ | .rayhit _ | .rayrad _ | .rayknn _ => port = 2
  | .mma _ _ _ | .mmas _ _ _ _ | .mmax _ _ _ | .accz _ _ | .accdrain _ _ _ _ | .accload _ _ _ => port = 3
  | .stwr _ _ _ | .strd _ _ | .sflush _ _ => port = 4
  | .vremap _ | .vpyr _ | .vstereo _ _ _ | .vflow _ _ | .vchain _ => port = 5
  | _ => false

/-! ## The LZ words (R496) -/

def portOf (n : BitVec 3) : Option HPort :=
  if n = 0 then some .q0 else if n = 1 then some .q1 else if n = 4 then some .q4
  else if n = 5 then some .q5 else none

def HPort.bits : HPort → BitVec 3
  | .q0 => 0 | .q1 => 1 | .q4 => 4 | .q5 => 5

/-- The fields of a custom-0 word, if it is one of the three instructions. -/
def decCustom0 (f7 : BitVec 7) (rs2 rs1 : BitVec 5) (f3 : BitVec 3) (rd : BitVec 5) : Option Instr :=
  if rs2 ≠ 0 then none
  else if f3 = 0 then
    if f7.extractLsb' 5 2 ≠ 0 || rd ≠ 0 then none
    else do
      let w ← allPushW[(f7.extractLsb' 3 2).toNat]?
      let q ← portOf (f7.extractLsb' 0 3)
      return .lzPush w q rs1
  else if f3 = 1 then
    if f7.extractLsb' 3 4 ≠ 0 || rs1 ≠ 0 then none
    else (portOf (f7.extractLsb' 0 3)).map (fun q => .lzPop q rd)
  else if f3 = 2 then
    if f7.extractLsb' 6 1 ≠ 0 || f7.extractLsb' 2 2 ≠ 0 || rs1 ≠ 0 || rd ≠ 0 then none
    else some (.lzFence (f7.extractLsb' 0 6))
  else none

/-- The fields of a custom-1 word. -/
def decCustom1 (f7 : BitVec 7) (rs2 rs1 : BitVec 5) (f3 : BitVec 3) (rd : BitVec 5) : Option Instr :=
  if rs2 ≠ 0 then none
  else if f3 = 0 then
    if f7.extractLsb' 1 6 ≠ 0 then none else some (.lzSubmit (f7.getLsbD 0) rs1 rd)
  else if f3 = 1 then
    if f7 ≠ 0 || rs1 ≠ 0 then none else some (.lzTime rd)
  else if f3 = 2 then
    if f7.extractLsb' 3 4 ≠ 0 then none
    else (portOf (f7.extractLsb' 0 3)).map (fun q => .lzWaitq q rs1 rd)
  else none

/-- A 32-bit hart word: custom-0 and custom-1 words are LZ instructions or the illegal-instruction row; every other word is
an instruction of the RISC-V base, which the manual does not describe. -/
def decode32 (w : W32) : Option Instr :=
  let f7 := w.extractLsb' 25 7
  let rs2 := w.extractLsb' 20 5
  let rs1 := w.extractLsb' 15 5
  let f3 := w.extractLsb' 12 3
  let rd := w.extractLsb' 7 5
  let op := w.extractLsb' 0 7
  if op = 0x0B then some ((decCustom0 f7 rs2 rs1 f3 rd).getD (.lzIllegalInstruction w))
  else if op = 0x2B then some ((decCustom1 f7 rs2 rs1 f3 rd).getD (.lzIllegalInstruction w))
  else none

def rtype (f7 : BitVec 7) (rs1 : BitVec 5) (f3 : BitVec 3) (rd : BitVec 5) (op : BitVec 7) : W32 :=
  f7 ++ 0#5 ++ rs1 ++ f3 ++ rd ++ op

/-- The word of an LZ instruction. -/
def encode32 : Instr → Option W32
  | .lzPush w q rs1 => some (rtype (0#2 ++ code 2 allPushW w ++ q.bits) rs1 0 0 0x0B)
  | .lzPop q rd => some (rtype (0#4 ++ q.bits) 0 1 rd 0x0B)
  | .lzFence m => some (rtype (0#1 ++ m) 0 2 0 0x0B)
  | .lzSubmit arm rs1 rd => some (rtype (0#6 ++ BitVec.ofBool arm) rs1 0 rd 0x2B)
  | .lzTime rd => some (rtype 0 0 1 rd 0x2B)
  | .lzWaitq q rs1 rd => some (rtype (0#4 ++ q.bits) rs1 2 rd 0x2B)
  | .lzIllegalInstruction w => some w
  | _ => none

/-! ## Encoding Lerzil words -/

def e3 (op : BitVec 8) (h : Hdr) (dk : Bool) (fn : BitVec 2) (d : BitVec 8) (a b c : Src) : Option W64 :=
  some (wordOf op h dk
    (F3S.pack { fn := fn, a3 := c.a, k3 := c.k, a2 := b.a, k2 := b.k, a1 := a.a, k1 := a.k, d := d }))

def e2 (op : BitVec 8) (h : Hdr) (dk : Bool) (fn : BitVec 12) (d : BitVec 8) (a b : Src) : Option W64 :=
  some (wordOf op h dk (F2S.pack { fn := fn, a2 := b.a, k2 := b.k, a1 := a.a, k1 := a.k, d := d }))

def eM (op : BitVec 8) (h : Hdr) (dk : Bool) (fn : BitVec 2) (d : BitVec 8) (m : MArg) : Option W64 :=
  some (wordOf op h dk (packM fn d m))

/-- An F-M word with only H, K, A, D and FN. -/
def eBare (op : BitVec 8) (h : Hdr) (dk : Bool) (fn : BitVec 2) (ms : BitVec 3) (d hd : BitVec 8) (off : Src) :
    Option W64 :=
  some (wordOf op h dk
    (FM.pack { fn := fn, sz := 0, ms := ms, sem := 0, oc := 0, a := off.a, k := off.k, hd := hd, d := d }))

def eB (op : BitVec 8) (h : Hdr) (fn : BitVec 8) (off : W32) : Option W64 :=
  some (wordOf op h false (off ++ fn))

def eS (op : BitVec 8) (h : Hdr) (dk : Bool) (imm : BitVec 22) (d : BitVec 8) (a : Src) : Option W64 :=
  some (wordOf op h dk (FS.pack { imm := imm, a1 := a.a, k1 := a.k, d := d }))

/-- The operand of an unused K and A field. -/
def Src.none : Src := .vec 0

def Src.p (p : BitVec 3) : Src := .vec (0#5 ++ p)

def bit1 (b : Bool) : BitVec 1 := BitVec.ofBool b
def bits2 (b1 b0 : Bool) : BitVec 2 := BitVec.ofBool b1 ++ BitVec.ofBool b0
def acode (o : AOp) : BitVec 4 := code 4 allAOp o

/-- The word of a Lerzil instruction. -/
def encode64 : Instr → Option W64
  | .nop h n => some (wordOf 0x00 h false (0#16 ++ n ++ 0#8))
  | .movl h d lit => some (wordOf 0x24 h d.dk (lit ++ d.d))
  | .iadd h f d a b => e3 0x01 h d.dk (code 2 allAddForm f) d.d a b .none
  | .isub h f d a b => e3 0x02 h d.dk (code 2 allAddForm f) d.d a b .none
  | .imul h f d a b => e3 0x03 h d.dk (code 2 allAddForm f) d.d a b .none
  | .imulhi h f d a b => e3 0x04 h d.dk (code 2 allCmpForm f) d.d a b .none
  | .imad h f d a b c => e3 0x05 h d.dk (code 2 allAddForm f) d.d a b c
  | .imin h f d a b => e3 0x06 h d.dk (code 2 allCmpForm f) d.d a b .none
  | .imax h f d a b => e3 0x07 h d.dk (code 2 allCmpForm f) d.d a b .none
  | .iabs h f d a => e2 0x08 h d.dk (0#10 ++ code 2 allAbsForm f) d.d a .none
  | .and h w n d a b => e3 0x10 h d.dk (bits2 n w) d.d a b .none
  | .or h w n d a b => e3 0x11 h d.dk (bits2 n w) d.d a b .none
  | .xor h w n d a b => e3 0x12 h d.dk (bits2 n w) d.d a b .none
  | .shl h w r d a b => e3 0x13 h d.dk (bits2 r w) d.d a b .none
  | .shr h w r d a b => e3 0x14 h d.dk (bits2 r w) d.d a b .none
  | .bfx h w sg d a b c => e3 0x15 h d.dk (bits2 sg w) d.d a b c
  | .bfi h w d a b c => e3 0x16 h d.dk (bits2 false w) d.d a b c
  | .popc h w d a => e2 0x17 h d.dk (0#11 ++ bit1 w) d.d a .none
  | .clz h w d a => e2 0x18 h d.dk (0#11 ++ bit1 w) d.d a .none
  | .ctz h w d a => e2 0x19 h d.dk (0#11 ++ bit1 w) d.d a .none
  | .brev h w d a => e2 0x1A h d.dk (0#11 ++ bit1 w) d.d a .none
  | .clmul h w hi d a b => e3 0x1B h d.dk (bits2 w hi) d.d a b .none
  | .icmp h c u w k p a b =>
    e2 0x20 h false (0#5 ++ code 2 allComb k ++ bit1 w ++ bit1 u ++ code 3 allICond c) (predD p) a b
  | .sel h w d a b neg p => e3 0x21 h d.dk (bits2 false w) d.d a b (.vec (0#4 ++ bit1 neg ++ p))
  | .plop h p pa pb lut => e3 0x22 h false 0 (predD p) (.p pa) (.p pb) (.lit (0#4 ++ lut))
  | .mov h w d a => e2 0x23 h d.dk (0#11 ++ bit1 w) d.d a .none
  | .movs h w lo d a b => e2 0x25 h true (0#10 ++ bits2 lo w) d (.vec a) b
  | .lea h sc d a b => e3 0x26 h d.dk sc d.d a b .none
  | .hinfo h k d a => e2 0x27 h d.dk (0#10 ++ code 2 allHKind k) d.d a .none
  | .fadd h rm d a b => e3 0x40 h d.dk (code 2 allRm2 rm) d.d a b .none
  | .fsub h rm d a b => e3 0x41 h d.dk (code 2 allRm2 rm) d.d a b .none
  | .fmul h rm d a b => e3 0x42 h d.dk (code 2 allRm2 rm) d.d a b .none
  | .ffma h rm d a b c => e3 0x43 h d.dk (code 2 allRm2 rm) d.d a b c
  | .fmin h d a b => e3 0x44 h d.dk 0 d.d a b .none
  | .fmax h d a b => e3 0x45 h d.dk 0 d.d a b .none
  | .fsgn h o d a b => e3 0x46 h d.dk (code 2 allSgnOp o) d.d a b .none
  | .fcmp h c k p a b =>
    e2 0x47 h false (0#5 ++ code 2 allComb k ++ 0#2 ++ code 3 allFCond c) (predD p) a b
  | .fclass h t hi d a => e2 0x48 h d.dk (0#9 ++ bit1 hi ++ code 2 allFTy t) d.d a .none
  | .hadd2 h bf dyn d a b => e3 0x50 h d.dk (bits2 dyn bf) d.d a b .none
  | .hmul2 h bf dyn d a b => e3 0x51 h d.dk (bits2 dyn bf) d.d a b .none
  | .hfma2 h bf dyn d a b c => e3 0x52 h d.dk (bits2 dyn bf) d.d a b c
  | .hmin2 h bf d a b => e3 0x53 h d.dk (bits2 false bf) d.d a b .none
  | .hmax2 h bf d a b => e3 0x54 h d.dk (bits2 false bf) d.d a b .none
  | .rcp h d a => e2 0x58 h d.dk 0 d.d a .none
  | .rsq h d a => e2 0x59 h d.dk 0 d.d a .none
  | .sqrt h d a => e2 0x5A h d.dk 0 d.d a .none
  | .exp2 h d a => e2 0x5B h d.dk 0 d.d a .none
  | .log2 h d a => e2 0x5C h d.dk 0 d.d a .none
  | .sin h d a => e2 0x5D h d.dk 0 d.d a .none
  | .cos h d a => e2 0x5E h d.dk 0 d.d a .none
  | .dot2 h bf rz d a b c => e3 0x60 h d.dk (bits2 rz bf) d.d a b c
  | .dot4 h fa fb d a b c => e3 0x61 h d.dk (bits2 (fb == .e5) (fa == .e5)) d.d a b c
  | .cvtf h pk hi dst src rm d a b =>
    e2 0x64 h d.dk
      (0#3 ++ bit1 pk ++ bit1 hi ++ code 2 allFTy dst ++ code 2 allFTy src ++ code 3 allRm3 rm) d.d a b
  | .cvtfi h hi ity fty rm d a =>
    e2 0x65 h d.dk (0#4 ++ bit1 hi ++ code 2 allITy ity ++ code 2 allFTy fty ++ code 3 allRm3 rm) d.d a .none
  | .cvtif h ity fty rm d a =>
    e2 0x66 h d.dk (0#5 ++ code 2 allITy ity ++ code 2 allFTy fty ++ code 3 allRm3 rm) d.d a .none
  | .cvt8 h unpk byte nosat t rm d a b =>
    e2 0x67 h d.dk (0#4 ++ bit1 unpk ++ byte ++ bit1 nosat ++ bit1 (t == .e5) ++ code 3 allRm3 rm) d.d a b
  | .cvt4 h unpk nib rm d a b => e2 0x68 h d.dk (0#3 ++ bit1 unpk ++ nib ++ 0#2 ++ code 3 allRm3 rm) d.d a b
  | .cvtw h unpk t nosat rm d a b =>
    e2 0x69 h d.dk (0#3 ++ bit1 unpk ++ code 2 allFNarrow t ++ bit1 nosat ++ 0#2 ++ code 3 allRm3 rm) d.d a b
  | .rseed h a => e2 0x6C h false 0 0 a .none
  | .rnext h j f d => e2 0x6D h d.dk (0#5 ++ j ++ bit1 f ++ 0#1) d.d .none .none
  | .shfl h mode seg w d a b => e2 0x70 h d.dk (0#5 ++ seg ++ bit1 w ++ code 2 allShflMode mode) d.d a b
  | .perm h m d a b => e2 0x71 h d.dk (0#8 ++ m) d.d a b
  | .vote h k pd =>
    let d : BitVec 8 := match pd with | .pred p => predD p | .scl x => x
    let dk : Bool := match pd with | .pred _ => false | .scl _ => true
    match k with
    | .all p => e2 0x72 h dk 0 d (.p p) .none
    | .any p => e2 0x72 h dk 1 d (.p p) .none
    | .ballot p => e2 0x72 h dk 2 d (.p p) .none
    | .uni w a => e2 0x72 h dk (0#9 ++ bit1 w ++ 3#2) d a .none
  | .xred h o w d a => e2 0x73 h d.dk (0#8 ++ bit1 w ++ code 3 allRedOp o) d.d a .none
  | .xscan h o w ex d a => e2 0x74 h false (0#7 ++ bit1 ex ++ bit1 w ++ code 3 allRedOp o) d a .none
  | .xadd h w d a cnt => e2 0x75 h false (0#11 ++ bit1 w) d a (.scl cnt)
  | .ld h sx d m => eM 0x80 h d.dk (bits2 false sx) d.d m
  | .st h d m => eM 0x81 h d.dk 0 d.d m
  | .ldpoll h sx d m => eM 0x82 h d.dk (bits2 false sx) d.d m
  | .pref h mere hd off => eBare 0x83 h false (bits2 false mere) 0 0 hd off
  | .cctl h inv sys hd off => eBare 0x84 h false (bits2 false inv) (if sys then 4 else 3) 0 hd off
  | .commit h => eS 0x85 h false 0 0 .none
  | .ldsp h sx d m => eM 0x86 h d.dk (bits2 false sx) d.d m
  | .stsp h d m => eM 0x87 h d.dk 0 d.d m
  | .atom h o g m => eM 0x90 h g.scl ((acode o).extractLsb' 0 2) (g.n ++ (acode o).extractLsb' 2 2) m
  | .ldres h d m => eM 0x91 h d.dk 0 d.d m
  | .stcond h d m => eM 0x92 h d.dk 0 d.d m
  | .red h o g m => eM 0x93 h g.scl ((acode o).extractLsb' 0 2) (g.n ++ (acode o).extractLsb' 2 2) m
  | .redflush h => eS 0x94 h false 0 0 .none
  | .cfence h k ms mask =>
    eS 0x95 h false (0#1 ++ code 2 allFenceKind k ++ code 3 allMScope ms ++ mask) 0 .none
  | .bra h fn off => eB 0xA0 h fn off
  | .brx h fn a => e2 0xA1 h false (0#4 ++ fn) 0 a .none
  | .call h l off =>
    eB 0xA2 h (match l with | .pair m => 0#1 ++ m | .scl s => 2#2 ++ s) off
  | .ret h a => e2 0xA3 h false 0 0 a .none
  | .loop h n a => eS 0xA4 h false (0#6 ++ n) 0 a
  | .regang h mask => eS 0xA5 h false (0#14 ++ mask) 0 .none
  | .elect h p w k => eS 0xA6 h false (0#11 ++ k ++ sigBits w) (predD p) .none
  | .yield h off => eB 0xA7 h 0 off
  | .yieldC h w off => eB 0xA7 h (0#5 ++ sigBits (some w)) off
  | .spawn h p off => eB 0xA8 h (0#4 ++ p ++ 0#1) off
  | .spawnW h p off => eB 0xA8 h (0#4 ++ p ++ 1#1) off
  | .exit h => eS 0xA9 h false 0 0 .none
  | .svc h c => eS 0xAA h false (0#6 ++ c) 0 .none
  | .setpl h a => e2 0xAB h false 0 0 a .none
  | .ckpt h id rows a => eS 0xAC h false (0#5 ++ rows ++ id) 0 a
  | .setsh h no n => eS 0xAD h false (0#17 ++ bit1 no ++ n) 0 .none
  | .trap h c => eS 0xAE h false (0#6 ++ c) 0 .none
  | .brq h n off => eB 0xAF h (0#7 ++ bit1 n) off
  | .barSync h k n => eS 0xB0 h false (0#14 ++ 0#2 ++ n ++ code 2 allBarKind k) 0 .none
  | .barArv h k n => eS 0xB0 h false (0#14 ++ 1#2 ++ n ++ code 2 allBarKind k) 0 .none
  | .barWt h k n => eS 0xB0 h false (0#14 ++ 2#2 ++ n ++ code 2 allBarKind k) 0 .none
  | .sempPost h s n => eS 0xB1 h false (0#8 ++ n ++ 0#2 ++ s) 0 .none
  | .sempInit h s v c => eS 0xB1 h false (c ++ v ++ 1#2 ++ s) 0 .none
  | .semwWait h s n => eS 0xB2 h false (0#8 ++ n ++ 0#2 ++ s) 0 .none
  | .semwTry h p s n => eS 0xB2 h false (0#8 ++ n ++ 1#2 ++ s) (predD p) .none
  | .semwRd h d s => eS 0xB2 h true (0#8 ++ 0#8 ++ 2#2 ++ s) d .none
  | .rsectEnter h => eS 0xB3 h false 0 0 .none
  | .rsectExit h => eS 0xB3 h false 1 0 .none
  | .gpstart h d => eS 0xB4 h true 0 d .none
  | .gpwait h t => eS 0xB5 h false 0 0 t
  | .gptest h p t => eS 0xB6 h false 0 (predD p) t
  | .dfree h len hd off => eBare 0xB7 h true 0 0 len hd off
  | .subPub h d hd off => eBare 0xB8 h true 0 0 d hd off
  | .subSub h d hd off => eBare 0xB8 h true 1 0 d hd off
  | .unsub h all e => eS 0xB9 h false (0#17 ++ bit1 all ++ e) 0 .none
  | .subflush h all e => eS 0xBA h false (0#17 ++ bit1 all ++ e) 0 .none
  | .tld h str t m => eM 0xC0 h false (bits2 false str) t m
  | .tst h str t m => eM 0xC1 h false (bits2 false str) t m
  | .tzero h t => e2 0xC2 h false 0 t .none .none
  | .tshapeImm h v => eS 0xC3 h false (0#6 ++ v) 0 .none
  | .tshapeReg h a => eS 0xC3 h false (1#1 ++ 0#21) 0 a
  | .tadd h f d a b => e3 0xC4 h false f d a b .none
  | .tsub h f d a b => e3 0xC5 h false f d a b .none
  | .tmul h f d a b => e3 0xC6 h false f d a b .none
  | .tfma h f d a b c => e3 0xC7 h false f d a b c
  | .tmin h d a b => e3 0xC8 h false 0 d a b .none
  | .tmax h d a b => e3 0xC9 h false 0 d a b .none
  | .tun h o f d a => e2 0xCA h false (0#6 ++ f ++ code 4 allTUnOp o) d a .none
  | .tcmp h c u d a b => e3 0xCB h false (bits2 false u) d a b (.lit (code 8 allFCond c))
  | .tsel h d a b m => e3 0xCC h false 0 d a b (.vec m)
  | .tred h o ax f d a =>
    e2 0xCD h d.dk (0#6 ++ f ++ code 2 allTRedOp o ++ code 2 allTAxis ax) d.d a .none
  | .tbc h ax d a => e2 0xCE h false (0#10 ++ code 2 allTAxis ax) d a .none
  | .ttr h d a => e2 0xCF h false 0 d (.vec a) .none
  | .tcvt h src nosat rm d a =>
    e2 0xD0 h false (0#4 ++ bit1 nosat ++ code 3 allRm3 rm ++ code 4 allTTy src) d (.vec a) .none
  | .accrd h nosat clr f d row col => e3 0xD1 h false f d row col (.lit (0#6 ++ bits2 clr nosat))
  | .accwr h add t row col => e3 0xD2 h false 0 t row col (.lit (0#7 ++ bit1 add))
  | .accwin h split base lim => eS 0xD3 h false (0#5 ++ bit1 split ++ lim ++ base) 0 .none
  | .lease h n => eS 0xD4 h false (0#15 ++ n) 0 .none
  | .unlease h => eS 0xD5 h false 0 0 .none
  | .xret h => eS 0xE0 h false 0 0 .none
  | .killBlk h => eS 0xE1 h false 0 0 .none
  | .killCtx h => eS 0xE1 h false 1 0 .none
  | .srd h d r => eS 0xE2 h true (0#14 ++ r) d .none
  | .swr h r a => eS 0xE3 h false (0#14 ++ r) 0 a
  | .tlbinvVa h leaf a b => e2 0xE4 h false (0#9 ++ bit1 leaf ++ 0#2) 0 a b
  | .tlbinvCtx h b => e2 0xE4 h false 1 0 .none b
  | .tlbinvVi h => e2 0xE4 h false 2 0 .none .none
  | .hinv h all n ctx =>
    eS 0xE5 h false (0#12 ++ bit1 ctx.isSome ++ bit1 all ++ n) 0 (ctx.getD .none)
  | _ => none

/-- The bytes of a word, lowest address first (R3). -/
def bytesOf (n : Nat) (w : Nat) : List Byte :=
  match n with
  | 0 => []
  | n + 1 => BitVec.ofNat 8 w :: bytesOf n (w / 256)

/-- The number that bytes make, lowest address first (R3). -/
def ofBytes : List Byte → Nat
  | [] => 0
  | b :: bs => b.toNat + 256 * ofBytes bs

/-- The bytes of an instruction as the hardware stores them. -/
def encode (i : Instr) : Option (List Byte) :=
  match encode64 i, encode16 i, encode32 i with
  | some w, _, _ => some (bytesOf 8 w.toNat)
  | _, some w, _ => some (bytesOf 2 w.toNat)
  | _, _, some w => some (bytesOf 4 w.toNat)
  | _, _, _ => none

/-- What the decoder makes of the bytes of one instruction: 8 bytes are a Lerzil word, 2 an engine word, 4 a hart word. -/
def decodeBytes (bs : List Byte) : Option Instr :=
  match bs.length with
  | 8 => (decode64 (BitVec.ofNat 64 (ofBytes bs))).toOption
  | 2 => some (decode16 (BitVec.ofNat 16 (ofBytes bs)))
  | 4 => decode32 (BitVec.ofNat 32 (ofBytes bs))
  | _ => none

/-- The instruction whose bits, numbered as the opcode table numbers them, are `w`. -/
def decodeTableWord (nbits w : Nat) : Option Instr := decodeBytes (bytesOf (nbits / 8) w)

end Sys2Proof
end

