-- ==== Sys2Proof/Machine/State.lean ====
section
/-! DEFINITION. The state of the part as plain data, the ways a step can stop, and the state after reset. -/

namespace Sys2Proof.Machine

/-! ## Registers and results in flight -/

/-- Where a register lives. Threads are numbered by slot: SIMT core c, slot w is 64c + w; the AS of tile core m is
4096 + 2m and its XS 4097 + 2m. The threads of a saved block b, which no core holds, are numbered from 20000 + 128b, those of a tile
block from 20064 + 128b (R374). -/
inductive RegLoc where
  | v (t : Nat) (r : Nat)
  | s (t : Nat) (r : Nat)
  | p (t : Nat) (r : Nat)
  | t (t : Nat) (r : Nat)
  /-- h-register r of sheaf n of a block (R125). -/
  | h (b : Nat) (n : Nat) (r : Nat)
  /-- k-register r of a block (R125). -/
  | k (b : Nat) (r : Nat)
  deriving DecidableEq, Repr

/-- A code word that holds an undetected uncorrectable error (R292-R294). -/
inductive ErrLoc where
  | reg (l : RegLoc)
  /-- status register n of a thread -/
  | status (t : Nat) (n : Nat)
  /-- 64-byte segment of a thread's t-registers: 64 to a register -/
  | tseg (t : Nat) (n : Nat)
  /-- 64-byte segment of an array's accumulators: 32 to a row -/
  | acc (arr : Nat) (n : Nat)
  /-- 4-byte word of SIMT core u's scratchpad -/
  | core (u : Nat) (n : Nat)
  /-- 64-byte entry of group g's scratchpad -/
  | group (g : Nat) (n : Nat)
  deriving DecidableEq, Repr

/-- A write to a register: the lanes written and their values. -/
structure Wr where
  loc : RegLoc
  /-- lanes of a v- or p-register; all ones for a scalar -/
  mask : W32
  /-- a scalar's value, or the bits of a predicate -/
  val : W64
  /-- per-lane values of a v-register, by lane -/
  lanes : Tbl W32
  /-- the bytes of a t-register written, by byte -/
  bytes : Tbl Byte
  deriving DecidableEq, Repr

/-- A fixed-latency result that has not surely landed: lanes of a register and the issue position from which
it is readable (R76, R77). -/
structure Hazard where
  loc : RegLoc
  mask : W32
  due : Nat
  deriving DecidableEq, Repr

/-- A byte of storage that an access reaches once it is translated (R240). -/
inductive Place where
  /-- physical address (R234, R401) -/
  | mem (pa : Nat)
  /-- byte of SIMT core u's scratchpad -/
  | core (u : Nat) (o : Nat)
  /-- byte of group g's scratchpad -/
  | group (g : Nat) (o : Nat)
  /-- byte of carved Mere (R289) -/
  | carved (o : Nat)
  /-- byte of the peer window (R514) -/
  | peer (o : Nat)
  /-- byte of a device register page mapped into global space (R359) -/
  | dev (o : Nat)
  deriving DecidableEq, Repr

/-- One lane's part of an access: the lane (32 * thread + lane), where its first byte falls, its data for a store, and its virtual address. -/
structure Piece where
  lane : Nat
  at_ : List Place
  data : List Byte
  va : Nat
  /-- effective policy (R237, R402): 0 cached, 1 streaming, 2 no-allocate, 3 write-through, 4 device -/
  pol : Nat
  deriving DecidableEq, Repr

/-- What an access in flight does when it performs. -/
inductive PendOp where
  /-- a result already computed: it only lands (R78) -/
  | result
  /-- XADD: the counter is read and written as it lands (R125, R154) -/
  | xadd (w64 : Bool)
  | load (sx : Bool) (poll : Bool)
  | store
  | atom (op : AOp) (ret : Bool)
  | reserve
  | cond (t : Nat)
  | tload
  | tstore
  /-- cache control of lines (R252) -/
  | cctl (inv : Bool) (sys : Bool)
  /-- drain of a contained block's buffer (R255) -/
  | commit
  /-- a fence or a release: it lands when everything it orders has performed (R264) -/
  | fence (k : FenceKind) (mask : W16)
  /-- drain of the reduction sub-buffer (R281) -/
  | flush
  /-- invalidation (R413-R415): kind 0 of a VA, 1 of a context, 2 of an interface, 3 of a handle entry, 4 of all entries -/
  | inval (kind ctx va : Nat) (leaf : Bool)
  /-- SUB.sub: it lands when every copied line has been applied at this subscription (R445) -/
  | subCopy (key : Nat)
  /-- UNSUB and SUBFLUSH: they land when the entries of these publications with a lower sequence count are applied; UNSUB removes
  the publications then (R446, R447) -/
  | subWait (keys : List (Nat × Nat)) (remove : Bool)
  /-- PREF: it fetches the lines it names, into the Mere alone or into L1 as well (R251) -/
  | pref (mere : Bool)
  deriving DecidableEq, Repr

/-- An instruction in flight of variable latency (R76, R78). -/
structure Pend where
  id : Nat
  op : PendOp
  sig : Option (Fin 6)
  /-- the arrived members whose counter SIG names (R45) -/
  mem : List Nat
  /-- registers written when it lands; a load's values are filled in when it performs -/
  wr : List Wr
  /-- flags that it ORs into FFLAGS of the members as it lands (R107, R108) -/
  flags : List (Nat × BitVec 5)
  /-- pieces of a memory access -/
  ps : List Piece
  /-- bytes per lane -/
  sz : Nat
  ms : MScope
  oc : BitVec 4
  acq : Bool
  rel : Bool
  /-- the classes for which a member's earlier CFENCE.rel makes it a release of that member (R264) -/
  also : List (Nat × W16)
  /-- one access whose value every destination receives (R245) -/
  one : Bool
  /-- the port that a load's value is pushed to (R244) -/
  port : Option Nat
  /-- the access has performed -/
  done : Bool
  /-- it rides a circuit to another core and has not arrived (R439-R441) -/
  remote : Bool
  /-- it is held at a weir (R478) -/
  weir : Bool
  /-- lines that have passed their weir (R478); once performed, the value that goes to a port -/
  got : List Nat
  /-- device time at which it left -/
  sent : W64
  /-- the registers, and lanes of them, that later instructions wrote (R79) -/
  contest : List (RegLoc × W32)
  /-- lowest active lane of each member, whose path a failure demotes as it lands (R51) -/
  demote : List (Nat × Nat)
  /-- step at which it issued -/
  at_ : Nat
  /-- the core whose circuit it rides (R441) -/
  circ : Option Nat := none
  /-- device time at which its reply left on the reverse circuit -/
  back : W64 := 0
  /-- 1: its request was lost on a gutter, 2: its reply (R452, R453) -/
  lostAs : Nat := 0
  deriving DecidableEq, Repr

/-! ## Control state -/

/-- An entry of a split table (R37, R432): where the path resumes, its lanes, its rejoin PC, and whether it is a
path that waits at that PC for the entries above it. A path that waits takes an entry of the table (log entry 35). -/
structure SplitEntry where
  pc : Addr
  lanes : W32
  rejoin : Option Addr
  waits : Bool
  deriving DecidableEq, Repr

/-- A hardware loop level (R205). -/
structure LoopLvl where
  start : Addr
  stop : Addr
  count : W32
  deriving DecidableEq, Repr

/-- A slice waiting at a rendezvous: the PC, the slices a REGANG names (all ones for a scoped word), and whether it is a
REGANG (R44, R216). -/
structure Arrival where
  pc : Addr
  mask : BitVec 8
  regang : Bool
  deriving DecidableEq, Repr

/-- One slice of a warp; a tile sequencer has one (R35, R39). -/
structure Slice where
  pc : Addr
  split : List SplitEntry
  l0 : LoopLvl
  l1 : LoopLvl
  at_ : Option Arrival
  deriving DecidableEq, Repr

/-- The rendezvous a thread waits in: PC, scope, WAIT mask and current sheaf (R44-R48). -/
structure Rdv where
  pc : Addr
  scp : Scope
  wait : BitVec 6
  sheaf : Nat
  deriving DecidableEq, Repr

/-- A leader window (R59, R217): the lanes of the path that issued the ELECT, its leader lane, instructions left, the counter and the
thread that owns it. -/
structure Window where
  path : W32
  lane : Nat
  left : Nat
  wc : Fin 6
  owner : Nat
  deriving DecidableEq, Repr

/-- A stream of the issue stage: its gang and the issue count when it took the stream (R38). -/
structure IssueStream where
  gang : BitVec 8
  since : Nat
  deriving DecidableEq, Repr

/-- The trap registers (R206). -/
structure TrapRegs where
  cause : W64
  pc : Addr
  val : W64
  slice : W64
  mask : W32
  vec : Addr
  save : W64
  deriving DecidableEq, Repr

/-- A trap being handled: the handler's PC, the slices that resume at XPC, the members suspended with it (R49, R227), the code in
XCAUSE at its entry (R228), whether it is an asynchronous cause of a word that the AS pushed, which leaves the AS issuing (R232), and
the target with bits above 51 that the handler's next fetch meets (R209), and the lanes whose paths are demoted once it returns: the paths of
the trapping slices stay as they were until then (R51, R229). -/
structure InTrap where
  pc : Addr
  gang : BitVec 8
  members : List Nat
  first : Nat
  pushed : Bool
  wild : Option W64
  later : List Nat := []
  deriving DecidableEq, Repr

/-- An entry of the reduction sub-buffer (R277). -/
structure RedEntry where
  place : Place
  sz : Nat
  op : AOp
  val : W64
  ms : MScope
  oc : BitVec 4
  pol : Nat
  /-- `.rel`: the earlier accesses of its class perform first (R280) -/
  rel : Bool
  /-- its line has passed the weir for the round under way (R478) -/
  passed : Bool
  /-- clock of the RED that entered it: the contributions of one RED take one entry -/
  at_ : Nat
  /-- the arrived members of its RED: it follows the earlier accesses of each of them (R258, R280) -/
  mem : List Nat := []
  /-- the address that was translated, and whether an invalidation has taken its translation out since (R414) -/
  va : Nat := 0
  stale : Bool := false
  deriving DecidableEq, Repr

/-- Who makes a request that a weir holds (R478): an access of a thread, a launch by its stream and the step at which it started, the round of
a thread's contributions, a fetch. -/
inductive WeirReq where
  | pend (t id : Nat)
  | launch (k at_ : Nat)
  | red (t : Nat)
  /-- the fetch of an instruction, or of the constant buffer -/
  | fetch (t : Nat)
  deriving DecidableEq, Repr

/-- A reservation (R274). -/
structure Reservation where
  place : Place
  sz : Nat
  deriving DecidableEq, Repr

/-- A warp waiting in SVC (R61, R395): the ring entry if it has one. -/
inductive SvcState where
  | none
  | waiting (code : W16) (args : List W64)
  | entered (n : Nat)
  deriving DecidableEq, Repr

/-- A translation attempt that waits for M to clear, or for the link (R406, R407): the entry's address, the level reported, the VA, when this
wait began, and the gang that issued. -/
structure WalkM where
  entry : Nat
  level : Nat
  va : Nat
  since : W64
  gang : BitVec 8
  /-- M was still set at the last reading: the instruction is held -/
  set_ : Bool
  /-- the instruction that waits: its PC, scope, members, sheaf and active lanes -/
  pc : Addr
  scp : Scope
  mem : List Nat
  sheaf : Nat
  act : List (Nat × W32)
  /-- the slice whose access waits (R227) -/
  sl : Option Nat := none
  /-- when the attempt first found M set, and the level of the last entry with M -/
  m : Option (W64 × Nat) := none
  deriving DecidableEq, Repr

/-- The BAR at which a warp or a sequencer waits (R463): barrier, mode (0 sync, 1 arv, 2 wt), PC, the episode it waits for, and
whether the arrival counts: a tile thread arrives when both of its sequencers have. -/
structure BarWait where
  kind : BarKind
  n : Nat
  mode : Nat
  pc : Addr
  episode : Nat
  counted : Bool
  deriving DecidableEq, Repr

/-- A path that waits in SEMW: its lanes, the semaphore and the ticket of its take (R458). -/
structure TakeRef where
  lanes : W32
  sem : Nat
  ticket : Nat
  deriving DecidableEq, Repr

/-- The kind of an instruction stream's owner (R35, R39). -/
inductive TKind where | simt | as | xs deriving DecidableEq, Repr

/-- A warp or a tile sequencer. -/
structure Thread where
  kind : TKind
  /-- its block -/
  block : Nat
  /-- index within the block (s7 of a launched warp), or spawn order from 16 -/
  index : Nat
  /-- scheduler 0-3 of a SIMT core -/
  sched : Nat
  ctx : Nat
  vi : Nat
  priv : Bool
  v : Tbl W32
  nv : Nat
  s : Tbl W64
  /-- p1-p7; p0 reads true (R67) -/
  p : Tbl W32
  cbuf : Tbl W32
  wc : Tbl Nat
  /-- counters that have covered an engine launch since a WAIT last found them at zero (R257) -/
  cover : BitVec 6
  live : W32
  /-- lanes of each slice's running path -/
  run : W32
  /-- lanes whose path waits at a rendezvous (R44) -/
  held : W32
  /-- membership bits of loop levels 0 and 1 (R205) -/
  m0 : W32
  m1 : W32
  slices : List Slice
  streams : List IssueStream
  park : List (BitVec 8)
  /-- index in stream order after which the next issue looks -/
  turn : Nat
  /-- 256 issues have passed with a gang parked (R38) -/
  rotate : Bool
  /-- issues of the warp (R38) -/
  issues : Nat
  /-- position in the stream of issued instructions (R77) -/
  pos : Nat
  lastIssue : Nat
  haz : List Hazard
  pend : List Pend
  nextId : Nat
  /-- clock of the latest acquire of each class, and of a fence (R257, R259) -/
  acq : Tbl Nat
  /-- masks of the CFENCE.rel that no store of their classes has followed (R264) -/
  relFences : List W16
  /-- the classes of its loads, the one that loaded last first, and whether that load was at device or system scope (R264) -/
  lastLoads : List (BitVec 4 × Bool)
  rdv : Option Rdv
  windows : List Window
  /-- lanes in YIELD.C and its counter (R60) -/
  yieldC : List (W32 × Fin 6)
  /-- lanes in a plain YIELD and the warps that must issue before them (R218) -/
  yields : List (W32 × List Nat)
  lfsr : W16
  cbase : Addr
  /-- SHSEL as it stands: NONE and SHEAF (R204) -/
  shreg : BitVec 5
  redspill : Bool
  pldiv : Bool
  depth : Nat
  plreq : Nat
  permit : Bool
  rsdepth : Nat
  fmode : BitVec 4
  fflags : BitVec 5
  /-- flags of fixed-latency results that `fflags` does not hold yet, and the position from which they are readable (R108) -/
  ffHaz : List (BitVec 5 × Nat)
  /-- lanes sent to a target with bits above 51, which its fetch refuses (R209) -/
  wild : List (W32 × W64)
  /-- generator states that differ from the state after RSEED 0 (R117) -/
  gen : Tbl W32
  trap : TrapRegs
  inTrap : Option InTrap
  /-- suspended by the trap of this thread (R49) -/
  susp : Option Nat
  /-- asynchronous causes pending, with XVAL and XSLICE.SLICE (R232) -/
  async : List (Nat × W64 × Nat)
  /-- the AS has halted at a fault that its XS has not taken (R391) -/
  asHalt : Bool
  red : List RedEntry
  resv : Option Reservation
  reply : Option W32
  svc : SvcState
  /-- the parent's key and counter (R57) -/
  parent : Option (Nat × Option (Fin 6))
  /-- last live lane has executed EXIT (R34) -/
  exiting : Bool
  /-- barriers at which it has arrived without release: kind, number and episode (R463) -/
  arvd : List (BarKind × Nat × Nat)
  /-- the BAR at which it waits (R463) -/
  barAt : Option BarWait
  /-- its paths that wait in SEMW (R458) -/
  takes : List TakeRef
  /-- the constant buffer still to be copied (R128) -/
  ccopy : Bool
  /-- XS only -/
  treg : Tbl Byte
  shape : W16
  abase : Nat
  alim : Nat
  wbase : Nat
  wlim : Nat
  /-- a lease that a save finds held, and that is requested again: its launches left and the indices of its holders in the block
  (R200) -/
  leaseLeft : Nat
  leaseBack : List Nat
  /-- launches that a waiting LEASE asks for; 0 once it is granted -/
  leaseWait : Option Nat
  /-- id, live mask and row count of the CKPT at which a sequencer waits or has been saved (R223) -/
  ckpt : Option (BitVec 8 × W32 × Nat)
  /-- its block is saved, or its tile thread has met its CKPT: it does not issue (R372) -/
  saved : Bool
  /-- translation attempts stopped at an entry with M set, one for each gang that waits (R407) -/
  walkM : List WalkM
  /-- XS only: device time at which its checkpoint timer stood at zero, and the reports of CHECKPOINT_OVERDUE that are due (R378) -/
  ckptTime : Nat
  overdue : Nat
  /-- lines that have passed their weirs for the copy of the constant buffer under way (R478) -/
  lines : List Nat := []
  /-- it has consumed an error that ends its own context: it issues nothing further (R295, R535) -/
  doomed : Bool := false
  deriving DecidableEq, Repr

/-! ## Blocks, jobs and queues -/

/-- A sheaf of a block (R43, R431). -/
structure Sheaf where
  members : W16
  xb : Nat
  h : Tbl W64
  deriving DecidableEq, Repr

/-- One barrier (R464). -/
structure Barrier where
  episode : Nat
  /-- the episode has had an arrival -/
  begun : Bool
  /-- members that joined while the episode had an arrival: they count from the next (R464) -/
  late : List Nat
  deriving DecidableEq, Repr

/-- A line entry of a contained block's store buffer (R253). -/
structure BufEntry where
  line : Place
  bytes : Tbl Byte
  mask : BitVec 128
  ms : MScope
  pol : Nat := 0
  /-- the address that was translated, and whether an invalidation has taken its translation out since (R414) -/
  va : Nat := 0
  stale : Bool := false
  /-- one access stored the whole line (R295) -/
  whole : Bool := false
  deriving DecidableEq, Repr

/-- Where a block stands between placement and its end. -/
inductive Phase where
  | resident
  /-- a pre-emption request is pending (R366, R372) -/
  | saving
  | saved
  /-- it has no unit: it awaits relaunch (R294) -/
  | relaunch
  deriving DecidableEq, Repr

/-- A spawn request (R394). -/
structure SpawnReq where
  pc : Addr
  s : Tbl W64
  lfsr : W16
  depth : Nat
  parent : Nat
  wc : Option (Fin 6)
  block : Nat
  /-- the rest of what the child takes from its parent (R55) -/
  cbase : Addr
  cbuf : Tbl W32
  vec : Addr
  save : W64
  fmode : BitVec 4
  priv : Bool
  permit : Bool
  deriving DecidableEq, Repr

/-- A block (R29-R31). -/
structure Block where
  card : Nat
  vi : Nat
  ctx : Nat
  tile : Bool
  /-- SIMT core or (first) tile group -/
  unit : Nat
  ord : Nat
  idx : List W64
  phase : Phase
  /-- keys of the launched warps by index, or of the AS of each tile thread -/
  thr : List Nat
  spawned : List Nat
  /-- spawned warps so far, for their order (R126) -/
  spawnCount : Nat
  nv : Nat
  k : Tbl W64
  sheaves : List Sheaf
  spBase : Nat
  spSize : Nat
  cont : Bool
  idem : Bool
  sbuf : List BufEntry
  committed : Bool
  bars : Tbl Barrier
  cbar : BitVec 8
  jbar : BitVec 4
  accBase : Nat
  accRows : Nat
  span : Bool
  relaunches : Nat
  placedAt : Nat
  slot : Option Nat
  /-- SAVEBASE as the claim of the slot read it (R373, R425) -/
  slotBase : Nat := 0
  /-- spawn requests of a saved block (R58, R374) -/
  savedSpawn : List SpawnReq
  /-- the card whose block it makes room for (R366) -/
  prey : Option Nat
  /-- accumulator windows of tile threads that have exited, by index (R355, R358) -/
  wins : Tbl (Nat × Nat) := []
  /-- v-registers of the launched warps of its sheaves that have exited, by index (R148) -/
  gone : Tbl (Tbl W32) := []
  deriving DecidableEq, Repr

/-- A loop-nest record as read at release (R428). -/
structure Nest where
  span : Bool
  cbar : BitVec 8
  accRows : Nat
  sp : Nat
  nv : Nat
  threads : Nat
  order : Nat
  entry : Addr
  xentry : Addr
  /-- lo, trip count and step of each loop, outermost first -/
  loops : List (W64 × Nat × W64)
  /-- curve points of a table order (R370) -/
  curve : List (Nat × Nat)
  sheaves : List (W16 × Nat)
  deriving DecidableEq, Repr

/-- How a job ends early. -/
inductive Ending where | none | stopped (outcome : Nat) deriving DecidableEq, Repr

/-- A job: one release of a card (R29, R421). -/
structure Job where
  w0 : W64
  deadline : W64
  budget : W64
  w4 : W64
  args : W64
  cbase : Addr
  nest : Nest
  relT : W64
  absDl : W64
  level : Nat
  /-- position of the walker in its traversal, and the next ordinal -/
  step : Nat
  next : Nat
  walked : Bool
  /-- engine launches pushed by its warps and not yet recorded (R34) -/
  launches : Nat
  /-- ns charged to its budget: its time on a unit, saves and restores apart (R377) -/
  spent : Nat
  miss : Bool
  overran : Bool
  bwheld : Bool
  lost : Bool
  missRaised : Bool
  budgetRaised : Bool
  bwWindow : Bool
  notices : List Nat
  ending : Ending
  deriving DecidableEq, Repr

/-- What a copy of one handle entry and one translation holds (R409, R415). -/
structure TlbEntry where
  /-- core u, sequencer 256 + t, or stream TLB of an engine 20000 + n -/
  where_ : Nat
  vi : Nat
  ctx : Nat
  level : Nat
  va : Nat
  entry : W64
  /-- REMOTE_WALK as the walk that holds this table entry read it from the descriptor (R406, R425) -/
  rwalk : Bool := false
  deriving DecidableEq, Repr

structure HandleCopy where
  core : Nat
  vi : Nat
  ctx : Nat
  n : Nat
  words : List W64
  deriving DecidableEq, Repr

/-- Who pushes a stream's words: interface, context, card of the job, block, thread and the block's scratchpad region; the Ridge
array and the accumulator window of a tile thread, as they stood when it ended (R355, R357). -/
structure Ident where
  vi : Nat
  ctx : Nat
  card : Option Nat
  block : Nat
  who : Nat
  spBase : Nat
  spSize : Nat
  array : Nat
  span : Bool
  win : Nat × Nat
  /-- the windows of a span's threads by index, once their block has ended (R358) -/
  wins : Tbl (Nat × Nat) := []
  deriving DecidableEq, Repr

/-- A valid handle entry as it was read (R426, R427). -/
structure HEntry where
  idx : Nat
  base : W64
  len : W64
  attr : W64
  /-- core that a remote entry names -/
  core : Nat
  deriving DecidableEq, Repr

/-- A unit of a copy, gather, scatter or fill that has been read: where its bytes came from, the bytes, and the offset at which
they go (R316-R319). -/
structure MoveUnit where
  src : List Place
  bytes : List Byte
  dst : Nat
  /-- offset of the next row or element on the written side (R411) -/
  ahead : Option Int := none
  deriving DecidableEq, Repr

/-- A launch that has started (R306). -/
structure Launch where
  word : W16
  /-- its parameters in push order -/
  prm : List W64
  /-- its record has a place in the return FIFO (R313) -/
  reserved : Bool
  start : W64
  /-- the step at which it started -/
  at_ : Nat
  /-- the unit that serves it, by its number of R491 or R509 -/
  engine : Nat
  /-- its status, or 256 while it still works -/
  status : Nat
  mark : Nat
  /-- handle entries read so far: each is read once (R309) -/
  hs : List HEntry
  /-- units read, the newest first, and how many of them are written -/
  reads : List MoveUnit
  done : Nat
  /-- status with which reading ended -/
  fail : Nat
  /-- the walk for this page waits since this time, from 2^60 on a page whose walk over the link has no reply (R406); and when the attempt first
  found M set (R407) -/
  mig : Option (Nat × W64 × Option W64)
  /-- lines that have passed their weir for the unit under way (R478) -/
  passed : List Nat
  /-- matrix launch: the bank groups it reads, and the array rows it reads or writes, by group (R344, R354) -/
  banks : BitVec 4
  rows : List (Nat × Nat × Nat)
  /-- scratchpad bytes that writes replaced in the bank groups of a multiply, by offset: it reads what stood there (R354) -/
  before : List (Nat × Byte) := []
  /-- pages that it has accessed, by their first address, and by handle the offset of its next row or element (R411) -/
  pages : List Nat := []
  ahead : List (Nat × Int) := []
  wc : Option (Fin 6)
  members : List Nat
  ident : Ident
  deriving DecidableEq, Repr

/-- An engine-port stream (R301). -/
structure Stream where
  /-- words with the counter each launch word decrements and the members that hold it -/
  buf : List (W16 × Option (Fin 6) × List Nat)
  stack : List W64
  fifo : List W64
  /-- records of faults that wait for a slot of the FIFO (R313) -/
  waitRecs : List W64
  halted : Bool
  /-- pops that are left until the last faulting record has been popped (R314) -/
  haltLeft : Nat
  seq : BitVec 5
  root : Option W64
  run : Option Launch
  reserved : Nat
  /-- ticket of the SEMWAIT at the head in a semaphore's queue (R458) -/
  waiting : Option Nat
  /-- its owner has exited (R305) -/
  orphan : Bool
  ident : Option Ident
  outstanding : Nat
  /-- words that have left it -/
  taken : Nat := 0
  deriving DecidableEq, Repr

/-- A take waiting at a semaphore (R458): a thread or a stream, its count, a ticket. -/
structure Take where
  stream : Bool
  who : Nat
  n : Nat
  ticket : Nat
  deriving DecidableEq, Repr

/-- A semaphore (R457). -/
structure Sem where
  value : Nat
  ceil : Nat
  takes : List Take
  deriving DecidableEq, Repr

/-- A grace slot (R455, R468). -/
structure Grace where
  open_ : Bool
  gen : BitVec 60
  /-- the warps not yet seen quiescent, by block and index -/
  mask : List Nat
  entries : List W64
  opened : Nat
  deriving DecidableEq, Repr

/-- Per context: grace slots, entries that wait for room, and the released-block FIFO (R468-R470). -/
structure Ctx where
  grace : Tbl Grace
  wait : List W64
  fifo : List W64
  deriving DecidableEq, Repr

/-- The state of one tile group's array (R338-R342). -/
structure Group where
  /-- the XSs that hold the lease jointly, and the launches left -/
  holder : List Nat
  left : Nat
  /-- waiting lease requests: XSs and covered launches -/
  queue : List (List Nat × Nat)
  /-- member number of the last holder -/
  last : Option Nat
  deriving DecidableEq, Repr

/-- What an ACCWIN or an UNLEASE does once words accepted before it have left q3 streams (R199, R355): the stream positions it waits for, the
XSs it acts for, and the window that it gives the one XS of an ACCWIN; without one it releases their lease. -/
structure RidgeWait where
  ups : List (Nat × Nat)
  ms : List Nat
  win : Option (Nat × Nat)
  deriving DecidableEq, Repr

/-- Metadata of a Mere line (R283). -/
structure Line where
  tag : Nat
  dirty : Bool
  lock : Bool
  owner : W16
  /-- the sensor stream that owns the line (R287) -/
  stream : Option Nat
  age : Nat
  deriving DecidableEq, Repr

/-- A line held in an L1 (R234, R257): its bytes, the dirty ones, when it was filled, and the dirtying identity. -/
structure L1Line where
  bytes : Tbl Byte
  dirty : BitVec 128
  fill : Nat
  owner : W16
  /-- filled under the streaming policy: first in line for eviction (R237) -/
  stream : Bool
  /-- one access stored the whole line (R295) -/
  whole : Bool := false
  deriving DecidableEq, Repr

/-- A line that an application core's L2 holds dirty (R25, R284, R298): its line number, bytes and mask, and the identity of the partition that
wrote it. -/
structure L2Line where
  line : Nat
  bytes : Tbl Byte
  mask : BitVec 128
  owner : W16
  deriving DecidableEq, Repr

/-- Corrected errors of one unit: how many, and the device time of its last report to the Silt log (R292). -/
structure Corrected where
  count : Nat
  last : Option W64
  deriving DecidableEq, Repr

/-- A Silt log entry (R491). -/
structure Silt where
  time : W64
  code : W16
  source : W16
  ctx : W16
  arg0 : W64
  arg1 : W64
  /-- FATAL (R493) -/
  fatal : Bool
  persisted : Bool
  deriving DecidableEq, Repr

/-- A record of KILLED (R230, R294, R375): whose block or context ended, the block by card and ordinal, XCAUSE and XVAL. -/
structure Kill where
  vi : Nat
  ctx : Nat
  block : Option (Nat × Nat)
  cause : W64
  val : W64
  deriving DecidableEq, Repr

/-- A splinter in progress (R417). -/
structure Splinter where
  ctx : Nat
  va : Nat
  entry : W64
  slot : Nat
  node : Nat
  status : Nat
  deriving DecidableEq, Repr

/-- A line entry of a batch: the line of the region, its bytes and mask, and the class (R448). -/
structure BatchLine where
  line : Nat
  bytes : Tbl Byte
  mask : BitVec 128
  cls : BitVec 4
  /-- subscriptions whose copy of the line was read after this entry had been closed: its bytes are in the copy (R445) -/
  skip : List Nat := []
  deriving DecidableEq, Repr

/-- A subscription-table entry (R443). -/
structure SubEntry where
  pub : Bool
  block : Nat
  base : Nat
  len : Nat
  /-- peers: unit and its entry -/
  peers : List (Nat × Nat)
  broken : Bool
  /-- its publication is gone: it applies no update and raises no trap (R446) -/
  ended : Bool
  seqOut : Nat
  seqIn : Nat
  /-- line entries under construction, oldest first (R448) -/
  batch : List BatchLine
  /-- device time of the last store to the publication -/
  lastStore : W64
  /-- lines that the publisher has read for it, of a subscription (R445) -/
  copied : Nat := 0
  /-- step at which it was made -/
  made : Nat := 0
  deriving DecidableEq, Repr

/-- A reservation of the rafter table: the slot (gutter, lane and wave), the ordered pair of cores it serves, and the stations from which and
to which it is kept (R436, R437). -/
structure RafterEntry where
  west : Bool
  lane : Nat
  wave : Nat
  score : Nat
  dcore : Nat
  inject : Nat
  eject : Nat
  deriving DecidableEq, Repr

/-- A batch entry under way on a circuit (R449). -/
structure BatchMsg where
  src : Nat
  srcEntry : Nat
  dst : Nat
  dstEntry : Nat
  seq : Nat
  /-- a line that SUB.sub copies carries no sequence count (R445) -/
  copy : Bool
  entry : BatchLine
  /-- device time at which it left -/
  sent : W64
  /-- a flit of it, or its acknowledgement once it is applied, was lost (R452, R453): it does not arrive -/
  lost : Bool := false
  /-- step at which it left -/
  at_ : Nat := 0
  /-- device time at which it was applied and its acknowledgement left on the reverse circuit (R451) -/
  acked : Option W64 := none
  deriving DecidableEq, Repr

/-- An uncorrectable error in a dirty line that is being contained (R295): its address, its slot, its owner if that can be read,
and the next step. -/
structure Ue where
  pa : Nat
  slot : Option Nat
  owner : Option W16
  /-- the line was dirty in an L1 or in an application core's L2 -/
  inL1 : Bool := false
  stage : Nat
  deriving DecidableEq, Repr

/-- Power state of one cluster (R299, R481-R488): on the high rail, device times of its replays of the last microsecond, the end of a
droop hold, halted by brown-out or thermal trip. -/
structure Cluster where
  high : Bool
  replays : List W64
  droopHold : Option W64
  halted : Bool
  deriving DecidableEq, Repr

/-- A hart waiting in an LZ instruction (R497-R500). -/
inductive HartWait where
  | inReset
  | run
  | push
  | fence
  | waitq (q : HPort) (rd : Nat) (limit : W64)
  | wfi
  deriving DecidableEq, Repr

/-- An application core (R494-R502). -/
structure Hart where
  x : Tbl W64
  pc : W64
  /-- 3 machine, 1 supervisor, 0 user -/
  mode : Nat
  guest : Bool
  wait : HartWait
  mepc : W64
  mcause : W64
  mtval : W64
  mtvec : W64
  sepc : W64
  scause : W64
  stval : W64
  stvec : W64
  mpp : Nat
  spp : Nat
  mpv : Bool
  spv : Bool
  mie : Bool
  mpie : Bool
  sie : Bool
  spie : Bool
  medeleg : W64
  /-- translation of its own accesses (R399; log entry 51) -/
  satp : W64
  vsatp : W64
  hgatp : W64
  deriving DecidableEq, Repr

/-- Where the part stands since power-good (R507, R508). -/
inductive Boot where | off | up | failed | stopped deriving DecidableEq, Repr

/-- What is fixed when the part is made, and the fuses and flash the island reads (R20-R22, R506). -/
structure Inventory where
  step : Nat
  simt : W64
  tile : W64
  units : W64
  ways : Tbl W16
  minVersion : Tbl Nat
  deriving DecidableEq, Repr

/-- The party that acts in this step. -/
inductive Agent where
  | idle
  /-- a thread and the slices of the issuing gang -/
  | thread (t : Nat) (gang : BitVec 8)
  | stream (k : Nat)
  | hart (h : Nat)
  deriving DecidableEq, Repr

/-! ## The state -/

/-- The bytes of a storage by address, in canonical form: addresses strictly rising, and no entry zero, which is what an unlisted address
reads as (log entry 5). -/
abbrev Memory := Tbl Byte

/-- The canonical form. -/
abbrev Memory.wf (m : Memory) : Bool := Tbl.wf 0 m

/-- The whole part. -/
structure State where
  boot : Boot
  /-- device time (R472) and the part of a nanosecond it carries, in 10^-9 ns (R473) -/
  time : W64
  timeFrac : Nat
  /-- steps so far -/
  clock : Nat
  agenda : List Activity
  /-- steps that the schedule still has before the next party of the fixed round, and that party's number (R38, R52, R53; log entry 2) -/
  spare : Nat
  round : Nat
  /-- the stream that each front end last served (R306, R329) -/
  served : Tbl Nat
  cur : Agent
  /-- the party that acts is held: its instruction waits and issues again -/
  held : Bool
  cfg : Tbl W64
  inv : Inventory
  mem : Memory
  peer : Memory
  carved : Memory
  /-- identity of the last writer of each carved line (R289) -/
  carvedOwner : Tbl (Option W16)
  /-- SIMT core u's byte o at u * 2^18 + o; group g's at g * 2^23 + o -/
  scratch : Memory
  gscratch : Memory
  l1 : Tbl (Option L1Line)
  /-- dirty lines of each application core's L2, the oldest first (R25, R284) -/
  hl2 : Tbl (List L2Line)
  mere : Tbl (Option Line)
  tree : Tbl W16
  poison : Tbl Bool
  /-- undetected errors of lines: in the Mere 1 of the data, 4 of the owner field, 2 of both; 3 in LPDDR6 (R294, R532) -/
  latent : Tbl Nat
  /-- code words of registers, accumulators and scratchpads that hold an undetected uncorrectable error (R292-R294) -/
  regErr : List ErrLoc
  /-- corrected errors by SOURCE of the unit (R292) -/
  corrected : Tbl Corrected
  /-- ways a gating request names, by slice (R291) -/
  gating : Tbl W16
  retired : List Nat
  ue : List Ue
  silt : List Silt
  siltCount : Nat
  /-- COUNT as it was last read (R492) -/
  siltRead : Nat
  siltFlash : List Silt
  /-- the safety GPIO fault output (R508) -/
  gpio : Bool
  /-- blocks and contexts that ended as KILLED, the newest first (R230, R294) -/
  kills : List Kill
  threads : Tbl (Option Thread)
  blocks : Tbl (Option Block)
  nextBlock : Nat
  jobs : Tbl (Option Job)
  /-- the pending release of a card, by card: the job as its release read it (R361, R421) -/
  nextJobs : Tbl (Option Job)
  /-- of an armed card: t0, the device time from which its next instant is looked for, and the instants that have come and are not released
  yet; a time before t0 says that no schedule is armed (R360) -/
  arms : Tbl (Nat × Nat × List Nat)
  streams : Tbl Stream
  /-- device time of the last data launch of each queue (R315) -/
  lastData : Tbl W64
  sems : Tbl Sem
  ticket : Nat
  coreBars : Tbl Barrier
  jobBars : Tbl Barrier
  ctxs : Tbl Ctx
  groups : Tbl Group
  /-- ACCWINs and UNLEASEs that wait for words of q3 streams, in the order of their issue (R199, R355) -/
  ridgeWaits : List RidgeWait
  acc : Tbl W32
  dq : Tbl (List W64)
  /-- what the pusher of each entry of a data or branch-outcome queue had acquired (R389) -/
  dqAcq : Tbl (List (Tbl Nat))
  spawnq : Tbl (List SpawnReq)
  /-- tenths of the clock cycles of each core since it left reset (R201) -/
  cycle : Tbl Nat
  tlb : List TlbEntry
  hcache : List HandleCopy
  /-- invalidations in progress by interface: started at this clock (R416) -/
  xlt : Tbl (Option Nat)
  hxlt : Tbl (Option Nat)
  spl : Tbl (Option Splinter)
  subs : Tbl (Option SubEntry)
  batches : List BatchMsg
  /-- the reservations of every station's rafter table (R437, R438) -/
  rafter : List RafterEntry
  /-- injection on the gutters is paused after a dead lane, since this device time; the lanes, west above east, that leave FAB_LIVE when the
  flits in transit have drained (R452) -/
  pause : Bool
  pausedAt : W64
  dying : W64
  /-- requests of SVC by ring entry: interface * 2^32 + entry → thread (R395) -/
  svcOut : Tbl (Option Nat)
  /-- regulators (64 * channel + identity) that have held a request in this window (R480) -/
  weirHeld : List Nat
  /-- requests that the regulators hold, in the order in which they arrived (R478) -/
  weirQ : List (Nat × WeirReq)
  /-- weir windows begun: device time of the last edge in windows (R477) -/
  edge : Nat
  clusters : Tbl Cluster
  /-- a sensor pair that holds its clusters: 1, or 2 after one read within every limit by 5 (R487) -/
  pairHold : Tbl Nat
  /-- an engine under restart and the step it has reached (R510) -/
  restarts : Tbl (Option Nat)
  /-- device time at which the heartbeat counter of a unit advanced last, by engine number (R509) -/
  beats : Tbl W64
  /-- units whose restart ISL_RESTART has asked for and that are not yet re-admitted (R512) -/
  asked : List Nat
  /-- a die under thermal trip: 1, or 2 after one read below 100 degrees; 2 + die: its harts are halted (R488) -/
  tripped : Tbl Nat
  /-- bytes of the drives: ((requester * 2^32 + namespace) * 2^64 + block address) * 4096 + byte -/
  nvme : Memory
  /-- blocks accepted and not yet durable, with the clock of their launch's end (R337) -/
  nvmeDirty : List (Nat × Nat)
  /-- service interrupts sent and not taken: hart, interrupt file and identity (R505) -/
  intrs : List (Nat × Nat × Nat)
  harts : Tbl Hart
  handover : List (Nat × Nat × Bool)
  deriving DecidableEq, Repr

/-! ## How a step can stop -/

/-- Reasons for which the machine stops. -/
inductive Fault where
  /-- Raised by `step` for an access of the outside world to a physical address at which the map of R401 places nothing:
  safe, no claim follows from a step that stops. -/
  | noStorage (pa : Nat)
  deriving DecidableEq, Repr

/-- Reasons for which an instruction has no step here. -/
inductive Refusal where
  /-- The instruction has no meaning yet: safe. Raised in `exec` only. -/
  | notModelled (mnemonic : String)
  /-- The party that acts is not one that executes the instruction: a Lerzil word wants a resident thread, an engine word a
  stream, an LZ word a hart. Raised by the meanings: safe, `step` never does this. -/
  | notActing
  /-- The event cannot happen in this state: its condition in the manual does not hold. Raised by the meanings of events:
  safe, the manual gives no such step; `step` passes over such an entry of the schedule. -/
  | notEnabled
  /-- The word at a hart's PC is an instruction of the RISC-V base, which the manual does not describe. Raised by `step`: safe. -/
  | riscvBase
  deriving DecidableEq, Repr

/-- The outcome of a step. -/
abbrev Out := Host.Outcome State Fault Refusal

/-! ## Reset -/

/-- A hart in reset: machine mode, every register zero (log entry 8). -/
def freshHart : Hart :=
  { x := [], pc := 0, mode := 3, guest := false, wait := .inReset, mepc := 0, mcause := 0,
    mtval := 0, mtvec := 0, sepc := 0, scause := 0, stval := 0, stvec := 0, mpp := 0, spp := 0, mpv := false, spv := false, mie := false,
    mpie := false, sie := false, spie := false, medeleg := 0,
    satp := 0, vsatp := 0, hgatp := 0 }

/-- Every unit present, every way enabled, stepping 0 and no minimum versions (log entry 7). -/
def freshInventory : Inventory :=
  { step := 0, simt := BitVec.allOnes 64, tile := BitVec.allOnes 64, units := 0x00FFFFFFC000FFFF#64, ways := [],
    minVersion := [] }

/-- The part right after island reset, before power-good: every register of the configuration space, device time, every
semaphore, barrier, queue and log at the value the manual gives; no warp, block or job (R4, R456, R472, R491, R507). -/
def State.reset : State :=
  { boot := .off, time := 0, timeFrac := 0, clock := 0, agenda := [], spare := 0, round := 0, served := [], cur := .idle, held := false, cfg := [],
    inv := freshInventory, mem := [], peer := [], carved := [], carvedOwner := [], scratch := [], gscratch := [], l1 := [], hl2 := [], mere := [],
    tree := [], poison := [], latent := [], regErr := [], corrected := [], gating := [], retired := [], ue := [], silt := [], siltCount := 0, siltRead := 0, siltFlash := [], gpio := false, kills := [],
    threads := [], blocks := [], nextBlock := 0, jobs := [], nextJobs := [], arms := [], streams := [], lastData := [], sems := [], ticket := 0,
    coreBars := [], jobBars := [], ctxs := [], groups := [], ridgeWaits := [], acc := [], dq := [], dqAcq := [], spawnq := [], cycle := [], tlb := [],
    hcache := [], xlt := [], hxlt := [], spl := [], subs := [], batches := [], rafter := [], pause := false, pausedAt := 0, dying := 0,
    svcOut := [], weirHeld := [], weirQ := [], edge := 0, clusters := [], pairHold := [], restarts := [], beats := [], asked := [], tripped := [], nvme := [],
    nvmeDirty := [], intrs := [], harts := [], handover := [] }

end Sys2Proof.Machine
end

