-- ==== Sys2Proof/Machine/Regs.lean ====
section
/-! DEFINITION. Named operations over the state: threads, blocks, jobs, registers, results in flight, bytes of storage and
the Silt log. -/

namespace Sys2Proof.Machine

/-! ## Bits of masks -/

/-- A mask of one lane. -/
def lane1 (i : Nat) : W32 := 1#32 <<< i

def hasLane (m : W32) (i : Nat) : Bool := m.getLsbD i

/-- The lanes of a mask, lowest first. -/
def lanesOf (m : W32) : List Nat := (List.range 32).filter (hasLane m)

/-- The lowest lane of a mask. -/
def lowest (m : W32) : Option Nat := (List.range 32).find? (hasLane m)

/-- The four lanes of slice i (R8). -/
def sliceMask (i : Nat) : W32 := 0xF#32 <<< (4 * i)

def hasSlice (g : BitVec 8) (i : Nat) : Bool := g.getLsbD i

def slicesOf (g : BitVec 8) : List Nat := (List.range 8).filter (hasSlice g)

/-- The lanes of a set of slices. -/
def gangLanes (g : BitVec 8) : W32 := (slicesOf g).foldl (fun m i => m ||| sliceMask i) 0

/-- The slices that hold a lane of a mask. -/
def slicesIn (m : W32) : BitVec 8 :=
  (List.range 8).foldl (fun g i => if m &&& sliceMask i = 0 then g else g ||| (1#8 <<< i)) 0

/-! ## Lists in order -/

/-- x before the first entry that it does not come after. -/
def insertBy {α : Type} (le : α → α → Bool) (x : α) : List α → List α
  | [] => [x]
  | y :: l => if le x y then x :: y :: l else y :: insertBy le x l

/-- A list in the order given; entries that are equal in it keep theirs. -/
def sortBy {α : Type} (le : α → α → Bool) (l : List α) : List α := l.foldr (insertBy le) []

/-! ## Bytes and numbers -/

/-- The low n bytes of a number, least significant first (R3). -/
def toBytes (x : Nat) : Nat → List Byte
  | 0 => []
  | n + 1 => BitVec.ofNat 8 x :: toBytes (x / 256) n

/-! ## Threads and cores -/

/-- No thread: what a block lists in place of a warp that has exited. -/
abbrev goneKey : Nat := 9000

/-- Core number of a thread: n for SIMT core n, 64 + m for tile core m (R315). -/
def coreOf (t : Nat) : Nat := if t < 4096 then t / 64 else 64 + (t - 4096) / 2

/-- Tile group of a core. -/
def groupOf (u : Nat) : Nat := (u - 64) / 4

/-- The other sequencer of a tile thread. -/
def pairOf (t : Nat) : Nat := if t % 2 = 0 then t + 1 else t - 1

/-- The AS of a tile thread names the pair. -/
def asOf (t : Nat) : Nat := t - t % 2

def isTile (t : Nat) : Bool := 4096 ≤ t && (t < 20000 || (t - 20000) / 64 % 2 == 1)

/-- The party of the ordering rules (R256): a warp, or the pair of sequencers. -/
def partyOf (t : Nat) : Nat := if t < 4096 then t else asOf t

def State.thread? (s : State) (t : Nat) : Option Thread := s.threads.get none t
def State.setThread (s : State) (t : Nat) (th : Thread) : State := { s with threads := s.threads.insert t (some th) }
def State.dropThread (s : State) (t : Nat) : State := { s with threads := s.threads.erase t }

/-- Changes a resident thread. -/
def State.mapThread (s : State) (t : Nat) (f : Thread → Thread) : State :=
  match s.thread? t with
  | none => s
  | some th => s.setThread t (f th)

/-- An acquire point of every class at a clock (R257). -/
def acqNow (clock : Nat) : Tbl Nat := (List.range 16).map fun c => (c, clock)

/-- Changes every resident thread of a list. -/
def State.mapMembers (s : State) (ms : List Nat) (f : Thread → Thread) : State := ms.foldl (fun s m => s.mapThread m f) s

def State.block? (s : State) (b : Nat) : Option Block := s.blocks.get none b
def State.setBlock (s : State) (b : Nat) (x : Block) : State := { s with blocks := s.blocks.insert b (some x) }
def State.mapBlock (s : State) (b : Nat) (f : Block → Block) : State :=
  match s.block? b with
  | none => s
  | some x => s.setBlock b (f x)

def State.job? (s : State) (c : Nat) : Option Job := s.jobs.get none c
def State.mapJob (s : State) (c : Nat) (f : Job → Job) : State :=
  match s.job? c with
  | none => s
  | some j => { s with jobs := s.jobs.insert c (some (f j)) }

/-- A stream that holds nothing. -/
def emptyStream : Stream :=
  { buf := [], stack := [], fifo := [], waitRecs := [], halted := false, haltLeft := 0, seq := 0, root := none, run := none,
    reserved := 0, waiting := none, orphan := false, ident := none, outstanding := 0 }

/-- A stream whose head word has left it. -/
def Stream.pop (x : Stream) (rest : List (W16 × Option (Fin 6) × List Nat)) : Stream := { x with buf := rest, taken := x.taken + 1 }

def State.stream (s : State) (k : Nat) : Stream := s.streams.get emptyStream k
def State.setStream (s : State) (k : Nat) (x : Stream) : State := { s with streams := s.streams.set emptyStream k x }
def State.mapStream (s : State) (k : Nat) (f : Stream → Stream) : State := s.setStream k (f (s.stream k))

/-- Key of the stream of port q of a thread, or of hart h. -/
def streamKey (t q : Nat) : Nat := t * 8 + q
def hartStream (h q : Nat) : Nat := 40000 + h * 8 + q

/-- The launch-class words of a pushed value (R302). -/
def isLaunchWord (w : W16) : Bool := 0xC100 ≤ w.toNat && w.toNat ≤ 0xFFFE

/-- A semaphore at value 0 and ceiling 255. -/
def freshSem : Sem := { value := 0, ceil := 255, takes := [] }

def State.sem (s : State) (k : Nat) : Sem := s.sems.get freshSem k
def State.setSem (s : State) (k : Nat) (x : Sem) : State := { s with sems := s.sems.set freshSem k x }

/-- Key of semaphore n of core u, or of hart h. -/
def semKey (u n : Nat) : Nat := u * 16 + n
def hartSemKey (h n : Nat) : Nat := (128 + h) * 16 + n

def freshGrace : Grace := { open_ := false, gen := 0, mask := [], entries := [], opened := 0 }
def freshCtx : Ctx := { grace := [], wait := [], fifo := [] }
def ctxKey (vi ctx : Nat) : Nat := vi * 4096 + ctx
def State.ctx (s : State) (k : Nat) : Ctx := s.ctxs.get freshCtx k
def State.setCtx (s : State) (k : Nat) (x : Ctx) : State := { s with ctxs := s.ctxs.set freshCtx k x }

def freshGroup : Group := { holder := [], left := 0, queue := [], last := none }
def State.group (s : State) (g : Nat) : Group := s.groups.get freshGroup g
def State.setGroup (s : State) (g : Nat) (x : Group) : State := { s with groups := s.groups.set freshGroup g x }

def freshBar : Barrier := { episode := 0, begun := false, late := [] }

def freshCluster : Cluster :=
  { high := false, replays := [], droopHold := none, halted := false }
def State.cluster (s : State) (c : Nat) : Cluster := s.clusters.get freshCluster c
def State.setCluster (s : State) (c : Nat) (x : Cluster) : State := { s with clusters := s.clusters.set freshCluster c x }

/-- A unit that brown-out or a thermal trip has halted, by its engine number (R299, R488, R509). -/
def State.engineHalted (s : State) (e : Nat) : Bool :=
  if 0x1000 ≤ e && e < 0x1040 then (s.cluster (e - 0x1000)).halted
  else if 0x2000 ≤ e && e < 0x2040 then (s.cluster (64 + (e - 0x2000) / 4)).halted
  else if 0x7000 ≤ e && e < 0x7002 then s.tripped.get 0 (e - 0x7000) != 0
  else false

/-- A unit is under restart (R510). -/
def State.restarting (s : State) (e : Nat) : Bool := (s.restarts.get none e).isSome

/-- The restartable unit of a core (R509). -/
def unitEngine (u : Nat) : Nat := if u < 64 then 0x1000 + u else 0x2000 + 4 * ((u - 64) / 4)

/-- Nothing goes in to a core or out of it: its die is not powered (R507, R508), or its unit is halted or under restart (R299, R488, R510). -/
def State.coreClosed (s : State) (u : Nat) : Bool := s.boot != .up || s.engineHalted (unitEngine u) || s.restarting (unitEngine u)

/-- A register of the configuration space as stored (R23). -/
def State.cfgAt (s : State) (off : Nat) : W64 := s.cfg.get 0 off
def State.setCfg (s : State) (off : Nat) (x : W64) : State := { s with cfg := s.cfg.set 0 off x }

/-- A free value of this step. -/
def State.free (s : State) (tag : Nat) : W64 := Config.free s.clock tag

/-- Offset of word 8k of card n (R419). -/
def cardOff (n : Nat) (o : Nat) : Nat := 0x80000 + 0x80 * n + o

/-! ## The Silt log (R491) -/

/-- Writes a Silt entry, a fatal one or not (R493); the ring keeps its 4,096 newest, and LOST is set when one that was not read past is
overwritten. Entries of one time that nothing has read past yet stand in order of SOURCE (R492). -/
def State.logAs (s : State) (fatal : Bool) (code source : Nat) (ctx : Nat) (a0 a1 : W64) : State :=
  let e : Silt := { time := s.time, code := BitVec.ofNat 16 code, source := BitVec.ofNat 16 source,
                    ctx := BitVec.ofNat 16 ctx, arg0 := a0, arg1 := a1, fatal := fatal, persisted := false }
  let s := if 4096 ≤ s.siltCount && s.siltRead ≤ s.siltCount - 4096 then s.setCfg 0x420000 (s.cfgAt 0x420000 ||| 0x100000000) else s
  let later := (s.silt.take (s.siltCount - s.siltRead)).takeWhile fun x => x.time == e.time && e.source.ult x.source
  { s with silt := (later ++ e :: s.silt.drop later.length).take 4096, siltCount := s.siltCount + 1 }

def State.log (s : State) (code source : Nat) (ctx : Nat) (a0 a1 : W64) : State := s.logAs false code source ctx a0 a1

/-- An argument that the manual does not give for an entry of the log. -/
def State.openArg (s : State) (k : Nat) : W64 := s.free (0x1B000000 + k)

/-- SOURCE of a core: unit kind 1 or 2 and number (R491). -/
def coreSource (u : Nat) : Nat := if u < 64 then 0x1000 + u else 0x2000 + (u - 64)

/-! ## Event counters (R490) -/

def evOff (u o : Nat) : Nat := 0xE0000 + 0x80 * u + o

/-- Counter k of core u adds n events of a code, of an interface or of none. -/
def State.count1 (s : State) (u code : Nat) (vi : Option Nat) (n k : Nat) : State :=
  let x := s.cfgAt (evOff u (8 * k))
  if x.getLsbD 15 && (x.extractLsb' 0 8).toNat == code && (!x.getLsbD 12 || vi == some (x.extractLsb' 8 4).toNat) then
    s.setCfg (evOff u (0x40 + 8 * k)) (s.cfgAt (evOff u (0x40 + 8 * k)) + BitVec.ofNat 64 n)
  else s

/-- n events of a code on core u. -/
def State.event (s : State) (u code : Nat) (vi : Option Nat) (n : Nat) : State :=
  if n = 0 then s else (List.range 8).foldl (fun s k => s.count1 u code vi n k) s

/-- Of n cycles of core u, those that threads of interface v stall on a port (code 5) or on WAIT (code 6): how long a word waits is timing, so how
many is free; none without a thread that can wait so (log entry 57). -/
def State.stallsOf (s : State) (u code n v : Nat) : Nat :=
  if s.threads.any fun e => coreOf e.1 == u && match e.2 with
    | some th => th.vi == v && (code == 5 || (List.range 6).any fun i => th.wc.get 0 i != 0)
    | none => false
  then (s.free (0x1C0001000000 + 32 * (16 * u + v) + code)).toNat % (n + 1) else 0

/-- Those of all its threads: at least as many as of one interface. -/
def State.stalls (s : State) (u code n : Nat) : Nat :=
  let m := ((List.range 16).map (s.stallsOf u code n)).foldl Nat.max 0
  if m = 0 then 0 else m + (s.free (0x1C0001000000 + 32 * (16 * u) + 16 + code)).toNat % (n - m + 1)

/-- The counters of core u for stalls on a port and on WAIT, over n cycles (R490). -/
def State.countStalls (s : State) (u n : Nat) : State :=
  (List.range 8).foldl (fun s k =>
    let x := s.cfgAt (evOff u (8 * k))
    let code := (x.extractLsb' 0 8).toNat
    if x.getLsbD 15 && (code == 5 || code == 6) then
      let o := evOff u (0x40 + 8 * k)
      s.setCfg o (s.cfgAt o + BitVec.ofNat 64 (if x.getLsbD 12 then s.stallsOf u code n (x.extractLsb' 8 4).toNat else s.stalls u code n))
    else s) s

/-- An event of thread t. -/
def State.eventOf (s : State) (t code n : Nat) : State :=
  match s.thread? t with
  | none => s
  | some th => s.event (coreOf t) code (some th.vi) n

/-! ## Scratchpads and memory bytes as stored -/

/-- The bytes a place's storage holds, before any cache in front of it. -/
def State.homeByte (s : State) : Place → Byte
  | .mem a => s.mem.get 0 a
  | .core u o => s.scratch.get 0 (u * 262144 + o)
  | .group g o => s.gscratch.get 0 (g * 8388608 + o)
  | .carved o => s.carved.get 0 o
  | .peer o => s.peer.get 0 o
  | .dev _ => 0

/-- Writes one byte of a place's storage. -/
def State.setHome (s : State) (p : Place) (b : Byte) : State :=
  match p with
  | .mem a => { s with mem := s.mem.set 0 a b }
  | .core u o => { s with scratch := s.scratch.set 0 (u * 262144 + o) b }
  | .group g o => { s with gscratch := s.gscratch.set 0 (g * 8388608 + o) b }
  | .carved o => { s with carved := s.carved.set 0 o b }
  | .peer o => { s with peer := s.peer.set 0 o b }
  | .dev _ => s

def State.setHomes (s : State) : List (Place × Byte) → State
  | [] => s
  | (p, b) :: l => (s.setHome p b).setHomes l

/-- A place n bytes on. -/
def Place.plus : Place → Nat → Place
  | .mem a, n => .mem (a + n)
  | .core u o, n => .core u (o + n)
  | .group g o, n => .group g (o + n)
  | .carved o, n => .carved (o + n)
  | .peer o, n => .peer (o + n)
  | .dev o, n => .dev (o + n)

/-- `n` bytes of storage from a physical address, as a number (R3). -/
def State.homeNat (s : State) (p : Place) (n : Nat) : Nat :=
  ofBytes ((List.range n).map fun i => s.homeByte (p.plus i))

def State.memW64 (s : State) (pa : Nat) : W64 := BitVec.ofNat 64 (s.homeNat (.mem pa) 8)

/-- The 128-byte line of a place, numbered across spaces: memory lines, then carved lines. -/
def Place.line : Place → Option Nat
  | .mem a => some (a / 128)
  | .carved o => some (0x100000000000 + o / 128)
  | _ => none

/-! ## General registers -/

/-- The predicate bits of p_i: p0 reads true in every lane (R67). -/
def Thread.pred (th : Thread) (i : Nat) : W32 := if i = 0 then BitVec.allOnes 32 else th.p.get 0 i

/-- Lanes in which a guard holds. -/
def Thread.guard (th : Thread) (g : Guard) : W32 :=
  let m := th.pred g.idx.toNat
  if g.neg then ~~~m else m

def Thread.vreg (th : Thread) (r lane : Nat) : W32 := th.v.get 0 (r * 32 + lane)
def Thread.sreg (th : Thread) (i : Nat) : W64 := if i = 0 then 0 else th.s.get 0 i

def Thread.slice (th : Thread) (i : Nat) : Slice :=
  th.slices.getD i { pc := 0, split := [], l0 := ⟨0, 0, 0⟩, l1 := ⟨0, 0, 0⟩, at_ := none }

def Thread.setSlice (th : Thread) (i : Nat) (x : Slice) : Thread := { th with slices := th.slices.set i x }

/-- The sheaf that SHSEL selects (R204). -/
def Thread.shsel (th : Thread) : Option Nat := if th.shreg.getLsbD 4 then none else some (th.shreg.extractLsb' 0 4).toNat

/-- The mask of lane positions a thread has: 32 lanes, or one for a sequencer. -/
def Thread.width (th : Thread) : Nat := if th.kind = .simt then 32 else 1

/-- The sheaf n of a block. -/
def Block.sheaf (b : Block) (n : Nat) : Sheaf := b.sheaves.getD n { members := 0, xb := 0, h := [] }

/-- In place of a level: the entry lies in peer memory, and the link has not answered the walk (R406). Whether it answers is free (log entry
54). -/
abbrev noReply : Nat := 16

/-- When an attempt that stops again started to wait: a wait for M and a wait for the link count apart. -/
def WalkM.start (w : WalkM) (level : Nat) (now : W64) : W64 := if (w.level == noReply) == (level == noReply) then w.since else now

/-- When an attempt first found M set, a wait for the link in between counted in, and the level of the last entry with M (R407). -/
def WalkM.sinceM (old : Option (W64 × Nat)) (level : Nat) (now : W64) : Option (W64 × Nat) :=
  if level == noReply then old else some ((old.map (·.1)).getD now, level)

/-- 16 us have passed within the attempt since it first found M set: the level of that entry (R407). -/
def WalkM.stalled (w : WalkM) (now : W64) : Option Nat :=
  match w.m with
  | some (t, l) => if w.set_ && 16000 ≤ (now - t).toNat then some l else none
  | none => none

/-- The attempt of a gang that waits for M to clear (R407). -/
def Thread.walkOf (th : Thread) (g : BitVec 8) : Option WalkM := th.walkM.find? fun w => w.gang == g

/-- The attempts of the other gangs. -/
def Thread.dropWalk (th : Thread) (g : BitVec 8) : List WalkM := th.walkM.filter fun w => w.gang != g

/-- A gang whose instruction is held until M is clear (R407). -/
def Thread.migHeld (th : Thread) (g : BitVec 8) : Bool := match th.walkOf g with | some w => w.set_ | none => false

/-! ## Writes to registers -/

/-- Applies one write to storage. Writes to s0 and p0 are discarded (R67). -/
def State.applyWr (s : State) (w : Wr) : State :=
  match w.loc with
  | .v t r => s.mapThread t fun th =>
      { th with v := w.lanes.foldl (fun v e => if hasLane w.mask e.1 then Tbl.set 0 v (r * 32 + e.1) e.2 else v) th.v }
  | .s t r => if r = 0 then s else s.mapThread t fun th => { th with s := Tbl.set 0 th.s r w.val }
  | .p t r => if r = 0 then s else s.mapThread t fun th =>
      { th with p := Tbl.set 0 th.p r ((th.p.get 0 r &&& ~~~w.mask) ||| (w.val.setWidth 32 &&& w.mask)) }
  | .t t r => s.mapThread t fun th =>
      { th with treg := w.bytes.foldl (fun m e => Tbl.set 0 m (r * 4096 + e.1) e.2) th.treg }
  | .h b n r => s.mapBlock b fun bl =>
      let sh := bl.sheaf n
      { bl with sheaves := bl.sheaves.set n { sh with h := Tbl.set 0 sh.h r w.val } }
  | .k b r => s.mapBlock b fun bl => { bl with k := Tbl.set 0 bl.k r w.val }

def State.applyWrs (s : State) : List Wr → State
  | [] => s
  | w :: l => (s.applyWr w).applyWrs l

/-- A scalar write. -/
def Wr.scalar (l : RegLoc) (x : W64) : Wr := { loc := l, mask := BitVec.allOnes 32, val := x, lanes := [], bytes := [] }
/-- A write to lanes of a v-register. -/
def Wr.vec (l : RegLoc) (m : W32) (x : List (Nat × W32)) : Wr := { loc := l, mask := m, val := 0, lanes := x, bytes := [] }
/-- A write to lanes of a predicate. -/
def Wr.predicate (l : RegLoc) (m bits : W32) : Wr :=
  { loc := l, mask := m, val := bits.setWidth 64, lanes := [], bytes := [] }

/-- Two writes or a write and a hazard that touch a common lane of one register. -/
def Wr.overlaps (w : Wr) (l : RegLoc) (m : W32) : Bool := w.loc == l && w.mask &&& m != 0

/-- h- and k-registers take their writes in the order in which they land (R125). -/
def RegLoc.shared : RegLoc → Bool
  | .h _ _ _ => true
  | .k _ _ => true
  | _ => false

/-- Changes every resident thread. -/
def State.mapThreads (s : State) (f : Nat → Thread → Thread) : State :=
  { s with threads := s.threads.map fun e => (e.1, e.2.map (f e.1)) }

/-- Whether a result in flight in thread k is one that a write by thread t to register l contests (R79). Of a shared register it is one whose
counter t waits for: writes from other warps land in the order in which they reach it, and so does an XADD (R125, R154). -/
def Pend.contestable (p : Pend) (k t : Nat) (l : RegLoc) : Bool :=
  !l.shared || ((k == t || p.mem.contains t) && !(match p.op with | .xadd _ => true | _ => false))

/-- Marks, in the results in flight, the register and the lanes that this write of thread t changes (R79). -/
def State.contestWr (s : State) (t : Nat) (w : Wr) : State :=
  s.mapThreads fun k th =>
    if th.pend.any (fun p => p.contestable k t w.loc && p.wr.any (·.overlaps w.loc w.mask)) then
      { th with pend := th.pend.map fun p =>
          if p.contestable k t w.loc && p.wr.any (·.overlaps w.loc w.mask) then { p with contest := (w.loc, w.mask) :: p.contest } else p }
    else th

/-- The hazards that a write to lanes `m` of a register leaves of the older ones: writes to one register land in issue order, so that a
reader far enough from the newest reads its value (R77). -/
def Thread.hazardsAfter (th : Thread) (l : RegLoc) (m : W32) : List Hazard :=
  (th.haz.filter fun h => th.pos < h.due).filterMap fun h =>
    if h.loc == l then (if h.mask &&& ~~~m = 0 then none else some { h with mask := h.mask &&& ~~~m }) else some h

/-- A fixed-latency result (R76): the value is in the register, and a reader of the writing thread at a distance below `lat`
does not yet surely see it (R77). -/
def State.writeFixed (s : State) (t lat : Nat) (w : Wr) : State :=
  ((s.contestWr t w).applyWr w).mapThread t fun th =>
    { th with haz := { loc := w.loc, mask := w.mask, due := th.pos + lat } :: th.hazardsAfter w.loc w.mask }

def State.writeFixeds (s : State) (t lat : Nat) : List Wr → State
  | [] => s
  | w :: l => (s.writeFixed t lat w).writeFixeds t lat l

/-- Whether lanes `m` of a register are not yet surely readable by thread t (R75, R77, R148). A shared register reads as the last write
that has landed (R125), but to a warp whose own result for it is in flight. -/
def State.unsure (s : State) (t : Nat) (l : RegLoc) (m : W32) : Bool :=
  (match s.thread? t with
   | none => false
   | some th => th.haz.any (fun h => h.loc == l && h.mask &&& m != 0 && th.pos < h.due)) ||
  s.threads.any fun e =>
    match e.2 with
    | none => false
    | some th => th.pend.any (fun p => (!l.shared || e.1 == t || p.mem.contains t) && p.wr.any (·.overlaps l m))

/-! ## Wait counters (R78) -/

def Thread.counter (th : Thread) (i : Nat) : Nat := th.wc.get 0 i
def Thread.setCounter (th : Thread) (i n : Nat) : Thread := { th with wc := th.wc.set 0 i n }

/-- Raises a counter in each member. -/
def State.countUp (s : State) (ms : List Nat) (c : Option (Fin 6)) (n : Nat) : State :=
  match c with
  | none => s
  | some i => ms.foldl (fun s t => s.mapThread t fun th => th.setCounter i (th.counter i + n)) s

/-- Lowers a counter by one in each member. -/
def State.countDown (s : State) (ms : List Nat) (c : Option (Fin 6)) : State :=
  match c with
  | none => s
  | some i => ms.foldl (fun s t => s.mapThread t fun th => th.setCounter i (th.counter i - 1)) s

/-- Every counter that a WAIT mask names is zero. -/
def Thread.waitOk (th : Thread) (w : BitVec 6) : Bool :=
  (List.range 6).all fun i => !w.getLsbD i || th.counter i == 0

/-! ## Results in flight -/

/-- A result that only lands: its registers, flags and counter. -/
def Pend.value (id : Nat) (sig : Option (Fin 6)) (ms : List Nat) (wr : List Wr) (flags : List (Nat × BitVec 5)) (clock : Nat) : Pend :=
  { id := id, op := .result, sig := sig, mem := ms, wr := wr, flags := flags, ps := [], sz := 0, ms := .warp, oc := 0,
    acq := false, rel := false, also := [], one := false, port := none, done := true, remote := false, weir := false, got := [], sent := 0, contest := [],
    demote := [], at_ := clock }

/-- Puts an instruction in flight for thread t: its counter rises in every member (R45, R78), and results in flight whose
registers it will write are marked (R79). -/
def State.push (s : State) (t : Nat) (p : Pend) : State :=
  let s := p.wr.foldl (fun s w => s.contestWr t w) (s.countUp p.mem p.sig 1)
  s.mapThread t fun th => { th with pend := th.pend ++ [{ p with id := th.nextId }], nextId := th.nextId + 1 }

/-- A variable-latency result of thread t. -/
def State.writeLater (s : State) (t : Nat) (sig : Option (Fin 6)) (ms : List Nat) (wr : List Wr) (flags : List (Nat × BitVec 5)) : State :=
  s.push t (Pend.value 0 sig ms wr flags s.clock)

/-- ORs flags into FFLAGS of a thread (R107, R108). -/
def State.orFlags (s : State) (t : Nat) (f : BitVec 5) : State := s.mapThread t fun th => { th with fflags := th.fflags ||| f }

/-- Flags of fixed-latency results still in flight, with the position from which each is readable. -/
def Thread.nearFlags (th : Thread) : List (BitVec 5 × Nat) := th.ffHaz.filter fun e => th.pos < e.2

/-- The flags that have surely landed (R108). -/
def Thread.sureFlags (th : Thread) : BitVec 5 := (th.ffHaz.filter fun e => e.2 ≤ th.pos).foldl (fun x e => x ||| e.1) th.fflags

/-- FFLAGS once every fixed-latency result has landed. -/
def Thread.allFlags (th : Thread) : BitVec 5 := th.ffHaz.foldl (fun x e => x ||| e.1) th.fflags

/-- ORs flags of a fixed-latency result: they are not surely readable before position `lat` from here (R108). -/
def State.orFlagsFixed (s : State) (t lat : Nat) (f : BitVec 5) : State :=
  s.mapThread t fun th => { th with fflags := th.sureFlags, ffHaz := (f, th.pos + lat) :: th.nearFlags }

/-- The flags of results of thread th that may not have landed (R108). -/
def Thread.flagsInFlight (th : Thread) (t : Nat) : BitVec 5 :=
  let near := th.nearFlags.foldl (fun x e => x ||| e.1) 0
  th.pend.foldl (fun x p => p.flags.foldl (fun x e => if e.1 = t then x ||| e.2 else x) x) near

end Sys2Proof.Machine
end

