-- ==== Sys2Proof/Machine/Paths.lean ====
section
/-! DEFINITION. Paths of a warp: split tables, hardware loops, gangs and streams, and the moves of a control transfer
(R35-R40, R44, R205-R213). -/

namespace Sys2Proof.Machine

/-! ## Loop levels -/

def Slice.lvl (sl : Slice) (l : Nat) : LoopLvl := if l = 0 then sl.l0 else sl.l1

def LoopLvl.active (l : LoopLvl) : Bool := l.count != 0

/-- Whether an address lies in the body. -/
def LoopLvl.inside (l : LoopLvl) (a : Addr) : Bool := l.start ≤ a && a ≤ l.stop

/-- Member lanes of level l in slice i (R205). -/
def Thread.member (th : Thread) (l i : Nat) : W32 := (if l = 0 then th.m0 else th.m1) &&& sliceMask i

/-- Clears membership of level l for lanes `m`; leaving level 0 also leaves level 1 (R213). -/
def Thread.unmember (th : Thread) (l : Nat) (m : W32) : Thread :=
  if l = 0 then { th with m0 := th.m0 &&& ~~~m, m1 := th.m1 &&& ~~~m } else { th with m1 := th.m1 &&& ~~~m }

/-- Pops the levels of slice i that have no member left (R213). -/
def Thread.popLevels (th : Thread) (i : Nat) : Thread :=
  let sl := th.slice i
  let z : LoopLvl → LoopLvl := fun l => { l with count := 0 }
  if th.member 0 i = 0 then
    { th.setSlice i { sl with l0 := z sl.l0, l1 := z sl.l1 } with m1 := th.m1 &&& ~~~sliceMask i }
  else if th.member 1 i = 0 then th.setSlice i { sl with l1 := z sl.l1 }
  else th

/-! ## Split tables (R37, R432, R433) -/

/-- Entries of the warp's slices held in its spill area: those beyond the eight of each slice's table. -/
def Thread.spilled (th : Thread) : Nat := (th.slices.map fun sl => sl.split.length - 8).sum

/-- Whether slice i can take n more entries (R433). -/
def Thread.roomFor (th : Thread) (i n : Nat) : Bool :=
  let len := (th.slice i).split.length
  th.spilled - (len - 8) + (len + n - 8) ≤ 16

def Thread.setRun (th : Thread) (i : Nat) (m : W32) : Thread :=
  { th with run := (th.run &&& ~~~sliceMask i) ||| m }

/-- Running lanes of slice i. -/
def Thread.runOf (th : Thread) (i : Nat) : W32 := th.run &&& sliceMask i

/-- The newest entry that satisfies a test, and the entries without it. -/
def takeNewest (f : SplitEntry → Bool) : List SplitEntry → Option (SplitEntry × List SplitEntry)
  | [] => none
  | e :: l =>
    if f e then some (e, l)
    else match takeNewest f l with
      | none => none
      | some (x, l') => some (x, e :: l')

/-- Lets entry `e` run in slice i in place of the path that ran. -/
def Thread.runEntry (th : Thread) (i : Nat) (e : SplitEntry) (rest : List SplitEntry) : Thread :=
  (th.setSlice i { th.slice i with pc := e.pc, split := rest }).setRun i e.lanes

/-- The level whose LEND slice i's running path has reached as a member path, level 1 first (R212). -/
def Thread.atEnd (th : Thread) (i : Nat) : Option Nat :=
  let sl := th.slice i
  let r := th.runOf i
  if sl.l1.active && sl.pc == sl.l1.stop && r &&& th.member 1 i != 0 then some 1
  else if sl.l0.active && sl.pc == sl.l0.stop && r &&& th.member 0 i != 0 then some 0
  else none

/-- One move of a slice whose running path stands at a PC: an empty path gives way to the newest entry; a path at the newest
entry's rejoin PC merges with it or waits for it (R37); a member path at LEND waits for entries with member lanes (R213).
A path that waits takes an entry of the table (log entry 35). `none` where nothing moves. -/
def Thread.settle1 (th : Thread) (i : Nat) : Option Thread :=
  let sl := th.slice i
  let r := th.runOf i
  if r = 0 then
    match sl.at_ with
    | some _ =>
      match takeNewest (fun e => !e.waits) sl.split with
      | some (e, rest) => some (th.runEntry i e rest)
      | none => none
    | none =>
      match sl.split with
      | e :: rest => some (th.runEntry i e rest)
      | [] => none
  else
    let lend : Option Thread :=
      match th.atEnd i with
      | none => none
      | some l =>
        match takeNewest (fun e => e.lanes &&& th.member l i != 0) sl.split with
        | none => none
        | some (e, rest) =>
          some (th.runEntry i e ({ pc := sl.pc, lanes := r, rejoin := some sl.pc, waits := true } :: rest))
    match sl.split with
    | e :: rest =>
      if e.rejoin = some sl.pc then
        if e.waits then some ((th.setSlice i { sl with split := rest }).setRun i (r ||| e.lanes))
        else some (th.runEntry i e ({ pc := sl.pc, lanes := r, rejoin := some sl.pc, waits := true } :: rest))
      else lend
    | [] => none

/-- Moves a slice until it can issue; each move uses up an entry or leaves a waiting one, so the fuel suffices. -/
def Thread.settle (th : Thread) (i : Nat) : Nat → Thread
  | 0 => th
  | n + 1 =>
    match th.settle1 i with
    | none => th
    | some th' => th'.settle i n

def Thread.settleAll (th : Thread) (g : BitVec 8) : Thread :=
  (slicesOf g).foldl (fun th i => th.settle i 128) th

/-! ## Gangs and streams (R36, R38) -/

/-- A gang of which every slice waits at a REGANG: it keeps its stream (R216). -/
def Thread.idleGang (th : Thread) (g : BitVec 8) : Bool := th.run &&& gangLanes g == 0

/-- Adds a gang: it takes a free stream or is parked at the tail (R38). -/
def Thread.addGang (th : Thread) (g : BitVec 8) : Thread :=
  if th.streams.length < 4 then { th with streams := th.streams ++ [{ gang := g, since := th.issues }] }
  else { th with park := th.park ++ [g] }

/-- The stream held longest. -/
def Thread.oldestStream (th : Thread) : Option Nat :=
  ((th.streams.zip (List.range th.streams.length)).foldl (fun (b : Option (Nat × Nat)) e =>
    match b with
    | none => some (e.2, e.1.since)
    | some x => if e.1.since < x.2 then some (e.2, e.1.since) else b) none).map (·.1)

/-- The first parked gang that can issue takes a free stream; where the gangs of all four streams wait, it takes the one held longest, whose
gang is parked (R38, R52; log entry 35). -/
def Thread.fillStreams (th : Thread) : Thread :=
  match th.park.find? (fun g => !th.idleGang g), th.park with
  | some g, _ =>
    if th.streams.length < 4 then ({ th with park := th.park.erase g } : Thread).addGang g
    else if th.streams.all fun x => th.idleGang x.gang then
      match th.oldestStream with
      | some j => { th with streams := th.streams.set j { gang := g, since := th.issues },
                            park := th.park.erase g ++ ((th.streams[j]?).map IssueStream.gang).toList }
      | none => th
    else th
  | none, g :: rest => if th.streams.length < 4 then ({ th with park := rest } : Thread).addGang g else th
  | none, [] => th

/-- Replaces gang `g` by the gangs `gs`: the first keeps its stream and its place in stream order, the others take free
streams or are parked (R40); with none, the stream is freed. -/
def Thread.splitGang (th : Thread) (g : BitVec 8) (gs : List (BitVec 8)) : Thread :=
  match th.streams.findIdx? (fun x => x.gang == g) with
  | none =>
    match gs with
    | [] => { th with park := th.park.filter (· != g) }
    | h :: rest => rest.foldl Thread.addGang { th with park := th.park.map (fun x => if x == g then h else x) }
  | some j =>
    match gs with
    | [] =>
      ({ th with streams := th.streams.eraseIdx j,
                 turn := if j < th.turn then th.turn - 1 else th.turn } : Thread).fillStreams
    | h :: rest =>
      let st := th.streams.getD j { gang := g, since := 0 }
      rest.foldl Thread.addGang { th with streams := th.streams.set j { st with gang := h } }

/-- The slices of a gang that have a path to run, grouped by PC in the order of `pcs` and then by lowest slice. -/
def Thread.groups (th : Thread) (g : BitVec 8) (pcs : List Addr) : List (BitVec 8) :=
  let live := (slicesOf g).filter fun i => th.runOf i != 0
  let all := pcs ++ live.map fun i => (th.slice i).pc
  let keys := all.eraseDups
  (keys.map fun a => (live.filter fun i => (th.slice i).pc == a).foldl (fun m i => m ||| (1#8 <<< i)) 0#8).filter (· != 0)

/-- The slices of a gang of which every path waits at a REGANG: they stay a gang (R216). -/
def Thread.waitingGang (th : Thread) (g : BitVec 8) : List (BitVec 8) :=
  let w := (slicesOf g).foldl (fun (m : BitVec 8) i =>
    if th.runOf i = 0 && (th.slice i).at_.any (·.regang) then m ||| (1#8 <<< i) else m) 0
  if w = 0 then [] else [w]

/-- After the slices of gang g have moved: those that still run continue as gangs, one at each PC (R36). -/
def Thread.regroup (th : Thread) (g : BitVec 8) (pcs : List Addr) : Thread := th.splitGang g (th.groups g pcs ++ th.waitingGang g)

/-- The same after a REGANG: the slices that wait there keep the stream (R216). -/
def Thread.regroupWaiting (th : Thread) (g : BitVec 8) : Thread := (th.splitGang g (th.waitingGang g ++ th.groups g [])).fillStreams

/-- Every slice with a path to run becomes one gang on one stream (R46, R216). -/
def Thread.oneGang (th : Thread) : Thread :=
  let g := slicesIn th.run
  if g = 0 then { th with streams := [], park := [] }
  else { th with streams := [{ gang := g, since := th.issues }], park := [], turn := 0 }

/-- Moves the stream of gang g to the last place, or parks it when others are parked; the turn stays with the stream at which it stood
(R51; log entry 35). -/
def Thread.demoteGang (th : Thread) (g : BitVec 8) : Thread :=
  match th.streams.findIdx? (fun x => x.gang == g) with
  | none => th
  | some j =>
    match th.park with
    | [] =>
      let st := th.streams.getD j { gang := g, since := 0 }
      { th with streams := th.streams.eraseIdx j ++ [st], turn := if j < th.turn then th.turn - 1 else th.turn }
    | h :: rest =>
      { th with streams := th.streams.set j { gang := h, since := th.issues }, park := rest ++ [g] }

/-- The gang on whose running path a lane is; a lane in a split entry or at a rendezvous is on none (log entry 35). -/
def Thread.gangOf (th : Thread) (lane : Nat) : Option (BitVec 8) :=
  ((th.streams.map (·.gang)) ++ th.park).find? fun g => hasLane (th.run &&& gangLanes g) lane

/-- Demotes the current path that holds `lane` (R51): in slices with split entries the running path becomes the oldest entry, with no
rejoin PC, and the newest runs; such slices go on as gangs, one at each PC; the slices without stay one gang, whose stream goes last
(log entry 35). -/
def Thread.demote (th : Thread) (lane : Nat) : Thread :=
  match th.gangOf lane with
  | none => th
  | some g =>
    let th1 := (slicesOf g).foldl (fun th i =>
      let sl := th.slice i
      match takeNewest (fun e => !e.waits) sl.split with
      | none => th
      | some (e, rest) =>
        (th.runEntry i e (rest ++ [{ pc := sl.pc, lanes := th.runOf i, rejoin := none, waits := false }])).settle i 128) th
    let keep := (slicesOf g).foldl (fun m i =>
      if ((th.slice i).split.any fun e => !e.waits) then m else m ||| (1#8 <<< i)) 0#8
    let others := th1.groups (g &&& ~~~keep) []
    if keep = 0 then th1.splitGang g others
    else (th1.splitGang g (keep :: others)).demoteGang keep

/-! ## Completing an instruction -/

/-- Whether the loop action at LEND of slice i pushes an entry for which there is no room (R212, R433). -/
def Thread.loopOverflow (th : Thread) (i : Nat) : Bool :=
  match th.atEnd i with
  | none => false
  | some l => 1 < ((th.slice i).lvl l).count && th.runOf i &&& ~~~th.member l i != 0 && !th.roomFor i 1

/-- Slice i completes the instruction at its PC and goes on: the loop-back of R212, or PC + 8. -/
def Thread.nextPc (th : Thread) (i : Nat) : Thread :=
  let sl := th.slice i
  let r := th.runOf i
  match th.atEnd i with
  | none => th.setSlice i { sl with pc := sl.pc + 8 }
  | some l =>
    let lv := sl.lvl l
    let put (x : LoopLvl) (sl : Slice) : Slice := if l = 0 then { sl with l0 := x } else { sl with l1 := x }
    if 1 < lv.count then
      let out := r &&& ~~~th.member l i
      let sl := put { lv with count := lv.count - 1 } { sl with pc := lv.start }
      let sl := if out = 0 then sl
        else { sl with split := { pc := lv.stop + 8, lanes := out, rejoin := some (lv.stop + 8), waits := false } :: sl.split }
      (th.setSlice i sl).setRun i (r &&& th.member l i)
    else
      (th.setSlice i (put { lv with count := 0 } { sl with pc := lv.stop + 8 })).unmember l (sliceMask i)

/-- The gang's slices complete an instruction. -/
def Thread.stepGang (th : Thread) (g : BitVec 8) : Thread :=
  let th := (slicesOf g).foldl Thread.nextPc th
  (th.settleAll g).regroup g []

/-! ## Control transfers (R207-R213) -/

/-- One step of the LFSR (R40): the new value and the choice. -/
def lfsrStep (x : W16) : W16 × Bool :=
  let b := x.getLsbD 0 ^^ x.getLsbD 2 ^^ x.getLsbD 3 ^^ x.getLsbD 5
  (BitVec.ofBool b ++ x.extractLsb' 1 15, b)

/-- A path of a transfer: its destination and lanes. -/
structure Path where
  pc : Addr
  lanes : W32
  deriving DecidableEq, Repr

def insertPc (a : Addr) : List Addr → List Addr
  | [] => [a]
  | b :: l => if a < b then a :: b :: l else if a = b then b :: l else b :: insertPc a l

/-- Destinations in the order of R207: targets in increasing address, with the fall-through last, or first when c is 1.
A target equal to the fall-through is the same path. -/
def destOrder (targets : List Addr) (fall : Option Addr) (c : Bool) : List Addr :=
  let ts := (targets.foldl (fun l a => insertPc a l) [])
  match fall with
  | none => ts
  | some f =>
    let ts := ts.filter (· != f)
    if c then f :: ts else ts ++ [f]

/-- What one slice does at a transfer: `dest` gives each running lane its destination. `none`: a split table overflows. Where a member path leaves
its loop and no other member lane of the slice remains, R213 says that c does not choose and not what does: the paths keep the order of R207
(DESIGN CHOICE, log entry 70). -/
def Thread.transferSlice (th : Thread) (i : Nat) (dest : Nat → Addr) (order : List Addr) (rejoin : Option Addr) :
    Option Thread :=
  let sl := th.slice i
  let r := th.runOf i
  let going (a : Addr) : W32 := (lanesOf r).foldl (fun m l => if dest l = a then m ||| lane1 l else m) 0
  let paths := (order.map fun a => ({ pc := a, lanes := going a } : Path)).filter (·.lanes != 0)
  -- the outermost level that a path leaves (R213)
  let leaves (p : Path) : Option Nat :=
    if sl.l0.active && p.lanes &&& th.member 0 i != 0 && !sl.l0.inside p.pc then some 0
    else if sl.l1.active && p.lanes &&& th.member 1 i != 0 && !sl.l1.inside p.pc then some 1
    else none
  let th' := paths.foldl (fun th p => match leaves p with | some l => th.unmember l p.lanes | none => th) th
  -- a leaving path is set aside where other member lanes of the level remain in the slice
  let out := paths.filter fun p => match leaves p with | some l => th'.member l i != 0 | none => false
  let stay := paths.filter fun p => !out.contains p
  -- an entry pushed by a member path stays within the innermost body of which that path is a member
  let inner := if sl.l1.active && r &&& th'.member 1 i != 0 then some sl.l1
    else if sl.l0.active && r &&& th'.member 0 i != 0 then some sl.l0 else none
  let clamped : Option Addr := match inner with
    | none => rejoin
    | some l => match rejoin with
      | some a => if l.inside a then some a else some l.stop
      | none => some l.stop
  let entry (rj : Option Addr) (p : Path) : SplitEntry := { pc := p.pc, lanes := p.lanes, rejoin := rj, waits := false }
  let aside := out.map fun p => entry (some ((sl.lvl ((leaves p).getD 0)).stop + 8)) p
  if paths.isEmpty then some th' else
  match stay with
  | p :: ps =>
    -- a running path stays: the others are pushed, those that leave the body first
    if th'.roomFor i (ps.length + aside.length) then
      some (((th'.setSlice i { sl with pc := p.pc, split := (ps.map (entry clamped)) ++ aside ++ sl.split }).setRun i p.lanes).popLevels i)
    else none
  | [] =>
    -- every running lane leaves: its path goes beneath the oldest entry with member lanes
    let mem := out.foldl (fun m p => m ||| th'.member ((leaves p).getD 0) i) 0
    let k := sl.split.length - (sl.split.reverse.findIdx fun e => e.lanes &&& mem != 0)
    match sl.split.take k ++ aside ++ sl.split.drop k with
    | [] => some th'
    | e :: rest =>
      if th'.roomFor i aside.length then some ((th'.runEntry i e rest).popLevels i) else none

/-- A control transfer of gang g at lane scope: active lanes to `dest`, the others to the fall-through. `none`: a split
table overflows, in the slice given first. -/
def Thread.transfer (th : Thread) (g : BitVec 8) (act : W32) (dest : Nat → Addr) (fall : Addr) (rejoin : Option Addr) :
    Except Nat Thread :=
  let run := th.run &&& gangLanes g
  let goal (l : Nat) : Addr := if hasLane act l then dest l else fall
  let targets := (lanesOf (run &&& act)).map dest
  let ft := if run &&& ~~~act = 0 then none else some fall
  let n := (destOrder targets ft false).length
  let (x, c) := lfsrStep th.lfsr
  let th := if 1 < n && th.kind == .simt then { th with lfsr := x } else th
  let order := destOrder targets ft (1 < n && c)
  let r := (slicesOf g).foldl (fun (a : Except Nat Thread) i =>
    match a with
    | .error j => .error j
    | .ok th => match th.transferSlice i goal order rejoin with
      | none => .error i
      | some th' => .ok th') (.ok th)
  match r with
  | .error j => .error j
  | .ok th => .ok ((th.settleAll g).regroup g order)

/-- The running lanes of gang g go to more than one destination. -/
def Thread.diverges (th : Thread) (g : BitVec 8) (act : W32) (dest : Nat → Addr) (fall : Addr) : Bool :=
  1 < ((lanesOf (th.run &&& gangLanes g)).map fun l => if hasLane act l then dest l else fall).eraseDups.length

/-! ## Rendezvous (R44-R48) -/

/-- The running path of slice i has reached a scoped PC: it waits there and the newest entry that can run does (R44). -/
def Thread.reach (th : Thread) (i : Nat) (a : Arrival) : Thread :=
  let th := { th with held := th.held ||| th.runOf i }
  ((th.setSlice i { th.slice i with at_ := some a }).setRun i 0).settle i 128

/-- A slice has reached its rendezvous when it waits there and no entry can still run. -/
def Thread.reached (th : Thread) (i : Nat) (pc : Addr) : Bool :=
  match (th.slice i).at_ with
  | some a => a.pc == pc && th.runOf i == 0
  | none => false

/-- Where slice i stands: its running path, or the word it waits at. -/
def Thread.standsAt (th : Thread) (i : Nat) : Addr :=
  match (th.slice i).at_ with
  | some a => if th.runOf i = 0 then a.pc else (th.slice i).pc
  | none => (th.slice i).pc

/-- Live slices of a thread. -/
def Thread.liveSlices (th : Thread) : BitVec 8 := slicesIn th.live

/-- A warp has arrived at a PC when each of its live slices has reached it (R44). -/
def Thread.arrivedAt (th : Thread) (pc : Addr) : Bool := (slicesOf th.liveSlices).all fun i => th.reached i pc

/-- The waiting paths of the slices of g run again at their rendezvous PC. -/
def Thread.release (th : Thread) (g : BitVec 8) : Thread :=
  (slicesOf g).foldl (fun th i =>
    match (th.slice i).at_ with
    | none => th
    | some a =>
      let m := th.held &&& sliceMask i
      let th' := (th.setSlice i { th.slice i with pc := a.pc, at_ := none }).setRun i m
      { th' with held := th.held &&& ~~~sliceMask i }) th

/-- The gangs `gs` go on in the place of the waiting gangs of mask m: the first on the stream of the lowest slice, the others as new gangs
(R216); where that slice's gang is parked, on the stream of another gang of the mask, else on a free one (log entry 35). -/
def Thread.joinStreams (th0 : Thread) (m : BitVec 8) (gs : List (BitVec 8)) : Thread :=
  let th := { th0 with park := th0.park.filter fun g => g &&& ~~~m != 0 }
  let low := ((slicesOf m).head?).getD 0
  let held := (th.streams.map IssueStream.gang).filter fun x => x &&& m != 0 && x &&& ~~~m == 0
  match held.filter (fun x => hasSlice x low) ++ held, gs with
  | x :: _, g :: rest =>
    let th := { th with streams := th.streams.map fun (y : IssueStream) => if y.gang == x then { y with gang := g } else y }
    let others := held.filter (· != x)
    rest.foldl Thread.addGang (others.foldl (fun th y => th.splitGang y []) th)
  | _, _ => gs.foldl Thread.addGang th

/-- Joins the slices of a REGANG whose whole mask has reached it: they continue as one gang past it (R216). -/
def Thread.joinRegang (th : Thread) (i : Nat) : Thread :=
  match (th.slice i).at_ with
  | none => th
  | some a =>
    let m := a.mask &&& th.liveSlices
    if a.regang && (slicesOf m).all fun j => th.reached j a.pc then
      let th := th.release m
      let th := (slicesOf m).foldl Thread.nextPc th
      let th := th.settleAll m
      th.joinStreams m (th.groups m [])
    else th

/-- Joins every REGANG that is complete. -/
def Thread.joinRegangs (th : Thread) : Thread := (List.range 8).foldl Thread.joinRegang th

/-! ## Exit (R220) -/

/-- Ends lanes `m` of gang g at an EXIT: they leave their paths, entries and loops; the lanes that go on complete the EXIT,
and the newest entry of an emptied slice runs. -/
def Thread.exitLanes (th : Thread) (g : BitVec 8) (m : W32) : Thread :=
  let th := { th with live := th.live &&& ~~~m, run := th.run &&& ~~~m, m0 := th.m0 &&& ~~~m, m1 := th.m1 &&& ~~~m }
  let th := (slicesOf g).foldl (fun th i => if m &&& sliceMask i = 0 then th else th.popLevels i) th
  let th := (slicesOf g).foldl (fun th i => if th.runOf i = 0 then th else th.nextPc i) th
  ((th.settleAll g).regroup g []).joinRegangs

end Sys2Proof.Machine
end

