-- ==== Sys2Proof/Machine/Ops.lean ====
section
/-! DEFINITION. Shared operations: how blocks and contexts end, taking a trap and returning from one. -/

namespace Sys2Proof.Machine

/-! ## Cause codes (R233) -/

abbrev cIllegalOpcode : Nat := 0x01
abbrev cIllegalOperand : Nat := 0x02
abbrev cIllegalScope : Nat := 0x03
abbrev cPrivilege : Nat := 0x04
abbrev cMisaligned : Nat := 0x05
abbrev cBounds : Nat := 0x06
abbrev cHandleInvalid : Nat := 0x07
abbrev cPageFault : Nat := 0x08
abbrev cTableAbsent : Nat := 0x09
abbrev cTableRemote : Nat := 0x0A
abbrev cMigrationStall : Nat := 0x0B
abbrev cPermission : Nat := 0x0C
abbrev cTrapInstr : Nat := 0x0E
abbrev cDivergenceDepth : Nat := 0x10
abbrev cLoopEndBranch : Nat := 0x11
abbrev cScopeMismatch : Nat := 0x12
abbrev cSpawnDepth : Nat := 0x13
abbrev cRsectDepth : Nat := 0x14
abbrev cSemCeiling : Nat := 0x18
abbrev cBarrierMember : Nat := 0x1A
abbrev cAccWindow : Nat := 0x25
abbrev cPacketLost : Nat := 0x34
abbrev cSubBroken : Nat := 0x35
abbrev cEngineRestart : Nat := 0x36

/-! ## Ending threads, blocks and contexts -/

/-- Threads of a block that the dispatcher launched: warps, or both sequencers of each tile thread. -/
def Block.launched (b : Block) : List Nat :=
  if b.tile then b.thr.flatMap fun t => [t, t + 1] else b.thr

def Block.threads (b : Block) : List Nat := b.launched ++ b.spawned

/-- What names a warp across saves: its block and its index. -/
def Thread.uid (th : Thread) : Nat := th.block * 65536 + th.index

/-- A warp leaves the grace snapshots of its context (R467). -/
def State.leaveGrace (s : State) (th : Thread) : State :=
  let key := ctxKey th.vi th.ctx
  let c := s.ctx key
  s.setCtx key { c with grace := c.grace.map fun e => (e.1, { e.2 with mask := e.2.mask.filter (· != th.uid) }) }

/-- Records that a thread leaves unread: those of a non-zero status go to the Silt log as ORPHAN_RECORD (R305). -/
def State.orphanRecords (s : State) (k : Nat) (rs : List W64) : State :=
  let x := (s.stream k).ident
  (rs.filter fun r => r.extractLsb' 56 8 != 0).foldl (fun s r =>
    s.log 0x0420 (coreSource (coreOf (k / 8))) ((x.map (·.vi)).getD 0 * 4096 + (x.map (·.ctx)).getD 0) r
      (BitVec.ofNat 64 (k % 8 * 256 + k / 8 % 64))) s

/-- Its streams keep draining as orphans; one that is empty is gone (R305). The words of a saved stream go with its image (R380). -/
def State.orphanStream (s : State) (k : Nat) : State :=
  let y := s.stream k
  let s := if 100000 ≤ k then s else s.orphanRecords k (y.fifo ++ y.waitRecs)
  let n := if 100000 ≤ k then (y.buf.filter fun w => isLaunchWord w.1).length else 0
  let x := if 100000 ≤ k then { y with buf := [], outstanding := y.outstanding - n } else y
  let s := match y.ident.bind (·.card) with
    | some c => if n = 0 then s else s.mapJob c fun j => { j with launches := j.launches - n }
    | none => s
  if x.buf.isEmpty && x.run.isNone then s.setStream k emptyStream
  else s.setStream k { x with orphan := true, fifo := [], waitRecs := [], halted := false, haltLeft := 0, reserved := 0 }

/-- A take at the head of semaphore k that its value covers is served before anything else happens: it waits for no other operation on the
semaphore (R458, log entry 2). -/
def State.serveNext (s : State) (k : Nat) : State :=
  match (s.sem k).takes with
  | [] => s
  | t :: _ => if t.n ≤ (s.sem k).value then { s with agenda := .event (.semTakeServed k) :: s.agenda } else s

/-- Some takes leave their semaphores; those that come to the head and are covered are served. -/
def State.withdrawTakes (s : State) (f : Take → Bool) : State :=
  let ks := s.sems.filterMap fun e => if e.2.takes.any f then some e.1 else none
  ks.foldl State.serveNext { s with sems := s.sems.map fun e => (e.1, { e.2 with takes := e.2.takes.filter fun k => !f k }) }

/-- Gives up the takes that a thread has waiting (R458). -/
def State.dropTakes (s : State) (t : Nat) : State := s.withdrawTakes fun k => !k.stream && k.who == t

/-- Releases the lease of a group that thread t holds or waits for (R342). -/
def State.dropLease (s : State) (t : Nat) : State :=
  { s with groups := s.groups.map fun e =>
      let g := e.2
      let g := { g with queue := g.queue.filter fun q => !q.1.contains t }
      (e.1, if g.holder.contains t then { g with holder := [], left := 0 } else g) }

/-- Thread t gives up its part of a lease and its requests: a joint lease lasts until its last holder has left it (R342). -/
def State.quitLease (s : State) (t : Nat) : State :=
  { s with groups := s.groups.map fun e =>
      let g := { e.2 with queue := e.2.queue.filter fun q => !q.1.contains t }
      let l := g.holder.filter (· != t)
      (e.1, if g.holder.contains t then { g with holder := l, left := if l.isEmpty then 0 else g.left } else g) }

/-- Launches left under the lease that a thread holds (R180). -/
def State.leaseOf (s : State) (t : Nat) : Option Nat :=
  (s.groups.find? fun e => e.2.holder.contains t).map (·.2.left)

/-- The Ridge array that serves a tile thread: its group's, or in a span the one of its thread index in the course (R340, R357). -/
def arrayOf (b : Block) (t : Nat) : Nat :=
  let u := coreOf t
  if !isTile t then 0
  else if b.span then groupOf u / 4 * 4 + ((b.thr.findIdx? (· == asOf t)).getD ((u - 64) % 4)) % 4
  else groupOf u

/-- First and last array row of a tile thread's accumulator window (R179). -/
def State.windowOf (s : State) (t : Nat) : Nat × Nat :=
  match s.thread? (asOf t + 1) with
  | some th => if isTile t then (th.wbase, th.wlim) else (1, 0)
  | none => (1, 0)

/-- A q3 stream of a tile thread holds words or a launch. -/
def State.ridgeBusy (s : State) (t : Nat) : Bool :=
  [asOf t, asOf t + 1].any fun m => let x := s.stream (streamKey m 3); !x.buf.isEmpty || x.run.isSome

/-- The XS's window stays with the q3 streams of a tile thread that ends, and with its block. -/
def State.keepWindow (s : State) (t : Nat) : State :=
  if isTile t && t % 2 = 1 then
    let s := match s.thread? t with
      | some th => s.mapBlock th.block fun b => { b with wins := b.wins.insert th.index (s.windowOf t) }
      | none => s
    [t - 1, t].foldl (fun s m => s.mapStream (streamKey m 3) fun x => { x with ident := x.ident.map fun i => { i with win := s.windowOf t } }) s
  else s

/-- A register of thread t. -/
def RegLoc.ofThread (t : Nat) : RegLoc → Bool
  | .v x _ => x == t
  | .s x _ => x == t
  | .p x _ => x == t
  | .t x _ => x == t
  | _ => false

/-- A shared register of block b. -/
def RegLoc.ofBlock (b : Nat) : RegLoc → Bool
  | .h x _ _ => x == b
  | .k x _ => x == b
  | _ => false

/-- An error in what a thread holds, or in what a block holds in common. -/
def ErrLoc.ofThread (t : Nat) : ErrLoc → Bool
  | .reg l => l.ofThread t
  | .status x _ => x == t
  | .tseg x _ => x == t
  | _ => false

def ErrLoc.ofBlock (b : Nat) : ErrLoc → Bool
  | .reg l => l.ofBlock b
  | _ => false

/-- The code word of a scratchpad in which a byte lies (R292). -/
def Place.sram : Place → Option ErrLoc
  | .core u o => some (.core u (o / 4))
  | .group g o => some (.group g (o / 64))
  | _ => none

/-- The first byte of a read that lies in a scratchpad word with an error. -/
def State.sramRead (s : State) (ps : List Place) : Option Place :=
  if s.regErr.isEmpty then none else ps.find? fun p => p.sram.any s.regErr.contains

/-- All the bytes of a code word are among these. -/
def ErrLoc.coveredBy (ps : List Place) : ErrLoc → Bool
  | .core u n => (List.range 4).all fun i => ps.contains (.core u (4 * n + i))
  | .group g n => (List.range 64).all fun i => ps.contains (.group g (64 * n + i))
  | _ => false

/-- The same of a write, which reads a word that it replaces in part (R292). -/
def State.sramWrite (s : State) (ps : List Place) : Option Place :=
  if s.regErr.isEmpty then none else ps.find? fun p => p.sram.any fun e => s.regErr.contains e && !e.coveredBy ps

/-- A write clears the errors of the words that it replaces whole. -/
def State.sramClear (s : State) (ps : List Place) : State :=
  if s.regErr.isEmpty then s else { s with regErr := s.regErr.filter fun e => !e.coveredBy ps }

/-- The 64-byte segments that the first n bytes of thread t's t-register r touch (R292). -/
def tsegsOf (t r n : Nat) : List ErrLoc := (List.range ((n + 63) / 64)).map fun i => .tseg t (64 * r + i)

/-- What other threads hold of a thread that leaves its slot: no YIELD waits for it (R218), and a window whose leader it was has no counter
left to wait for (R59). -/
def State.unlink (s : State) (t : Nat) : State :=
  s.mapThreads fun _ x =>
    { x with
      windows := x.windows.map fun w => if w.owner = t then { w with owner := goneKey } else w
      yields := x.yields.map fun y => (y.1, y.2.filter (· != t)) }

/-- A thread leaves its slot. -/
def State.endThread (s0 : State) (t : Nat) : State :=
  let s := s0.unlink t
  match s.thread? t with
  | none => s
  | some th =>
    let s := (List.range 6).foldl (fun s q => s.orphanStream (streamKey t q)) (s.keepWindow t)
    let s := (s.dropTakes t).quitLease t
    let s := s.leaveGrace th
    { s.dropThread t with regErr := s.regErr.filter fun l => !l.ofThread t
                          dq := s.dq.filter fun e => !(isTile t && e.1 / 8 == asOf t)
                          dqAcq := s.dqAcq.filter fun e => !(isTile t && e.1 / 8 == asOf t) }

/-- The oldest n entries of a publication leave for every subscriber that is not broken. -/
def State.sendBatch (s : State) (key n : Nat) : State :=
  match s.subs.get none key with
  | none => s
  | some x =>
    let go := x.batch.take n
    let msgs := (go.zip (List.range go.length)).flatMap fun e =>
      x.peers.filterMap fun p =>
        match s.subs.get none (p.1 * 16 + p.2) with
        | some y => if y.broken then none else
            let mask := if e.1.skip.contains (p.1 * 16 + p.2) then 0 else e.1.mask
            some ({ src := key / 16, srcEntry := key % 16, dst := p.1, dstEntry := p.2, seq := x.seqOut + e.2, copy := false,
                    entry := { e.1 with mask := mask, skip := [] }, sent := s.time, at_ := s.clock } : BatchMsg)
        | none => none
    { s with batches := s.batches ++ msgs
             subs := s.subs.insert key (some { x with batch := x.batch.drop n, seqOut := x.seqOut + go.length }) }

/-- Entries under way to a subscription, not yet applied. -/
def State.underWay (s : State) (key : Nat) : Bool := s.batches.any fun m => m.acked.isNone && m.dst * 16 + m.dstEntry == key

/-- Whether something that left at this device time waits for the pause of the gutters to end (R452). -/
def State.heldBack (s : State) (sent : W64) : Bool := s.pause && s.pausedAt ≤ sent

/-- A subscription whose publication is gone ends once nothing is under way to it (R446). -/
def State.endSub (s : State) (key : Nat) : State :=
  match s.subs.get none key with
  | some x =>
    if x.pub || s.underWay key || (s.subs.any fun e => match e.2 with
        | some p => p.pub && p.peers.any fun q => q.1 * 16 + q.2 == key
        | none => false) then s
    else { s with subs := s.subs.insert key (some { x with ended := true }) }
  | none => s

/-- Removes one entry: a publication sends what it holds and its subscriptions end; a subscription takes what is under way to it
with it (R446). -/
def State.removeSub (s : State) (key : Nat) : State :=
  match s.subs.get none key with
  | none => s
  | some x =>
    if x.pub then
      let s := s.sendBatch key x.batch.length
      x.peers.foldl (fun s p => s.endSub (p.1 * 16 + p.2)) { s with subs := s.subs.erase key }
    else
      { s with
        subs := (s.subs.erase key).map fun e => (e.1, e.2.map fun y => { y with peers := y.peers.filter fun p => p.1 * 16 + p.2 != key })
        batches := s.batches.filter fun m => m.dst * 16 + m.dstEntry != key }

/-- The entries of a block leave the subscription tables (R443). -/
def State.dropSubs (s : State) (b : Nat) : State :=
  (s.subs.filterMap fun e => match e.2 with
    | some x => if x.block = b then some e.1 else none
    | none => none).foldl State.removeSub s

/-- A block gives up its threads, barriers, subscriptions and spawn requests. -/
def State.unseat (s : State) (b : Nat) : State :=
  match s.block? b with
  | none => s
  | some x =>
    let ts := x.threads
    let s := ts.foldl State.endThread s
    -- words of a span that still drain keep the windows of all its threads (R305, R358)
    let wins := ((s.block? b).map (·.wins)).getD []
    let s := if !x.span then s else
      { s with streams := s.streams.map fun e => (e.1, { e.2 with ident := e.2.ident.map fun i => if i.block = b then { i with wins := wins } else i }) }
    let s := s.dropSubs b
    let gone (y : Barrier) : Barrier :=
      { y with late := y.late.filter (!ts.contains ·) }
    let s := { s with
      coreBars := s.coreBars.map fun e => (e.1, gone e.2)
      jobBars := s.jobBars.map fun e => (e.1, { e.2 with late := e.2.late.filter (· != b) })
      spawnq := s.spawnq.map fun e => (e.1, e.2.filter fun r => r.block != b) }
    s

/-- A block ends: its threads, region, barriers, subscriptions, spawn requests and save slot are given up; `lost` says that it
ended without relaunch (R34, R230, R384). -/
def State.endBlock (s : State) (b : Nat) (lost : Bool) : State :=
  match s.block? b with
  | none => s
  | some x =>
    let s := s.unseat b
    let s := { s with blocks := s.blocks.erase b, regErr := s.regErr.filter fun l => !l.ofBlock b }
    if lost then s.mapJob x.card fun j => { j with lost := true } else s

/-- A block ends as KILLED: its cause and XVAL are recorded, it sets LOST and is not relaunched (R230, R294, R384). -/
def State.killBlock (s : State) (b : Nat) (cause val : W64) : State :=
  match s.block? b with
  | none => s
  | some x =>
    ({ s with kills := { vi := x.vi, ctx := x.ctx, block := some (x.card, x.ord), cause := cause, val := val } :: s.kills } : State).endBlock b true

/-- A block loses its unit and awaits relaunch; what its store buffer held is dropped (R253, R294). -/
def State.awaitRelaunch (s : State) (b : Nat) : State :=
  (s.unseat b).mapBlock b fun x =>
    { x with phase := .relaunch, thr := [], spawned := [], spawnCount := 0, sbuf := [], bars := [], savedSpawn := [], slot := none, prey := none,
             gone := [] }

/-- An uncorrectable error that allows a relaunch ends a block, with its cause and XVAL (R294): it is relaunched where `again` says so,
unless it has been relaunched before. -/
def State.loseBlock (s : State) (b : Nat) (again : Block → Bool) (cause : Nat) (val : W64) : State :=
  match s.block? b with
  | none => s
  | some x =>
    if x.phase != .resident && x.phase != .saving then s
    else if again x && x.relaunches == 0 then
      ({ s with kills := { vi := x.vi, ctx := x.ctx, block := some (x.card, x.ord), cause := BitVec.ofNat 64 cause, val := val } :: s.kills }
        : State).awaitRelaunch b
    else s.killBlock b (BitVec.ofNat 64 cause) val

/-- The resident block whose region holds a byte of a scratchpad. -/
def State.regionOwner (s : State) (p : Place) : Option Nat :=
  s.blocks.findSome? fun e => match e.2 with
    | some b =>
      let here := match p with
        | .core u o => !b.tile && b.unit == u && b.spBase ≤ o && o < b.spBase + b.spSize
        | .group g o => b.tile && (b.unit == g || (b.span && b.unit / 4 == g / 4)) && b.spBase ≤ o && o < b.spBase + b.spSize
        | _ => false
      if here && (b.phase == .resident || b.phase == .saving) then some e.1 else none
    | none => none

/-- Contained and not committed, or idempotent: a block that an error in its registers or its region lets run again. -/
def Block.again (x : Block) : Bool := (x.cont && !x.committed) || x.idem

/-- An error in a scratchpad is consumed: the block that owns the region ends with UE_SCRATCHPAD and the scratchpad address, whoever reads it
(R294). -/
def State.loseSram (s : State) (p : Place) : State :=
  let a := match p with | .core _ o => o | .group _ o => o | _ => 0
  let s := { s with regErr := s.regErr.filter fun e => some e != p.sram }
  match s.regionOwner p with
  | some b => s.loseBlock b Block.again 0x28 (BitVec.ofNat 64 a)
  | none => s

/-- Every block of a job ends and its walker stops; the job completes with `outcome`. `lost` says that its resident blocks end as by KILL.blk,
recorded with the outcome's cause and the card, as JOB_EXCEPTION gives them, and that its saved images are discarded (R380, R384). -/
def State.stopJob (s : State) (card outcome : Nat) (lost : Bool) : State :=
  let bs := s.blocks.filterMap fun e => match e.2 with
    | some x => if x.card == card then some e.1 else none
    | none => none
  (bs.foldl (fun s b =>
    if lost && (s.block? b).any (fun x => x.phase == .resident || x.phase == .saving) then
      s.killBlock b (BitVec.ofNat 64 outcome) (BitVec.ofNat 64 card)
    else s.endBlock b lost) s).mapJob card fun j =>
    if j.ending = .none then { j with ending := .stopped outcome, walked := true, notices := [] } else j

/-- Ends every job of a context, discards its grace slots and queue, clears ARM on its cards and logs CTX_KILL
(R228, R230, R384, R471). -/
def State.killContext (s : State) (vi ctx source : Nat) (arg1 cause val : W64) : State :=
  let cards := s.jobs.filterMap fun e => match e.2 with
    | some j => if (j.w0.extractLsb' 58 4).toNat == vi && (j.w0.extractLsb' 46 12).toNat == ctx then some e.1 else none
    | none => none
  let s := s.log 0x0411 source (vi * 4096 + ctx) (BitVec.ofNat 64 (vi * 4096 + ctx)) arg1
  let s := { s with kills := { vi := vi, ctx := ctx, block := none, cause := cause, val := val } :: s.kills }
  let s := cards.foldl (fun s c => s.stopJob c 0x3F false) s
  let s := ((List.range 1024).filter fun c =>
      let w := s.cfgAt (cardOff c 0)
      w.getLsbD 63 && (w.extractLsb' 58 4).toNat == vi && (w.extractLsb' 46 12).toNat == ctx).foldl
    (fun s c => s.setCfg (cardOff c 0) (s.cfgAt (cardOff c 0) &&& 0x7FFFFFFFFFFFFFFF)) s
  let c := s.ctx (ctxKey vi ctx)
  s.setCtx (ctxKey vi ctx)
    { c with grace := c.grace.map fun e => (e.1, if e.2.open_ then { freshGrace with gen := e.2.gen + 1 } else e.2)
             wait := [], fifo := [] }

/-! ## Taking a trap (R227, R228, R232) -/

/-- What a trap records: cause, whether asynchronous, the scope of the trapping instruction, the resume address, XVAL, the
slice and lane named, the active lanes, the slices that resume at XPC, and the members suspended with the thread (R49). -/
structure TrapInfo where
  code : Nat
  async : Bool
  scp : Scope
  pc : Addr
  val : W64
  slice : Nat
  lane : Nat
  mask : W32
  gang : BitVec 8
  members : List Nat
  /-- an asynchronous cause of a word that the AS pushed (R232) -/
  pushed : Bool
  deriving DecidableEq, Repr

/-- The members that a trap suspends: at sheaf or block scope each of them is a whole tile thread (R49). -/
def TrapInfo.suspends (i : TrapInfo) : List Nat :=
  if !i.async && (i.scp == .sheaf || i.scp == .block) then (i.members.flatMap fun m => if isTile m then [m, pairOf m] else [m]).eraseDups else i.members

/-- The trap registers as an entry writes them (R206, R227). -/
def TrapRegs.enter (r : TrapRegs) (i : TrapInfo) : TrapRegs :=
  { r with
    cause := BitVec.ofNat 64 (i.scp.bits.toNat * 1024 + (if i.async then 512 else 0) + i.code)
    pc := i.pc
    val := i.val
    slice := BitVec.ofNat 64 (i.lane * 256 + i.slice)
    mask := i.mask }

/-- Every fixed-latency result of a thread lands, its flags with it (R227). -/
def Thread.landFixed (th : Thread) : Thread := { th with haz := [], ffHaz := [], fflags := th.allFlags }

/-- A trap of thread t. A fault in trap mode, and a trap while XVEC is 0, end the context; the AS halts with its trap
registers written and its XS takes the trap later (R391); any other thread starts its handler in single-lane mode. -/
def State.trapEntry (s : State) (t : Nat) (i : TrapInfo) : State :=
  match s.thread? t with
  | none => s
  | some th =>
    let kill (first second : Nat) :=
      s.killContext th.vi th.ctx (coreSource (coreOf t)) (BitVec.ofNat 64 (second * 256 + first)) (BitVec.ofNat 64 first) i.val
    match th.inTrap with
    | some x => kill x.first i.code
    | none =>
      if th.kind = .as then
        i.suspends.foldl (fun s m => if m = t || m = pairOf t then s else s.mapThread m fun x => { x.landFixed with susp := some t })
          (s.setThread t { th.landFixed with trap := th.trap.enter i, asHalt := true, walkM := th.dropWalk i.gang })
      else if th.trap.vec = 0 then kill i.code 0
      else
        let th := { th.landFixed with
          trap := th.trap.enter i
          inTrap := some { pc := th.trap.vec, gang := i.gang, members := i.suspends.filter (· != pairOf t), first := i.code, pushed := i.pushed, wild := none }
          walkM := th.dropWalk i.gang }
        let s := s.setThread t th
        i.suspends.foldl (fun s m =>
          if m = t || (m = pairOf t && th.kind = .xs) then s else s.mapThread m fun x => { x.landFixed with susp := some t }) s

/-- A word refused in trap mode ends the context, with the second cause given (R228). -/
def State.refuseInTrap (s : State) (t : Nat) (second : Nat) : State :=
  match s.thread? t with
  | none => s
  | some th =>
    let first := match th.inTrap with | some x => x.first | none => th.trap.cause.toNat % 256
    s.killContext th.vi th.ctx (coreSource (coreOf t)) (BitVec.ofNat 64 (second * 256 + first)) (BitVec.ofNat 64 first) th.trap.val

/-! ## Returning from a trap (R229, R392) -/

/-- The slices of a thread resume at the PC given: those that wait at a rendezvous at that same PC go on waiting. A branch target with bits above
51 whose fetch a trap or a save came before (R209) is resumed at its low 52 bits, and its PAGE_FAULT does not come (DESIGN CHOICE, log
entry 71). -/
def Thread.resumeAt (th0 : Thread) (g : BitVec 8) (pc : Addr) : Thread :=
  let th := { th0 with wild := th0.wild.filter fun e => e.1 &&& gangLanes g == 0 }
  let waits := (slicesOf g).any fun i => (th.slice i).at_.isSome && th.runOf i == 0
  if waits then
    if (slicesOf g).all fun i => match (th.slice i).at_ with | some a => a.pc == pc | none => true then th
    else
      let th := th.release g
      let th := (slicesOf g).foldl (fun th i => th.setSlice i { th.slice i with pc := pc }) th
      let th := th.settleAll g
      { th.joinStreams g (th.groups g []) with rdv := none }
  else
    let th := (slicesOf g).foldl (fun th i => th.setSlice i { th.slice i with pc := pc }) th
    (th.settleAll g).regroup g []

/-- The AS whose fault the handler of XS t is for (R391). -/
def State.haltedAs (s : State) (t : Nat) (x : InTrap) : Option Thread :=
  match s.thread? (pairOf t) with
  | some a => if isTile t && a.asHalt && x.members.contains (pairOf t) then some a else none
  | none => none

/-- Leaves trap mode: the trapping slices resume at XPC, every suspended member with them; an AS whose fault was being handled
issues its instruction again, and the members of its scope resume with it at its own XPC (R49, R225, R392). -/
def State.trapReturn (s : State) (t : Nat) : State :=
  match s.thread? t with
  | none => s
  | some th =>
    match th.inTrap with
    | none => s
    | some x =>
      let pc := th.trap.pc
      let as_ := s.haltedAs t x
      let th' := x.later.foldl Thread.demote (th.resumeAt x.gang pc)
      let s := s.setThread t { th' with inTrap := none }
      x.members.foldl (fun s m =>
        if m = t then s
        else s.mapThread m fun y =>
          -- a member of a mismatched scope goes on where it stood, and so does the other sequencer of each tile thread (R48, R49)
          match as_ with
          | some a =>
            if m = pairOf t then { (y.resumeAt y.liveSlices y.trap.pc) with asHalt := false, susp := none }
            else if x.first = cScopeMismatch || y.kind != .as then { y with susp := none }
            else { (y.resumeAt y.liveSlices a.trap.pc) with susp := none }
          | none =>
            if x.first = cScopeMismatch || y.kind != th.kind then { y with susp := none }
            else { (y.resumeAt y.liveSlices pc) with susp := none }) s

end Sys2Proof.Machine
end

