-- ==== Sys2Proof/Machine/Mere.lean ====
section
/-! DEFINITION. Home storage: the Mere's directory, owners, poison and uncorrectable errors, weirs, writes with what follows
from them, and the L1s (R234-R237, R282-R296, R354, R448, R476-R480). -/

namespace Sys2Proof.Machine

/-! ## Slices, sets and ways (R282-R286) -/

/-- Byte of its line at which a place lies. -/
def Place.inLine : Place → Nat
  | .mem a => a % 128
  | .carved o => o % 128
  | _ => 0

/-- Bits lo to lo + n - 1 of a number. -/
def bitsOf (x lo n : Nat) : Nat := (x / 2 ^ lo) % 2 ^ n

/-- The home slice of a physical address. -/
def sliceOf (pa : Nat) : Nat := (List.range 9).foldl (fun x i => x ^^^ bitsOf pa (7 + 5 * i) 5) 0

def setOf (pa : Nat) : Nat := bitsOf pa 12 13
def tagOf (pa : Nat) : Nat := bitsOf pa 25 27

/-- Key of way w of a set. -/
def wayKey (slice set w : Nat) : Nat := (slice * 8192 + set) * 16 + w

def mslOff (slice o : Nat) : Nat := 0x10000 + 0x100 * slice + o

/-- Ways of a slice that are enabled. -/
def State.enWays (s : State) (slice : Nat) : W16 := s.inv.ways.get 0xFFFF slice
def State.gateWays (s : State) (slice : Nat) : W16 := (s.cfgAt (mslOff slice 0)).extractLsb' 16 16
def State.quarWays (s : State) (slice : Nat) : W16 := (s.cfgAt (mslOff slice 0)).extractLsb' 32 16
def State.carveWays (s : State) : W16 := (s.cfgAt 0x200).extractLsb' 0 16
def State.allocWays (s : State) (slice vi : Nat) : W16 := (s.cfgAt (mslOff slice (0x40 + 8 * vi))).extractLsb' 0 16
def State.sensorWays (s : State) (slice vi : Nat) : W16 := (s.cfgAt (mslOff slice (0x40 + 8 * vi))).extractLsb' 16 16
def State.allSensor (s : State) (slice : Nat) : W16 := (List.range 16).foldl (fun m v => m ||| s.sensorWays slice v) 0

/-- The identity of a context (R283). -/
def identity (vi ctx : Nat) : W16 := BitVec.ofNat 16 (vi * 4096 + ctx)

/-- The ways in which a requester may allocate (R286). -/
def State.eligible (s : State) (slice : Nat) (id : W16) : W16 :=
  let a := if id.toNat % 4096 = 0xFFF then (s.cfgAt (mslOff slice 0xC0)).extractLsb' 0 16 else s.allocWays slice (id.toNat / 4096)
  a &&& s.enWays slice &&& ~~~(s.gateWays slice) &&& ~~~(s.gating.get 0 slice) &&& ~~~(s.quarWays slice) &&& ~~~s.carveWays &&& ~~~(s.allSensor slice)

/-- The way that holds a line. -/
def State.findWay (s : State) (pa : Nat) : Option Nat :=
  (List.range 16).find? fun w => match s.mere.get none (wayKey (sliceOf pa) (setOf pa) w) with
    | some l => l.tag == tagOf pa
    | none => false

/-- Every hit and fill of way w updates its path (R286). -/
def State.touchWay (s : State) (slice set w : Nat) : State :=
  let k := slice * 8192 + set
  let t := s.tree.get 0 k
  let put (t : W16) (i : Nat) (b : Bool) : W16 := if b then t ||| (1#16 <<< i) else t &&& ~~~(1#16 <<< i)
  let t := put t 1 (!w.testBit 3)
  let t := put t (2 + w / 8) (!w.testBit 2)
  let t := put t (4 + w / 4) (!w.testBit 1)
  let t := put t (8 + w / 2) (!w.testBit 0)
  { s with tree := s.tree.set 0 k t }

/-- Follows the tree from node k, whose ways are lo to lo + n - 1. -/
def treeWalk (t el : W16) : Nat → Nat → Nat → Nat → Option Nat
  | 0, _, _, _ => none
  | fuel + 1, k, lo, n =>
    if n = 1 then some lo
    else
      let h := n / 2
      let any (a : Nat) : Bool := (List.range h).any fun i => el.getLsbD (a + i)
      let up := t.getLsbD k
      let up := if up then any (lo + h) else !any lo
      if up then treeWalk t el fuel (2 * k + 1) (lo + h) h else treeWalk t el fuel (2 * k) lo h

/-- The way a fill takes: the lowest empty eligible way, or the tree's choice among ways without a lock (R286, R287). -/
def State.victim (s : State) (slice set : Nat) (id : W16) : Option Nat :=
  let el := s.eligible slice id
  let at_ (w : Nat) : Option Line := s.mere.get none (wayKey slice set w)
  let el := (List.range 16).foldl (fun m w => match at_ w with
    | some l => if l.lock then m &&& ~~~(1#16 <<< w) else m
    | none => m) el
  if el = 0 then none
  else match (List.range 16).find? fun w => el.getLsbD w && (at_ w).isNone with
    | some w => some w
    | none => treeWalk (s.tree.get 0 (slice * 8192 + set)) el 5 1 0 16

/-! ## Uncorrectable errors (R294, R295) -/

/-- Slice, set and way as MERE_UE reports them (R297). -/
def slotArg (key : Nat) : W64 := BitVec.ofNat 64 ((key / 131072) * 2 ^ 24 + (key / 16 % 8192) * 16 + key % 16)

/-- The hypervisor owns a line: its identity does, or its owner cannot be read and MSL_HVALLOC allows the way (R298). -/
def State.hyperOwns (s : State) (key : Nat) (owner : Option W16) : Bool :=
  match owner with
  | some id => id.toNat % 4096 == 0xFFF
  | none => (s.cfgAt (mslOff (key / 131072) 0xC0)).getLsbD (key % 16)

/-- An error still to be charged ends the context of a party that meets it: the owner's, or with an unreadable owner one whose interface
may allocate in the way (R294). -/
def State.charges (s : State) (id : W16) (pa : Nat) : Bool :=
  s.ue.any fun u => u.stage == 0 && u.pa / 128 == pa / 128 && match u.owner, u.slot with
    | some o, _ => o == id
    | none, some key => (s.allocWays (key / 131072) (id.toNat / 4096)).getLsbD (key % 16)
    | none, none => false

/-- A dirty line's data is lost (R295): it is poisoned, its containment starts, and the error of the hypervisor's is fatal (R493). -/
def State.loseLine (s : State) (pa key : Nat) (owner : Option W16) : State :=
  let ln := pa / 128
  let s := s.logAs (s.hyperOwns key owner) 0x0410 (0x3000 + key / 131072) (owner.elim 0xFFFF (·.toNat)) (BitVec.ofNat 64 (ln * 128)) (slotArg key)
  { s with poison := s.poison.set false ln true, ue := s.ue ++ [{ pa := ln * 128, slot := some key, owner := owner, stage := 0 }] }

/-- The data of carved line n, owned by `id`, is lost (R294, R297): the line is poisoned and its owner's context ends. -/
def State.loseCarved (s : State) (n : Nat) (id : W16) (inL1 : Bool) : State :=
  let key := wayKey (n % 32) (n % 262144 / 32) (n / 262144)
  let ln := 0x100000000000 + n
  let s := s.logAs (s.hyperOwns key (some id)) 0x0410 (0x3000 + n % 32) id.toNat (s.openArg 1) (slotArg key)
  { s with poison := s.poison.set false ln true, ue := s.ue ++ [{ pa := ln * 128, slot := none, owner := some id, inL1 := inL1, stage := 0 }] }

/-- How a line's stored form is bad, as a number of `State.latent` (R531, R532): 1 its data, 2 its data and its owner field, 4 its owner field
alone. -/
def latentOf (data own : Bool) : Nat := if data then (if own then 2 else 1) else if own then 4 else 0
def latentData (k : Nat) : Bool := k == 1 || k == 2
def latentOwn (k : Nat) : Bool := k == 2 || k == 4

/-- The stored form of the first code word of a line is read: an error in a clean line goes away, one in a dirty line starts its
containment (R295, R532). -/
def State.readCode (s : State) (pa : Nat) : State :=
  let ln := pa / 128
  let k := s.latent.get 0 ln
  if k = 0 || 3 ≤ k then s
  else match s.findWay pa with
    | none => s
    | some w =>
      let key := wayKey (sliceOf pa) (setOf pa) w
      match s.mere.get none key with
      | none => s
      | some l =>
        let s := { s with latent := s.latent.set 0 ln 0 }
        if !l.dirty then s else s.loseLine pa key (if k = 2 then none else some l.owner)

/-- The address of a slot's line. -/
def slotPa (key : Nat) (l : Line) : Nat :=
  let slice := key / 131072
  let set := key / 16 % 8192
  let hi := l.tag * 2 ^ 25 + set * 2 ^ 12
  hi + ((slice ^^^ (List.range 8).foldl (fun x i => x ^^^ bitsOf hi (12 + 5 * i) 5) 0) % 32) * 128

/-- A line is written to LPDDR6 and becomes clean (R284, R291). -/
def State.writeBack (s : State) (key : Nat) : State :=
  match s.mere.get none key with
  | none => s
  | some l =>
    if !l.dirty then s
    else
      let s := s.readCode (slotPa key l)
      let ln := slotPa key l / 128
      -- LPDDR6 holds the whole line afresh
      { s with mere := s.mere.insert key (some { l with dirty := false }), latent := if s.latent.get 0 ln = 3 then s.latent.set 0 ln 0 else s.latent }

/-- A line leaves the Mere. -/
def State.dropLine (s : State) (key : Nat) : State :=
  match s.mere.get none key with
  | none => s
  | some l =>
    let s := s.writeBack key
    let ln := slotPa key l / 128
    { s with mere := s.mere.erase key, latent := if s.latent.get 0 ln = 3 then s.latent else s.latent.set 0 ln 0 }

/-- The slice pair of a frame is one of those that stand still on a die that has tripped (R488). -/
def State.sliceHalted (s : State) (pa : Nat) : Bool := (s.cluster (80 + sliceOf pa / 2)).halted

/-- The same of a line, a carved one included. -/
def State.lineHalted (s : State) (ln : Nat) : Bool :=
  if 0x100000000000 ≤ ln then (s.cluster (80 + (ln - 0x100000000000) % 32 / 2)).halted else s.sliceHalted (ln * 128)

/-- Looks a line up for a requester and fills it where the policy allocates; the way, if the line is held. -/
def State.lookup (s : State) (pa : Nat) (id : W16) (alloc : Bool) : State × Option Nat :=
  let sl := sliceOf pa
  let st := setOf pa
  match s.findWay pa with
  | some w => (s.touchWay sl st w, some w)
  | none =>
    if !alloc then (s, none)
    else match s.victim sl st id with
      | none => (s, none)
      | some w =>
        let s := s.dropLine (wayKey sl st w)
        let l : Line := { tag := tagOf pa, dirty := false, lock := false, owner := id, stream := none, age := 0 }
        ({ s with mere := s.mere.insert (wayKey sl st w) (some l) }.touchWay sl st w, some w)

/-! ## Weirs (R476-R480) -/

/-- Job class of a dispatch level. -/
def jobClass (level : Nat) : Nat := level / 3

/-- Register of a regulator. -/
def weirOff (ch id : Nat) : Nat := 0xB0000 + 0x200 * ch + 8 * id

/-- The identity of a job's requests: its interface and class, with the job's budget of the card. -/
def Job.weirId (j : Job) : Nat := 4 * (j.w0.extractLsb' 58 4).toNat + jobClass (j.w0.extractLsb' 40 4).toNat

/-- The bandwidth budget the card held at release (R421, R477): word 0x20, bits [31:0]. -/
def Job.bw (j : Job) : Nat := (j.w4.extractLsb' 0 32).toNat

/-- Credit that an identity's jobs give a regulator (R477). -/
def State.refill (s : State) (id : Nat) : Nat :=
  Nat.min (2 ^ 32 - 1) ((s.jobs.map fun e => match e.2 with
    | some j => if j.weirId = id && j.bw != 0 then (j.bw + 23) / 24 else 0
    | none => 0).sum)

/-- An edge: every regulator refills its credit, and the window that begins has seen no hold (R477, R479). -/
def State.windowEdge (s : State) (n : Nat) : State :=
  let s := (List.range 24).foldl (fun s ch => (List.range 64).foldl (fun s id =>
    let o := weirOff ch id
    s.setCfg o ((s.cfgAt o &&& 0xFFFFFFFF00000000) ||| BitVec.ofNat 64 (s.refill id))) s) s
  -- what the weirs held asks again
  let s := s.mapThreads fun _ th => { th with pend := th.pend.map fun p => { p with weir := false } }
  { s with edge := n, weirHeld := [], jobs := s.jobs.map fun e => (e.1, e.2.map fun j => { j with bwWindow := false }) }

/-- A held request still stands: its access, its launch or its round is under way. -/
def State.stillHeld (s : State) : WeirReq → Bool
  | .pend t id => match s.thread? t with
    | some th => th.pend.any fun p => p.id == id && !p.done
    | none => false
  | .launch k n => match (s.streams.get emptyStream k).run with
    | some l => l.at_ == n
    | none => false
  | .red t => match s.thread? t with
    | some th => th.red.any fun e => !e.passed
    | none => false
  | .fetch t => (s.thread? t).any (!·.exiting)

/-- A requester waits at no weir any more. -/
def State.leaveWeir (s : State) (r : WeirReq) : State := { s with weirQ := s.weirQ.filter fun e => e.2 != r }

/-- The credit that a job's requests for a line find (R477); a job without a budget is never short of it. -/
def State.weirCredit (s : State) (card : Option Nat) (line : Nat) : Nat :=
  match card.bind s.job? with
  | none => 2
  | some j => if j.bw = 0 then 2 else ((s.cfgAt (weirOff (Config.channel line % 24) j.weirId)).extractLsb' 0 32).toNat

/-- A request for a line that the Mere does not hold passes its weir, or is held behind those held before it (R478). -/
def State.weirPass (s : State) (card : Option Nat) (who : WeirReq) (line : Nat) : State × Bool :=
  match card.bind s.job? with
  | none => (s, true)
  | some j =>
    if j.bw = 0 then (s, true)
    else
      let ch := Config.channel line % 24
      let o := weirOff ch j.weirId
      let x := s.cfgAt o
      let key := 64 * ch + j.weirId
      let queue := s.weirQ.filter fun e => e.1 == key && s.stillHeld e.2
      let next := match queue.head? with
        | none => true
        | some e => who == e.2
      if next && 2 ≤ s.weirCredit card line then
        ({ s.setCfg o (x - 2) with weirQ := s.weirQ.filter fun e => e.1 != key || who != e.2 }, true)
      else
        let s := if queue.any (fun e => e.2 == who) then s else { s with weirQ := s.weirQ ++ [(key, who)] }
        let s := if s.weirHeld.contains key then s
          else { s.setCfg o (x + 0x100000000) with weirHeld := key :: s.weirHeld }
        (s, false)

/-! ## Matrix read windows (R354) -/

/-- A write into a bank group ends every multiply of the group that reads it. The multiply's operands are what stood there before. -/
def State.bankWrite (s : State) (g o : Nat) (ws : List (Place × Byte)) : State :=
  let b := o / 1572864
  let old := ws.filterMap fun w => match w.1 with
    | .group _ a => some (a, s.homeByte w.1)
    | _ => none
  { s with streams := s.streams.map fun e =>
      let t := e.1 / 8
      if e.1 % 8 == 3 && isTile t && t < 8192 && groupOf (coreOf t) == g then
        match e.2.run with
        | some l =>
          if l.banks.getLsbD b && (l.status == 0 || l.status == 0x24) then
            (e.1, { e.2 with run := some { l with status := 0x24, before := l.before ++ old } })
          else e
        | none => e
      else e }

/-! ## Batches (R448) -/

/-- One byte stored into a published region enters the batch buffer. -/
def SubEntry.addByte (x : SubEntry) (o : Nat) (b : Byte) (cls : BitVec 4) : SubEntry × Bool :=
  let line := (o - x.base) / 128
  let i := o % 128
  let put (e : BatchLine) : BatchLine := { e with bytes := Tbl.set 0 e.bytes i b, mask := e.mask ||| (1#128 <<< i) }
  let last := (x.batch.zip (List.range x.batch.length)).reverse.find? fun e => e.1.cls == cls
  match last with
  | some (e, k) =>
    if e.line = line then ({ x with batch := x.batch.set k (put e) }, false)
    else ({ x with batch := x.batch ++ [put { line := line, bytes := [], mask := 0, cls := cls }] }, true)
  | none => ({ x with batch := x.batch ++ [put { line := line, bytes := [], mask := 0, cls := cls }] }, true)

/-- A store of block b at byte o of core u's scratchpad is forwarded by the publication it falls in (R448). -/
def State.publish (s : State) (u b o : Nat) (x : Byte) (cls : BitVec 4) : State :=
  match (List.range 16).find? fun e => match s.subs.get none (u * 16 + e) with
      | some y => y.pub && !y.ended && y.block == b && y.base ≤ o && o < y.base + y.len
      | none => false with
  | none => s
  | some e =>
    let key := u * 16 + e
    match s.subs.get none key with
    | none => s
    | some y =>
      let (y, _) := y.addByte o x cls
      let s := { s with subs := s.subs.insert key (some { y with lastStore := s.time }) }
      let s := if 16 < y.batch.length then s.sendBatch key 1 else s
      match s.subs.get none key with
      | none => s
      | some y =>
        match (y.batch.zip (List.range y.batch.length)).find? fun e => e.1.mask == BitVec.allOnes 128 with
        | some (_, k) => s.sendBatch key (k + 1)
        | none => s

/-- Whether the publication of a subscription is still to read lines for it (R445). -/
def SubEntry.copying (x : SubEntry) : Bool := !x.pub && !x.broken && !x.ended && 128 * x.copied < x.len

/-- The publisher reads the next line for a new subscriber and sends it. Of the entries open then, those of the line that no store will join any
more add nothing to the copy (R445, log entry 58). -/
def State.nextLine (s : State) (key : Nat) : Option State :=
  match s.subs.get none key with
  | none => none
  | some y =>
    if !y.copying then none
    else match y.peers with
      | [] => none
      | (pu, pe) :: _ =>
        match s.subs.get none (pu * 16 + pe) with
        | none => none
        | some x =>
          let i := y.copied
          let at_ (j : Nat) : Place := if pu < 64 then .core pu (x.base + 128 * i + j) else .group (groupOf pu) (x.base + 128 * i + j)
          let m : BatchMsg :=
            { src := pu, srcEntry := pe, dst := key / 16, dstEntry := key % 16, seq := x.seqOut, copy := true,
              entry := { line := i, bytes := (List.range 128).foldl (fun m j => Tbl.set 0 m j (s.homeByte (at_ j))) [],
                         mask := BitVec.allOnes 128, cls := 0 }, sent := s.time, at_ := s.clock }
          let batch := (x.batch.zip (List.range x.batch.length)).map fun e =>
            if e.1.line = i && (x.batch.drop (e.2 + 1)).any (·.cls == e.1.cls) then { e.1 with skip := key :: e.1.skip } else e.1
          some { s with
            subs := (s.subs.insert (pu * 16 + pe) (some { x with batch := batch })).insert key (some { y with copied := i + 1 })
            batches := s.batches ++ [m] }

/-- A CFENCE or a barrier sends the entries of the classes named, and those opened before them. -/
def State.flushClasses (s : State) (block : Nat) (mask : W16) : State :=
  s.subs.foldl (fun s e =>
    match e.2 with
    | some x =>
      if x.pub && x.block == block then
        let n := (x.batch.zip (List.range x.batch.length)).foldl (fun n e => if mask.getLsbD e.1.cls.toNat then e.2 + 1 else n) 0
        if n = 0 then s else s.sendBatch e.1 n
      else s
    | none => s) s

/-! ## Reservations (R274, R276) -/

/-- The line on which a reservation lies: of memory, of carved Mere, or of the registers of the configuration space. -/
def Place.resvLine : Place → Option Nat
  | .dev o => some (0x200000000000 + o / 128)
  | p => p.line

/-- A write to a line clears every reservation on it. -/
def State.clearResv (s : State) (line : Option Nat) : State :=
  match line with
  | none => s
  | some n =>
    if s.threads.any fun e => match e.2 with
      | some th => match th.resv with
        | some r => r.place.resvLine == some n
        | none => false
      | none => false then
      s.mapThreads fun _ th => match th.resv with
        | some r => if r.place.resvLine == some n then { th with resv := none } else th
        | none => th
    else s

/-! ## Reads and writes at home -/

/-- What a read meets. -/
inductive Meet where
  | data
  /-- the line is poisoned -/
  | poison
  /-- an error in LPDDR6 (R294) -/
  | dram
  /-- an error in the scratchpad word that holds a byte (R292, R294) -/
  | sram (p : Place)
  deriving DecidableEq, Repr

/-- The line of an address is in LPDDR6 only, and its stored form there has an uncorrectable error (R294). -/
def State.dramBad (s : State) (pa : Nat) : Bool := s.latent.get 0 (pa / 128) = 3 && (s.findWay pa).isNone

/-- The way of a carved byte is still carved (R289). -/
def State.stillCarved (s : State) (o : Nat) : Bool := s.carveWays.getLsbD (o / 33554432)

/-- Reads bytes of one line at their home for a requester (R257, R286). A read of LPDDR6 that meets an error fills nothing (R294); a way
that is carved no longer reads zero (R289). -/
def State.readHome (s : State) (ps : List Place) (id : W16) (alloc : Bool) : State × List Byte × Meet :=
  match ps with
  | .mem pa :: _ =>
    if s.dramBad pa && !s.poison.get false (pa / 128) then (s, ps.map s.homeByte, .dram)
    else
      let (s, _) := s.lookup pa id alloc
      let s := if ps.any (fun p => match p with | .mem a => a % 128 < 16 | _ => false) then s.readCode pa else s
      (s, ps.map s.homeByte, if s.poison.get false (pa / 128) then .poison else .data)
  | .carved o :: _ =>
    if !s.stillCarved o then (s, ps.map fun _ => 0, .data)
    else (s, ps.map s.homeByte, if s.poison.get false (0x100000000000 + o / 128) then .poison else .data)
  | _ => (s, ps.map s.homeByte, match s.sramRead ps with | some p => .sram p | none => .data)

/-- Stores bytes of a scratchpad: a word with an error that they replace in part is read first, and its region's block ends (R292, R294). -/
def State.sramStore (s : State) (ws : List (Place × Byte)) : State :=
  match s.sramWrite (ws.map (·.1)) with
  | some p => s.loseSram p
  | none => (s.sramClear (ws.map (·.1))).setHomes ws

/-- Writes bytes of one line at their home: reservations fall, the line becomes dirty with its writer's identity after another
owner's bytes are written back, and group scratchpads end multiplies (R276, R284, R354). A write to a way that is carved no longer is discarded
(R289). A line that LPDDR6 cannot give is poisoned and its page retired (R294; log entry 46). -/
def State.writeHome (s : State) (ws : List (Place × Byte)) (id : W16) (alloc : Bool) : State :=
  match ws with
  | [] => s
  | (.mem pa, _) :: _ =>
    let s := if s.dramBad pa then
        { s with latent := s.latent.set 0 (pa / 128) 0, poison := s.poison.set false (pa / 128) true,
                 ue := s.ue ++ [{ pa := pa / 128 * 128, slot := none, owner := none, stage := 1 }] }
      else s
    let (s, w) := s.lookup pa id alloc
    let s := s.clearResv (some (pa / 128))
    let first := ws.filter fun e => match e.1 with | .mem a => a % 128 < 16 | _ => false
    let s := match w with
      | none => s
      | some w =>
        let key := wayKey (sliceOf pa) (setOf pa) w
        let s := match s.mere.get none key with
          | some l => if l.dirty && l.owner != id then s.writeBack key else s
          | none => s
        let s := if first.isEmpty then s
          else if 16 ≤ (first.map fun (e : Place × Byte) => e.1.inLine).eraseDups.length then { s with latent := s.latent.set 0 (pa / 128) 0 } else s.readCode pa
        -- the line's owner field is written with it (R283)
        let k := s.latent.get 0 (pa / 128)
        let s := if latentOwn k then { s with latent := s.latent.set 0 (pa / 128) (latentOf (latentData k) false) } else s
        match s.mere.get none key with
        | some l => { s with mere := s.mere.insert key (some { l with dirty := true, owner := id }) }
        | none => s
    s.setHomes ws
  | (.group g o, _) :: _ => (s.bankWrite g o ws).sramStore ws
  | (.core _ _, _) :: _ => s.sramStore ws
  | (.carved o, _) :: _ =>
    if !s.stillCarved o then s
    else ({ s.clearResv (some (0x100000000000 + o / 128)) with carvedOwner := s.carvedOwner.insert (o / 128) (some id) } : State).setHomes ws
  | (p, _) :: _ => (s.clearResv p.resvLine).setHomes ws

/-- A store of a whole line by one access, or by one engine write, clears its poison (R295). -/
def State.clearPoison (s : State) (ps : List Place) : State :=
  (ps.filterMap Place.line).eraseDups.foldl (fun s ln =>
    if 128 ≤ ((ps.filter fun p => p.line == some ln).map Place.inLine).eraseDups.length then { s with poison := s.poison.set false ln false }
    else s) s

/-- Writes bytes that may lie in several lines, line by line. -/
def State.writeRun (s : State) (id : W16) (alloc : Bool) : Nat → List (Place × Byte) → State
  | 0, _ => s
  | _, [] => s
  | fuel + 1, (p, b) :: rest =>
    let same : Place × Byte → Bool := fun e => match p, e.1 with
      | .mem a, .mem c => a / 128 == c / 128
      | .carved a, .carved c => a / 128 == c / 128
      | .group g o, .group h c => g == h && o / 1572864 == c / 1572864
      | .mem _, _ => false
      | _, .mem _ => false
      | .group _ _, _ => false
      | _, .group _ _ => false
      | .carved _, _ => false
      | _, .carved _ => false
      | _, _ => true
    let run := (p, b) :: rest.takeWhile same
    (s.writeHome run id alloc).writeRun id alloc fuel (rest.dropWhile same)

/-! ## The L1s (R234, R237, R257) -/

/-- Key of a line in a core's L1. -/
def l1Key (core line : Nat) : Nat := core * 2 ^ 46 + line

/-- The 128 places of a line. -/
def linePlaces (line : Nat) : List Place :=
  if 0x100000000000 ≤ line then (List.range 128).map fun i => .carved ((line - 0x100000000000) * 128 + i)
  else (List.range 128).map fun i => .mem (line * 128 + i)

/-- The dirty bytes of a core's copy reach the home slice, and the copy stays clean (R237, R257). A line that one store wrote whole clears its
poison there (R295). -/
def State.l1Down (s : State) (core line : Nat) : State :=
  match s.l1.get none (l1Key core line) with
  | none => s
  | some x =>
    if x.dirty = 0 then s
    else
      let ws := ((linePlaces line).filter fun p => x.dirty.getLsbD p.inLine).map fun p => (p, x.bytes.get 0 p.inLine)
      let s := s.writeHome ws x.owner true
      { s with l1 := s.l1.insert (l1Key core line) (some { x with dirty := 0, whole := false })
               poison := if x.whole then s.poison.set false line false else s.poison }

/-- The lines that a core's L1 holds. -/
def State.l1Lines (s : State) (core : Nat) : List Nat :=
  s.l1.filterMap fun e => if e.1 / 2 ^ 46 = core && e.2.isSome then some (e.1 % 2 ^ 46) else none

/-- Every dirty byte of a core's L1 is written down (R262, R265). -/
def State.l1Flush (s : State) (core : Nat) : State := (s.l1Lines core).foldl (fun s ln => s.l1Down core ln) s

/-- A line leaves an L1. -/
def State.l1Drop (s : State) (core line : Nat) : State :=
  let s := s.l1Down core line
  { s with l1 := s.l1.erase (l1Key core line) }

/-- The lines of an L1: 1 MiB of 128 bytes each (R234). -/
def l1Capacity : Nat := 8192

/-- A full L1 gives up a line before it takes another: one that was filled under the streaming policy where it holds one (R237), else
any (log entry 50). -/
def State.l1Room (s : State) (core line : Nat) : State :=
  let held := s.l1Lines core
  if held.length < l1Capacity || held.contains line then s
  else
    let first := held.filter fun ln => (s.l1.get none (l1Key core ln)).any (·.stream)
    let from_ := if first.isEmpty then held else first
    s.l1Drop core (from_.getD ((s.free 0x1C000000).toNat % from_.length) 0)

/-- Fills a core's copy from the home under a policy, keeping bytes that are dirty there. -/
def State.l1Fill (s0 : State) (core line : Nat) (id : W16) (pol : Nat) : State :=
  let s := s0.l1Room core line
  let old := s.l1.get none (l1Key core line)
  let bytes := (linePlaces line).foldl (fun (t : Tbl Byte) p =>
    let b := match old with
      | some x => if x.dirty.getLsbD p.inLine then x.bytes.get 0 p.inLine else s.homeByte p
      | none => s.homeByte p
    Tbl.set 0 t p.inLine b) []
  let x : L1Line := { bytes := bytes, dirty := old.elim 0 (·.dirty), fill := s.clock, owner := old.elim id (·.owner),
                      stream := pol == 1, whole := old.any (·.whole) }
  ({ s with l1 := s.l1.insert (l1Key core line) (some x) } : State).event core 0x04 (some (id.toNat / 4096)) 1

/-- Bytes of a store held in L1 (R237); bytes that another identity left dirty there are written down first (R284). -/
def State.l1Write (s0 : State) (core line : Nat) (ws : List (Place × Byte)) (id : W16) (dirty : Bool) : State :=
  let s := if dirty && (s0.l1.get none (l1Key core line)).any (fun x => x.dirty != 0 && x.owner != id) then s0.l1Down core line else s0
  match s.l1.get none (l1Key core line) with
  | none => s
  | some x =>
    let x := ws.foldl (fun (x : L1Line) e =>
      { x with bytes := Tbl.set 0 x.bytes e.1.inLine e.2,
               dirty := if dirty then x.dirty ||| (1#128 <<< e.1.inLine) else x.dirty &&& ~~~(1#128 <<< e.1.inLine) }) x
    { s with l1 := s.l1.insert (l1Key core line) (some { x with owner := if dirty then id else x.owner }) }

end Sys2Proof.Machine
end

