-- ==== Sys2Proof/Machine/Drain.lean ====
section
/-! DEFINITION. Stores at device scope, the store buffer of a contained block, and the release that a push makes
(R237, R253, R254, R265). -/

namespace Sys2Proof.Machine

/-- A policy under which an access may allocate in the Mere (R237, R402). -/
def allocates (pol : Nat) : Bool := pol != 2 && pol != 4

/-- The identity with which a thread writes (R284). -/
def Thread.ident (th : Thread) : W16 := identity th.vi th.ctx

/-- Bytes of one line stored at the home slice; copies in the L1s of the cores that store are updated (R237). -/
def State.storeHome (s : State) (cores : List Nat) (ws : List (Place × Byte)) (id : W16) (alloc : Bool) : State :=
  match ws with
  | [] => s
  | (p, _) :: _ =>
    let s := s.writeRun id alloc (ws.length + 1) ws
    match p.line with
    | some ln => cores.foldl (fun s core => s.l1Write core ln ws id false) s
    | none => s

/-- The cores whose L1s a block's accesses use: its SIMT core, or the tile cores of its threads. -/
def Block.cores (b : Block) : List Nat := if b.tile then (b.thr.map coreOf).eraseDups else [b.unit]

/-! ## The store buffer (R253) -/

/-- Start of the line of a place. -/
def Place.lineStart : Place → Place
  | .mem a => .mem (a / 128 * 128)
  | .carved o => .carved (o / 128 * 128)
  | p => p

/-- MS as it is coded. -/
def scopeRank : MScope → Nat
  | .warp => 0
  | .block => 1
  | .core => 2
  | .device => 3
  | .system => 4

def wider (a b : MScope) : MScope := if scopeRank a < scopeRank b then b else a

/-- Bytes of one line enter the buffer: the newest entry takes them when it is of their line. -/
def bufPut (l : List BufEntry) (ws : List (Place × Byte)) (ms : MScope) (pol va : Nat) : List BufEntry :=
  match ws with
  | [] => l
  | (p, _) :: _ =>
    let put (e : BufEntry) : BufEntry :=
      { e with bytes := ws.foldl (fun m w => Tbl.set 0 m w.1.inLine w.2) e.bytes
               mask := ws.foldl (fun m w => m ||| (1#128 <<< w.1.inLine)) e.mask
               ms := wider e.ms ms, pol := pol, va := va }
    let new : BufEntry := { line := p.lineStart, bytes := [], mask := 0, ms := ms, pol := pol, va := va }
    match l.getLast? with
    | some e => if e.line = p.lineStart then l.dropLast ++ [put e] else l ++ [put new]
    | none => [put new]

/-- The newest buffered copy of a byte. -/
def bufByte (l : List BufEntry) (p : Place) : Option Byte :=
  match l.reverse.find? fun e => e.line == p.lineStart && e.mask.getLsbD p.inLine with
  | some e => some (e.bytes.get 0 p.inLine)
  | none => none

/-- The bytes an entry holds. -/
def BufEntry.writes (e : BufEntry) : List (Place × Byte) :=
  ((List.range 128).filter e.mask.getLsbD).map fun i => (e.line.plus i, e.bytes.get 0 i)

/-- A commit event of a block (R254): the buffer is performed in opening order, each entry under the policy of its page (R237, R402), and the
block is marked committed. An entry that one store wrote whole clears the poison of its line (R295). -/
def State.drain (s : State) (b : Nat) : State :=
  match s.block? b with
  | none => s
  | some x =>
    if !x.cont then s
    else
      let s := x.sbuf.foldl (fun s e =>
        let s := s.storeHome x.cores e.writes (identity x.vi x.ctx) (allocates e.pol)
        if e.whole then s.clearPoison (e.writes.map (·.1)) else s) s
      s.mapBlock b fun x => { x with sbuf := [], committed := true }

/-- A store of a contained block enters its buffer; one that needs a new entry while all 512 are held drains it first. -/
def State.bufStore (s : State) (b : Nat) (ws : List (Place × Byte)) (ms : MScope) (pol va : Nat) : State :=
  match s.block? b with
  | none => s
  | some x =>
    let s := if 512 < (bufPut x.sbuf ws ms pol va).length then s.drain b else s
    s.mapBlock b fun x => { x with sbuf := bufPut x.sbuf ws ms pol va }

/-! ## Accesses in flight -/

def PendOp.reads : PendOp → Bool
  | .load _ _ => true
  | .atom _ _ => true
  | .reserve => true
  | .tload => true
  | _ => false

def PendOp.writes : PendOp → Bool
  | .store => true
  | .atom _ _ => true
  | .cond _ => true
  | .tstore => true
  | _ => false

def PendOp.isInval : PendOp → Bool
  | .inval _ _ _ _ => true
  | _ => false

/-- Pends in which thread m takes part: its own, and those of a scope it arrived in. -/
def State.pendsOf (s : State) (m : Nat) : List Pend :=
  s.threads.flatMap fun e => match e.2 with
    | some th => th.pend.filter fun p => e.1 == m || p.mem.contains m
    | none => []

/-- The release of every earlier store of the threads given, of every class and scope, as a push makes it (R254, R265): `none`
while a store has not performed. -/
def State.releaseAll (s : State) (ts : List Nat) : Option State :=
  if ts.any fun t => (s.pendsOf t).any fun p => p.op.writes && !p.done then none
  else some (ts.foldl (fun s t => match s.thread? t with
    | some th => (s.drain th.block).l1Flush (coreOf t)
    | none => s) s)

end Sys2Proof.Machine
end

