-- ==== Sys2Proof/Machine/Operands.lean ====
section
/-! DEFINITION. Operand forms: who executes a word, which registers its operands name, the checks of R67-R75, reading sources
and delivering results. -/

namespace Sys2Proof.Machine

/-! ## The issuing scope -/

/-- Who executes a word: the issuing thread (the lowest arrived member), the gang, the scope, the arrived members in index
order, the word's PC, and the lanes active in each member. -/
structure Ctx0 where
  t : Nat
  gang : BitVec 8
  scp : Scope
  mem : List Nat
  pc : Addr
  act : List (Nat × W32)
  sheaf : Nat
  /-- the thread is in trap mode: the word runs in lane LANE alone (R227) -/
  trapm : Bool
  deriving DecidableEq, Repr

/-- Active lanes of a member. -/
def Ctx0.active (c : Ctx0) (m : Nat) : W32 := (c.act.find? (·.1 == m)).elim 0 (·.2)

/-- No lane of the scope is active (R544). -/
def Ctx0.idle (c : Ctx0) : Bool := c.act.all (·.2 == 0)

/-- The lowest active lane of the lowest member that has one (R59 names the lowest member; log entry 47). -/
def Ctx0.leader (c : Ctx0) : Option (Nat × Nat) :=
  c.act.findSome? fun e => (lowest e.2).map fun l => (e.1, l)

/-- What becomes of an instruction at issue. -/
inductive Res where
  /-- it completes its issue and its slices go on -/
  | adv (s : State)
  /-- it completes its issue and has moved its slices itself -/
  | moved (s : State)
  /-- it faults: cause, XVAL and, where the fault names one, the slice -/
  | trap (code : Nat) (val : W64) (sl : Option Nat)
  /-- a check of its access faults; the state holds what the walks left -/
  | trapAt (s : State) (code : Nat) (val : W64) (sl : Option Nat)
  /-- its translation stops at an entry with M set: entry, level, VA, and the slice of the access (R407) -/
  | migrating (s : State) (entry level va : Nat) (sl : Option Nat)
  /-- it meets an uncorrectable error or poison (R294, R408) -/
  | lost (s : State) (m : Meet) (pa : Nat)
  /-- it waits and issues again -/
  | stall
  /-- it waits on a data or branch-outcome queue (R391) -/
  | stallQ
  /-- it waits, and leaves a change behind in the state in which it waits -/
  | waitWith (f : State → State)

/-! ## Registers of an operand -/

/-- On the AS a vector index is read as a scalar index (R68, R71). -/
def effSrc (k : TKind) (x : Src) : Src :=
  match k, x with
  | .as, .vec a => .scl a
  | _, x => x

def effDst (k : TKind) (x : Dst) : Dst :=
  match k, x with
  | .as, .vec a => .scl a
  | _, x => x

/-- The v-register that vector index `a` names in member m: v[a], or x[a] at sheaf scope (R42, R127). -/
def vindex (s : State) (c : Ctx0) (m a : Nat) : Nat :=
  if c.scp = .sheaf then
    match ((s.thread? m).or (s.thread? c.t)).bind fun th => s.block? th.block with
    | some b => (b.sheaf c.sheaf).xb + a
    | none => a
  else a

/-- The storage of scalar index `a` as member m reads or writes it (R72); `none` for ports and reserved indices. -/
def scalarLoc (s : State) (m a : Nat) : Option RegLoc :=
  match s.thread? m with
  | none => none
  | some th =>
    if a < 64 then some (.s m a)
    else if a < 80 then th.shsel.map fun n => .h th.block n (a - 64)
    else if a < 96 then some (.k th.block (a - 80))
    else none

/-- The value in storage. -/
def State.readLoc (s : State) : RegLoc → W64
  | .s t r => match s.thread? t with | some th => th.sreg r | none => 0
  | .v _ _ => 0
  | .p t r => match s.thread? t with | some th => (th.pred r).setWidth 64 | none => 0
  | .t _ _ => 0
  | .h b n r => match s.block? b with | some x => (x.sheaf n).h.get 0 r | none => 0
  | .k b r => match s.block? b with | some x => x.k.get 0 r | none => 0

/-- Distinct free values for the operands of one step. -/
def freeTag (m lane opd : Nat) : Nat := (m * 64 + lane) * 8 + opd

/-- A v-register lane, or a free value while it is not surely readable (R77, R148). -/
def readV (s : State) (m r lane opd : Nat) : W32 :=
  if s.unsure m (.v m r) (lane1 lane) then (s.free (freeTag m lane opd)).setWidth 32
  else match s.thread? m with
    | some th => th.vreg r lane
    | none => (s.free (freeTag m lane opd)).setWidth 32

/-- What stands in a span for the launched warp n of a block once it has exited: the block keeps its registers (R148). -/
def goneLane (n : Nat) : Nat := goneKey + 1 + n

/-- Lane of a register of a member that has exited. -/
def State.readGone (s : State) (c : Ctx0) (m r lane : Nat) : W32 :=
  match (s.thread? c.t).bind fun th => s.block? th.block with
  | some b => Tbl.get (0 : W32) (Tbl.get ([] : Tbl W32) b.gone (m - goneLane 0)) (r * 32 + lane)
  | none => 0

/-- A vector operand of width 32 or 64 in one lane of a member (R129). -/
def readVec (s : State) (c : Ctx0) (m lane w a opd : Nat) : W64 :=
  let r := vindex s c m a
  if goneLane 0 ≤ m && m < goneLane 16 then
    if w = 64 then s.readGone c m (r + 1) lane ++ s.readGone c m r lane else (s.readGone c m r lane).setWidth 64
  else if w = 64 then (readV s m (r + 1) lane (opd + 4)) ++ (readV s m r lane opd)
  else (readV s m r lane opd).setWidth 64

/-- A scalar-like operand: s, h or k; s0 reads zero (R67, R72). -/
def readScl (s : State) (m a opd : Nat) : W64 :=
  if a = 0 then 0 else
  match scalarLoc s m a with
  | none => 0
  | some l => if s.unsure m l (BitVec.allOnes 32) then s.free (freeTag m 33 opd) else s.readLoc l

/-- A predicate of a member, lane by lane, free where it is not surely readable. -/
def readPred (s : State) (m i : Nat) : W32 :=
  match s.thread? m with
  | none => 0
  | some th =>
    if i = 0 then th.pred 0
    else (List.range 32).foldl (fun x l =>
      let b := if s.unsure m (.p m i) (lane1 l) then (s.free (freeTag m l 7)).getLsbD 0 else hasLane (th.pred i) l
      if b then x ||| lane1 l else x) 0

/-- Lanes in which a guard holds as thread t reads it: a lane whose predicate has not surely landed has a free one (R77). -/
def State.guardOf (s : State) (t : Nat) (th : Thread) (g : Guard) : W32 :=
  if g.idx = 0 then th.guard g
  else
    let m := readPred s t g.idx.toNat
    if g.neg then ~~~m else m

/-- The word c[a] of a thread's constant buffer (R74, R128). -/
def Thread.constWord (th : Thread) (a : Nat) : W32 := th.cbuf.get 0 a

/-- A literal: A sign-extended (R74). -/
def litVal (a : BitVec 8) : W64 := a.signExtend 64

/-- The low W bits of a value. -/
def lowW (w : Nat) (x : W64) : W64 := if w = 64 then x else (x.setWidth 32).setWidth 64

/-! ## Ports as operands (R75, R300, R387) -/

/-- Whether a thread of a kind may read port q (R300, R303, R387). -/
def portReads (k : TKind) (q : Nat) : Bool :=
  match k with
  | .simt => q != 3 && q < 8
  | .as => q != 2 && (q < 8 || q = 12 || q = 13 || q = 15)
  | .xs => q != 2 && (q < 8 || (8 ≤ q && q ≤ 11) || q = 14)

/-- Whether it may write port q; q6 and q7 take no writes (R398, R471). -/
def portWrites (k : TKind) (q : Nat) : Bool :=
  match k with
  | .simt => q != 3 && q < 6
  | .as => (q != 2 && q < 6) || (8 ≤ q && q ≤ 11) || q = 14
  | .xs => (q != 2 && q < 6) || q = 12 || q = 13 || q = 15

/-- The data or branch-outcome queue q8-q15 of a tile thread (R386): key of its entries, oldest first. -/
def dqKey (t q : Nat) : Nat := asOf t * 8 + q % 8

def dqCap (q : Nat) : Nat := if q ≤ 11 then 16 else if q ≤ 13 then 8 else 64

/-- Whether the sequencer at the other end of a queue has executed EXIT. -/
def otherGone (s : State) (t : Nat) : Bool :=
  match s.thread? (pairOf t) with
  | none => true
  | some y => y.exiting || y.live == 0

/-- What a pop gives. -/
inductive Pop where
  | got (x : W64) (s : State)
  | wait
  | waitQ
  | bad (val : W64)
  deriving Repr

/-- Every class has an acquire point now (R257). -/
def Thread.acquireAll (th : Thread) (clock : Nat) : Thread :=
  { th with acq := (List.range 16).foldl (fun a c => Tbl.set 0 a c clock) th.acq }

def State.acquireAll (s : State) (t : Nat) : State := s.mapThread t fun th => th.acquireAll s.clock

/-- Takes the oldest record of a stream; popping the record of a fault ends the halt, and a fault record that waited for room
enters (R303, R313, R314). -/
def Stream.popRecord (x : Stream) : Option (W64 × Stream) :=
  match x.fifo with
  | [] => none
  | r :: rest =>
    let n := if rest.length + x.reserved < 8 then 1 else 0
    some (r, { x with fifo := rest ++ x.waitRecs.take n, waitRecs := x.waitRecs.drop n, halted := 1 < x.haltLeft,
                      haltLeft := x.haltLeft - 1 })

/-- Moves entries that wait into a context's released-block FIFO (R471). -/
def Ctx.fill (c : Ctx) : Ctx :=
  let n := 256 - c.fifo.length
  { c with fifo := c.fifo ++ c.wait.take n, wait := c.wait.drop n }

/-- Entries attached to the slots of a context, those waiting for room included (R470). -/
def Ctx.attached (c : Ctx) : Nat := (c.grace.map fun e => e.2.entries.length).sum + c.wait.length

/-- Pops port q for thread t (R75, R303, R388, R398, R471). -/
def popPort (s : State) (t q : Nat) : Pop :=
  match s.thread? t with
  | none => .wait
  | some th =>
    if q < 6 then
      match (s.stream (streamKey t q)).popRecord with
      | none => .wait
      | some (r, x) => .got r ((s.setStream (streamKey t q) x).acquireAll t)
    else if q = 6 then
      let k := ctxKey th.vi th.ctx
      let c := s.ctx k
      match c.fifo with
      | [] => if 0 < c.attached then .wait else .bad 0x10B
      | e :: rest => .got e ((s.setCtx k ({ c with fifo := rest } : Ctx).fill).acquireAll t)
    else if q = 7 then
      match th.reply with
      | some r => .got (r.setWidth 64) ((s.setThread t { th with reply := none }).acquireAll t)
      | none => if th.svc = .none then .bad 0x104 else .wait
    else
      match s.dq.get [] (dqKey t q) with
      | [] => if otherGone s t then .bad 0x103 else .waitQ
      | x :: rest =>
        -- what the pusher had seen happens before what follows the pop (R389)
        let seen := s.dqAcq.get [] (dqKey t q)
        let s := s.mapThread t fun th => { th with acq := (seen.headD []).foldl (fun a e => if a.get 0 e.1 < e.2 then Tbl.set 0 a e.1 e.2 else a) th.acq }
        .got x { s with dq := s.dq.set [] (dqKey t q) rest, dqAcq := s.dqAcq.set [] (dqKey t q) (seen.drop 1) }

/-- The 16-bit words of a value of `w` bits, low word first (R88). -/
def wordsOf (w : Nat) (x : W64) : List W16 := (List.range (w / 16)).map fun i => x.extractLsb' (16 * i) 16

/-- Whether a value of `w` bits finds room in port q of thread t; `none` where the queue is a tile queue that is full. -/
def portRoom (s : State) (t q w : Nat) : Bool :=
  if q < 6 then
    let x := s.stream (streamKey t q)
    x.halted || x.buf.length + w / 16 ≤ 32
  else otherGone s t || (s.dq.get [] (dqKey t q)).length < dqCap q

/-- Who a stream's words act for. -/
def identOf (s : State) (t : Nat) : Option Ident :=
  match s.thread? t with
  | none => none
  | some th =>
    match s.block? th.block with
    | none => none
    | some b => some { vi := th.vi, ctx := th.ctx, card := some b.card, block := th.block, who := t,
                       spBase := b.spBase, spSize := b.spSize, array := arrayOf b t, span := b.span, win := s.windowOf t }

/-- A discarded launch word leaves its stream: its counter falls, SEQ advances, and the job no longer waits for it (R302,
R310, R314). -/
def State.discardWord (s : State) (k : Nat) (w : W16 × Option (Fin 6) × List Nat) : State :=
  if isLaunchWord w.1 then
    let s := s.countDown w.2.2 w.2.1
    let x := s.stream k
    let s := s.setStream k { x with seq := x.seq + 1, outstanding := x.outstanding - 1 }
    match x.ident.bind (·.card) with
    | some c => s.mapJob c fun j => { j with launches := j.launches - 1 }
    | none => s
  else s

/-- n launches rise the counter that SIG names in each member, which covers an engine launch from then on (R257, R266). -/
def State.coverUp (s : State) (ms : List Nat) (sig : Option (Fin 6)) (n : Nat) : State :=
  match sig with
  | some i => if n = 0 then s else (s.countUp ms sig n).mapMembers ms fun th => { th with cover := th.cover ||| (1#6 <<< i.val) }
  | none => s

/-- Words enter a stream; while it is halted they are discarded (R301, R314). `sig` and `ms` say which counters the launch
words lower. -/
def State.pushWords (s : State) (k : Nat) (id : Option Ident) (ws : List W16) (sig : Option (Fin 6)) (ms : List Nat) :
    State :=
  let n := (ws.filter isLaunchWord).length
  let s := s.coverUp ms sig n
  let x := s.stream k
  let s := s.setStream k { x with outstanding := x.outstanding + n, ident := id }
  let s := match id.bind (·.card) with
    | some c => s.mapJob c fun j => { j with launches := j.launches + n }
    | none => s
  let es := ws.map fun w => (w, sig, ms)
  if x.halted then es.foldl (fun s e => s.discardWord k e) s
  else s.mapStream k fun x => { x with buf := x.buf ++ es }

/-- Pushes a value of `w` bits to port q of the lowest arrived member (R88, R301, R388). -/
def pushPort (s : State) (c : Ctx0) (q w : Nat) (x : W64) (sig : Option (Fin 6)) : State :=
  if q < 6 then s.pushWords (streamKey c.t q) (identOf s c.t) (wordsOf w x) sig c.mem
  else if otherGone s c.t then s
  else
    let y := if q ≥ 14 then (if lowW w x = 0 then 0 else 1) else lowW w x
    let seen : Tbl Nat := match s.thread? c.t with | some th => th.acq | none => []
    { s with dq := s.dq.set [] (dqKey c.t q) (s.dq.get [] (dqKey c.t q) ++ [y])
             dqAcq := s.dqAcq.set [] (dqKey c.t q) (s.dqAcq.get [] (dqKey c.t q) ++ [seen]) }

/-! ## Checks of operand fields (R67-R75, R82) -/

/-- Bits of an element of a type code (R177). -/
def tyBits (t : Nat) : Nat := [32, 16, 16, 8, 8, 4, 32, 8, 4].getD t 0

/-- Bytes of c elements of a type (R98). -/
def tyBytes (t c : Nat) : Nat := (c * tyBits t + 7) / 8

def Thread.tRows (th : Thread) : Nat := (th.shape.extractLsb' 0 6).toNat + 1
def Thread.tCols (th : Thread) : Nat := (th.shape.extractLsb' 6 6).toNat + 1
def Thread.tTy (th : Thread) : Nat := (th.shape.extractLsb' 12 4).toNat
def Thread.tCount (th : Thread) : Nat := th.tRows * th.tCols

/-- A use of an operand, for the checks. -/
inductive Use where
  /-- a value source: lowest bit of its A field, width, and whether a negative literal is refused (R129) -/
  | src (bit : Nat) (x : Src) (w : Nat) (uns : Bool)
  /-- a source that must be scalar-like -/
  | sclsrc (bit : Nat) (x : Src) (w : Nat)
  /-- a register destination of a width -/
  | dst (x : Dst) (w : Nat)
  /-- the data of a store, named by DK and D (R243) -/
  | data (x : Dst) (w : Nat)
  /-- a data group, and how many of its registers the operation reads (R271) -/
  | grp (x : Dst) (n : Nat)
  /-- a packed source whose literal must be exact in a narrow format (R74) -/
  | fp8 (bit : Nat) (x : Src) (f : FNarrow)
  /-- a tile register named directly -/
  | tile (bit : Nat) (t : BitVec 8)
  /-- the tile register that TCVT reads as a type of its own -/
  | tcvt (bit : Nat) (t : BitVec 8) (ty : Nat)
  /-- a tile source or broadcast -/
  | tsrc (bit : Nat) (x : Src)
  deriving DecidableEq, Repr

/-- Integers that a narrow format holds exactly: E4M3 has 4 significant bits, E5M2 has 3, FP4 has 2 and ends at 6 (R101, R102). -/
def exactNarrow (f : FNarrow) (a : BitVec 8) : Bool :=
  let n := a.toInt.natAbs
  let fits (p : Nat) : Bool := (List.range 8).any fun e => n < 2 ^ (p + e) && n % 2 ^ e == 0
  match f with
  | .e4 => fits 4
  | .e5 => fits 3
  | .f4 => fits 2 && n ≤ 6

/-- The v-registers from `a` that width w takes: 1, 2 or 4. -/
def regsOf (w : Nat) : Nat := if w = 128 then 4 else if w = 64 then 2 else 1

/-- The check of one vector index: its bit where it offends. -/
def badVec (c : Ctx0) (th : Thread) (bit : Nat) (a w : Nat) : Option Nat :=
  let n := regsOf w
  if c.scp = .block then some bit
  else if a % n != 0 then some bit
  else if c.scp = .sheaf then (if 16 < a + n then some bit else none)
  else if th.nv < a + n then some bit else none

/-- The check of one scalar index. -/
def badScl (th : Thread) (write : Bool) (bit a : Nat) : Option Nat :=
  if a < 64 then none
  else if a < 80 then (if th.shsel.isNone then some bit else none)
  else if a < 96 then none
  else if a < 112 then
    (if (if write then portWrites th.kind (a - 96) else portReads th.kind (a - 96)) then none else some bit)
  else some bit

def badUse (c : Ctx0) (th : Thread) : Use → Option Nat
  | .src bit x w uns =>
    match effSrc th.kind x with
    | .vec a => if th.kind = .xs then some (bit - 2) else badVec c th (if c.scp = .block then bit - 2 else bit) a.toNat w
    | .scl a => badScl th false bit a.toNat
    | .cst a => if w = 64 && a.toNat = 255 then some bit else none
    | .lit a => if uns && a.getLsbD 7 then some bit else none
  | .sclsrc bit x w =>
    match effSrc th.kind x with
    | .vec _ => some (bit - 2)
    | .scl a => badScl th false bit a.toNat
    | .cst a => if w = 64 && a.toNat = 255 then some bit else none
    | .lit _ => none
  | .dst x w =>
    match effDst th.kind x with
    | .vec a => if th.kind = .xs then some 23 else badVec c th (if c.scp = .block then 23 else 24) a.toNat w
    | .scl a => if w = 128 then (if a.toNat % 2 != 0 || 62 < a.toNat then some 24 else none) else badScl th true 24 a.toNat
  | .data x w =>
    match effDst th.kind x with
    | .vec a => if th.kind = .xs then some 23 else badVec c th (if c.scp = .block then 23 else 24) a.toNat w
    | .scl a => if w = 128 then (if a.toNat % 2 != 0 || 62 < a.toNat then some 24 else none) else badScl th false 24 a.toNat
  | .grp x _ =>
    match effDst th.kind x with
    | .vec a => if th.kind = .xs then some 23 else badVec c th (if c.scp = .block then 23 else 24) a.toNat 128
    | .scl _ => none
  | .fp8 bit x f =>
    match effSrc th.kind x with
    | .vec a => if th.kind = .xs then some (bit - 2) else badVec c th (if c.scp = .block then bit - 2 else bit) a.toNat 32
    | .scl a => badScl th false bit a.toNat
    | .cst _ => none
    | .lit a => if exactNarrow f a then none else some bit
  | .tile bit t => if 31 < t.toNat then some bit else none
  | .tcvt bit t _ => if 31 < t.toNat then some bit else none
  | .tsrc bit x =>
    match x with
    | .vec a => if 31 < a.toNat then some bit else none
    | .scl a => badScl th false bit a.toNat
    | .cst a => if a.toNat = 255 && false then some bit else none
    | .lit _ => none

/-- The first offending field of a list of uses. -/
def badUses (c : Ctx0) (th : Thread) (us : List Use) : Option Nat := us.findSome? (badUse c th)

/-- A vector source under a scalar-like destination, which only the lane network, MOVS and TRED allow (R68). -/
def mixes (th : Thread) (d : Dst) (xs : List Src) : Bool :=
  !(effDst th.kind d).isVec && xs.any fun x => (effSrc th.kind x).isVec

/-- At sheaf scope, an x-register that lies beyond a member's declared count (R73, R545: 0x110). -/
def badX (s : State) (c : Ctx0) (us : List Use) : Bool :=
  c.scp == .sheaf && us.any fun u =>
    let idx : Option (Nat × Nat) := match u with
      | .src _ (.vec a) w _ => some (a.toNat, w)
      | .fp8 _ (.vec a) _ => some (a.toNat, 32)
      | .dst (.vec a) w => some (a.toNat, w)
      | .data (.vec a) w => some (a.toNat, w)
      | .grp (.vec a) _ => some (a.toNat, 128)
      | _ => none
    match idx with
    | none => false
    | some (a, w) => c.mem.any fun m =>
        match s.thread? m with
        | some th => th.kind == .simt && th.nv < vindex s c m a + regsOf w
        | none => false

/-- The operand check of a word: XVAL of the ILLEGAL_OPERAND it raises. What depends on the state of the thread is checked in every
arrived member (R81, R104, R184). -/
def checkUses (us : List Use) (extra : Ctx0 → Thread → Option Nat) (c : Ctx0) (s : State) : Option Nat :=
  match s.thread? c.t with
  | none => none
  | some th =>
    match (extra c th).or (c.mem.findSome? fun m => (s.thread? m).bind (extra c)) with
    | some b => some b
    | none =>
      match badUses c th us with
      | some b => some b
      | none => if badX s c us then some 0x110 else none

def noExtra : Ctx0 → Thread → Option Nat := fun _ _ => none

/-- A negative literal on an operand that is read as unsigned (R74). -/
def negLit (bit : Nat) (x : Src) : Ctx0 → Thread → Option Nat := fun _ _ =>
  match x with
  | .lit a => if a.getLsbD 7 then some bit else none
  | _ => none

/-- R68: no vector source under a scalar-like destination. -/
def noMix (d : Dst) (xs : List Src) : Ctx0 → Thread → Option Nat := fun _ th => if mixes th d xs then some 23 else none

/-! ## Reading sources -/

/-- The value of a source in a member's lane. -/
abbrev Opd := Nat → Nat → W64

/-- Sources read in operand order: port sources pop as they are reached (R75). The state holds the pops; `none` means that the
instruction waits, with whether it waits on a tile queue. -/
inductive Fetch where
  | ok (vs : List Opd) (s : State)
  | wait
  | waitQ
  | bad (val : W64)

/-- Reads one source of width w that is operand number n of the word. -/
def readSrc (s : State) (c : Ctx0) (k : TKind) (x : Src) (w n : Nat) : Opd := fun m lane =>
  match effSrc k x with
  | .vec a => readVec s c m lane w a.toNat n
  | .scl a => lowW w (readScl s c.t a.toNat n)
  | .cst a =>
    match s.thread? c.t with
    | none => 0
    | some th => if w = 64 then th.constWord (a.toNat + 1) ++ th.constWord a.toNat else (th.constWord a.toNat).setWidth 64
  | .lit a => lowW w (litVal a)

/-- Pops the port sources in operand order, leaving their values. -/
def popAll (t : Nat) (k : TKind) : List (Src × Nat) → State → Except Fetch (List (Option W64) × State)
  | [], s => .ok ([], s)
  | (x, w) :: xs, s =>
    match effSrc k x with
    | .scl a =>
      if 96 ≤ a.toNat && a.toNat < 112 then
        match popPort s t (a.toNat - 96) with
        | .got v s' =>
          match popAll t k xs s' with
          | .ok (vs, s'') => .ok (some (lowW w v) :: vs, s'')
          | .error e => .error e
        | .wait => .error .wait
        | .waitQ => .error .waitQ
        | .bad v => .error (.bad v)
      else match popAll t k xs s with
        | .ok (vs, s') => .ok (none :: vs, s')
        | .error e => .error e
    | _ => match popAll t k xs s with
      | .ok (vs, s') => .ok (none :: vs, s')
      | .error e => .error e

/-- What a pop acquires for the issuing thread it acquires for every arrived member (R46, R257). -/
def State.shareAcq (c : Ctx0) (s s' : State) : State :=
  match s.thread? c.t, s'.thread? c.t with
  | some a, some b =>
    if a.acq = b.acq then s'
    else s'.mapMembers (c.mem.filter (· != c.t)) fun x =>
      { x with acq := b.acq.foldl (fun q e => if a.acq.get 0 e.1 < e.2 && q.get 0 e.1 < e.2 then Tbl.set 0 q e.1 e.2 else q) x.acq }
  | _, _ => s'

/-- Reads the sources of a word at issue. With no lane active nothing is popped (R544). -/
def fetchSrcs (c : Ctx0) (s : State) (xs : List (Src × Nat)) : Fetch :=
  match s.thread? c.t with
  | none => .wait
  | some th =>
    let plain (n : Nat) : List (Src × Nat) → List Opd := fun l =>
      (l.zip (List.range l.length)).map fun e => readSrc s c th.kind e.1.1 e.1.2 (n + e.2)
    if c.idle then .ok (plain 0 xs) s
    else
      match popAll c.t th.kind xs s with
      | .error e => e
      | .ok (ps, s') =>
        .ok ((ps.zip (plain 0 xs)).map fun e => match e.1 with
          | some v => fun _ _ => v
          | none => e.2) (s.shareAcq c s')

/-! ## Delivering results -/

/-- The writes of a result of width w in every active lane of the arrived members (R130): pairs for 64 bits. -/
def vecWrites (s : State) (c : Ctx0) (a w : Nat) (f : Opd) : List Wr :=
  c.mem.flatMap fun m =>
    let act := c.active m
    if act = 0 then []
    else
      let r := vindex s c m a
      let vals : List (Nat × W64) := (lanesOf act).map fun l => (l, f m l)
      (List.range (regsOf w)).map fun j =>
        Wr.vec (.v m (r + j)) act (vals.map fun e => (e.1, e.2.extractLsb' (32 * j) 32))

/-- The writes of a scalar result: into every arrived member's s-register, or once into the h- or k-register (R46); to s0 none (R67). -/
def sclWrites (s : State) (c : Ctx0) (a : Nat) (x : W64) : List Wr :=
  if a = 0 then []
  else if a < 64 then c.mem.map fun m => Wr.scalar (.s m a) x
  else match scalarLoc s c.t a with
    | some l => [Wr.scalar l x]
    | none => []

/-- The writes of a predicate in every active lane; to p0 none (R67). -/
def predWrites (c : Ctx0) (p : Nat) (f : Nat → Nat → Bool) : List Wr :=
  if p = 0 then [] else
  c.mem.flatMap fun m =>
    let act := c.active m
    if act = 0 then []
    else [Wr.predicate (.p m p) act ((lanesOf act).foldl (fun x l => if f m l then x ||| lane1 l else x) 0)]

/-- The value a scalar destination receives: that of the lowest active lane, which for uniform sources is every lane's. -/
def uniform (c : Ctx0) (f : Opd) : W64 :=
  match c.leader with
  | some (m, l) => f m l
  | none => f c.t 0

/-- Writes results with the latency of their kind: within `lat` positions, or by a landing event (0). -/
def deliver (s : State) (c : Ctx0) (h : Hdr) (lat : Nat) (ws : List Wr) (flags : List (Nat × BitVec 5)) : State :=
  if lat = 0 then
    -- flags are ORed at landing (R108)
    s.writeLater c.t h.sig c.mem ws flags
  else
    let s := c.mem.foldl (fun s m => s.writeFixeds m lat (ws.filter fun w =>
      match w.loc with
      | .v t _ => t == m
      | .s t _ => t == m
      | .p t _ => t == m
      | .t t _ => t == m
      | .h _ _ _ => m == c.t
      | .k _ _ => m == c.t)) s
    flags.foldl (fun s e => s.orFlagsFixed e.1 lat e.2) s

/-- A port pop makes a result one of variable latency, on the AS one that a vector index names too (R68, R76). -/
def latOf (k : TKind) (xs : List (Src × Nat)) (lat : Nat) : Nat := if xs.any (fun e => (effSrc k e.1).isPort) then 0 else lat

/-- The kind of the issuing thread. -/
def kindOf (s : State) (c : Ctx0) : TKind := match s.thread? c.t with | some th => th.kind | none => .simt

/-- Whether the AS of this XS has halted at a fault (R391). -/
def State.asHalted (s : State) (t : Nat) : Bool :=
  match s.thread? t with
  | some x => x.kind == .xs && (match s.thread? (pairOf t) with | some a => a.asHalt | none => false)
  | none => false

/-- A result of variable latency that is pushed to port q as it lands (R75). -/
def pushLater (s : State) (c : Ctx0) (h : Hdr) (q w : Nat) (x : W64) (flags : List (Nat × BitVec 5)) : State :=
  s.push c.t { Pend.value 0 h.sig c.mem [] flags s.clock with port := some q, got := [(lowW w x).toNat], sz := w / 8 }

/-- A push whose queue is full while the AS that empties it has halted stalls the XS, which takes the AS's trap (R391). -/
def pushNow (s : State) (c : Ctx0) (h : Hdr) (q w : Nat) (x : W64) (flags : List (Nat × BitVec 5)) : Res :=
  if 6 ≤ q && s.asHalted c.t && !portRoom s c.t q w then .stallQ else .adv (pushLater s c h q w x flags)

/-- Delivers a value of width w to a register destination or a port (R130). `lat` 0 is a variable latency: such a result is pushed when it
lands (R75; log entry 48). With no lane active nothing is written and a landing event happens at once (R544). A push to q0-q5 releases the
earlier stores (R265). -/
def deliverDst (s : State) (c : Ctx0) (h : Hdr) (d : Dst) (w lat : Nat) (f : Opd) (flags : List (Nat × BitVec 5)) : Res :=
  match s.thread? c.t with
  | none => .stall
  | some th =>
    if c.idle then .adv s
    else
      match effDst th.kind d with
      | .vec a => .adv (deliver s c h lat (vecWrites s c a.toNat w f) flags)
      | .scl a =>
        if 96 ≤ a.toNat && a.toNat < 112 then
          let q := a.toNat - 96
          if lat = 0 then pushNow s c h q w (uniform c f) flags
          else if !portRoom s c.t q w then (if q < 6 then .stall else .stallQ)
          else
            match if q < 6 then s.releaseAll c.mem else some s with
            | none => .stall
            | some s => .adv (flags.foldl (fun s e => s.orFlagsFixed e.1 lat e.2) (pushPort s c q w (uniform c f) h.sig))
        else .adv (deliver s c h lat (sclWrites s c a.toNat (uniform c f)) flags)

/-- The floating-point flags that the lanes of each member raise. -/
def memberFlags (c : Ctx0) (f : Nat → Nat → BitVec 5) : List (Nat × BitVec 5) :=
  (c.mem.map fun m => (m, (lanesOf (c.active m)).foldl (fun x l => x ||| f m l) 0)).filter (·.2 != 0)

/-- Reads the sources and goes on with them. -/
def withSrcs (c : Ctx0) (s : State) (xs : List (Src × Nat)) (k : List Opd → State → Res) : Res :=
  match fetchSrcs c s xs with
  | .ok vs s' => k vs s'
  | .wait => .stall
  | .waitQ => .stallQ
  | .bad v => .trap cIllegalOperand v none

/-- The body of a value instruction: a function of its sources, lane by lane, gives the result and the flags it raises. -/
def valueBody (h : Hdr) (d : Dst) (wd lat : Nat) (xs : List (Src × Nat)) (f : Thread → List W64 → W64 × BitVec 5) (c : Ctx0)
    (s : State) : Res :=
  withSrcs c s xs fun vs s' =>
    let g (m l : Nat) : W64 × BitVec 5 :=
      match s.thread? m with
      | none => (0, 0)
      | some th => f th (vs.map fun v => v m l)
    deliverDst s' c h d wd (latOf (kindOf s c) xs lat) (fun m l => (g m l).1) (memberFlags c fun m l => (g m l).2)

end Sys2Proof.Machine
end

