-- ==== Sys2Proof/Machine/Issue.lean ====
section
/-! DEFINITION. Issue: which paths may issue, rendezvous and leader windows, the checks of R81 in their order, the trap a word
takes, and what every completed word leaves (R35-R51, R78, R81-R84, R217, R227, R228, R391). -/

namespace Sys2Proof.Machine

/-! ## Profiles and privilege (R82, R84) -/

/-- Whether a kind of sequencer decodes an opcode (R82). -/
def profileOk (k : TKind) (op : Nat) : Bool :=
  if op < 0x40 then true
  else if op < 0x70 then k != .as
  else if op < 0x80 then k == .simt
  else if op < 0x95 then k != .xs
  else if op < 0xA0 then true
  else if op < 0xB0 then (if k = .simt then op != 0xAC && op != 0xAF else op != 0xA5 && op != 0xA8)
  else if op < 0xC0 then
    match k with
    | .simt => true
    | .as => op != 0xB3
    | .xs => op < 0xB3
  else if op < 0xE0 then k == .xs
  else true

/-- XRET, KILL, TLBINV and HINV (R84). -/
def privOp (op : Nat) : Bool := op == 0xE0 || op == 0xE1 || op == 0xE4 || op == 0xE5

/-- The trap registers (R84, R206). -/
def privReg (r : Nat) : Bool := 0x20 ≤ r && r ≤ 0x26

/-- Opcodes a handler may use (R228). -/
def trapModeOp (op : Nat) : Bool :=
  op < 0x40 || (0x40 ≤ op && op < 0x6E) || op == 0x80 || op == 0x81 || op == 0x90 || op == 0x95 ||
  (0xA0 ≤ op && op < 0xA4) || (0xE0 ≤ op && op < 0xE6)

/-- BRA, BRX, CALL, RET, LOOP, YIELD and BRQ (R214). -/
def transferOp (op : Nat) : Bool := (0xA0 ≤ op && op < 0xA5) || op == 0xA7 || op == 0xAF

/-- A scope that waits for a rendezvous (R42); on a tile sequencer warp scope is lane scope (R39). -/
def wideScope (k : TKind) (scp : Scope) : Bool :=
  match scp with
  | .lane => false
  | .warp => k == .simt
  | .sheaf => true
  | .block => true

/-! ## The members of a scope -/

/-- Whether a thread still takes part: it is resident and a lane of it is live (R47). -/
def State.takesPart (s : State) (t : Nat) : Bool :=
  match s.thread? t with
  | none => false
  | some th => th.live != 0 && !th.exiting

/-- The threads of a scope that take part, in index order, and its sheaf; `none` where the thread has no such scope (R42).
On a tile core the members are sequencers of the issuing kind. -/
def State.scopeSet (s : State) (t : Nat) (th : Thread) (scp : Scope) : Option (List Nat × Nat) :=
  let same (l : List Nat) : List Nat := if th.kind = .xs then l.map (· + 1) else l
  match scp with
  | .lane => some ([t], 0)
  | .warp => some ([t], 0)
  | .sheaf =>
    match th.shsel, s.block? th.block with
    | some n, some b =>
      if b.launched.contains t && th.index < 16 && (b.sheaf n).members.getLsbD th.index then
        let ms := (b.thr.zip (List.range b.thr.length)).filterMap fun e =>
          if (b.sheaf n).members.getLsbD e.2 then some e.1 else none
        some ((same ms).filter s.takesPart, n)
      else none
    | _, _ => none
  | .block =>
    match s.block? th.block with
    | some b => if b.launched.contains t then some ((same b.thr).filter s.takesPart, 0) else none
    | none => none

/-- Whether a member has arrived at a word: each live slice waits at its PC, in the same scope, and the counters of the
word's WAIT field are zero (R44, R45). -/
def State.hasArrived (s : State) (m : Nat) (r : Rdv) : Bool :=
  match s.thread? m with
  | none => false
  | some th =>
    match th.rdv with
    | none => false
    | some x => x.pc == r.pc && x.scp == r.scp && x.sheaf == r.sheaf && th.arrivedAt r.pc && th.waitOk r.wait &&
        th.inTrap.isNone && th.susp.isNone

/-! ## What holds a thread back -/

/-- The XS of this AS is in trap mode (R227), or either is not free to issue: halted, saved, suspended, waiting for a service reply,
exiting, ended with its context by an error it consumed (R535), with an asynchronous cause to take first (R232) or a rotation due (R38). -/
def State.blocked (s : State) (t : Nat) (th : Thread) : Bool :=
  th.asHalt || th.saved || th.doomed || th.susp.isSome || th.svc != .none || th.exiting ||
  -- a victim stops at its next instruction boundary (R371); a restored tile thread waits for its lease (R200)
  (th.kind == .simt && (match s.block? th.block with | some b => b.phase == .saving | none => false)) ||
  !th.leaseBack.isEmpty || (th.kind == .as && (match s.thread? (pairOf t) with | some x => !x.leaseBack.isEmpty | none => false)) ||
  -- while its XS handles a trap, but for an asynchronous cause of a word that the AS pushed (R227, R232)
  (th.kind == .as && (match s.thread? (pairOf t) with
    | some x => (match x.inTrap with | some i => !i.pushed | none => false)
    | none => false)) ||
  -- the constant buffer is copied before anything else (R128)
  (th.inTrap.isNone && ((!th.async.isEmpty && th.kind != .as && !th.ccopy) || th.rotate))

/-- The counter of a window or of a YIELD.C in the thread that owns it; a thread that has gone has nothing to wait for. -/
def State.counterOf (s : State) (t : Nat) (c : Fin 6) : Nat :=
  match s.thread? t with
  | none => 0
  | some th => th.counter c

/-- The lanes of the path at which a gang stands: those that run, and those that wait at a rendezvous. -/
def Thread.pathLanes (th : Thread) (g : BitVec 8) : W32 :=
  let run := th.run &&& gangLanes g
  if run != 0 then run else th.held &&& gangLanes g

/-- The window of the path at which a gang stands (R217). -/
def Thread.window (th : Thread) (g : BitVec 8) : Option Window := th.windows.find? fun w => w.path &&& th.pathLanes g != 0

/-- Lanes that have parted from the path keep their own window. -/
def Thread.mapWindow (th : Thread) (g : BitVec 8) (f : Window → Option Window) : Thread :=
  let m := th.pathLanes g
  { th with windows := th.windows.flatMap fun w =>
      if w.path &&& m = 0 then [w]
      else (if w.path &&& ~~~m = 0 then [] else [{ w with path := w.path &&& ~~~m }]) ++ (f { w with path := w.path &&& m }).toList }

def Thread.dropWindow (th : Thread) (g : BitVec 8) : Thread := th.mapWindow g fun _ => none

/-- A path that has yielded may not issue yet (R60, R218). -/
def State.yielding (s : State) (t : Nat) (th : Thread) (g : BitVec 8) : Bool :=
  let m := (th.run ||| th.held) &&& gangLanes g
  (th.yieldC.any fun y => y.1 &&& m != 0 && s.counterOf t y.2 != 0) ||
  (th.yields.any fun y => y.1 &&& m != 0 && !y.2.isEmpty)

/-- The thread's YIELDs are over once the path issues. -/
def Thread.dropYields (th : Thread) (g : BitVec 8) : Thread :=
  let m := (th.run ||| th.held) &&& gangLanes g
  { th with yieldC := th.yieldC.filter fun y => y.1 &&& m == 0, yields := th.yields.filter fun y => y.1 &&& m == 0 }

/-! ## The checks of R81 -/

/-- The first fault that applies. -/
def gate (op : Nat) (scp : Scope) (reg : Option Nat) (us : List Use) (extra : Ctx0 → Thread → Option Nat) (setOk : Bool)
    (c : Ctx0) (s : State) : Option (Nat × W64) :=
  match s.thread? c.t with
  | none => none
  | some th =>
    match opRow op with
    | none => some (cIllegalOpcode, BitVec.ofNat 64 (op * 256))
    | some row =>
      if !profileOk th.kind op then some (cIllegalOpcode, BitVec.ofNat 64 (op * 256 + 1))
      else if (privOp op || (reg.any privReg)) && !th.priv && th.inTrap.isNone then
        some (cPrivilege, BitVec.ofNat 64 (reg.getD 0 * 256 + op))
      else if !row.scopes.contains scp || !setOk then some (cIllegalScope, BitVec.ofNat 64 scp.bits.toNat)
      else match checkUses us extra c s with
        | some b => some (cIllegalOperand, BitVec.ofNat 64 b)
        | none => none

/-! ## Taking the trap of a word -/

/-- The slice and lane a trap names (R227): the slice given, or that of the lowest active lane, or the lowest of the gang;
then its lowest active lane or its lowest live one. -/
def trapSlice (act live : W32) (g : BitVec 8) (sl : Option Nat) : Nat × Nat :=
  let i := match sl with
    | some i => i
    | none => match lowest act with
      | some l => l / 4
      | none => ((slicesOf g).head?).getD 0
  let l := match lowest (act &&& sliceMask i) with
    | some l => l
    | none => match lowest (live &&& sliceMask i) with
      | some l => l
      | none => 4 * i
  (i, l)

/-- The trap of a word: taken by the issuing thread, with every member of its scope suspended. -/
def State.trapWord (s : State) (c : Ctx0) (code : Nat) (val : W64) (sl : Option Nat) (next : Bool) : State :=
  match s.thread? c.t with
  | none => s
  | some th =>
    let a := c.active c.t
    let (i, l) := trapSlice a th.live c.gang sl
    s.trapEntry c.t
      { code := code, async := false, scp := c.scp, pc := if next then c.pc + 8 else c.pc, val := val,
        slice := if th.kind = .simt then i else 0, lane := if th.kind = .simt then l else 0, mask := a, gang := c.gang,
        members := c.mem, pushed := false }

/-- SCOPE_MISMATCH (R48): taken by the lowest member, at the PC where it stands; XVAL is the other PC. Where the two words differ in scope,
`ms` are the members of the scope of the word that arrives (log entry 24). -/
def State.mismatch (s : State) (ms : List Nat) (c : Ctx0) (other : Addr) : State :=
  let lo := ms.headD c.t
  if lo = c.t then (s.trapWord { c with mem := ms } cScopeMismatch (other.setWidth 64) none false)
  else
    match s.thread? lo with
    | none => s
    | some x =>
      -- the slices of the member that wait at the word; of one that waits nowhere, the gang of its lowest slice: its other gangs stay (R229)
      let i := ((slicesOf x.liveSlices).head?).getD 0
      let waiting := slicesIn (x.held &&& x.live)
      let gang := match x.rdv with
        | some r => (slicesOf waiting).foldl (fun (g : BitVec 8) j => if x.reached j r.pc then g ||| (1#8 <<< j) else g) 0
        | none => ((lowest (x.run &&& sliceMask i)).bind x.gangOf).getD (1#8 <<< i)
      let own := match x.rdv with | some r => r.pc | none => x.standsAt i
      let act := match x.rdv with | some _ => x.held &&& gangLanes gang | none => x.run &&& gangLanes gang
      s.trapWord { c with t := lo, mem := ms, gang := gang, pc := own, act := [(lo, act)] } cScopeMismatch
        ((if own = c.pc then other else c.pc).setWidth 64) none false

/-- Members of a scope that the trap of thread t has suspended (R49). -/
def State.suspendedBy (s : State) (t : Nat) : List Nat :=
  s.threads.filterMap fun e => match e.2 with
    | some x => if x.susp == some t then some e.1 else none
    | none => none

/-- The XS takes the trap of its halted AS at an instruction that would stall (R391). The members of a scope that the AS's fault suspended
go on with its return (R49). -/
def State.takeAsTrap (s : State) (c : Ctx0) : State :=
  match s.thread? c.t, s.thread? (pairOf c.t) with
  | some x, some a =>
    if x.trap.vec = 0 then
      s.killContext x.vi x.ctx (coreSource (coreOf c.t)) (BitVec.ofNat 64 (a.trap.cause.toNat % 256))
        (BitVec.ofNat 64 (a.trap.cause.toNat % 256)) a.trap.val
    else
      s.setThread c.t { x.landFixed with
        trap := { x.trap with cause := a.trap.cause, val := a.trap.val, mask := a.trap.mask, pc := c.pc, slice := 1 }
        inTrap := some { pc := x.trap.vec, gang := 1, members := [c.t, pairOf c.t] ++ s.suspendedBy (pairOf c.t),
                         first := a.trap.cause.toNat % 256, pushed := false, wild := none } }
  | _, _ => s

/-- A pushed result of this XS waits for room in a full q12, q13 or q15 that its halted AS will not empty. -/
def State.stuckPush (s : State) (t : Nat) : Bool :=
  s.asHalted t && (match s.thread? t with
    | some x => x.pend.any fun p => p.port.any fun q => 12 ≤ q && !portRoom s t q (8 * p.sz)
    | none => false)

/-! ## Completing an instruction -/

/-- What every issue leaves: one more issue and one more position (R38, R77), the scheduler's order (R53), and the YIELDs that
waited for this warp (R218). -/
def State.countIssue (s : State) (m : Nat) : State :=
  match s.thread? m with
  | none => s
  | some th =>
    let th := { th with issues := th.issues + 1, pos := th.pos + 1, lastIssue := s.clock,
                        rotate := th.rotate || ((th.issues + 1) % 256 == 0 && !th.park.isEmpty) }
    ((s.setThread m th).eventOf m 1 1).mapThreads fun k x =>
      if x.yields.isEmpty then x
      else if k / 64 = m / 64 && x.sched = th.sched then
        { x with yields := x.yields.map fun y => (y.1, y.2.filter (· != m)) }
      else x

/-- A WAIT that finds at zero a counter that covered an engine launch acquires (R257, R266). -/
def State.waitAcquire (s : State) (m : Nat) (w : BitVec 6) : State :=
  match s.thread? m with
  | none => s
  | some th =>
    if th.cover &&& w = 0 then s
    else s.setThread m { th.acquireAll s.clock with cover := th.cover &&& ~~~w }

/-- A wait counter of a member would pass 63 (R78). -/
def State.overCount (s : State) (ms : List Nat) : Bool :=
  ms.any fun m => match s.thread? m with
    | some th => (List.range 6).any fun i => 63 < th.counter i
    | none => false

/-- A slice whose loop action at LEND overflows its split table (R212, R433). -/
def State.loopOver (s : State) (m : Nat) (g : BitVec 8) : Option Nat :=
  match s.thread? m with
  | some th => (slicesOf g).find? th.loopOverflow
  | none => none

/-- The issuing slices of a member go on to their next word. -/
def State.advance (s : State) (c : Ctx0) (m : Nat) : State :=
  s.mapThread m fun th =>
    if c.trapm then { th with inTrap := th.inTrap.map fun x => { x with pc := x.pc + 8 } }
    else th.stepGang (if m = c.t then c.gang else th.liveSlices)

/-- Split entries that the instruction spilled (R490). -/
def State.countSpills (s s0 : State) (t : Nat) : State :=
  match s0.thread? t, s.thread? t with
  | some a, some b => s.eventOf t 0x0A (b.spilled - a.spilled)
  | _, _ => s

/-- What the walks of an instruction leave behind when the instruction itself is undone. -/
def State.keepWalk (s0 s : State) : State :=
  { s0 with tlb := s.tlb, hcache := s.hcache, cfg := s.cfg, silt := s.silt, siltCount := s.siltCount, mere := s.mere,
            tree := s.tree, poison := s.poison, latent := s.latent, ue := s.ue }

/-- A thread's block consumes an error (R294): it ends without relaunch and is retired from its job; a reader whose own context the
error ends waits for that (R295). The second part says that it waits. -/
def State.consume (s : State) (t : Nat) (m : Meet) (pa : Nat) : State × Bool :=
  match s.thread? t with
  | none => (s, false)
  | some th =>
    let mine := s.charges th.ident pa
    match m with
    | .sram p => (s.loseSram p, false)
    | _ =>
    if m = .poison && mine then (s.mapThread t fun x => { x with doomed := true }, true)
    else
      let s := if m = .dram then { s with ue := s.ue ++ [{ pa := pa / 128 * 128, slot := none, owner := none, stage := 1 }] } else s
      (s.killBlock th.block (if m = .dram then 0x2B else 0x2C) (BitVec.ofNat 64 pa), false)

/-- An instruction that completes ends its translation attempt (R407). -/
def State.endWalk (s : State) (c : Ctx0) : State :=
  s.mapThread c.t fun th => if th.walkM.isEmpty then th else { th with walkM := th.dropWalk c.gang }

/-- The state once an instruction has completed its issue in `s`, its slices still where they were: its translation attempt ends, every
issuing slice goes on to its next word, and the issue is counted in each member; `s0` is the state it issued in. -/
def completed (c : Ctx0) (s0 s : State) : State :=
  (c.mem.foldl State.countIssue (c.mem.foldl (fun s m => s.advance c m) (s.endWalk c))).countSpills s0 c.t

/-- The same once an instruction has moved its slices itself. -/
def completedMoved (c : Ctx0) (s0 s : State) : State := (c.mem.foldl State.countIssue (s.endWalk c)).countSpills s0 c.t

/-- What becomes of the body's answer. `s0` is the state in which the word waits; `fresh` says that it has only just come
there. -/
def finish (c : Ctx0) (fresh : Bool) (s0 : State) (r : Res) : Out :=
  let hold : State := { s0 with held := !fresh }
  match r with
  | .trap code val sl => .next (s0.trapWord c code val sl false)
  | .trapAt s code val sl => .next ((s0.keepWalk s).trapWord c code val sl false)
  | .migrating s entry level va sl =>
    .next ((hold.keepWalk s).mapThread c.t fun th =>
      { th with walkM := { entry := entry, level := level, va := va, gang := c.gang, set_ := true, pc := c.pc, scp := c.scp,
                           mem := c.mem, sheaf := c.sheaf, act := c.act, sl := sl,
                           since := (th.walkOf c.gang).elim s.time (·.start level s.time)
                           m := WalkM.sinceM ((th.walkOf c.gang).bind (·.m)) level s.time } :: th.dropWalk c.gang })
  | .lost s m pa =>
    match (s0.keepWalk s).consume c.t m pa with
    | (s', true) => .next { s' with held := !fresh }
    | (s', false) => .next s'
  | .stall => .next hold
  | .waitWith f => .next (f hold)
  | .stallQ => if s0.asHalted c.t then .next (s0.takeAsTrap c) else .next hold
  | .moved s =>
    if s.overCount c.mem then .next hold else .next (completedMoved c s0 s)
  | .adv s =>
    if s.overCount c.mem then .next hold
    else
      match if c.trapm then none else s.loopOver c.t c.gang with
      | some i => .next (s0.trapWord c cDivergenceDepth (BitVec.ofNat 64 i) (some i) false)
      | none => .next (completed c s0 s)

/-! ## Issue in trap mode (R228) -/

/-- The lane in which a handler runs (R206, R227). -/
def Thread.handlerLane (th : Thread) : Nat := (th.trap.slice.toNat / 256) % 32

/-- Whether a word names a port operand. -/
def namesPort (us : List Use) : Bool :=
  us.any fun u => match u with
    | .src _ x _ _ => x.isPort
    | .sclsrc _ x _ => x.isPort
    | .dst x _ => x.isPort
    | .data x _ => x.isPort
    | .fp8 _ x _ => x.isPort
    | .tile _ _ => false
    | .tcvt _ _ _ => false
    | .grp _ _ => false
    | .tsrc _ x => x.isPort

/-- What a word comes to before its own effect. -/
inductive Plan where
  /-- nothing holds it and its checks pass: its effect comes next, with these members, in the state `s1`; `s0` is the state in which it
  waits if its effect makes it wait, and `fresh` says that it has only just come there -/
  | run (c : Ctx0) (fresh : Bool) (s0 s1 : State)
  /-- it waits, or takes the trap of a check -/
  | out (o : Out)

def planTrap (op : Nat) (h : Hdr) (reg : Option Nat) (us : List Use) (extra : Ctx0 → Thread → Option Nat)
    (s : State) (t : Nat) (th : Thread) (x : InTrap) : Plan :=
  if !th.waitOk h.wait then .out (.next { s with held := true })
  else if (opRow op).isNone || !trapModeOp op then .out (.next (s.refuseInTrap t cIllegalOpcode))
  else if h.scp != .lane then .out (.next (s.refuseInTrap t cIllegalScope))
  else
    let c : Ctx0 := { t := t, gang := x.gang, scp := .lane, mem := [t], pc := x.pc,
                      act := [(t, s.guardOf t th h.pr &&& lane1 (if th.kind = .simt then th.handlerLane else 0))], sheaf := 0, trapm := true }
    match gate op h.scp reg us extra true c s with
    | some (code, val) => .out (.next (s.trapWord c code val none false))
    | none =>
      if namesPort us then .out (.next (s.refuseInTrap t cIllegalOperand))
      else .run c false s (s.waitAcquire t h.wait)

/-! ## Issue at lane scope -/

/-- The state and lanes in which a gang's word runs once windows and yields allow it: with a window open the leader alone is
active; a closed window holds the gang until its counter is zero (R59, R217). `none`: it waits. -/
def windowLanes (s : State) (th : Thread) (g : BitVec 8) (closes : Bool) : Option (W32 × Thread) :=
  let run := th.run &&& gangLanes g
  match th.window g with
  | none => some (run, th)
  | some w =>
    if w.left = 0 || closes then
      if s.counterOf w.owner w.wc = 0 then some (run, th.dropWindow g) else none
    else some (run &&& lane1 w.lane, th.mapWindow g fun y => some { y with left := y.left - 1 })

def planLane (op : Nat) (h : Hdr) (reg : Option Nat) (us : List Use) (extra : Ctx0 → Thread → Option Nat)
    (s : State) (t : Nat) (th : Thread) (g : BitVec 8) : Plan :=
  if s.yielding t th g then .out (.next { s with held := true })
  else
    match windowLanes s th g (transferOp op || op == 0xA5) with
    | none => .out (.next { s with held := true })
    | some (lanes, th') =>
      let pc := (th.slice (((slicesOf g).head?).getD 0)).pc
      let c : Ctx0 := { t := t, gang := g, scp := h.scp, mem := [t], pc := pc, act := [(t, lanes &&& s.guardOf t th h.pr)],
                        sheaf := 0, trapm := false }
      if !th.waitOk h.wait then .out (.next (if s.stuckPush t then s.takeAsTrap c else { s with held := true }))
      else
        match gate op h.scp reg us extra true c s with
        | some (code, val) => .out (.next (s.trapWord c code val none false))
        | none => .run c false s ((s.setThread t (th'.dropYields g)).waitAcquire t h.wait)

/-! ## Issue at warp, sheaf and block scope (R44-R49) -/

/-- A waiting slice at another PC that the arrival at `pc` conflicts with (R48, R216). -/
def Thread.otherWait (th : Thread) (g : BitVec 8) (pc : Addr) : Option Addr :=
  (List.range 8).findSome? fun i =>
    match (th.slice i).at_ with
    | some a => if a.pc != pc && (!a.regang || a.mask &&& g != 0) then some a.pc else none
    | none => none

/-- Another member of the sheaf or block that waits at another PC of that scope (R48). -/
def State.otherMember (s : State) (ms : List Nat) (r : Rdv) : Option Addr :=
  if r.scp = .warp then none
  else ms.findSome? fun m => match s.thread? m with
    | some th => match th.rdv with
      | some x => if x.scp == r.scp && x.sheaf == r.sheaf && x.pc != r.pc && th.arrivedAt x.pc && th.waitOk x.wait then some x.pc else none
      | none => none
    | none => none

/-- Every slice of an arrived member runs again, as one gang (R46). -/
def Thread.gather (th : Thread) : Thread :=
  let th := (th.release th.liveSlices).oneGang
  { th with rdv := none }

def planWide (op : Nat) (h : Hdr) (reg : Option Nat) (us : List Use) (extra : Ctx0 → Thread → Option Nat)
    (s : State) (t : Nat) (th : Thread) (g : BitVec 8) : Plan :=
  if s.yielding t th g then .out (.next { s with held := true })
  else
    match windowLanes s th g true with
    | none => .out (.next { s with held := true })
    | some (_, th) =>
      let i0 := ((slicesOf g).head?).getD 0
      let fresh := th.run &&& gangLanes g != 0
      let pc := match fresh, (th.slice i0).at_ with
        | false, some a => a.pc
        | _, _ => (th.slice i0).pc
      let run := th.run &&& gangLanes g
      let c0 : Ctx0 := { t := t, gang := g, scp := h.scp, mem := [t], pc := pc, act := [(t, run &&& s.guardOf t th h.pr)],
                         sheaf := 0, trapm := false }
      match s.scopeSet t th h.scp with
      | none =>
        -- no rendezvous exists for it: the checks name the fault
        match gate op h.scp reg us extra false c0 s with
        | some (code, val) => .out (.next (s.trapWord c0 code val none false))
        | none => .out (.next { s with held := true })
      | some (ms, sheaf) =>
        let r : Rdv := { pc := pc, scp := h.scp, wait := h.wait, sheaf := sheaf }
        match if fresh then th.otherWait g pc else none with
        | some other => .out (.next (s.mismatch ms c0 other))
        | none =>
          let th1 := if fresh then
              (slicesOf g).foldl (fun th i => if th.runOf i = 0 then th
                else th.reach i { pc := pc, mask := 0xFF, regang := false }) (th.dropYields g)
            else th
          let th1 := { (if fresh then th1.regroup g [] else th1) with rdv := some r }
          let s1 := s.setThread t th1
          let hold : State := { s1 with held := !fresh }
          if !s1.hasArrived t r then .out (.next (if s.stuckPush t then s.takeAsTrap c0 else hold))
          else
            match s1.otherMember ms r with
            | some other =>
              .out (.next (s1.mismatch ms { c0 with gang := th1.liveSlices, act := [(t, th1.held &&& s1.guardOf t th1 h.pr)] } other))
            | none =>
              if !(ms.all fun m => s1.hasArrived m r) then .out (.next hold)
              else
                let s2 := ms.foldl (fun s m => s.mapThread m Thread.gather) s1
                let lo := ms.headD t
                let c : Ctx0 :=
                  { t := lo, gang := (s2.thread? lo).elim 0 (·.liveSlices), scp := h.scp, mem := ms, pc := pc,
                    act := ms.map fun m => (m, (s2.thread? m).elim 0 fun x => x.run &&& s2.guardOf m x h.pr), sheaf := sheaf, trapm := false }
                match gate op h.scp reg us extra true c s2 with
                | some (code, val) => .out (.next (s1.trapWord c code val none false))
                | none => .run c fresh s1 (ms.foldl (fun s m => s.waitAcquire m h.wait) s2)

/-! ## Uncorrectable errors in registers (R293, R294) -/

/-- Opcodes whose results have a fixed latency (R76). -/
def fixedOp (op : Nat) : Bool :=
  op ≤ 0x24 || op == 0x26 || (0x40 ≤ op && op ≤ 0x45) || (0x50 ≤ op && op ≤ 0x54) || op == 0x60 || op == 0x61 || op == 0xE2

/-- A source pops a port, so that the result has a variable latency (R76). -/
def popsPort (k : TKind) (us : List Use) : Bool :=
  us.any fun u => match u with
    | .src _ x _ _ => (effSrc k x).isPort
    | .sclsrc _ x _ => (effSrc k x).isPort
    | .fp8 _ x _ => (effSrc k x).isPort
    | _ => false

/-- The code words that an operand of opcode `op` names in member m, and whether they are written. A result of variable latency is written as it
lands (`late`), and so is a tile; the D field of TST and ACCWR names a tile that is read. -/
def Use.locs (op : Nat) (late : Bool) (s : State) (c : Ctx0) (k : TKind) (m : Nat) (u : Use) : List (ErrLoc × Bool) :=
  let vec (a w : Nat) (wr : Bool) : List (ErrLoc × Bool) :=
    if c.active m = 0 then [] else (List.range (regsOf w)).map fun j => (.reg (.v m (vindex s c m a + j)), wr)
  let scl (a : Nat) (wr : Bool) : List (ErrLoc × Bool) :=
    if m = c.t || wr then ((scalarLoc s m a).map fun l => (.reg l, wr)).toList else []
  let tile (t : BitVec 8) (ty : Nat → Nat) : List (ErrLoc × Bool) :=
    match s.thread? m with
    | some th => (tsegsOf m t.toNat (tyBytes (ty th.tTy) th.tCount)).map fun l => (l, false)
    | none => []
  let read (x : Src) (w : Nat) : List (ErrLoc × Bool) :=
    match effSrc k x with
    | .vec a => vec a.toNat w false
    | .scl a => scl a.toNat false
    | _ => []
  let write (x : Dst) (w : Nat) (wr : Bool) : List (ErrLoc × Bool) :=
    match effDst k x with
    | .vec a => vec a.toNat w wr
    | .scl a => scl a.toNat wr
  match u with
  | .src _ x w _ => read x w
  | .sclsrc _ x w => read x w
  | .dst x w => if late then [] else write x w true
  | .data x w => write x w false
  | .grp x n => match effDst k x with
    | .vec a => (List.range n).flatMap fun j => vec (a.toNat + j) 32 false
    | .scl a => (List.range n).flatMap fun j => scl (a.toNat + j) false
  | .fp8 _ x _ => read x 32
  | .tile bit t => if bit = 24 && op != 0xC1 && op != 0xD2 then [] else tile t id
  | .tcvt _ t ty => tile t fun _ => ty
  | .tsrc _ x => match x with
    | .vec t => tile t id
    | .scl a => scl a.toNat false
    | _ => []

/-- Register number as UE_REGISTER gives it: the index by which an operand names it (R72). -/
def RegLoc.number : RegLoc → Nat
  | .v _ r => r
  | .s _ r => r
  | .p _ r => r
  | .t _ r => r
  | .h _ _ r => 64 + r
  | .k _ r => 80 + r

/-- The same of a code word: a status register by its number, an accumulator row by the row. -/
def ErrLoc.number : ErrLoc → Nat
  | .reg l => l.number
  | .status _ n => n
  | .tseg _ n => n / 64
  | .acc _ n => n / 32
  | .core _ n => 4 * n
  | .group _ n => 64 * n

/-- A write of every lane of a v-register, or of another register whole: no old value is read (R293). -/
def Ctx0.writesWhole (c : Ctx0) (m : Nat) : ErrLoc → Bool
  | .reg (.v _ _) => c.active m == BitVec.allOnes 32
  | _ => true

/-- The code words that a word names: its operands', and the status register of SRD and SWR. -/
def State.wordLocs (s : State) (op : Nat) (reg : Option Nat) (c : Ctx0) (k : TKind) (us : List Use) (m : Nat) : List (ErrLoc × Bool) :=
  us.flatMap (Use.locs op (!fixedOp op || popsPort k us) s c k m) ++
  (if m != c.t then [] else match reg with
    | some n => if op == 0xE2 then [(.status m n, false)] else if op == 0xE3 then [(.status m n, true)] else []
    | none => [])

/-- The first code word with an error that a word reads, or writes in some lanes only. -/
def State.regHit (s : State) (op : Nat) (reg : Option Nat) (c : Ctx0) (us : List Use) : Option ErrLoc :=
  match s.thread? c.t with
  | none => none
  | some th => if c.idle then none else c.mem.findSome? fun m =>
      (s.wordLocs op reg c th.kind us m).findSome? fun e =>
        if s.regErr.contains e.1 && !(e.2 && c.writesWhole m e.1) then some e.1 else none

/-- The errors that a word overwrites. -/
def State.writeOver (s : State) (op : Nat) (reg : Option Nat) (c : Ctx0) (us : List Use) : State :=
  match s.thread? c.t with
  | none => s
  | some th => if c.idle then s else
      let whole := c.mem.flatMap fun m => (s.wordLocs op reg c th.kind us m).filterMap fun e => if e.2 && c.writesWhole m e.1 then some e.1 else none
      { s with regErr := s.regErr.filter fun l => !whole.contains l }

/-- Opcodes that access memory through the TLB (R414). -/
def memOp (op : Nat) : Bool := (0x80 ≤ op && op ≤ 0x87 && op != 0x85) || (0x90 ≤ op && op ≤ 0x93) || op == 0xC0 || op == 0xC1

/-- Another arrived member waits for an invalidation: an access of the scope waits with it (R414). -/
def State.invalWaits (s : State) (c : Ctx0) : Bool :=
  c.mem.any fun m => m != c.t && (match s.thread? m with | some th => th.pend.any (·.op.isInval) | none => false)

/-- A word whose checks pass meets the errors of its registers: its block ends with UE_REGISTER, or it overwrites them. -/
def Plan.screen (op : Nat) (reg : Option Nat) (us : List Use) (p : Plan) : Plan :=
  match p with
  | .run c fresh s0 s1 =>
    if memOp op && s1.invalWaits c then .out (.next { s0 with held := !fresh })
    else if s1.regErr.isEmpty then .run c fresh s0 s1
    else
      match s1.regHit op reg c us, s1.thread? c.t with
      | some l, some th => .out (.next (s0.loseBlock th.block Block.again 0x29 (BitVec.ofNat 64 l.number)))
      | _, _ => .run c fresh s0 (s1.writeOver op reg c us)
  | .out o => .out o

/-! ## Issue -/

/-- What becomes of a Lerzil word up to its operands' errors (R44-R49, R81). -/
def planChecks (op : Nat) (h : Hdr) (reg : Option Nat) (us : List Use) (extra : Ctx0 → Thread → Option Nat) (s : State) : Plan :=
  match s.cur with
  | .thread t g =>
    match s.thread? t with
    | none => .out (.refused .notActing)
    | some th =>
      if s.blocked t th then .out (.next { s with held := true })
      else
        match th.inTrap with
        | some x => planTrap op h reg us extra s t th x
        | none =>
          if wideScope th.kind h.scp then planWide op h reg us extra s t th g
          else planLane op h reg us extra s t th g
  | _ => .out (.refused .notActing)

/-- What becomes of a Lerzil word of the party that acts up to its own effect: `us` and `extra` are its operand checks, `reg` the status
register it names (R44-R49, R81, R293). -/
def plan (op : Nat) (h : Hdr) (reg : Option Nat) (us : List Use) (extra : Ctx0 → Thread → Option Nat) (s : State) : Plan :=
  (planChecks op h reg us extra s).screen op reg us

/-- The party that acts issues a Lerzil word; `body` is what it does once nothing holds it back. -/
def issueR (op : Nat) (h : Hdr) (reg : Option Nat) (us : List Use) (extra : Ctx0 → Thread → Option Nat)
    (body : Ctx0 → State → Res) (s : State) : Out :=
  match plan op h reg us extra s with
  | .run c fresh s0 s1 => finish c fresh s0 (body c s1)
  | .out o => o

def issue (op : Nat) (h : Hdr) (us : List Use) (extra : Ctx0 → Thread → Option Nat) (body : Ctx0 → State → Res) (s : State) :
    Out := issueR op h none us extra body s

/-- A word that decoding refuses: every check before the operand check still comes first (R81). -/
def issueBad (op : Nat) (h : Hdr) (reg : Option Nat) (bit : Nat) (s : State) : Out :=
  issueR op h reg [] (fun _ _ => some bit) (fun _ _ => .stall) s

end Sys2Proof.Machine
end

