-- ==== Sys2Proof/Machine/Flags.lean ====
section
/-! DEFINITION. The floating-point flags, the mode register and the generator states (R100, R104, R107, R117, R155-R157). -/

namespace Sys2Proof.Machine

/-! ## FFLAGS (R107, R157) -/

abbrev fNX : BitVec 5 := 0x01
abbrev fUF : BitVec 5 := 0x02
abbrev fOF : BitVec 5 := 0x04
abbrev fDZ : BitVec 5 := 0x08
abbrev fNV : BitVec 5 := 0x10

/-- A flag when its condition holds. -/
def flagIf (b : Bool) (f : BitVec 5) : BitVec 5 := if b then f else 0

/-! ## FMODE (R156) -/

/-- FMODE.FTZ (R100). -/
def Thread.ftz (th : Thread) : Bool := th.fmode.getLsbD 3

/-- FMODE.RM (R104). -/
def Thread.rm (th : Thread) : Rm :=
  match (th.fmode.extractLsb' 0 3).toNat with
  | 0 => .rne
  | 1 => .rtz
  | 2 => .rdn
  | 3 => .rup
  | 4 => .rmm
  | _ => .stoch

/-- The mode a 2-bit rounding field selects. -/
def rm2 (th : Thread) : Rm2 → Rm
  | .rne => .rne
  | .rtz => .rtz
  | .dyn => th.rm

/-- The mode a 3-bit rounding field selects. -/
def rm3 (th : Thread) : Rm3 → Rm
  | .mode m => m
  | .dyn => th.rm

/-- DYN with STOCH in FMODE.RM, in an instruction that is no narrowing conversion (R104, R545: 0x101). -/
def dynStoch (dyn : Bool) : Ctx0 → Thread → Option Nat := fun _ th =>
  if dyn && th.rm == .stoch then some 0x101 else none

/-- One check after another. -/
def andThen (f g : Ctx0 → Thread → Option Nat) : Ctx0 → Thread → Option Nat := fun c th =>
  match f c th with
  | some b => some b
  | none => g c th

/-! ## Generators (R117, R174) -/

/-- GeneratorNext. -/
def genNext (x : W32) : W32 :=
  let x := x ^^^ (x <<< 13)
  let x := x ^^^ (x >>> 17)
  x ^^^ (x <<< 5)

/-- The state that RSEED gives lane j. -/
def genSeed (seed : W32) (j : Nat) : W32 :=
  let x := seed ^^^ (BitVec.ofNat 32 (j * 0x9E3779B9))
  if x = 0 then 1 else x

/-- State j of a thread. -/
def Thread.genAt (th : Thread) (j : Nat) : W32 :=
  let d := genSeed 0 j
  let x := th.gen.get 0 j
  if x = 0 then d else x

/-- A state is never 0; 0 in the table stands for the state after RSEED with seed 0. -/
def Thread.setGen (th : Thread) (j : Nat) (x : W32) : Thread :=
  { th with gen := th.gen.set 0 j (if x = genSeed 0 j then 0 else x) }

end Sys2Proof.Machine
end

