-- ==== Sys2Proof/Machine/Xlat.lean ====
section
/-! DEFINITION. Context descriptors, handle entries and the table walk, with the copies that the device holds of them
(R399-R412, R415, R423-R427). -/

namespace Sys2Proof.Machine

/-! ## Physical addresses (R23, R401, R514) -/

/-- First physical address of the device configuration space. -/
abbrev cfgBase : Nat := 0x0004000000000000
/-- End of populated LPDDR6. -/
abbrev dramTop : Nat := 0x3000000000
abbrev peerBase : Nat := 0x8000000000000

/-- What lies at a physical address; offset 2^24 of the configuration space stands for an address that names nothing. -/
def placeOf (pa : Nat) : Place :=
  if pa < dramTop then .mem pa
  else if peerBase ≤ pa then .peer (pa - peerBase)
  else if cfgBase ≤ pa && pa < cfgBase + 0x1000000 then .dev (pa - cfgBase)
  else .dev 0x1000000

/-- n consecutive places from a physical address. -/
def placesOf (pa n : Nat) : List Place := (List.range n).map fun i => placeOf (pa + i)

/-- A 64-bit word read at its home for a requester. -/
def State.readWord (s : State) (pa : Nat) (id : W16) : State × W64 × Meet :=
  let (s, bs, m) := s.readHome (placesOf pa 8) id true
  (s, BitVec.ofNat 64 (ofBytes bs), m)

/-- Words read one after the other; the first error ends the reading. -/
def State.readWords (s : State) (id : W16) : List Nat → State × List W64 × Option (Meet × Nat)
  | [] => (s, [], none)
  | pa :: l =>
    match s.readWord pa id with
    | (s, w, .data) =>
      let (s, ws, e) := s.readWords id l
      (s, w :: ws, e)
    | (s, w, m) => (s, [w], some (m, pa))

/-! ## Context descriptors (R423-R425) -/

/-- CTX_TAB of interface v. -/
def ctxTabOff (v : Nat) : Nat := 0x70000 + 0x1000 * v

/-- Physical address of a descriptor, if the table holds it. -/
def State.descAddr (s : State) (vi ctx : Nat) : Option Nat :=
  let t := s.cfgAt (ctxTabOff vi)
  if ctx < (t.extractLsb' 52 12).toNat then some (bitsOf t.toNat 6 46 * 64 + 64 * ctx) else none

/-- A descriptor as read. -/
structure Desc where
  priv : Bool
  rwalk : Bool
  root : Nat
  htab : Nat
  xvec : Addr
  saveBase : Nat
  slots : Nat
  splBase : Nat
  splCount : Nat
  splNext : Nat
  deriving DecidableEq, Repr

/-- The bits of each descriptor word that hold a field (R424). -/
def descUsed : List W64 :=
  [0xE00FFFFFFFFFF000, 0x000FFFFFFFFFE000, 0x000FFFFFFFFFFFF8, 0x000FFFFFFF00FFFF, 0x000FFFFFFFFFF000, 0xFFFFFFFFFFFFFFFF, 0, 0]

/-- The fields of a descriptor, whether it is valid or not. -/
def descFields (ws : List W64) : Desc :=
  let w (i : Nat) : W64 := ws.getD i 0
  { priv := (w 0).getLsbD 62, rwalk := (w 0).getLsbD 61, root := bitsOf (w 0).toNat 12 40 * 4096, htab := (w 1).toNat,
              xvec := (w 2).setWidth 52, saveBase := bitsOf (w 3).toNat 24 28 * 2 ^ 24, slots := bitsOf (w 3).toNat 0 16,
              splBase := (w 4).toNat, splCount := bitsOf (w 5).toNat 32 32, splNext := bitsOf (w 5).toNat 0 32 }

/-- A descriptor from its words; `none` where it is not valid. -/
def descOf (ws : List W64) : Option Desc :=
  if !(ws.getD 0 0).getLsbD 63 || (ws.zip descUsed).any (fun e => e.1 &&& ~~~e.2 != 0) then none else some (descFields ws)

/-- What reading a descriptor gives. -/
inductive DescRead where
  | ok (d : Desc)
  | invalid
  | err (m : Meet) (pa : Nat)
  deriving DecidableEq, Repr

/-- The fields of a descriptor as they stand; V is not read (R425). -/
def State.rawDesc (s : State) (vi ctx : Nat) : State × DescRead :=
  match s.descAddr vi ctx with
  | none => (s, .invalid)
  | some pa =>
    match s.readWords (identity vi ctx) ((List.range 8).map fun i => pa + 8 * i) with
    | (s, _, some (m, a)) => (s, .err m a)
    | (s, ws, none) => (s, .ok (descFields ws))

/-- A descriptor whose V is read: at a release, at a splinter request, by a walk and on a handle-cache miss (R405, R415, R425). -/
def State.readDesc (s : State) (vi ctx : Nat) : State × DescRead :=
  match s.descAddr vi ctx with
  | none => (s, .invalid)
  | some pa =>
    match s.readWords (identity vi ctx) ((List.range 8).map fun i => pa + 8 * i) with
    | (s, _, some (m, a)) => (s, .err m a)
    | (s, ws, none) => (s, match descOf ws with | some d => .ok d | none => .invalid)

/-! ## Units of an interface (R503, R504) -/

def viOff (v : Nat) : Nat := 0xF8000 + 0x40 * v

/-- SIMT cores of an interface, in increasing number. -/
def State.viCores (s : State) (v : Nat) : List Nat := (List.range 64).filter fun n => (s.cfgAt (viOff v)).getLsbD n
def State.viGroups (s : State) (v : Nat) : List Nat := (List.range 16).filter fun g => (s.cfgAt (viOff v + 8)).getLsbD g

/-- Whether a tile core is enabled (R21, R24). -/
def State.tileOn (s : State) (m : Nat) : Bool := s.inv.tile.getLsbD m && s.inv.units.getLsbD (m / 4)

/-- The core that TCORE of an interface names. -/
def State.target (s : State) (v : Nat) (tile : Bool) (n : Nat) : Option Nat :=
  if tile then
    match (s.viGroups v)[n / 4]? with
    | some g => if s.tileOn (4 * g + n % 4) then some (64 + 4 * g + n % 4) else none
    | none => none
  else (s.viCores v)[n]?

/-! ## Handle entries (R415, R426, R427) -/

def HEntry.space (h : HEntry) : Nat := (h.attr.extractLsb' 28 3).toNat
def HEntry.pol (h : HEntry) : Nat := (h.attr.extractLsb' 26 2).toNat
def HEntry.canR (h : HEntry) : Bool := h.attr.getLsbD 25
def HEntry.canW (h : HEntry) : Bool := h.attr.getLsbD 24

/-- An entry from its words (R427). -/
def State.handleOf (s : State) (vi n : Nat) (ws : List W64) : Option HEntry :=
  let a := ws.getD 2 0
  let base := ws.getD 0 0
  let len := ws.getD 1 0
  let space := (a.extractLsb' 28 3).toNat
  if !a.getLsbD 31 || space = 7 || a &&& 0xFFFFFFFF0080FFFF != 0 || ws.getD 3 0 != 0 then none
  else if space != 3 then
    if a &&& 0x7F0000 != 0 then none
    else some { idx := n, base := base, len := len, attr := if space = 5 then a &&& ~~~0x1000000#64 else a, core := 0 }
  else
    let tile := a.getLsbD 22
    match s.target vi tile (a.extractLsb' 16 6).toNat with
    | none => none
    | some u =>
      if (if tile then 6291456 else 262144) < base.toNat + len.toNat then none
      else some { idx := n, base := base, len := len, attr := a, core := u }

/-- What reading a handle entry gives. -/
inductive HandleRead where
  | ok (h : HEntry)
  | invalid
  | err (m : Meet) (pa : Nat)
  deriving DecidableEq, Repr

/-- Reads handle n of a context: a core's copy, or the table (R415). A core number of 1000 or more keeps no copy. -/
def State.handle (s : State) (core vi ctx n : Nat) : State × HandleRead :=
  let give (ws : List W64) : HandleRead := match s.handleOf vi n ws with | some h => .ok h | none => .invalid
  match s.hcache.find? fun c => c.core == core && c.vi == vi && c.ctx == ctx && c.n == n with
  | some c => (s, give c.words)
  | none =>
    match s.readDesc vi ctx with
    | (s, .invalid) => (s, .invalid)
    | (s, .err m a) => (s, .err m a)
    | (s, .ok d) =>
      match s.readWords (identity vi ctx) ((List.range 4).map fun i => d.htab + 32 * n + 8 * i) with
      | (s, _, some (m, a)) => (s, .err m a)
      | (s, ws, none) =>
        let s := if core < 1000 then
            { s with hcache := { core := core, vi := vi, ctx := ctx, n := n, words := ws } :: s.hcache }
          else s
        (s, give ws)

/-! ## The walk (R399-R408) -/

/-- Who walks: where its leaves and its table entries are held (R409), the context, and the unit that reports a malformed entry. -/
structure Walker where
  leaves : Nat
  tables : Nat
  vi : Nat
  ctx : Nat
  source : Nat
  deriving DecidableEq, Repr

/-- The walker of a thread. -/
def walkerOf (t : Nat) (th : Thread) : Walker :=
  let u := coreOf t
  { leaves := if isTile t then 256 + t else u, tables := u, vi := th.vi, ctx := th.ctx, source := coreSource u }

/-- The walker of a stream TLB: engine n (R409). -/
def engineWalker (n vi ctx source : Nat) : Walker :=
  { leaves := 20000 + n, tables := 20000 + n, vi := vi, ctx := ctx, source := source }

/-- Entries a structure holds (R409): of a stream TLB, leaves and table entries together. -/
def tlbCap (w : Nat) (leaf : Bool) : Nat := if 20000 ≤ w then 16 else if leaf && w < 256 then 512 else 64

/-- Low address bits that an entry of a level covers. -/
def lvlBits (l : Nat) : Nat := 43 - 9 * l

def TlbEntry.isLeaf (e : TlbEntry) : Bool := e.entry.getLsbD 1

/-- Whether a held entry is on the path to a VA. -/
def TlbEntry.covers (e : TlbEntry) (vi ctx va : Nat) : Bool :=
  e.vi == vi && e.ctx == ctx && e.va / 2 ^ lvlBits e.level == va / 2 ^ lvlBits e.level

/-- Holds an entry; beyond its capacity a structure gives up its oldest. -/
def State.holdEntry (s : State) (e : TlbEntry) : State :=
  let same (x : TlbEntry) : Bool := x.where_ == e.where_ && (20000 ≤ e.where_ || x.isLeaf == e.isLeaf)
  let l := s.tlb.filter fun x => !(same x && x.isLeaf == e.isLeaf && x.level == e.level && x.covers e.vi e.ctx e.va)
  let l := if (l.filter same).length < tlbCap e.where_ e.isLeaf then l
    else match l.reverse.findIdx? same with
      | some i => l.eraseIdx (l.length - 1 - i)
      | none => l
  { s with tlb := e :: l }

/-- A valid entry that is malformed (R400, R401). -/
def malformed (l : Nat) (e : W64) : Bool :=
  let leaf := e.getLsbD 1
  let addr := bitsOf e.toNat 12 40 * 4096
  let inside (n : Nat) : Bool :=
    (addr + n ≤ dramTop) || (peerBase ≤ addr && addr + n ≤ 2 * peerBase) || (cfgBase ≤ addr && addr + n ≤ cfgBase + 0x1000000)
  e.extractLsb' 52 4 != 0 || e.extractLsb' 9 3 != 0 || (l == 0 && leaf) || (l == 3 && !leaf) ||
  (if leaf then addr % 2 ^ lvlBits l != 0 || !inside (2 ^ lvlBits l) else e.extractLsb' 4 5 != 0 || !inside 4096)

/-- How a walk ends. -/
inductive Walk where
  | leaf (e : W64) (level : Nat)
  | fault (code : Nat) (val : W64)
  /-- M is set in the entry at this address; the level it reports (R407), or `noReply` -/
  | mig (entry level : Nat)
  | err (m : Meet) (pa : Nat)
  deriving DecidableEq, Repr

/-- XVAL of a table fault: level and VA (R405). -/
def lvlVal (l va : Nat) : W64 := BitVec.ofNat 64 (l * 2 ^ 52 + va % 2 ^ 52)

/-- The walk from a node of level `l`. -/
def State.walkFrom (s : State) (w : Walker) (rwalk : Bool) (va : Nat) : Nat → Nat → Nat → State × Walk
  | 0, _, _ => (s, .fault cPageFault (BitVec.ofNat 64 va))
  | fuel + 1, l, node =>
    let pa := node + 8 * bitsOf va (lvlBits l) 9
    -- the link, or a slice pair that stands still (R488), does not answer
    if (if peerBase ≤ pa then (s.free (2 ^ 60 + pa)).getLsbD 0 else s.sliceHalted pa) then (s, .mig pa noReply)
    else match s.readWord pa (identity w.vi w.ctx) with
    | (s, e, .data) =>
      let leaf := e.getLsbD 1
      if !e.getLsbD 0 then
        (s, if l = 0 || (l < 3 && !leaf) then .fault cTableAbsent (lvlVal (l + 1) va) else .fault cPageFault (BitVec.ofNat 64 va))
      else if malformed l e then
        (s.log 0x0450 w.source (w.vi * 4096 + w.ctx) (BitVec.ofNat 64 pa) e, .fault cPageFault (BitVec.ofNat 64 va))
      else if e.getLsbD 2 then (s, .mig pa (if leaf then 4 else l + 1))
      else
        let s := s.holdEntry { where_ := if leaf then w.leaves else w.tables, vi := w.vi, ctx := w.ctx, level := l, va := va, entry := e, rwalk := rwalk }
        if leaf then (s, .leaf e l)
        else if e.getLsbD 3 && !rwalk then (s, .fault cTableRemote (lvlVal (l + 1) va))
        else s.walkFrom w rwalk va fuel (l + 1) (bitsOf e.toNat 12 40 * 4096)
    | (s, _, m) => (s, .err m pa)

/-- Translates a VA of 52 bits: a held leaf, a held table entry, or the whole path from the root. -/
def State.walk (s : State) (w : Walker) (va : Nat) : State × Walk :=
  match s.tlb.find? fun e => e.where_ == w.leaves && e.isLeaf && e.covers w.vi w.ctx va with
  | some e => (s, .leaf e.entry e.level)
  | none =>
    let s := if w.tables < 128 then s.event w.tables 0x0D (some w.vi) 1 else s
    let held (l : Nat) := s.tlb.find? fun e => e.where_ == w.tables && !e.isLeaf && e.level == l && e.covers w.vi w.ctx va
    match [2, 1, 0].findSome? held with
    -- a walk that hits the walk cache does not read the descriptor (R405): the bit is the one read with the entry (R425)
    | some e =>
      if e.entry.getLsbD 3 && !e.rwalk then (s, .fault cTableRemote (lvlVal (e.level + 1) va))
      else s.walkFrom w e.rwalk va 4 (e.level + 1) (bitsOf e.entry.toNat 12 40 * 4096)
    | none =>
      match s.readDesc w.vi w.ctx with
      | (s, .ok d) => s.walkFrom w d.rwalk va 4 0 d.root
      | (s, .invalid) => (s, .fault cTableAbsent (lvlVal 0 va))
      | (s, .err m pa) => (s, .err m pa)

/-- What an access asks of a leaf (R404). -/
inductive Need where | r | w | rw | x deriving DecidableEq, Repr

def Need.ok (n : Need) (e : W64) : Bool :=
  match n with
  | .r => e.getLsbD 4
  | .w => e.getLsbD 5
  | .rw => e.getLsbD 4 && e.getLsbD 5
  | .x => e.getLsbD 6

/-- Where a translated access falls. -/
inductive Xl where
  /-- the physical address and the leaf's POL -/
  | ok (pa pol : Nat)
  | fault (code : Nat) (val : W64)
  | mig (entry level : Nat)
  | err (m : Meet) (pa : Nat)
  deriving DecidableEq, Repr

/-- Translation and page permission of one address, check 6 of R241. -/
def State.translate (s : State) (w : Walker) (va : Nat) (need : Need) (peer : Bool) : State × Xl :=
  if 2 ^ 52 ≤ va then (s, .fault cPageFault (BitVec.ofNat 64 va))
  else
    match s.walk w va with
    | (s, .leaf e l) =>
      (s, if !need.ok e || e.getLsbD 3 != peer then .fault cPermission (BitVec.ofNat 64 va)
          else .ok (bitsOf e.toNat 12 40 * 4096 + va % 2 ^ lvlBits l) (e.extractLsb' 7 2).toNat)
    | (s, .fault c v) => (s, .fault c v)
    | (s, .mig e l) => (s, .mig e l)
    | (s, .err m pa) => (s, .err m pa)

/-! ## Invalidation (R413-R416) -/

/-- A place that an address was translated to. -/
def Place.translated : Place → Bool
  | .mem _ => true
  | .peer _ => true
  | .dev _ => true
  | _ => false

/-- Takes translations out of every structure: kind 0 of one VA, 1 of a context, 2 of an interface. Contributions and buffered stores that were
translated through them are marked (R414). -/
def State.dropTlb (s : State) (vi kind ctx va : Nat) (leafOnly : Bool) : State :=
  let goes (e : TlbEntry) : Bool :=
    e.vi == vi && (kind == 2 || (e.ctx == ctx && (kind == 1 || (e.covers vi ctx va && (!leafOnly || e.isLeaf)))))
  let hit (v c a : Nat) : Bool :=
    v == vi && (kind == 2 || (c == ctx && (kind == 1 || a / 65536 == va / 65536 || s.tlb.any fun e => goes e && e.isLeaf && e.covers vi ctx a)))
  { s with
    tlb := s.tlb.filter fun e => !goes e
    threads := s.threads.map fun e => (e.1, e.2.map fun th =>
      if th.red.isEmpty then th
      else { th with red := th.red.map fun r => if r.place.translated && hit th.vi th.ctx r.va then { r with stale := true } else r })
    blocks := s.blocks.map fun e => (e.1, e.2.map fun b =>
      if b.sbuf.isEmpty then b
      else { b with sbuf := b.sbuf.map fun r => if r.line.translated && hit b.vi b.ctx r.va then { r with stale := true } else r }) }

/-- Takes handle copies of a context out of every core. -/
def State.dropHandles (s : State) (vi ctx : Nat) (n : Option Nat) : State :=
  { s with hcache := s.hcache.filter fun c => !(c.vi == vi && c.ctx == ctx && (n.isNone || n == some c.n)) }

end Sys2Proof.Machine
end

