-- ==== Sys2Proof/Machine/Image.lean ====
section
/-! DEFINITION. Save images: where the parts of a saved block lie in its slot, and the words of its header and areas (R304, R373-R375). -/

namespace Sys2Proof.Machine

/-! ## Places of a slot (R373, R374) -/

/-- Physical address of byte o of a slot of the save area at `base`. -/
def slotAddr (base slot o : Nat) : Nat := base + slot * 2 ^ 24 + o

/-- Where area a starts, with its v-registers; where thread m's t-registers and window rows start; where the region starts. -/
def areaStart (a : Nat) : Nat := 0x1000 + 0x2000 * a
def vArea (a : Nat) : Nat := 0x100000 + 0x8000 * a
def tArea (m : Nat) : Nat := 0x100000 + 0x20000 * m
def rowArea (m : Nat) : Nat := 0x300000 + 0x80000 * m
def regionArea (tile : Bool) : Nat := if tile then 0x500000 else 0x300000

/-- Data written at physical addresses by a party. -/
def State.writePhys (s : State) (pa : Nat) (bs : List Byte) (id : W16) : State :=
  s.writeRun id true (bs.length + 1) ((placesOf pa bs.length).zip bs)

/-- Words written from a physical address on. -/
def State.writeWordsAt (s : State) (pa : Nat) (ws : List W64) (id : W16) : State :=
  s.writePhys pa (ws.flatMap fun w => toBytes w.toNat 8) id

/-- Bytes at consecutive physical addresses. -/
def State.readPhys (s : State) (pa n : Nat) : List Byte := (placesOf pa n).map s.homeByte

/-- Word i of n words from a physical address on. -/
def State.wordsAt (s : State) (pa n : Nat) : List W64 :=
  (List.range n).map fun i => BitVec.ofNat 64 (ofBytes (s.readPhys (pa + 8 * i) 8))

/-! ## The words of a warp or sequencer (R374)

R374 says what an area holds and not where in it; R432 lays out a split entry. The words and their order are the model's (log entry 52). -/

/-- WSTAT (R203). -/
def Thread.wstat (th : Thread) : W64 :=
  let bit (b : Bool) (i : Nat) : W64 := if b then 1#64 <<< i else 0
  bit (th.svc != .none) 16 ||| BitVec.ofNat 64 (th.depth * 512) ||| bit th.priv 5 ||| bit th.inTrap.isSome 4 ||| bit th.pldiv 1 |||
    bit th.redspill 0

/-- PLREQ (R203). -/
def Thread.plreqWord (th : Thread) : W64 := BitVec.ofNat 64 ((if th.permit then 4 else 0) + th.plreq)

/-- Status registers. -/
def Thread.statusWords (th : Thread) : List W64 :=
  [th.lfsr.setWidth 64, th.fmode.setWidth 64, th.allFlags.setWidth 64, th.cbase.setWidth 64, th.shreg.setWidth 64, th.wstat,
   BitVec.ofNat 64 th.rsdepth, th.plreqWord]

/-- Loop registers of each slice, and the membership bits of the two levels. -/
def Thread.loopWords (th : Thread) : List W64 :=
  ((List.range 8).flatMap fun i =>
    let x := th.slice i
    [x.l0.start.setWidth 64, x.l0.stop.setWidth 64, x.l0.count.setWidth 64, x.l1.start.setWidth 64, x.l1.stop.setWidth 64, x.l1.count.setWidth 64]) ++
  [th.m0.setWidth 64, th.m1.setWidth 64]

def TrapRegs.words (r : TrapRegs) : List W64 := [r.cause, r.pc.setWidth 64, r.val, r.slice, r.mask.setWidth 64, r.vec.setWidth 64, r.save]

/-- What only an XS holds. -/
def Thread.xsWords (th : Thread) : List W64 :=
  [th.shape.setWidth 64, BitVec.ofNat 64 th.wbase, BitVec.ofNat 64 th.wlim, (th.ckpt.elim 0 (·.1)).setWidth 64]

/-- s0-s63, p0-p7, wc0-wc5, status, loop and trap registers, generator states, SHAPE, ACCBASE, ACCLIM and the CKPT id. -/
def Thread.imageWords (th : Thread) : List W64 :=
  (List.range 64).map th.sreg ++ (List.range 8).map (fun i => (th.pred i).setWidth 64) ++ (List.range 6).map (fun i => BitVec.ofNat 64 (th.counter i)) ++
  th.statusWords ++ th.loopWords ++ th.trap.words ++ (List.range 32).map (fun j => (th.genAt j).setWidth 64) ++ th.xsWords

/-- How many they are; sem0-sem15 of an XS follow, and from word 195 the paths, the arrival state, the sub-buffer and the streams. -/
def imageLength : Nat := 179

/-- A split entry of slice i as R432 lays it out; `age` is its place among the slice's spilled entries. -/
def SplitEntry.words (e : SplitEntry) (i age : Nat) (spill : Bool) : List W64 :=
  [BitVec.ofNat 64 (2 ^ 63 + (if e.rejoin.isNone then 2 ^ 62 else 0) + bitsOf e.lanes.toNat (4 * i) 4 * 2 ^ 56 + e.pc.toNat),
   BitVec.ofNat 64 ((if spill then i * 2 ^ 56 + age * 2 ^ 52 else 0) + e.rejoin.elim 0 (·.toNat))]

/-- The entry of slice i that two words hold, if they hold one; R432 has no bit for a path that waits at its rejoin PC. -/
def splitFrom (i : Nat) (waits : Bool) (a b : W64) : Option SplitEntry :=
  if a.getLsbD 63 then
    some { pc := a.setWidth 52 &&& ~~~7, lanes := (a.extractLsb' 56 4).setWidth 32 <<< (4 * i)
           rejoin := if a.getLsbD 62 then none else some (b.setWidth 52), waits := waits }
  else none

/-- Entries that slice i holds in its table, and in the spill area the oldest first: the eight newest are in the table. -/
def Thread.tableOf (th : Thread) (i : Nat) : List SplitEntry := ((th.slice i).split).take 8
def Thread.spillOf (th : Thread) (i : Nat) : List SplitEntry := ((th.slice i).split.drop 8).reverse

/-- Every spilled entry with its slice and its age. -/
def Thread.spillList (th : Thread) : List (SplitEntry × Nat × Nat) :=
  (List.range 8).flatMap fun i => ((th.spillOf i).zip (List.range 16)).map fun e => (e.1, i, e.2)

/-- Bits of a list. -/
def maskFrom (l : List Bool) : W64 := BitVec.ofNat 64 ((l.zip (List.range 64)).foldl (fun n e => if e.1 then n + 2 ^ e.2 else n) 0)

/-- Words followed by zeros up to n. -/
def padTo (n : Nat) (l : List W64) : List W64 := l ++ List.replicate (n - l.length) 0

def BarKind.all : List BarKind := [.blk, .cor, .job]
def Scope.all : List Scope := [.lane, .warp, .sheaf, .block]

/-- Where a slice, or a thread at a barrier, waits. -/
def Arrival.word (a : Arrival) : W64 := BitVec.ofNat 64 (a.mask.toNat * 2 ^ 56 + (if a.regang then 2 ^ 55 else 0) + 2 ^ 54 + a.pc.toNat)
def BarWait.word (w : BarWait) : W64 :=
  BitVec.ofNat 64 (2 ^ 63 + BarKind.all.idxOf w.kind * 2 ^ 60 + w.n * 2 ^ 56 + w.mode * 2 ^ 54 + (if w.counted then 2 ^ 53 else 0) + w.pc.toNat)

/-- Live lanes and held ones, the running path of each slice, where slices and the thread wait, the handler's PC, the split tables and the
spill area, and which of their entries wait at their PC. -/
def Thread.pathWords (th : Thread) : List W64 :=
  [th.live.setWidth 64 <<< 32 ||| th.held.setWidth 64] ++
  (List.range 8).map (fun i => BitVec.ofNat 64 (bitsOf th.run.toNat (4 * i) 4 * 2 ^ 56 + (th.slice i).pc.toNat)) ++
  (List.range 8).map (fun i => (th.slice i).at_.elim 0 Arrival.word) ++
  [th.barAt.elim 0 BarWait.word, th.inTrap.elim 0 fun x => 1#64 <<< 63 ||| x.pc.setWidth 64] ++
  (List.range 8).flatMap (fun i => padTo 16 ((th.tableOf i).flatMap fun e => e.words i 0 false)) ++
  padTo 32 (th.spillList.flatMap fun e => e.1.words e.2.1 e.2.2 true) ++
  [maskFrom ((List.range 64).map fun j => ((th.tableOf (j / 8))[j % 8]?).any (·.waits)), maskFrom (th.spillList.map fun e => e.1.waits)]

/-- A place as a word; a byte of the block's own region by its offset there, so that it follows the region to another core. -/
def Place.word (b : Block) : Place → W64
  | .mem pa => BitVec.ofNat 64 pa
  | .core u o => if !b.tile && u = b.unit then BitVec.ofNat 64 (6 * 2 ^ 60 + (o - b.spBase)) else BitVec.ofNat 64 (2 ^ 60 + u * 2 ^ 52 + o)
  | .group g o => if b.tile && g = b.unit then BitVec.ofNat 64 (6 * 2 ^ 60 + (o - b.spBase)) else BitVec.ofNat 64 (2 * 2 ^ 60 + g * 2 ^ 52 + o)
  | .carved o => BitVec.ofNat 64 (3 * 2 ^ 60 + o)
  | .peer o => BitVec.ofNat 64 (4 * 2 ^ 60 + o)
  | .dev o => BitVec.ofNat 64 (5 * 2 ^ 60 + o)

def placeFrom (b : Block) (w : W64) : Place :=
  let o := w.toNat % 2 ^ 52
  let u := bitsOf w.toNat 52 8
  match bitsOf w.toNat 60 4 with
  | 1 => .core u o
  | 2 => .group u o
  | 3 => .carved o
  | 4 => .peer o
  | 5 => .dev o
  | 6 => if b.tile then .group b.unit (b.spBase + o) else .core b.unit (b.spBase + o)
  | _ => .mem o

/-- Operations of RED by number, and the classes of MS (R270, R277). -/
def AOp.all : List AOp := [.add, .and, .or, .xor, .smin, .smax, .umin, .umax, .xchg, .cas, .incw, .bfadd, .fadd]
def MScope.all : List MScope := [.warp, .block, .core, .device, .system]

/-- A contribution: its place, its value and its attributes; `n` numbers the RED that entered it. -/
def RedEntry.words (b : Block) (e : RedEntry) (n : Nat) : List W64 :=
  [e.place.word b, e.val,
   BitVec.ofNat 64 (n + 16 * e.sz + 2 ^ 8 * AOp.all.idxOf e.op + 2 ^ 16 * MScope.all.idxOf e.ms + 2 ^ 24 * e.oc.toNat + 2 ^ 32 * e.pol +
     (if e.rel then 2 ^ 40 else 0))]

def redFrom (b : Block) (p v w : W64) : RedEntry :=
  let w := w.toNat
  { place := placeFrom b p, sz := bitsOf w 4 4, op := AOp.all.getD (bitsOf w 8 8) .add, val := v, ms := MScope.all.getD (bitsOf w 16 8) .warp
    oc := BitVec.ofNat 4 (bitsOf w 24 4), pol := bitsOf w 32 8, rel := bitsOf w 40 1 = 1, passed := false, at_ := bitsOf w 0 4 }

/-- The sub-buffer: how many contributions, and each of them (at most 4 REDs of 32 lanes). -/
def Thread.redWords (b : Block) (th : Thread) : List W64 :=
  let ids := (th.red.map (·.at_)).eraseDups
  padTo 385 (BitVec.ofNat 64 th.red.length :: th.red.flatMap fun e => e.words b (ids.idxOf e.at_))

/-- A stream: how many words, stack entries and records it holds, the halt flag, and then those (R304). -/
def Stream.words (x : Stream) : List W64 :=
  [BitVec.ofNat 64 (x.buf.length + 64 * x.stack.length + 2 ^ 10 * x.fifo.length + (if x.halted then 2 ^ 14 else 0))] ++
  (List.range 8).map (fun i => BitVec.ofNat 64 (((List.range 4).foldr (fun j n => n * 2 ^ 16 + (x.buf[4 * i + j]?).elim 0 (·.1.toNat)) 0))) ++
  padTo 8 x.stack ++ padTo 8 x.fifo

/-- The stream that words hold. What R304 does not name stays as it was: the counters of words that still stand, records that wait. -/
def Stream.fromImage (x : Stream) (w : Nat → W64) : Stream :=
  let h := (w 0).toNat
  { x with
    buf := (List.range (min 32 (bitsOf h 0 6))).map fun i =>
      (BitVec.ofNat 16 (bitsOf (w (1 + i / 4)).toNat (16 * (i % 4)) 16), (x.buf[i]?).elim (none, []) (·.2))
    stack := (List.range (min 8 (bitsOf h 6 4))).map fun i => w (9 + i)
    fifo := (List.range (min 8 (bitsOf h 10 4))).map fun i => w (17 + i)
    halted := bitsOf h 14 1 = 1 }

/-- Where the parts stand in an area, in words. -/
def replyWord : Nat := 195
def pathStart : Nat := 196
def streamStart : Nat := 400
def redStart : Nat := 560

/-- Loop level from three words. -/
def loopFrom (w : Nat → W64) (i : Nat) : LoopLvl :=
  { start := (w i).setWidth 52 &&& ~~~7, stop := (w (i + 1)).setWidth 52 &&& ~~~7, count := (w (i + 2)).setWidth 32 }

/-- Slice i with its running path, its wait and its split entries as words hold them. -/
def Slice.fromImage (x : Slice) (i : Nat) (w : Nat → W64) : Slice :=
  let tab := (List.range 8).filterMap fun j => splitFrom i ((w (pathStart + 179)).getLsbD (8 * i + j)) (w (pathStart + 19 + 16 * i + 2 * j))
    (w (pathStart + 20 + 16 * i + 2 * j))
  let age (j : Nat) : Nat := bitsOf (w (pathStart + 148 + 2 * j)).toNat 52 4
  let old := (List.range 16).filter fun j => (w (pathStart + 147 + 2 * j)).getLsbD 63 && bitsOf (w (pathStart + 148 + 2 * j)).toNat 56 3 == i
  let spill := (sortBy (fun a b => decide (age b ≤ age a)) old).filterMap fun j =>
    splitFrom i ((w (pathStart + 180)).getLsbD j) (w (pathStart + 147 + 2 * j)) (w (pathStart + 148 + 2 * j))
  let at_ := w (pathStart + 9 + i)
  { pc := (w (pathStart + 1 + i)).setWidth 52 &&& ~~~7, split := tab ++ spill, l0 := loopFrom w (86 + 6 * i), l1 := loopFrom w (89 + 6 * i)
    at_ := if at_.getLsbD 54 then some { pc := at_.setWidth 52, mask := at_.extractLsb' 56 8, regang := at_.getLsbD 55 } else none }

/-- The BAR at which a thread waits, as a word holds it; its episode is not in the word. -/
def barFrom (old : Option BarWait) (w : W64) : Option BarWait :=
  if w.getLsbD 63 then
    some { kind := BarKind.all.getD (bitsOf w.toNat 60 2) .blk, n := bitsOf w.toNat 56 4, mode := bitsOf w.toNat 54 2, counted := w.getLsbD 53
           pc := w.setWidth 52, episode := old.elim 0 (·.episode) }
  else none

/-- A thread's paths as the words restore them; the gangs stand unless a path has moved. -/
def Thread.pathsFrom (th : Thread) (w : Nat → W64) : Thread :=
  let y := { th with
    live := (w pathStart).extractLsb' 32 32, held := (w pathStart).setWidth 32
    run := (List.range 8).foldl (fun m i => m ||| ((w (pathStart + 1 + i)).extractLsb' 56 4).setWidth 32 <<< (4 * i)) 0
    slices := (th.slices.zip (List.range th.slices.length)).map fun e => e.1.fromImage e.2 w
    barAt := barFrom th.barAt (w (pathStart + 17))
    inTrap := th.inTrap.bind fun x => if (w 83).getLsbD 4 then some { x with pc := (w (pathStart + 18)).setWidth 52 } else none }
  if y.run = th.run ∧ y.slices.map (·.pc) = th.slices.map (·.pc) ∧ y.slices.map (·.at_) = th.slices.map (·.at_) then y
  else y.oneGang.regroup (slicesIn y.run) []

/-- A thread as the words of its area restore it; a reserved bit reads zero whatever stands there (R5). -/
def Thread.fromImage (th : Thread) (b : Block) (ws : List W64) : Thread :=
  let w (i : Nat) : W64 := ws.getD i 0
  let th := { th.pathsFrom w with
    s := (List.range 63).foldl (fun (m : Tbl W64) i => Tbl.set 0 m (i + 1) (w (i + 1))) []
    p := (List.range 7).foldl (fun (m : Tbl W32) i => Tbl.set 0 m (i + 1) ((w (65 + i)).setWidth 32)) []
    wc := (List.range 6).foldl (fun (m : Tbl Nat) i => Tbl.set 0 m i ((w (72 + i)).toNat % 64)) []
    lfsr := (w 78).setWidth 16, fmode := (w 79).setWidth 4, fflags := (w 80).setWidth 5, cbase := (w 81).setWidth 52 &&& ~~~3, shreg := (w 82).setWidth 5
    depth := bitsOf (w 83).toNat 9 3, pldiv := (w 83).getLsbD 1, redspill := (w 83).getLsbD 0, rsdepth := (w 84).toNat % 16
    plreq := (w 85).toNat % 4, permit := (w 85).getLsbD 2
    svc := if (w 83).getLsbD 16 then th.svc else .none
    reply := if (w replyWord).getLsbD 32 then some ((w replyWord).setWidth 32) else none
    red := (List.range (min 128 (w redStart).toNat)).map fun i => redFrom b (w (redStart + 1 + 3 * i)) (w (redStart + 2 + 3 * i)) (w (redStart + 3 + 3 * i))
    m0 := (w 134).setWidth 32, m1 := (w 135).setWidth 32
    trap := { cause := w 136 &&& 0xEFF, pc := (w 137).setWidth 52 &&& ~~~7, val := w 138, slice := w 139 &&& 0x1F07, mask := (w 140).setWidth 32, vec := (w 141).setWidth 52 &&& ~~~7,
              save := w 142 }
    shape := (w 175).setWidth 16, wbase := (w 176).toNat % 256, wlim := (w 177).toNat % 256 }
  (List.range 32).foldl (fun th j => th.setGen j ((w (143 + j)).setWidth 32)) th

/-- The area of a thread: the number of a saved thread says it, and a tile thread that has met its CKPT has that of its index. -/
def areaNo (t : Nat) (th : Thread) : Nat := if 20000 ≤ t then (t - 20000) % 64 else 2 * th.index + t % 2

/-- Physical address of the area of a saved thread, and the identity that writes it. -/
def State.areaAddr (s : State) (t : Nat) : Option (Nat × W16) :=
  match s.thread? t with
  | none => none
  | some th =>
    if !th.saved then none
    else match s.block? th.block with
      | none => none
      | some b => b.slot.map fun n => (slotAddr b.slotBase n (areaStart (areaNo t th)), identity b.vi b.ctx)

/-- Writes word i of a saved thread's area; a thread that is not saved has none. -/
def State.putImageWord (s : State) (t i : Nat) (x : W64) : State :=
  match s.areaAddr t with
  | some (pa, id) => s.writeWordsAt (pa + 8 * i) [x] id
  | none => s

/-- A counter of saved threads falls in their images (R80, R304). -/
def State.imageDown (s : State) (ms : List Nat) (c : Option (Fin 6)) : State :=
  match c with
  | none => s
  | some i => ms.foldl (fun s t => match s.areaAddr t with
    | some (pa, _) => s.putImageWord t (72 + i.val) (BitVec.ofNat 64 (((s.wordsAt (pa + 8 * (72 + i.val)) 1).headD 0).toNat - 1))
    | none => s) s

/-- The streams of thread t as its area holds them. -/
def State.streamWords (s : State) (t : Nat) : List W64 := (List.range 6).flatMap fun q => (s.stream (streamKey t q)).words

/-- The streams of a saved thread go to its image: at the save, and again when a launch that had started completes (R304). -/
def State.imageStreams (s : State) (t : Nat) : State :=
  match s.areaAddr t with
  | some (pa, id) => s.writeWordsAt (pa + 8 * streamStart) (s.streamWords t) id
  | none => s

/-- Where byte o of the region of a saved block lies: in its image. -/
def State.imageByte (s : State) (b o : Nat) : Option Place :=
  match s.block? b with
  | none => none
  | some x =>
    if x.phase != .saved then none
    else x.slot.map fun n => placeOf (slotAddr x.slotBase n (regionArea x.tile + o))

/-! ## The header (R374, R375) -/

/-- Where a thread waits for its rendezvous (R44-R50); at lane scope there is none. -/
def Rdv.word (r : Rdv) : W64 := BitVec.ofNat 64 (r.sheaf % 16 * 2 ^ 60 + r.wait.toNat * 2 ^ 54 + Scope.all.idxOf r.scp * 2 ^ 52 + r.pc.toNat)

def rdvFrom (w : W64) : Option Rdv :=
  match Scope.all.getD (bitsOf w.toNat 52 2) .lane with
  | .lane => none
  | k => some { pc := w.setWidth 52, scp := k, wait := w.extractLsb' 54 6, sheaf := bitsOf w.toNat 60 4 }

/-- A spawn request (R394). -/
def SpawnReq.words (q : SpawnReq) : List W64 :=
  [BitVec.ofNat 64 (2 ^ 63 + q.wc.elim 7 (·.val) * 2 ^ 56 + q.depth * 2 ^ 52 + q.pc.toNat), q.lfsr.setWidth 64] ++
  (List.range 6).map (fun i => q.s.get 0 (i + 1)) ++ (List.range 8).map (fun i => q.s.get 0 (i + 8))

/-- The request as words hold it: what R394 does not name stays as it was. -/
def SpawnReq.fromImage (q : SpawnReq) (w : Nat → W64) : Option SpawnReq :=
  if (w 0).getLsbD 63 then
    let n := bitsOf (w 0).toNat 56 3
    some { q with
      pc := (w 0).setWidth 52 &&& ~~~7, depth := bitsOf (w 0).toNat 52 3, lfsr := (w 1).setWidth 16
      wc := if h : n < 6 then some ⟨n, h⟩ else none
      s := (List.range 8).foldl (fun m i => Tbl.set 0 m (i + 8) (w (8 + i))) ((List.range 6).foldl (fun m i => Tbl.set 0 m (i + 1) (w (2 + i))) q.s) }
  else none

/-- LSTATE of tile thread m of a block whose leases the saved threads keep (R180, R200). -/
def State.leaseWord (s : State) (x : Block) (m : Nat) : W64 :=
  let left := x.thr.findSome? fun t => match s.thread? (t + 1) with
    | some th => if th.leaseBack.contains m then some th.leaseLeft else none
    | none => none
  left.elim 0 fun n => BitVec.ofNat 64 (256 + n)

/-- Where they stand in the header, counted from its check word; ten requests fit behind the rest, and further ones are not written. -/
def leaseStart : Nat := 283
def rdvStart : Nat := 287
def spawnStart : Nat := 351
def spawnRoom : Nat := 10

/-- The header after its check word: card, context, s1-s5, dispatched and spawned warp counts, k0-k15, the h-registers of the sheaves, the save
time, LSTATE, the rendezvous arrivals by area, and the spawn queue. -/
def State.headerWords (s : State) (x : Block) (areas : List (Nat × Nat)) (q : List SpawnReq) : List W64 :=
  [BitVec.ofNat 64 x.card, (identity x.vi x.ctx).setWidth 64] ++ (List.range 4).map (fun i => x.idx.getD i 0) ++
  [BitVec.ofNat 64 x.ord, BitVec.ofNat 64 x.thr.length, BitVec.ofNat 64 x.spawnCount] ++ (List.range 16).map (fun i => x.k.get 0 i) ++
  (List.range 256).map (fun i => ((x.sheaves[i / 16]?).elim 0 fun z => z.h.get 0 (i % 16))) ++ [s.time] ++
  (List.range 4).map (fun m => if x.tile then s.leaseWord x m else 0) ++
  (List.range 64).map (fun a => ((areas.find? (·.2 == a)).bind fun e => (s.thread? e.1).bind (·.rdv)).elim 0 Rdv.word) ++
  padTo 160 ((q.take spawnRoom).flatMap SpawnReq.words)

/-- k0-k15, the h-registers, s1-s4 and the spawn requests of a block as the words of the header, the check word being the first, restore
them. -/
def Block.fromHeader (x : Block) (ws : List W64) : Block :=
  let w (i : Nat) : W64 := ws.getD i 0
  { x with
    idx := (List.range x.idx.length).map fun i => w (3 + i)
    k := (List.range 16).foldl (fun (m : Tbl W64) i => Tbl.set 0 m i (w (10 + i))) []
    sheaves := (x.sheaves.zip (List.range x.sheaves.length)).map fun e =>
      { e.1 with h := (List.range 16).foldl (fun (m : Tbl W64) i => Tbl.set 0 m i (w (26 + 16 * e.2 + i))) [] }
    savedSpawn := ((x.savedSpawn.zip (List.range x.savedSpawn.length)).filterMap fun e =>
      if e.2 < spawnRoom then e.1.fromImage fun i => w (spawnStart + 16 * e.2 + i) else some e.1) }

/-- The lease that the XS of tile thread m asks for again, as LSTATE in the header holds it; `keeps` says that another thread of the block asks
for it. -/
def Thread.leaseFrom (th : Thread) (m : Nat) (keeps : Bool) (w : W64) : Thread :=
  if th.kind != .xs then th
  else if !w.getLsbD 8 then { th with leaseBack := [], leaseLeft := 0 }
  else if th.leaseBack.isEmpty then (if keeps then th else { th with leaseBack := [m], leaseLeft := w.toNat % 128 })
  else { th with leaseLeft := w.toNat % 128 }

/-- The check word that the header at a slot should hold. -/
def State.checkWord (s : State) (base slot : Nat) : W64 := Config.headerCheck (s.readPhys (slotAddr base slot 8) 4088)

/-- Writes the header: its words, and the check word over the whole. -/
def State.writeHeader (s : State) (base slot : Nat) (id : W16) (x : Block) (areas : List (Nat × Nat)) (q : List SpawnReq) : State :=
  let s := s.writeWordsAt (slotAddr base slot 8) (s.headerWords x areas q) id
  s.writeWordsAt (slotAddr base slot 0) [s.checkWord base slot] id

/-- Writes area a of thread t, but for sem0-sem15. -/
def State.writeArea (s : State) (base slot : Nat) (id : W16) (a t : Nat) (b : Block) (th : Thread) : State :=
  let pa := slotAddr base slot (areaStart a)
  let s := s.writeWordsAt pa th.imageWords id
  let s := s.writeWordsAt (pa + 8 * replyWord) (th.reply.elim 0 (fun r => 1#64 <<< 32 ||| r.setWidth 64) :: th.pathWords) id
  let s := s.writeWordsAt (pa + 8 * streamStart) (s.streamWords t) id
  s.writeWordsAt (pa + 8 * redStart) (th.redWords b) id

end Sys2Proof.Machine
end

