-- ==== Sys2Proof/Machine/Launch.lean ====
section
/-! DEFINITION. Slots of a SIMT core, and a warp or sequencer at its start (R30, R32, R33, R55, R201). -/

namespace Sys2Proof.Machine

/-- A slice of one path at a PC. -/
def startSlice (pc : Addr) : Slice := { pc := pc, split := [], l0 := ⟨0, 0, 0⟩, l1 := ⟨0, 0, 0⟩, at_ := none }

/-- The control state of a thread at its start (R32, R201). -/
def startThread (kind : TKind) (block index sched vi ctx : Nat) (priv : Bool) (nv : Nat) (pc : Addr) : Thread :=
  let simt := kind == .simt
  { kind := kind, block := block, index := index, sched := sched, ctx := ctx, vi := vi, priv := priv, v := [], nv := nv, s := [],
    p := [], cbuf := [], wc := [], cover := 0, live := if simt then 0xFFFFFFFF else 1, run := if simt then 0xFFFFFFFF else 1, held := 0,
    m0 := 0, m1 := 0, slices := List.replicate (if simt then 8 else 1) (startSlice pc),
    streams := [{ gang := if simt then 0xFF else 1, since := 0 }], park := [], turn := 0, rotate := false, issues := 0, pos := 0,
    lastIssue := 0, haz := [], pend := [], nextId := 0, acq := [], relFences := [], lastLoads := [], rdv := none, windows := [], yieldC := [], yields := [],
    lfsr := 0, cbase := 0, shreg := 0x10, redspill := false, pldiv := false, depth := 0, plreq := 2, permit := false,
    rsdepth := 0, fmode := 0, fflags := 0, ffHaz := [], wild := [], gen := [],
    trap := { cause := 0, pc := 0, val := 0, slice := 0, mask := 0, vec := 0, save := 0 }, inTrap := none, susp := none,
    async := [], asHalt := false, red := [], resv := none, reply := none, svc := .none, parent := none, exiting := false,
    arvd := [], barAt := none, takes := [], ccopy := false, treg := [], shape := if kind == .xs then 0x7DF else 0, abase := 0, alim := 0, wbase := 0, wlim := 0,
    leaseLeft := 0, leaseBack := [], leaseWait := none, ckpt := none, saved := false, walkM := [], ckptTime := 0, overdue := 0 }

/-- Threads in the slots of scheduler k of a core. -/
def State.onSched (s : State) (core k : Nat) : List Thread :=
  (List.range 16).filterMap fun w => s.thread? (core * 64 + k * 16 + w)

/-- v-registers a scheduler has free, of 1,024 (R30). -/
def State.freeRegs (s : State) (core k : Nat) : Nat := 1024 - ((s.onSched core k).map (·.nv)).sum

/-- The lowest free slot of a core with room for nv registers; a slot whose streams still drain is not free (R305). -/
def State.freeSlot (s : State) (core nv : Nat) : Option Nat :=
  (List.range 64).findSome? fun w =>
    if (s.thread? (core * 64 + w)).isNone && (List.range 6).all (fun q => !(s.stream (streamKey (core * 64 + w) q)).orphan) && nv ≤ s.freeRegs core (w / 16) then some (core * 64 + w) else none

/-- Starts the warp of a spawn request in slot t (R55). -/
def State.startSpawn (s : State) (t : Nat) (r : SpawnReq) : State :=
  match s.block? r.block with
  | none => s
  | some b =>
    let order := 16 + b.spawnCount
    let th := startThread .simt r.block order (t % 64 / 16) b.vi b.ctx r.priv b.nv r.pc
    let th := { th with s := r.s, lfsr := r.lfsr, depth := r.depth, cbase := r.cbase, cbuf := r.cbuf, fmode := r.fmode,
                        parent := some (r.parent, r.wc), acq := acqNow s.clock, trap := { th.trap with vec := r.vec, save := r.save }, permit := r.permit }
    (s.setThread t th).setBlock r.block { b with spawned := b.spawned ++ [t], spawnCount := b.spawnCount + 1 }

end Sys2Proof.Machine
end

