-- ==== Sys2Proof/Machine/Release.lean ====
section
/-! DEFINITION. Cards, loop-nest records and their traversal, the release of a card and the completion of a job
(R359-R363, R367-R370, R383, R420-R422, R428-R430). -/

namespace Sys2Proof.Machine

/-! ## The walker (R367-R370) -/

/-- Trip count of a loop (R367). -/
def tripCount (lo hi : W64) (step : Nat) : Nat :=
  if lo.toInt < hi.toInt then ((hi.toInt - lo.toInt).toNat + step - 1) / step else 0

def Nest.trips (n : Nest) : List Nat := n.loops.map (·.2.1)

/-- Whether the two innermost loops follow a curve: morton, hilbert or a table, with two loops or more (R368). -/
def Nest.curved (n : Nest) : Bool := 3 ≤ n.order && 2 ≤ n.loops.length

/-- Trip counts of the two innermost loops: outer then inner. -/
def Nest.inner (n : Nest) : Nat × Nat :=
  let t := n.trips.reverse
  (t.getD 1 1, t.getD 0 1)

/-- The smallest power of two that is at least n. -/
def pow2Above (n : Nat) : Nat := if n ≤ 1 then 1 else 2 ^ ((n - 1).log2 + 1)

/-- Points that one turn of the curve steps through. -/
def Nest.turn (n : Nest) : Nat :=
  if n.order = 5 then n.curve.length else let S := pow2Above (Nat.max n.inner.1 n.inner.2); S * S

def prod (l : List Nat) : Nat := l.foldl (· * ·) 1

/-- Positions of the traversal, the skipped ones included. -/
def Nest.total (n : Nest) : Nat :=
  if n.trips.contains 0 then 0
  else if n.curved then prod (n.trips.take (n.trips.length - 2)) * n.turn
  else prod n.trips

/-- Digits of k over trip counts, the last varying fastest. -/
def rowDigits (ts : List Nat) (k : Nat) : List Nat :=
  match ts with
  | [] => []
  | t :: rest => (k / prod rest) % t :: rowDigits rest k

/-- Serpentine: a loop runs backwards under an odd ordinal of its enclosing counters (R368). -/
def snakeDigits (ts : List Nat) (k : Nat) : List Nat :=
  match ts with
  | [] => []
  | t :: rest =>
    let d := (k / prod rest) % t
    (if (k / prod rest / t) % 2 = 1 then t - 1 - d else d) :: snakeDigits rest k

/-- Every second bit of d, from bit 0. -/
def evenBits (d : Nat) : Nat → Nat
  | 0 => 0
  | n + 1 => d % 2 + 2 * evenBits (d / 4) n

/-- The hilbert point of R369: fuel counts the powers of two below S. -/
def hilbert : Nat → Nat → Nat → Nat → Nat → Nat × Nat
  | 0, _, _, x, y => (x, y)
  | fuel + 1, s, t, x, y =>
    let rx := (t / 2) % 2
    let ry := (t ^^^ rx) % 2
    let (x, y) := if ry = 0 then (if rx = 1 then (s - 1 - y, s - 1 - x) else (y, x)) else (x, y)
    hilbert fuel (2 * s) (t / 4) (x + s * rx) (y + s * ry)

/-- The point (x, y) at step d of a curve. -/
def Nest.point (n : Nest) (d : Nat) : Nat × Nat :=
  let S := pow2Above (Nat.max n.inner.1 n.inner.2)
  if n.order = 3 then (evenBits d (S.log2 + 1), evenBits (d / 2) (S.log2 + 1))
  else if n.order = 4 then hilbert S.log2 1 d 0 0
  else n.curve.getD d (0, 0)

/-- The trip counters at position k; `none` where the walker skips it. -/
def Nest.counters (n : Nest) (k : Nat) : Option (List Nat) :=
  if n.curved then
    let outer := n.trips.take (n.trips.length - 2)
    let (x, y) := n.point (k % n.turn)
    if x < n.inner.2 && y < n.inner.1 then some (rowDigits outer (k / n.turn) ++ [y, x]) else none
  else if n.order = 1 then some (rowDigits n.trips.reverse k).reverse
  else if n.order = 2 then some (snakeDigits n.trips k)
  else some (rowDigits n.trips k)

/-- The indices s1-s4 at position k (R367). -/
def Nest.indices (n : Nest) (ts : List Nat) : List W64 :=
  (n.loops.zip ts).map fun e => e.1.1 + BitVec.ofNat 64 (e.2 * e.1.2.2.toNat)

/-- The next iteration from position k: its position and indices. -/
def Nest.seek (n : Nest) : Nat → Nat → Option (Nat × List W64)
  | 0, _ => none
  | fuel + 1, k =>
    match n.counters k with
    | some ts => some (k, n.indices ts)
    | none => n.seek fuel (k + 1)

/-- The iteration that a job's walker issues next. -/
def Job.iteration (j : Job) : Option (Nat × List W64) :=
  if j.walked then none else j.nest.seek (j.nest.total - j.step) j.step

/-! ## Fields of a job's card words (R420) -/

def Job.vi (j : Job) : Nat := bitsOf j.w0.toNat 58 4
def Job.ctx (j : Job) : Nat := bitsOf j.w0.toNat 46 12
def Job.tile (j : Job) : Bool := j.w0.getLsbD 44
def Job.cardLevel (j : Job) : Nat := bitsOf j.w0.toNat 40 4
def Job.missPol (j : Job) : Nat := bitsOf j.w0.toNat 38 2
def Job.overPol (j : Job) : Nat := bitsOf j.w0.toNat 36 2
def Job.idem (j : Job) : Bool := j.w0.getLsbD 35
def Job.cont (j : Job) : Bool := j.w0.getLsbD 34
def Job.permit (j : Job) : Bool := j.w0.getLsbD 33
def Job.bwx (j : Job) : Bool := j.w0.getLsbD 32
def Job.seed (j : Job) : W16 := j.w0.extractLsb' 16 16
def Job.jbar (j : Job) : BitVec 4 := j.w0.extractLsb' 12 4
def Job.ckptBound (j : Job) : Nat := let n := bitsOf j.w4.toNat 32 17; if n = 0 then 100000 else n

/-- Context identity as Silt entries give it. -/
def Job.ident (j : Job) : Nat := j.vi * 4096 + j.ctx

/-! ## Reading a record (R422, R428-R430) -/

/-- The walker of the dispatcher: no structure of R409 serves it. -/
def dispatchWalker (vi ctx : Nat) : Walker := { leaves := 30000, tables := 30000, vi := vi, ctx := ctx, source := 0xA000 }

def State.forget (s : State) : State := { s with tlb := s.tlb.filter (·.where_ != 30000) }

/-- Words of a context's memory as the dispatcher reads them; `none` where a translation fails or a line is poisoned. -/
def State.readVas (s : State) (vi ctx n : Nat) : List Nat → State × Option (List Nat)
  | [] => (s, some [])
  | va :: l =>
    match s.translate (dispatchWalker vi ctx) va .r false with
    | (s, .ok pa _) =>
      match s.readHome (placesOf pa n) (identity vi ctx) true with
      | (s, bs, .data) =>
        match s.readVas vi ctx n l with
        | (s, some ws) => (s, some (ofBytes bs :: ws))
        | (s, none) => (s, none)
      | (s, _, _) => (s, none)
    | (s, _) => (s, none)

/-- A record's words, checked: the nest, or the reason that refuses it. A sheaf descriptor with V = 0 and a reserved bit set breaks a rule of reason 4
(R422) and one of reason 5 (R430): it has reason 5 here (DESIGN CHOICE, log entry 62). -/
def nestOf (tile : Bool) (ws : List W64) (curve : List (Nat × Nat)) : Except Nat Nest :=
  let w (i : Nat) : W64 := ws.getD i 0
  let f (lo n : Nat) : Nat := bitsOf (w 0).toNat lo n
  let order := f 0 3
  let nl := f 4 2 + 1
  let threads := f 8 4 + 1
  let regs := f 16 4
  let sp := f 20 23
  let acc := f 43 9
  let span := (w 0).getLsbD 63
  let steps := (List.range nl).map fun l => w (6 + 3 * l)
  let bad := f 52 3 != 0 || f 12 4 != 0 || f 6 2 != 0 || f 3 1 != 0 || 5 < order || 256 < acc ||
    (w 1) &&& 0xFFF0000000000007 != 0 || (w 2) &&& 0xFFF0000000000007 != 0 ||
    (if order = 5 then (w 3) &&& 3 != 0 else w 3 != 0) || steps.contains 0 ||
    (List.range 12).any (fun i => 3 * nl ≤ i && w (4 + i) != 0) ||
    (if tile then regs != 0 || 4 < threads || (span && threads != 4) || 6291456 < sp
     else acc != 0 || w 2 != 0 || span || 262144 - 256 * threads < sp)
  let ds := (List.range 16).map fun i => w (16 + i)
  let reserved (d : W64) : Bool := d.getLsbD 63 && (bitsOf d.toNat 32 31 != 0 || bitsOf d.toNat 8 8 != 0)
  let sheafBad (d : W64) : Bool :=
    if !d.getLsbD 63 then d != 0
    else bitsOf d.toNat 16 16 = 0 || 2 ^ threads ≤ bitsOf d.toNat 16 16 || (tile && bitsOf d.toNat 0 8 != 0)
  let uses (i : Nat) : Nat := (ds.filter fun d => d.getLsbD 63 && d.getLsbD (16 + i)).length
  if bad || ds.any reserved then .error 4
  else if ds.any sheafBad || (List.range 16).any (fun i => 4 < uses i) then .error 5
  else .ok
    -- SP is rounded up to 128 bytes at allocation
    { span := span, cbar := (w 0).extractLsb' 55 8, accRows := acc, sp := (sp + 127) / 128 * 128, nv := 16 * (regs + 1), threads := threads,
      order := order, entry := (w 1).setWidth 52, xentry := (w 2).setWidth 52,
      loops := (List.range nl).map fun l => (w (4 + 3 * l), tripCount (w (4 + 3 * l)) (w (5 + 3 * l)) (w (6 + 3 * l)).toNat, w (6 + 3 * l)),
      curve := curve,
      sheaves := ds.map fun d => (d.extractLsb' 16 16, bitsOf d.toNat 0 8) }

/-- Reads a record with its curve table. -/
def State.readNest (s : State) (vi ctx : Nat) (tile : Bool) (va : Nat) : State × Except Nat Nest :=
  match s.readVas vi ctx 8 ((List.range 32).map fun i => va + 8 * i) with
  | (s, none) => (s.forget, .error 3)
  | (s, some ns) =>
    let ws := ns.map (BitVec.ofNat 64)
    let w3 := ws.getD 3 0
    if (ws.getD 0 0).extractLsb' 0 3 != 5 || w3 &&& 3 != 0 then (s.forget, nestOf tile ws [])
    else
      let n := bitsOf w3.toNat 52 12 + 1
      match s.readVas vi ctx 4 ((List.range n).map fun i => bitsOf w3.toNat 0 52 + 4 * i) with
      | (s, none) => (s.forget, .error 3)
      | (s, some es) => (s.forget, nestOf tile ws (es.map fun e => (e % 65536, e / 65536)))

/-! ## Release (R359-R363, R421, R422) -/

/-- A tile course of an interface with four enabled groups (R357, R363). -/
def State.spanCourse (s : State) (v : Nat) : Bool :=
  (List.range 4).any fun q => (List.range 4).all fun i => (s.viGroups v).contains (4 * q + i)

def cardWord (s : State) (n i : Nat) : W64 := s.cfgAt (cardOff n (8 * i))

/-- The checks of a release at VALID 1: the reason that refuses it, or the job's nest. -/
def State.checkCard (s : State) (n : Nat) : State × Except Nat Nest :=
  let w0 := cardWord s n 0
  let w4 := cardWord s n 4
  let kind := bitsOf w0.toNat 44 2
  let vi := bitsOf w0.toNat 58 4
  let ctx := bitsOf w0.toNat 46 12
  if 1 < kind || 11 < bitsOf w0.toNat 40 4 || bitsOf w0.toNat 38 2 = 3 || bitsOf w0.toNat 36 2 = 3 ||
      (kind == 1 && 100000 < bitsOf w4.toNat 32 17) || bitsOf (cardWord s n 7).toNat 0 2 != 0 then (s, .error 1)
  else
    match s.readDesc vi ctx with
    | (s, .ok _) =>
      match s.readNest vi ctx (kind == 1) ((cardWord s n 5).toNat) with
      | (s, .error r) => (s, .error r)
      | (s, .ok nest) =>
        (s, if nest.span && !s.spanCourse vi then .error 6
            else if (if kind = 1 then s.viGroups vi else s.viCores vi).isEmpty then .error 7
            else .ok nest)
    | (s, _) => (s, .error 2)

/-- A refused release (R363, R383). -/
def State.refuseRelease (s : State) (n reason : Nat) : State :=
  let w0 := cardWord s n 0
  let s := s.log 0x0431 0xA000 (bitsOf w0.toNat 46 16 % 4096 + bitsOf w0.toNat 58 4 * 4096) (BitVec.ofNat 64 n) (BitVec.ofNat 64 reason)
  s.setCfg (cardOff n 0x40) (BitVec.ofNat 64 (0x02 * 2 ^ 56 + s.time.toNat % 2 ^ 48))

/-- What a release at time t makes of the card and its record as they stand: the job, or the reason that refuses it (R421, R422, R428). -/
def State.readJob (s : State) (n : Nat) (t : W64) : State × Except Nat Job :=
  match s.checkCard n with
  | (s, .error r) => (s.refuseRelease n r, .error r)
  | (s, .ok nest) =>
    let w (i : Nat) := cardWord s n i
    let dl := w 2
    let abs : W64 := if dl = 0 then 0 else t + dl
    let j : Job :=
      { w0 := w 0, deadline := dl, budget := w 3, w4 := w 4, args := w 6, cbase := (w 7).setWidth 52, nest := nest,
        relT := t, absDl := abs, level := bitsOf (w 0).toNat 40 4, step := 0, next := 0, walked := false, launches := 0, spent := 0,
        miss := false, overran := false, bwheld := false, lost := false, missRaised := false, budgetRaised := false, bwWindow := false,
        notices := [], ending := .none }
    (s, .ok { j with walked := j.iteration.isNone })

/-- The outcome of a card's job goes to its last-outcome word (R383). -/
def State.writeOutcome (s : State) (n : Nat) (j : Job) : State :=
  let code := match j.ending with | .none => 0 | .stopped o => o
  let bit (b : Bool) (i : Nat) : Nat := if b then 2 ^ i else 0
  (s.setCfg (cardOff n 0x40) (BitVec.ofNat 64 (code * 2 ^ 56 + bit j.miss 55 + bit j.overran 54 + bit j.bwheld 53 + bit j.lost 52 +
    s.time.toNat % 2 ^ 48))).setCfg (cardOff n 0x58) (BitVec.ofNat 64 j.spent)

/-- A job becomes the card's: one without iterations completes at once, with outcome 0x00 (R29, R363). -/
def State.beginJob (s : State) (n : Nat) (j : Job) : State :=
  let s := ((s.setCfg (cardOff n 0x48) j.relT).setCfg (cardOff n 0x50) j.absDl).setCfg (cardOff n 0x58) 0
  if j.walked then s.writeOutcome n j else { s with jobs := s.jobs.insert n (some j) }

/-- What a release comes to. -/
inductive Released where
  | started
  | pending
  | dropped
  | refused (reason : Nat)
  deriving DecidableEq, Repr

/-- Releases card n at device time t (R359, R361, R421). A release that waits has been checked, and holds what it read. -/
def State.release (s : State) (n : Nat) (t : W64) : State × Released :=
  -- there is no dispatcher before the dies are powered (R507, R508)
  if s.boot != .up then (s, .dropped)
  else if !(cardWord s n 0).getLsbD 62 then (s.refuseRelease n 0, .refused 0)
  else
    match s.job? n with
    | none =>
      match s.readJob n t with
      | (s, .ok j) => (s.beginJob n j, .started)
      | (s, .error r) => (s, .refused r)
    | some j =>
      if (cardWord s n 12).getLsbD 63 then (s.log 0x0430 0xA000 j.ident (BitVec.ofNat 64 n) t, .dropped)
      else
        match s.readJob n t with
        | (s, .ok p) => ({ s.setCfg (cardOff n 0x60) (t ||| 0x8000000000000000) with nextJobs := s.nextJobs.insert n (some p) }, .pending)
        | (s, .error r) => (s, .refused r)

/-! ## Arming (R360) -/

/-- No schedule: what a card with period 0 arms. -/
abbrev noArm : Nat × Nat × List Nat := (1, 0, [])

/-- ARM goes from 0 to 1: t0 is now, and the first instant is t0 itself or, after a release at t0, the next. A card with period 0 arms no
schedule (log entry 53), and an instant at which VALID is 0 passes. -/
def State.arm (s : State) (n : Nat) (now : Bool) : State :=
  let t := s.time.toNat
  let due := (s.arms.get noArm n).2.2
  let a := if cardWord s n 1 = 0 then (1, 0, due) else (t, t + 1, if now && (cardWord s n 0).getLsbD 62 then due ++ [t] else due)
  { s with arms := s.arms.set noArm n a }

/-- The first instant of a card that has come and is not released yet. -/
def State.instant (s : State) (n : Nat) : Option Nat := (s.arms.get noArm n).2.2.head?

/-- The instants of armed cards up to now: each is due for a release, or passes while VALID is 0. -/
def State.passInstants (s : State) : State :=
  let now := s.time.toNat
  { s with arms := s.arms.map fun e =>
      let (t0, from_, due) := e.2
      let w := cardWord s e.1 0
      let p := (cardWord s e.1 1).toNat
      if from_ < t0 || now < from_ then e
      else if !w.getLsbD 63 || p = 0 then (e.1, t0, now + 1, due)
      else
        let first := t0 + (from_ - t0 + p - 1) / p * p
        let n := if now < first then 0 else (now - first) / p + 1
        (e.1, t0, now + 1, if w.getLsbD 62 then due ++ (List.range n).map fun i => first + i * p else due) }

/-- The release of one due instant. -/
def State.releaseInstant (s : State) (n i : Nat) : State :=
  let (t0, from_, due) := s.arms.get noArm n
  (({ s with arms := s.arms.set noArm n (t0, from_, due.drop 1) } : State).release n (BitVec.ofNat 64 i)).1

/-- Every due instant of a card is released, before its words change. -/
def State.releaseDue (s : State) (n : Nat) : State := (s.arms.get noArm n).2.2.foldl (fun s i => s.releaseInstant n i) s

/-! ## Completion (R34, R361, R383) -/

/-- Blocks of a card's job. -/
def State.blocksOf (s : State) (n : Nat) : List (Nat × Block) :=
  s.blocks.filterMap fun e => match e.2 with
    | some b => if b.card == n then some (e.1, b) else none
    | none => none

/-- A job completes: its last-outcome word, and the pending release becomes the next job (R361, R383). -/
def State.completeJob (s : State) (n : Nat) (j : Job) : State :=
  let s := s.writeOutcome n j
  let s := { s with jobs := s.jobs.erase n }
  match s.nextJobs.get none n with
  | some p => ({ s with nextJobs := s.nextJobs.erase n }.setCfg (cardOff n 0x60) 0).beginJob n p
  | none => s

end Sys2Proof.Machine
end

