-- ==== Sys2Proof/Machine/Ways.lean ====
section
/-! DEFINITION. Ways of the Mere: masks, gating, carving, injection (R285, R288-R291, R531, R532). -/

namespace Sys2Proof.Machine

/-- Bits of a mask of 16 ways. -/
def waysOf (m : W16) : List Nat := (List.range 16).filter m.getLsbD

def popcount16 (m : W16) : Nat := (waysOf m).length

/-- Keys of the lines a way of a slice holds. -/
def State.wayKeys (s : State) (slice w : Nat) : List Nat :=
  s.mere.filterMap fun e => if e.1 / 131072 = slice && e.1 % 16 = w && e.2.isSome then some e.1 else none

/-- A way holds a locked line: a carved way, or a sensor line (R283, R287, R289). -/
def State.wayLocked (s : State) (slice w : Nat) : Bool :=
  s.carveWays.getLsbD w || (s.wayKeys slice w).any fun k => match s.mere.get none k with | some l => l.lock | none => false

/-- A way is written down and emptied; reservations on its lines fall (R276, R291). -/
def State.emptyWay (s : State) (slice w : Nat) : State :=
  (s.wayKeys slice w).foldl (fun s k =>
    match s.mere.get none k with
    | some l => (s.clearResv (some (slotPa k l / 128))).dropLine k
    | none => s) s

/-! ## Masks (R285) -/

/-- Every line of a sensor way is locked, and no other (R283). -/
def State.lockWays (s : State) (slice : Nat) : State :=
  let sensor := s.allSensor slice
  { s with mere := s.mere.map fun e =>
      if e.1 / 131072 = slice then (e.1, e.2.map fun l =>
        { l with lock := sensor.getLsbD (e.1 % 16), stream := if sensor.getLsbD (e.1 % 16) then l.stream else none }) else e }

/-- A write of MSL_ALLOC n: a SENSOR bit of another interface's, or of a carved way, keeps 0. -/
def State.writeAlloc (s : State) (slice n : Nat) (x : W64) : State :=
  let others := (List.range 16).foldl (fun (m : W16) v => if v = n then m else m ||| s.sensorWays slice v) 0
  let sensor := x.extractLsb' 16 16 &&& ~~~others &&& ~~~s.carveWays
  (s.setCfg (mslOff slice (0x40 + 8 * n)) (BitVec.ofNat 64 (sensor.toNat * 65536 + (x.extractLsb' 0 16).toNat))).lockWays slice

/-! ## Gating (R290, R291) -/

/-- A write of MSL_WAYS: bits that are cleared ungate at once, bits that are set start a request. -/
def State.writeGate (s : State) (slice : Nat) (x : W64) : State :=
  if (s.cfgAt (mslOff slice 8)).getLsbD 16 then s
  else
    let old := s.gateWays slice
    let new := x.extractLsb' 16 16
    let keep := old &&& (new ||| s.quarWays slice)
    let ask := new &&& ~~~old
    let r := mslOff slice 0
    let s := s.setCfg r ((s.cfgAt r &&& ~~~0xFFFF0000#64) ||| BitVec.ofNat 64 (keep.toNat * 65536))
    if ask = 0 then s
    else { s.setCfg (mslOff slice 8) (s.cfgAt (mslOff slice 8) ||| 0x10000) with gating := s.gating.set 0 slice ask }

/-- A gating request ends (R291). -/
def State.endGating (s : State) (slice : Nat) : State :=
  let ask := s.gating.get 0 slice
  let bad := (waysOf ask).filter (s.wayLocked slice)
  let good := (waysOf ask).filter fun w => !s.wayLocked slice w
  let s := good.foldl (fun s w => s.emptyWay slice w) s
  let mask (l : List Nat) : Nat := (l.map (2 ^ ·)).sum
  let r := mslOff slice 0
  let q := mslOff slice 8
  let s := s.setCfg r (s.cfgAt r ||| BitVec.ofNat 64 (mask good * 65536))
  let s := s.setCfg q ((s.cfgAt q &&& 0xFFFF) ||| BitVec.ofNat 64 (mask bad))
  { s with gating := s.gating.set 0 slice 0 }

/-! ## Carving (R288, R289) -/

/-- Contents of a carved way go away, in the Mere and in the L1s. -/
def State.clearCarved (s : State) (w : Nat) : State :=
  { s with
    carved := s.carved.filter fun e => e.1 / 33554432 != w
    carvedOwner := s.carvedOwner.filter fun e => e.1 / 262144 != w
    poison := s.poison.filter fun e => !(0x100000000000 ≤ e.1 && (e.1 - 0x100000000000) / 262144 == w)
    l1 := s.l1.filter fun e =>
      let ln := e.1 % 2 ^ 46
      !(0x100000000000 ≤ ln && (ln - 0x100000000000) / 262144 == w) }

/-- A write of MERE_CARVE. -/
def State.writeCarve (s : State) (x : W64) : State :=
  let new := x.extractLsb' 0 16
  let old := s.carveWays
  if 12 < popcount16 new then s
  else
    let ok (w : Nat) : Bool := (List.range 32).all fun sl =>
      (s.enWays sl).getLsbD w && !(s.quarWays sl).getLsbD w && !s.wayLocked sl w
    let add := (waysOf (new &&& ~~~old)).filter ok
    let s := (waysOf (old &&& ~~~new)).foldl State.clearCarved s
    let s := add.foldl (fun s w => ((List.range 32).foldl (fun s sl => s.emptyWay sl w) s).clearCarved w) s
    let m := (old &&& new) ||| BitVec.ofNat 16 (add.map (2 ^ ·)).sum
    s.setCfg 0x200 (m.setWidth 64)

/-- Interface that owns carved way w. -/
def State.carveOwner (s : State) (w : Nat) : Nat := bitsOf (s.cfgAt (if w < 8 then 0x208 else 0x210)).toNat (4 * (w % 8)) 4

/-- Carved ways of an interface, in increasing number. -/
def State.carvedOf (s : State) (v : Nat) : List Nat := (waysOf s.carveWays).filter fun w => s.carveOwner w == v

/-- Place of offset o of an interface's carved space, if it lies inside (R289). -/
def State.carvedPlace (s : State) (v o : Nat) : Option Place :=
  match (s.carvedOf v)[o / 33554432]? with
  | some w => some (.carved (w * 33554432 + o % 33554432))
  | none => none

/-! ## Injection (R531, R532) -/

/-- A write of MERE_INJ. -/
def State.writeInj (s : State) (x : W64) : State :=
  let old := s.cfgAt 0x220
  if old.getLsbD 63 then s else s.setCfg 0x220 ((x &&& 0xC00FFFFFFFFFFF80) ||| (old &&& 0x2000000000000000))

/-- The injection is done at the home slice. -/
def State.inject (s : State) : State :=
  let x := s.cfgAt 0x220
  let pa := bitsOf x.toNat 7 45 * 128
  let rest := x &&& 0x400FFFFFFFFFFF80
  match s.findWay pa with
  | none => s.setCfg 0x220 (rest ||| 0x2000000000000000)
  | some _ =>
    -- the bits are flipped: an injection over another undoes it; an owner field that was corrupted stays so
    let k := s.latent.get 0 (pa / 128)
    { s.setCfg 0x220 rest with latent := s.latent.set 0 (pa / 128) (latentOf (!latentData k) (latentOwn k || x.getLsbD 62)) }

end Sys2Proof.Machine
end

