-- ==== Sys2Proof/Machine/Service.lean ====
section
/-! DEFINITION. The service ring, the translation controls, semaphores and command ports as their registers act on them
(R395-R397, R416, R417, R458, R495). -/

namespace Sys2Proof.Machine

/-! ## The service ring (R395-R397) -/

def svcOff (v o : Nat) : Nat := 0x50000 + 0x1000 * v + o

/-- Entries of the ring of interface v. -/
def State.ringSize (s : State) (v : Nat) : Nat := 2 ^ (bitsOf (s.cfgAt (svcOff v 0)).toNat 0 4 + 6)

/-- Address of entry n. -/
def State.ringAddr (s : State) (v n : Nat) : Nat :=
  bitsOf (s.cfgAt (svcOff v 0)).toNat 6 46 * 64 + 64 * (n % s.ringSize v)

def svcKey (v n : Nat) : Nat := v * 4294967296 + n

/-- Numbers of the entries that await a reply. -/
def State.awaiting (s : State) (v : Nat) : List Nat :=
  s.svcOut.filterMap fun e => if e.1 / 4294967296 = v then some (e.1 % 4294967296) else none

/-- Whether the ring takes a request now (R395). -/
def State.ringRoom (s : State) (v : Nat) : Bool :=
  let head := (s.cfgAt (svcOff v 8)).toNat
  let tail := (s.cfgAt (svcOff v 0x10)).toNat
  (s.cfgAt (svcOff v 0)).getLsbD 63 && (head + 2 ^ 32 - tail) % 2 ^ 32 != s.ringSize v &&
  !(s.awaiting v).any fun n => n % s.ringSize v == head % s.ringSize v

/-- Number of a core within its interface (R504). -/
def State.viCoreNo (s : State) (v u : Nat) : Nat :=
  if u < 64 then (s.viCores v).idxOf u else 4 * (s.viGroups v).idxOf (groupOf u) + (u - 64) % 4

/-- Bytes of the entry that a requester writes (R396). -/
def State.svcEntry (s : State) (t : Nat) (th : Thread) (code : W16) (args : List W64) : List Byte :=
  let tile := th.kind != .simt
  let ord := match s.block? th.block with | some b => b.ord | none => 0
  let head : Nat := code.toNat + 65536 * ((if tile then 1 else 0) + (if th.kind = .xs then 2 else 0)) + 2 ^ 32 * th.ctx +
    2 ^ 48 * s.viCoreNo th.vi (coreOf t) + 2 ^ 56 * (if tile then 0 else t % 64)
  ((BitVec.ofNat 64 head) :: BitVec.ofNat 64 ord :: args).flatMap fun w => toBytes w.toNat 8

/-- A request enters the ring: the entry, HEAD and the interrupt (R396, R505). -/
def State.svcEnter (s : State) (t : Nat) (th : Thread) (code : W16) (args : List W64) : State :=
  let v := th.vi
  let n := (s.cfgAt (svcOff v 8)).toNat
  let s := s.writePhys (s.ringAddr v n) (s.svcEntry t th code args) (identity v th.ctx)
  let s := s.setCfg (svcOff v 8) (BitVec.ofNat 64 ((n + 1) % 2 ^ 32))
  let vint := s.cfgAt (viOff v + 0x18)
  let s := { s with svcOut := s.svcOut.insert (svcKey v n) (some t)
                    intrs := if vint.getLsbD 63 then s.intrs ++ [(bitsOf vint.toNat 0 5, bitsOf vint.toNat 8 6, bitsOf vint.toNat 32 11)] else s.intrs }
  s.mapThread t fun th => { th with svc := .entered n }

/-- The reply as a thread takes it: s8, s9, the status, and it runs again. -/
def Thread.reply_ (th : Thread) (a b : W64) (st : W32) : Thread :=
  { th with s := Tbl.set 0 (Tbl.set 0 th.s 8 a) 9 b, reply := some st, svc := .none }

/-- A write of SVC_REPLY (R397). -/
def State.writeReply (s : State) (v : Nat) (x : W64) : State :=
  let idx := bitsOf x.toNat 0 16
  let st : W32 := x.extractLsb' 32 32
  match (s.awaiting v).find? fun n => n % 65536 == idx with
  | none => s.log 0x0440 0xA000 0xFFFF x (s.openArg 0)
  | some n =>
    let (s, a, _) := s.readWord (s.ringAddr v n + 48) (identity v 0xFFE)
    let (s, b, _) := s.readWord (s.ringAddr v n + 56) (identity v 0xFFE)
    let s := { s with svcOut := s.svcOut.erase (svcKey v n) }
    let mine (th : Thread) : Bool := th.vi == v && th.svc == .entered n
    let ts := s.threads.filterMap fun e => match e.2 with
      | some th => if mine th then some e.1 else none
      | none => none
    let s := s.mapThreads fun _ th => if mine th then th.reply_ a b st else th
    -- a requester that is swapped out has the values in its image
    ts.foldl (fun s t => match s.thread? t with
      | some th => (((s.putImageWord t 8 a).putImageWord t 9 b).putImageWord t replyWord (1#64 <<< 32 ||| st.setWidth 64)).putImageWord t 83 th.wstat
      | none => s) s

/-! ## Translation controls (R416, R417) -/

def xltOff (v o : Nat) : Nat := 0x60000 + 0x1000 * v + o

/-- A write of XLT_INV. -/
def State.writeXltInv (s : State) (v : Nat) (x : W64) : State :=
  if (s.xlt.get none v).isSome then s
  else
    let kind := bitsOf x.toNat 0 2
    let ctx := bitsOf x.toNat 52 12
    let s := s.setCfg (xltOff v 0) (x &&& ~~~0xFFEC#64)
    if kind = 3 || (kind != 2 && 4093 < ctx) then s.setCfg (xltOff v 0x10) (s.cfgAt (xltOff v 0x10) ||| 4)
    else
      let s := s.dropTlb v (if kind = 0 then 0 else kind) ctx (bitsOf x.toNat 16 36 * 65536) (x.getLsbD 4)
      { s with xlt := s.xlt.insert v (some s.clock) }

/-- A write of XLT_HINV. -/
def State.writeXltHinv (s : State) (v : Nat) (x : W64) : State :=
  if (s.hxlt.get none v).isSome then s
  else
    let ctx := bitsOf x.toNat 52 12
    let s := s.setCfg (xltOff v 8) (x &&& 0xFFF00000000001FF)
    if 4093 < ctx then s.setCfg (xltOff v 0x10) (s.cfgAt (xltOff v 0x10) ||| 4)
    else
      let s := s.dropHandles v ctx (if x.getLsbD 8 then none else some (bitsOf x.toNat 0 8))
      { s with hxlt := s.hxlt.insert v (some s.clock) }

/-- The slot of the valid table path to a VA that holds an L1 or L2 leaf: its address, value and level. -/
def State.largeLeaf (s : State) (id : W16) (va : Nat) : Nat → Nat → Nat → State × Option (Nat × W64 × Nat)
  | 0, _, _ => (s, none)
  | fuel + 1, l, node =>
    let pa := node + 8 * bitsOf va (lvlBits l) 9
    let (s, e, m) := s.readWord pa id
    if m != .data || !e.getLsbD 0 || malformed l e then (s, none)
    else if e.getLsbD 1 then (s, if l = 1 || l = 2 then some (pa, e, l) else none)
    else if e.getLsbD 2 || 2 ≤ l then (s, none)
    else s.largeLeaf id va fuel (l + 1) (bitsOf e.toNat 12 40 * 4096)

/-- A write of SPL_REQ: steps 1 to 3 of R417. -/
def State.writeSplit (s : State) (v : Nat) (x : W64) : State :=
  if (s.spl.get none v).isSome then s
  else
    let ctx := bitsOf x.toNat 52 12
    let va := bitsOf x.toNat 16 36 * 65536
    let id := identity v ctx
    let s := s.setCfg (xltOff v 0x18) (x &&& ~~~0xFFFF#64)
    let put (s : State) (e : W64) (slot node status : Nat) : State :=
      { s with spl := s.spl.insert v (some { ctx := ctx, va := va, entry := e, slot := slot, node := node, status := status }) }
    match s.readDesc v ctx with
    | (s, .ok d) =>
      match s.largeLeaf id va 3 0 d.root with
      | (s, none) => put s 0 0 0 2
      | (s, some (slot, e, l)) =>
        if e.getLsbD 2 then put s e slot 0 5
        else if d.splNext = d.splCount then put s e slot 0 1
        else
          let node := d.splBase + 4096 * d.splNext
          let s := match s.descAddr v ctx with
            | some pa => s.writePhys (pa + 0x28) (toBytes (d.splNext + 1) 4) id
            | none => s
          let frame := bitsOf e.toNat 12 40 * 4096
          let keep := e.toNat - frame
          let s := (List.range 512).foldl (fun s i =>
            s.writePhys (node + 8 * i) (toBytes (keep + frame + i * 2 ^ lvlBits (l + 1)) 8) id) s
          put s e slot node 0
    | (s, _) => put s 0 0 0 4

/-- The splinter ends: steps 4 and 5 of R417, and its status. -/
def State.endSplit (s : State) (v : Nat) (p : Splinter) : State :=
  let id := identity v p.ctx
  let (s, status) :=
    if p.status != 0 then (s, p.status)
    else
      let (s, now, _) := s.readWord p.slot id
      if now = p.entry then
        let e := BitVec.ofNat 64 (p.node + 1) ||| (p.entry &&& 0xFF00000000000000)
        ((s.writePhys p.slot (toBytes e.toNat 8) id).dropTlb v 0 p.ctx p.va false, 0)
      else
        match s.descAddr v p.ctx with
        | some pa =>
          let (s, w, _) := s.readWord (pa + 0x28) id
          (s.writePhys (pa + 0x28) (toBytes (w.toNat % 2 ^ 32 - 1) 4) id, 3)
        | none => (s, 3)
  let node := if p.node = 0 then (s.cfgAt (xltOff v 0x20)).toNat else p.node
  let st := BitVec.ofNat 64 ((node / 4096) * 4096 + status)
  { s.setCfg (xltOff v 0x20) st with spl := s.spl.erase v }

/-! ## Semaphores (R458) -/

/-- An `.init` of a semaphore; takes that its value covers are served in the same cycle. -/
def State.semInit (s : State) (k value ceil : Nat) : State :=
  (s.setSem k { s.sem k with value := value, ceil := ceil }).serveNext k

/-- A post; `none` at the ceiling (R459, R462). Takes that the value then covers are served in the same cycle. -/
def State.semPost (s : State) (k n : Nat) : Option State :=
  let x := s.sem k
  if x.ceil < x.value + n then none else some ((s.setSem k { x with value := x.value + n }).serveNext k)

/-- The state word of R457. -/
def Sem.word (x : Sem) : W64 :=
  BitVec.ofNat 64 ((if x.takes.isEmpty then 0 else 65536) + x.ceil * 256 + x.value)

/-! ## Command ports (R495) -/

def hcpOff (h o : Nat) : Nat := 0xF0000 + 0x100 * h + o

def State.hart (s : State) (h : Nat) : Hart := s.harts.get freshHart h
def State.setHart (s : State) (h : Nat) (x : Hart) : State := { s with harts := s.harts.set freshHart h x }

/-- Streams of a port that hold words or a count. -/
def State.portBusy (s : State) (h : Nat) : Bool :=
  [0, 1, 4, 5].any fun q => let x := s.stream (hartStream h q); !x.buf.isEmpty || x.outstanding != 0

/-- A write of HCP_CTL. -/
def State.writeHcpCtl (s : State) (h : Nat) (x : W64) : State :=
  if s.portBusy h then s.setCfg (hcpOff h 8) (s.cfgAt (hcpOff h 8) ||| 1)
  else
    let s := s.setCfg (hcpOff h 0) (x &&& 0xC00000000000FFFF)
    let s := [0, 1, 4, 5].foldl (fun s q => s.mapStream (hartStream h q) fun y => { y with seq := 0 }) s
    (List.range 16).foldl (fun s n => s.setSem (hartSemKey h n) freshSem) s

/-- A write of HCP_SEM n. -/
def State.writeHcpSem (s : State) (h n : Nat) (x : W64) : State :=
  let value := bitsOf x.toNat 0 8
  let ceil := bitsOf x.toNat 8 8
  if ceil = 0 || ceil < value then s else s.semInit (hartSemKey h n) value ceil

end Sys2Proof.Machine
end

