-- ==== Sys2Proof/Machine/Space.lean ====
section
/-! DEFINITION. The device configuration space: what each party reads and writes there (R4, R5, R21-R23, R285, R288, R315, R335,
R359, R395, R416, R419, R423, R442, R472, R480, R482, R489-R492, R495, R503, R512, R543). -/

namespace Sys2Proof.Machine

/-! ## Power requests (R63, R481) -/

/-- Die of a power cluster: true for west. -/
def clusterWest (c : Nat) : Bool := if c < 64 then 32 ≤ c else if c < 80 then 72 ≤ c else 88 ≤ c

/-- Whether a resident thread of a core requests the high rail with its card's permit. -/
def State.coreReq (s : State) (u : Nat) : Bool :=
  s.threads.any fun e => match e.2 with
    | some th => coreOf e.1 == u && th.plreq == 1 && th.permit
    | none => false

/-- A cluster requests the high rail. -/
def State.clusterReq (s : State) (c : Nat) : Bool :=
  if c < 64 then s.coreReq c
  else if c < 80 then (List.range 4).any fun m => s.coreReq (64 + 4 * (c - 64) + m)
  else (List.range 80).any fun k => clusterWest k == clusterWest c && (s.cluster k).high

def pwrOff (c : Nat) : Nat := 0xC0000 + 8 * c

/-! ## Sensor pairs (R485, R487) -/

/-- Course, 1 to 12, of a power cluster on its die (R11, R20). -/
def clusterCourse (c : Nat) : Nat :=
  if c < 64 then [3, 4, 9, 10].getD (c % 32 / 8) 3
  else if c < 80 then (if (c - 64) % 8 < 4 then 6 else 7)
  else [2, 5, 8, 11].getD ((c - 80) % 8 / 2) 2

/-- Pairs that are neighbours (R485). -/
def pairNeighbours (a b : Nat) : Bool :=
  let c (n : Nat) : Nat := n % 48 / 4
  let k (n : Nat) : Nat := n % 4
  let apart (x y : Nat) : Bool := x + 1 == y || y + 1 == x
  a / 48 == b / 48 && ((c a == c b && apart (k a) (k b)) || (k a == k b && apart (c a) (c b)))

/-- A pair covers a cluster: its die, its course and the quarter in which the cluster lies, which the manual leaves open (R485). -/
def pairCovers (n c : Nat) : Bool :=
  (48 ≤ n) == clusterWest c && n % 48 / 4 + 1 == clusterCourse c && Config.inQuarter c (n % 4)

/-- A pair that holds its clusters and its neighbours' (R487). -/
def State.thermHeld (s : State) (c : Nat) : Bool :=
  s.pairHold.any fun e => e.2 != 0 && (List.range 96).any fun n => (n == e.1 || pairNeighbours n e.1) && pairCovers n c

/-- Whether a cluster is to run on the high rail (R481). -/
def State.railWanted (s : State) (c : Nat) : Bool :=
  s.clusterReq c && !(s.cfgAt (pwrOff c)).getLsbD 4 && (s.cluster c).droopHold.isNone && !s.thermHeld c && !(s.cluster c).halted

/-! ## Restarts (R509, R511, R512) -/

def restartable (e : Nat) : Bool :=
  (0x1000 ≤ e && e < 0x1040) || (0x2000 ≤ e && e < 0x2040 && e % 4 == 0) || (0x6000 ≤ e && e < 0x6030) ||
  e == 0x7000 || e == 0x7001 || e == 0x8000

/-- The units of R509, by engine number. -/
def restartableUnits : List Nat :=
  (List.range 64).map (0x1000 + ·) ++ (List.range 16).map (fun g => 0x2000 + 4 * g) ++ (List.range 48).map (0x6000 + ·) ++ [0x7000, 0x7001, 0x8000]

/-- A trigger for a unit; one for a unit already restarting joins that restart (R511). -/
def State.startRestart (s : State) (e : Nat) : State :=
  if (s.restarts.get none e).isSome then s else { s with restarts := s.restarts.insert e (some 0) }

/-! ## Interfaces (R503) -/

/-- A unit: n for SIMT core n, 64 + g for tile group g. -/
def State.unitOn (s : State) (u : Nat) : Bool :=
  if u < 64 then s.inv.simt.getLsbD u
  else s.inv.units.getLsbD (u - 64) && (List.range 4).any fun m => s.inv.tile.getLsbD (4 * (u - 64) + m)

/-- A unit holds a resident or saved block. -/
def State.unitHolds (s : State) (u : Nat) : Bool :=
  s.blocks.any fun e => match e.2 with
    | some b => b.phase != .relaunch && (if b.tile then 64 + b.unit == u || (b.span && (64 + b.unit) / 4 == u / 4 && 64 ≤ u) else b.unit == u)
    | none => false

def unitBit (u : Nat) : Nat := if u < 64 then u else u - 64
def unitReg (v u : Nat) : Nat := if u < 64 then viOff v else viOff v + 8

/-- The unit belongs to an interface. -/
def State.unitOwner (s : State) (u : Nat) : Option Nat := (List.range 16).find? fun v => (s.cfgAt (unitReg v u)).getLsbD (unitBit u)

def State.setUnit (s : State) (v u : Nat) (on : Bool) : State :=
  let x := s.cfgAt (unitReg v u)
  let b := 1#64 <<< unitBit u
  s.setCfg (unitReg v u) (if on then x ||| b else x &&& ~~~b)

/-- A write of VI_SIMT or VI_TILE: each changed bit takes effect at once, or once its unit holds no block. -/
def State.writeUnits (s : State) (v : Nat) (tile : Bool) (x : W64) : State :=
  let us := if tile then (List.range 16).map (64 + ·) else List.range 64
  us.foldl (fun s u =>
    let on := x.getLsbD (unitBit u)
    let s := { s with handover := s.handover.filter fun p => !(p.1 == v && p.2.1 == u) }
    if on = (s.cfgAt (unitReg v u)).getLsbD (unitBit u) then s
    else if on && (!s.unitOn u || (match s.unitOwner u with | some w => w != v | none => false)) then s
    else if s.unitHolds u then { s with handover := s.handover ++ [(v, u, on)] }
    else s.setUnit v u on) s

/-! ## Device time (R472-R474) -/

/-- A write of DT_STEP. DT_STEP.STEP holds the value last written, that of a refused step too: R474 says of a refused write that device
time is unchanged and REFUSED is set, and leaves what STEP then reads as open; the model stores it as R4 has of an RW field (the model's
choice, log entry 59). -/
def State.writeStep (s : State) (x : W64) : State :=
  let busy := s.jobs.any (·.2.isSome) || (List.range 1024).any fun n => (s.cfgAt (cardOff n 0)).getLsbD 63
  let s := s.setCfg 0xA0010 x
  if busy then s.setCfg 0xA0018 (s.cfgAt 0xA0018 ||| 4)
  else
    let s := (s.setCfg 0xA0018 (s.cfgAt 0xA0018 ||| 2)).log 0x0474 0 0xFFFF x (s.openArg 0)
    let now := s.time + x
    -- what has passed since a heartbeat stays what it was
    let s := { s with time := now, edge := now.toNat / 10000, beats := restartableUnits.foldl (fun t e => Tbl.set 0 t e (t.get 0 e + x)) s.beats }
    -- a time that the step reaches is an edge; those it leaps over never come (R477)
    if now.toNat % 10000 = 0 then s.windowEdge (now.toNat / 10000) else s

/-- A write of DT_RATE. -/
def State.writeRate (s : State) (x : W64) : State :=
  let p : W32 := x.extractLsb' 0 32
  if p.toInt < -500000 || 500000 < p.toInt then s else s.setCfg 0xA0008 (p.setWidth 64)

/-! ## Cards (R419-R421) -/

/-- Bits of a card's RW words that hold fields. -/
def cardMask (i : Nat) : W64 :=
  [0xFFFFFFFFFFFFF000#64, 0xFFFFFFFFFFFFFFFF, 0xFFFFFFFFFFFFFFFF, 0xFFFFFFFFFFFFFFFF, 0x0001FFFFFFFFFFFF, 0x000FFFFFFFFFFF00,
   0xFFFFFFFFFFFFFFFF, 0x000FFFFFFFFFFFFF].getD i 0

/-- A write of word i of card n; through a card window the VI field keeps its value. -/
def State.writeCard (s : State) (n i : Nat) (win : Option Nat) (x : W64) : State :=
  let old := cardWord s n i
  if 8 ≤ i then s
  else
  -- the instants that have come are releases of the card as it stood
  let s := s.releaseDue n
  if i = 0 then
    let x := match win with
      | some v => (x &&& ~~~0x3C00000000000000#64) ||| BitVec.ofNat 64 (v * 2 ^ 58)
      | none => x
    let s := s.setCfg (cardOff n 0) (x &&& cardMask 0)
    if x.getLsbD 63 && !old.getLsbD 63 then s.arm n true else s
  else s.setCfg (cardOff n (8 * i)) (x &&& cardMask i)

/-- A word of card n as it reads. -/
def State.readCard (s : State) (n i : Nat) : W64 :=
  if i = 11 then match s.job? n with
    | some j => BitVec.ofNat 64 j.spent
    | none => cardWord s n i
  else if 13 ≤ i then 0 else cardWord s n i

/-- A doorbell store to the release page of interface v (R359). -/
def State.doorbell (s : State) (v : Nat) (x : W64) : State :=
  if 1024 ≤ x.toNat || bitsOf (cardWord s x.toNat 0).toNat 58 4 != v then s.log 0x0431 0xA000 0xFFFF x (s.openArg 0)
  else (s.release x.toNat s.time).1

/-! ## Which registers a party reaches (R23, R504) -/

/-- Registers of interface v that its own software reaches. -/
def ownReg (v off : Nat) : Bool :=
  [0x40 + v, 0x50 + v, 0x60 + v, 0x70 + v].contains (off / 4096) || off / 256 == 0x300 + v ||
  (0x100000 + 0x20000 * v ≤ off && off < 0x100000 + 0x20000 * (v + 1))

def partyReaches (p : Party) (off : Nat) : Bool :=
  match p with
  | .island => true
  | .hyper => true
  | .vi v => ownReg v off

/-! ## Reading (R21-R23) -/

/-- Physical units, as PKG_TILEEN shows them (R24). -/
def State.tileEn (s : State) : W64 :=
  (List.range 64).foldl (fun x m => if s.tileOn m then x ||| (1#64 <<< m) else x) 0

/-- The log as it is readable (R491, R493). -/
def State.siltRing (s : State) : List Silt := if s.silt.isEmpty then s.siltFlash else s.silt

/-- Word i of a Silt entry. -/
def Silt.word (e : Silt) (i : Nat) : W64 :=
  match i with
  | 0 => e.time
  | 1 => BitVec.ofNat 64 (e.code.toNat + e.source.toNat * 2 ^ 16 + e.ctx.toNat * 2 ^ 32 +
      ((if e.fatal then 1 else 0) + (if e.persisted then 2 else 0)) * 2 ^ 56)
  | 2 => e.arg0
  | _ => e.arg1

/-- Entry i of the ring: write number i modulo 4,096, the newest. -/
def State.siltAt (s : State) (i : Nat) : Option Silt :=
  let n := if s.silt.isEmpty then s.siltFlash.length else s.siltCount
  let back := (n + 4096 * 2 - 1 - i) % 4096
  if back < n then s.siltRing[back]? else none

/-- The value of a register, by its offset. -/
def State.regValue (s : State) (off : Nat) : W64 :=
  let x := s.cfgAt off
  let bit (b : Bool) (i : Nat) : W64 := if b then 1#64 <<< i else 0
  if off = 0 then BitVec.ofNat 64 (0x5D01 * 65536 + s.inv.step % 256 * 256 + 0x20)
  else if off = 8 then s.inv.simt
  else if off = 0x10 then s.tileEn
  else if off = 0x18 then s.inv.units
  else if 0x10000 ≤ off && off < 0x12000 && off % 256 = 0 then
    (x &&& 0xFFFFFFFF0000) ||| (s.enWays ((off - 0x10000) / 256)).setWidth 64
  else if 0x60000 ≤ off && off < 0x70000 && off % 4096 = 0x10 then
    let v := off / 4096 - 0x60
    x ||| bit (s.xlt.get none v).isSome 0 ||| bit (s.hxlt.get none v).isSome 1
  else if 0x60000 ≤ off && off < 0x70000 && off % 4096 = 0x20 then x ||| bit (s.spl.get none (off / 4096 - 0x60)).isSome 8
  else if 0x80000 ≤ off && off < 0xA0000 then s.readCard ((off - 0x80000) / 128) (off % 128 / 8)
  else if off = 0xA0000 then s.time
  else if 0xC0000 ≤ off && off < 0xC0300 then
    let c := (off - 0xC0000) / 8
    let k := s.cluster c
    x ||| bit (s.thermHeld c) 6 ||| bit k.droopHold.isSome 5 ||| bit (s.clusterReq c) 1 ||| bit k.high 0
  else if 0xF0000 ≤ off && off < 0xF1800 then
    let h := (off - 0xF0000) / 256
    let o := off % 256
    if o = 8 then
      x ||| bit (s.stream (hartStream h 0)).halted 32 ||| bit (s.stream (hartStream h 1)).halted 33 |||
        bit (s.stream (hartStream h 4)).halted 34 ||| bit (s.stream (hartStream h 5)).halted 35
    else if 0x40 ≤ o && o < 0xC0 then (s.sem (hartSemKey h ((o - 0x40) / 8))).word
    else x
  else if 0xF8000 ≤ off && off < 0xF8400 && off % 64 = 0x10 then
    let v := (off - 0xF8000) / 64
    bit (s.handover.any fun p => p.1 == v && p.2.1 < 64) 0 ||| bit (s.handover.any fun p => p.1 == v && 64 ≤ p.2.1) 1
  -- the lanes found dead are stored; those in service read as ones
  else if off = 0xFC000 then ~~~x
  else if off = 0xFF000 then (x &&& 0xFFFF) ||| bit (!s.asked.isEmpty) 16
  else if 0x400000 ≤ off && off < 0x420000 then
    match s.siltAt ((off - 0x400000) / 32) with
    | some e => e.word (off % 32 / 8)
    | none => 0
  else if off = 0x420000 then (x &&& 0x100000000) ||| BitVec.ofNat 64 (s.siltCount % 2 ^ 32)
  else x

/-- The card that an offset of a card window names: interface, card and word. -/
def windowCard (off : Nat) : Option (Nat × Nat × Nat) :=
  if 0x100000 ≤ off && off < 0x300000 then some ((off - 0x100000) / 0x20000, off % 0x20000 / 128, off % 128 / 8) else none

/-- A read of n bytes at an offset by a party (R23). -/
def State.readReg (s : State) (who : Party) (off n : Nat) : State × W64 :=
  if n != 8 || off % 8 != 0 || 0x1000000 ≤ off || !partyReaches who off then (s, 0)
  else
    match windowCard off with
    | some (v, c, i) => (s, if bitsOf (cardWord s c 0).toNat 58 4 = v then s.readCard c i else 0)
    | none =>
      let s' := if off = 0x420000 then { s with siltRead := s.siltCount } else s
      (s', s.regValue off)

/-! ## Writing (R4, R5, R543) -/

/-- Registers whose fields are plain RW: the bits that hold them. -/
def plainMask (off : Nat) : W64 :=
  if off = 0x208 || off = 0x210 then 0xFFFFFFFF
  else if 0x10000 ≤ off && off < 0x12000 && off % 256 = 0xC0 then 0xFFFF
  else if 0x20000 ≤ off && off < 0x22000 && off % 64 < 0x30 then 0xFFFF
  else if 0x30000 ≤ off && off < 0x31000 then
    if off % 32 = 0 then 0x8001FFFFFFFFFFFF else if off % 32 < 24 then BitVec.allOnes 64 else 0
  else if 0x50000 ≤ off && off < 0x60000 && off % 4096 = 0x10 then 0xFFFFFFFF
  else if 0xE0000 ≤ off && off < 0xE4000 && 0x40 ≤ off % 128 then BitVec.allOnes 64
  else 0

/-- A W1C register: the bits written with 1 clear. -/
def State.writeOnes (s : State) (off : Nat) (mask x : W64) : State := s.setCfg off (s.cfgAt off &&& ~~~(x &&& mask))

/-- The effect of a 64-bit write at an offset. -/
def State.regWrite (s : State) (off : Nat) (x : W64) : State :=
  let page := off / 4096
  let o := off % 4096
  let v := page % 16
  if off = 0x200 then s.writeCarve x
  else if off = 0x220 then s.writeInj x
  else if 0x10000 ≤ off && off < 0x12000 && off % 256 = 0 then s.writeGate ((off - 0x10000) / 256) x
  else if 0x10000 ≤ off && off < 0x12000 && off % 256 = 8 then s.writeOnes off 0xFFFF x
  else if 0x10000 ≤ off && off < 0x12000 && 0x40 ≤ off % 256 && off % 256 < 0xC0 then
    s.writeAlloc ((off - 0x10000) / 256) ((off % 256 - 0x40) / 8) x
  else if 0x40 ≤ page && page < 0x50 then if o = 0 then s.doorbell v x else s
  else if 0x50 ≤ page && page < 0x60 && o = 0 then if 11 ≤ bitsOf x.toNat 0 4 then s else s.setCfg off (x &&& 0x800FFFFFFFFFFFCF)
  else if 0x50 ≤ page && page < 0x60 && o = 0x18 then s.writeReply v x
  else if 0x60 ≤ page && page < 0x70 && o = 0 then s.writeXltInv v x
  else if 0x60 ≤ page && page < 0x70 && o = 8 then s.writeXltHinv v x
  else if 0x60 ≤ page && page < 0x70 && o = 0x10 then s.writeOnes off 4 x
  else if 0x60 ≤ page && page < 0x70 && o = 0x18 then s.writeSplit v x
  else if 0x70 ≤ page && page < 0x80 && o = 0 then if 4094 < bitsOf x.toNat 52 12 then s else s.setCfg off (x &&& ~~~0x3F#64)
  else if 0x80 ≤ page && page < 0xA0 then s.writeCard ((off - 0x80000) / 128) (off % 128 / 8) none x
  else if off = 0xA0008 then s.writeRate x
  else if off = 0xA0010 then s.writeStep x
  else if off = 0xA0018 then s.setCfg off ((s.cfgAt off &&& ~~~(x &&& 6) &&& 6) ||| (x &&& 1))
  else if 0xC0000 ≤ off && off < 0xC0300 then
    s.setCfg off ((s.cfgAt off &&& 0xFFFFFFFF00000000) ||| (x &&& 0x10) ||| (s.cfgAt off &&& 0x80 &&& ~~~x))
  else if 0xE0000 ≤ off && off < 0xE4000 && off % 128 < 0x40 then
    if 0x0E ≤ bitsOf x.toNat 0 8 then s else s.setCfg off (x &&& 0x9FFF)
  else if 0xF0000 ≤ off && off < 0xF1800 then
    let h := (off - 0xF0000) / 256
    let o := off % 256
    if o = 0 then s.writeHcpCtl h x
    else if o = 8 then s.writeOnes off 1 x
    else if 0x40 ≤ o && o < 0xC0 then s.writeHcpSem h ((o - 0x40) / 8) x
    else s
  else if 0xF8000 ≤ off && off < 0xF8400 then
    let v := (off - 0xF8000) / 64
    if off % 64 = 0 then s.writeUnits v false x
    else if off % 64 = 8 then s.writeUnits v true x
    else if off % 64 = 0x18 then if 24 ≤ bitsOf x.toNat 0 5 then s else s.setCfg off (x &&& 0x800007FF00003F1F)
    else s
  else if off = 0xFF000 then
    let e := bitsOf x.toNat 0 16
    if restartable e then ({ s.setCfg off (BitVec.ofNat 64 e) with asked := e :: s.asked.filter (· != e) } : State).startRestart e else s
  else if off = 0x420000 then s.writeOnes off 0x100000000 x
  else if plainMask off = 0 then s
  else s.setCfg off (x &&& plainMask off)

/-- A write of n bytes at an offset by a party (R23). -/
def State.writeReg (s : State) (who : Party) (off n : Nat) (x : W64) : State :=
  if n != 8 || off % 8 != 0 || 0x1000000 ≤ off || !partyReaches who off then s
  else
    match windowCard off with
    | some (v, c, i) => if bitsOf (cardWord s c 0).toNat 58 4 = v then s.writeCard c i (some v) x else s
    | none => s.regWrite off x

end Sys2Proof.Machine
end

