-- ==== Sys2Proof/Machine/Access.lean ====
section
/-! DEFINITION. The checks that every access passes, and where its bytes fall (R235, R238-R242, R269, R289, R402). -/

namespace Sys2Proof.Machine

/-- Bytes of SZ (R239). -/
def sizeBytes : Size → Nat
  | .b8 => 1
  | .b16 => 2
  | .b32 => 4
  | .b64 => 8
  | .b128 => 16

/-- Instructions that reach memory through a handle. -/
inductive MOp where
  | ld | st | ldsp | stsp | poll | atom | red | ldres | stcond | tld | tst | pref | cctl | dfree | pub | sub
  deriving DecidableEq, Repr

/-- The access needed of the handle and the leaf (R241, R252, R269). -/
def MOp.need : MOp → Need
  | .st => .w
  | .stsp => .w
  | .tst => .w
  | .red => .w
  | .stcond => .w
  | .dfree => .w
  | .pub => .w
  | .atom => .rw
  | _ => .r

/-- Check 2 of R241: whether a space accepts an instruction of a kind of sequencer (R240, R269). R240 gives TLD and TST no column: the model lets
them reach every space of which a load or store may name a handle, as LD and ST do (DESIGN CHOICE, log entry 67). -/
def spaceOk (k : TKind) (op : MOp) (space : Nat) : Bool :=
  match space with
  | 1 => k == .simt && (op == .ldsp || op == .stsp || op == .poll || op == .atom || op == .red || op == .pref || op == .cctl || op == .pub)
  | 2 => k != .simt && (op == .ldsp || op == .stsp || op == .poll || op == .atom || op == .red || op == .pref || op == .cctl ||
      op == .pub || op == .tld || op == .tst)
  | 3 => op == .ld || op == .st || op == .poll || op == .atom || op == .red || op == .pref || op == .cctl || op == .sub ||
      op == .tld || op == .tst
  | 6 => op != .ldsp && op != .stsp && op != .ldres && op != .stcond && op != .pub && op != .sub && op != .dfree
  | _ => op != .ldsp && op != .stsp && op != .pub && op != .sub

/-- Check 3 of R241. -/
def HEntry.grants (h : HEntry) (op : MOp) : Bool :=
  match op.need with
  | .r => h.canR && !(op == .ldres && h.space == 5)
  | .w => h.canW
  | .rw => h.canR && h.canW
  | .x => false

/-- The policy that a leaf's POL and a handle's give (R237, R402). -/
def policy (pol leaf : Nat) : Nat := if leaf = 0 then pol else leaf + 1

/-- Where an access of n bytes at an offset of a handle's window falls, or the first check it fails. -/
inductive Where where
  | ok (ps : List Place) (pol va : Nat)
  | fault (code : Nat) (val : W64)
  | mig (entry level va : Nat)
  | err (m : Meet) (pa : Nat)
  deriving DecidableEq, Repr

/-- Checks 3 to 6 of R241 for one access. A scratchpad access within the handle's length and beyond the block's own region cannot reach another
region (R235), which names no outcome: BOUNDS with the offset, after the alignment check (DESIGN CHOICE, log entry 72). -/
def State.locate (s : State) (w : Walker) (b : Block) (core : Nat) (h : HEntry) (op : MOp) (n : Nat) (off : W64) : State × Where :=
  let addr : W64 := h.base + off
  if !h.grants op then (s, .fault cPermission addr)
  else if h.len.toNat < off.toNat + n then (s, .fault cBounds off)
  else if addr.toNat % n != 0 then (s, .fault cMisaligned addr)
  else
    let a := addr.toNat
    let run (p : Place) : List Place := (List.range n).map p.plus
    match h.space with
    | 1 => (s, if b.spSize < a + n then .fault cBounds off else .ok (run (.core core (b.spBase + a))) 0 a)
    | 2 => (s, if b.spSize < a + n then .fault cBounds off else .ok (run (.group (groupOf core) (b.spBase + a))) 0 a)
    | 3 => (s, .ok (run (if h.core < 64 then .core h.core a else .group (groupOf h.core) a)) 0 a)
    | 4 => match s.carvedPlace w.vi a with
      | some p => (s, .ok (run p) h.pol a)
      | none => (s, .fault cBounds (BitVec.ofNat 64 a))
    | sp =>
      match s.translate w a op.need (sp == 6) with
      | (s, .ok pa pol) =>
        -- a frame of the configuration space mapped without POL 3 reads zero and discards writes (R402)
        let p := match placeOf pa with
          | .dev o => if pol = 3 then Place.dev o else .dev 0x1000000
          | p => p
        (s, .ok (run p) (policy h.pol pol) a)
      | (s, .fault c v) => (s, .fault c v)
      | (s, .mig e l) => (s, .mig e l a)
      | (s, .err m pa) => (s, .err m pa)

/-- The pieces of an instruction's accesses: (lane, offset, data), lanes in increasing order; or the first check that fails, and its lane. -/
def State.locateAll (s : State) (w : Walker) (b : Block) (core : Nat) (h : HEntry) (op : MOp) (n : Nat) :
    List (Nat × W64 × List Byte) → State × Except (Nat × Where) (List Piece)
  | [] => (s, .ok [])
  | (lane, off, data) :: l =>
    match s.locate w b core h op n off with
    | (s, .ok ps pol va) =>
      match s.locateAll w b core h op n l with
      | (s, .ok qs) => (s, .ok ({ lane := lane, at_ := ps, data := data, va := va, pol := pol } :: qs))
      | (s, .error e) => (s, .error e)
    | (s, e) => (s, .error (lane, e))

/-- Checks 3 to 5 of R241 for a tile access, one lane's: every byte is within the length before alignment counts, and R187 asks that of the
offset and the stride. -/
def HEntry.tileFault (h : HEntry) (op : MOp) (n : Nat) (accs : List (Nat × W64 × List Byte)) : Option (Nat × W64) :=
  if !h.grants op then (accs.head?).map fun e => (cPermission, h.base + e.2.1)
  else match accs.find? fun e => h.len.toNat < e.2.1.toNat + n with
    | some e => some (cBounds, e.2.1)
    | none => (accs.find? fun e => e.2.1.toNat % n != 0).map fun e => (cMisaligned, h.base + e.2.1)

/-- An element of a tile whose handle has an unaligned base is accessed byte by byte. -/
def byteAccs (n : Nat) (accs : List (Nat × W64 × List Byte)) : List (Nat × W64 × List Byte) :=
  accs.flatMap fun e => (List.range n).map fun i => (e.1 + i, e.2.1 + BitVec.ofNat 64 i, (e.2.2.drop i).take 1)

/-- The slice of thread t in which a lane of its scope lies (R227). -/
def sliceFor (t lane : Nat) : Option Nat := if lane / 32 = t then some (lane % 32 / 4) else none

/-- Checks 1 to 6 of R241 for a thread's accesses through handle n. -/
def State.checkAccess (s : State) (t : Nat) (gang : BitVec 8) (op : MOp) (hd n : Nat) (accs : List (Nat × W64 × List Byte)) :
    State × Except Res (HEntry × List Piece) :=
  match s.thread? t with
  | none => (s, .error .stall)
  | some th =>
    match s.block? th.block with
    | none => (s, .error .stall)
    | some b =>
      if th.migHeld gang ||
          th.pend.any (fun p => p.op.isInval) then (s, .error .stall)
      else
        match s.handle (coreOf t) th.vi th.ctx hd with
        | (s, .invalid) => (s, .error (.trapAt s cHandleInvalid (BitVec.ofNat 64 hd) none))
        | (s, .err m pa) => (s, .error (.lost s m pa))
        | (s, .ok h) =>
          if !spaceOk th.kind op h.space then (s, .error (.trapAt s cHandleInvalid (BitVec.ofNat 64 hd) none))
          else
            let tile := op == .tld || op == .tst
            let split := tile && h.base.toNat % n != 0
            match if tile then h.tileFault op n accs else none with
            | some (c, v) => (s, .error (.trapAt s c v none))
            | none =>
            match s.locateAll (walkerOf t th) b (coreOf t) h op (if split then 1 else n) (if split then byteAccs n accs else accs) with
            | (s, .ok ps) => (s, .ok (h, ps))
            | (s, .error (lane, .fault c v)) => (s, .error (.trapAt s c v (sliceFor t lane)))
            | (s, .error (lane, .mig e l va)) => (s, .error (.migrating s e l va (sliceFor t lane)))
            | (s, .error (_, .err m pa)) => (s, .error (.lost s m pa))
            | (s, .error (_, .ok _ _ _)) => (s, .error .stall)

end Sys2Proof.Machine
end

