-- ==== Sys2Proof/Machine/Float.lean ====
section
/-! DEFINITION. Arithmetic on the floating-point formats: exact values, one rounding, special values and flags (R99-R122). -/

namespace Sys2Proof.Machine

/-! ## Formats (R99, R101, R102) -/

/-- A format: exponent bits, fraction bits, bias, and which codes are special: 0 IEEE, 1 E4M3, 2 FP4. -/
structure FF where
  eb : Nat
  fb : Nat
  bias : Nat
  kind : Nat
  deriving DecidableEq, Repr

def f32 : FF := { eb := 8, fb := 23, bias := 127, kind := 0 }
def f16 : FF := { eb := 5, fb := 10, bias := 15, kind := 0 }
def bf16 : FF := { eb := 8, fb := 7, bias := 127, kind := 0 }
def e4m3 : FF := { eb := 4, fb := 3, bias := 7, kind := 1 }
def e5m2 : FF := { eb := 5, fb := 2, bias := 15, kind := 0 }
def e2m1 : FF := { eb := 2, fb := 1, bias := 1, kind := 2 }

def fTy : FTy → FF
  | .f32 => Machine.f32
  | .f16 => Machine.f16
  | .bf16 => Machine.bf16

def f8 : F8 → FF
  | .e4 => e4m3
  | .e5 => e5m2

def fNarrow : FNarrow → FF
  | .e4 => e4m3
  | .e5 => e5m2
  | .f4 => e2m1

/-- Bits of a code without its sign. -/
def FF.magBits (F : FF) : Nat := F.eb + F.fb

def FF.neg (F : FF) (x : Nat) : Bool := x.testBit F.magBits
def FF.mag (F : FF) (x : Nat) : Nat := x % 2 ^ F.magBits
def FF.exp (F : FF) (x : Nat) : Nat := F.mag x / 2 ^ F.fb
def FF.frac (F : FF) (x : Nat) : Nat := x % 2 ^ F.fb
def FF.signed (F : FF) (neg : Bool) (m : Nat) : Nat := (if neg then 2 ^ F.magBits else 0) + m

/-- The exponent of the smallest normal value. -/
def FF.emin (F : FF) : Int := 1 - F.bias

/-- The exponent of the largest finite value. -/
def FF.emax (F : FF) : Int := if F.kind = 0 then (2 ^ F.eb : Int) - 2 - F.bias else (2 ^ F.eb : Int) - 1 - F.bias

/-- The code of the largest finite value. -/
def FF.maxCode (F : FF) : Nat :=
  if F.kind = 0 then (2 ^ F.eb - 1) * 2 ^ F.fb - 1 else if F.kind = 1 then 0x7E else 0x7

def FF.infCode (F : FF) : Nat := (2 ^ F.eb - 1) * 2 ^ F.fb

def FF.isNan (F : FF) (x : Nat) : Bool :=
  match F.kind with
  | 0 => F.infCode < F.mag x
  | 1 => F.mag x == 0x7F
  | _ => false

def FF.isInf (F : FF) (x : Nat) : Bool := F.kind == 0 && F.mag x == F.infCode

/-- The quiet bit: the top fraction bit (R99). -/
def FF.quiet (F : FF) : Nat := 2 ^ (F.fb - 1)

def FF.isSnan (F : FF) (x : Nat) : Bool := F.kind == 0 && F.isNan x && !x.testBit (F.fb - 1)

/-- The default NaN (R99); for FP8 the NaN produced (R101). -/
def FF.defNan (F : FF) : Nat := if F.kind = 0 then F.infCode + (if F.fb = 2 then 3 else F.quiet) else 0x7F

/-- A NaN quieted (R109). -/
def FF.quieted (F : FF) (x : Nat) : Nat := x ||| F.quiet

def FF.isZero (F : FF) (x : Nat) : Bool := F.mag x == 0
def FF.isSub (F : FF) (x : Nat) : Bool := F.exp x == 0 && F.frac x != 0

/-- FTZ on a source: a subnormal reads as zero of its sign (R100). -/
def FF.flush (F : FF) (ftz : Bool) (x : Nat) : Nat := if ftz && F.isSub x then F.signed (F.neg x) 0 else x

/-! ## Exact values -/

/-- A finite value: its sign and m * 2^e. -/
structure Ex where
  neg : Bool
  m : Nat
  e : Int
  deriving DecidableEq, Repr

/-- The exact value of a finite code. -/
def FF.val (F : FF) (x : Nat) : Ex :=
  let k := F.exp x
  { neg := F.neg x, m := if k = 0 then F.frac x else F.frac x + 2 ^ F.fb, e := (if k = 0 then 1 else (k : Int)) - F.bias - F.fb }

def Ex.mul (a b : Ex) : Ex := { neg := a.neg != b.neg, m := a.m * b.m, e := a.e + b.e }

def Ex.negate (a : Ex) : Ex := { a with neg := !a.neg }

/-- The value as a multiple of 2^e0, for e0 at most its exponent. -/
def Ex.scaled (a : Ex) (e0 : Int) : Int :=
  let n : Int := (a.m * 2 ^ (a.e - e0).toNat : Nat)
  if a.neg then -n else n

/-- The exact sum. A zero sum of terms of one sign has that sign; otherwise +0, or −0 in RDN (R105). -/
def exSum (rm : Rm) (l : List Ex) : Ex :=
  let e0 := l.foldl (fun k a => if a.e < k then a.e else k) ((l.head?.map (·.e)).getD 0)
  let s := l.foldl (fun n a => n + a.scaled e0) (0 : Int)
  if s = 0 then { neg := if l.all (·.neg) then true else if l.all (!·.neg) then false else rm == .rdn, m := 0, e := 0 }
  else { neg := s < 0, m := s.natAbs, e := e0 }

/-! ## One rounding (R104-R106, R114-R116) -/

/-- Whether a magnitude with truncated part `sig`, remainder `rem` of `2^n`, is rounded up. -/
def roundUp (rm : Rm) (neg : Bool) (sig rem n : Nat) : Bool :=
  let half := 2 ^ (n - 1)
  match rm with
  | .rne => half < rem || (rem == half && sig % 2 == 1)
  | .rtz => false
  | .rdn => neg && rem != 0
  | .rup => !neg && rem != 0
  | .rmm => half ≤ rem
  | .stoch => false

/-- `m * 2^e` as a multiple of 2^q, rounded, with whether it is inexact; STOCH adds g<15:0> / 65536 before the floor (R116). -/
def toUlps (rm : Rm) (g : W32) (neg : Bool) (m : Nat) (e q : Int) : Nat × Bool :=
  if q ≤ e then (m * 2 ^ (e - q).toNat, false)
  else
    let n := (q - e).toNat
    let sig := m / 2 ^ n
    let rem := m % 2 ^ n
    if rm = .stoch then ((m * 65536 + (g.toNat % 65536) * 2 ^ n) / (65536 * 2 ^ n), rem != 0)
    else (if n = 0 then sig else if roundUp rm neg sig rem n then sig + 1 else sig, rem != 0)

/-- How a conversion answers overflow: R106, or the tables of R115. -/
inductive Sat where | ieee | sat | nosat deriving DecidableEq, Repr

/-- The code an overflow gives (R106, R115). -/
def FF.overflow (F : FF) (rm : Rm) (st : Sat) (neg : Bool) : Nat :=
  let toInf : Bool := match rm with
    | .rne => true
    | .rmm => true
    | .stoch => true
    | .rtz => false
    | .rdn => neg
    | .rup => !neg
  if st = .sat then F.signed neg F.maxCode
  else if toInf then F.signed neg (if F.kind = 0 then F.infCode else F.defNan)
  else F.signed neg F.maxCode

/-- Rounds an exact value into a format: its code and flags. `fz` flushes a subnormal result (R100). -/
def FF.round (F : FF) (rm : Rm) (g : W32) (st : Sat) (fz : Bool) (a : Ex) : Nat × BitVec 5 :=
  if a.m = 0 then (F.signed a.neg 0, 0)
  else
    let ex : Int := (Nat.log2 a.m : Int) + a.e
    let q : Int := (if ex < F.emin then F.emin else ex) - F.fb
    let (r0, inexact) := toUlps rm g a.neg a.m a.e q
    let (r, q) := if r0 = 2 ^ (F.fb + 1) then (2 ^ F.fb, q + 1) else (r0, q)
    let top := q + F.fb
    let past := F.emax < top || (F.kind == 1 && top == F.emax && 14 < r)
    if past then (F.overflow rm st a.neg, fOF ||| fNX)
    else
      let normal := 2 ^ F.fb ≤ r
      let code := if normal then (top + F.bias).toNat * 2 ^ F.fb + (r - 2 ^ F.fb) else r
      -- tiny after rounding with unbounded exponent (R107); under STOCH the delivered value decides (R116)
      let tiny : Bool :=
        if rm = .stoch then !normal
        else if F.emin ≤ ex then false
        else
          let (u, _) := toUlps rm g a.neg a.m a.e (ex - F.fb)
          !(u == 2 ^ (F.fb + 1) && ex + 1 == F.emin)
      if fz && !normal && r != 0 then (F.signed a.neg 0, fUF ||| fNX)
      else (F.signed a.neg code, flagIf inexact fNX ||| flagIf (inexact && tiny) fUF)

/-! ## Operations on one IEEE format (R105-R110, R160-R165) -/

/-- The first NaN among operands, quieted, and NV if one is signalling (R109). -/
def FF.nanOf (F : FF) (l : List Nat) : Option (Nat × BitVec 5) :=
  match l.find? F.isNan with
  | some x => some (F.quieted x, flagIf (l.any F.isSnan) fNV)
  | none => none

def FF.invalid (F : FF) : Nat × BitVec 5 := (F.defNan, fNV)

/-- FP8 and FP4 results saturate (R184); the other formats overflow by R106. -/
def FF.mode (F : FF) : Sat := if F.kind != 0 || F.fb = 2 then .sat else .ieee

/-- x + y (R160). -/
def FF.add (F : FF) (ftz : Bool) (rm : Rm) (x y : Nat) : Nat × BitVec 5 :=
  let x := F.flush ftz x
  let y := F.flush ftz y
  match F.nanOf [x, y] with
  | some r => r
  | none =>
    if F.isInf x then (if F.isInf y && F.neg x != F.neg y then F.invalid else (x, 0))
    else if F.isInf y then (y, 0)
    else F.round rm 0 F.mode ftz (exSum rm [F.val x, F.val y])

/-- x − y: a NaN y keeps its own sign (R160). -/
def FF.sub (F : FF) (ftz : Bool) (rm : Rm) (x y : Nat) : Nat × BitVec 5 :=
  F.add ftz rm x (if F.isNan y then y else F.signed (!F.neg y) (F.mag y))

def FF.mul (F : FF) (ftz : Bool) (rm : Rm) (x y : Nat) : Nat × BitVec 5 :=
  let x := F.flush ftz x
  let y := F.flush ftz y
  match F.nanOf [x, y] with
  | some r => r
  | none =>
    let neg := F.neg x != F.neg y
    if F.isInf x || F.isInf y then
      (if F.isZero x || F.isZero y then F.invalid else (F.signed neg F.infCode, 0))
    else F.round rm 0 F.mode ftz ((F.val x).mul (F.val y))

/-- x * y + z with one rounding. -/
def FF.fma (F : FF) (ftz : Bool) (rm : Rm) (x y z : Nat) : Nat × BitVec 5 :=
  let x := F.flush ftz x
  let y := F.flush ftz y
  let z := F.flush ftz z
  let bad := (F.isInf x && F.isZero y) || (F.isZero x && F.isInf y)
  match F.nanOf [x, y, z] with
  | some (r, f) => (r, f ||| flagIf bad fNV)
  | none =>
    let neg := F.neg x != F.neg y
    if bad then F.invalid
    else if F.isInf x || F.isInf y then
      (if F.isInf z && F.neg z != neg then F.invalid else (F.signed neg F.infCode, 0))
    else if F.isInf z then (z, 0)
    else F.round rm 0 F.mode ftz (exSum rm [(F.val x).mul (F.val y), F.val z])

/-- Order of two codes that are no NaN: the sign and magnitude as one number; both zeros are 0. -/
def FF.key (F : FF) (x : Nat) : Int := if F.neg x then -(F.mag x : Int) else F.mag x

/-- FMIN and FMAX (R110, R161). -/
def FF.minmax (F : FF) (ftz : Bool) (mx : Bool) (x y : Nat) : Nat × BitVec 5 :=
  let x := F.flush ftz x
  let y := F.flush ftz y
  let fl := flagIf (F.isSnan x || F.isSnan y) fNV
  if F.isNan x && F.isNan y then (F.quieted x, fl)
  else if F.isNan x then (y, fl)
  else if F.isNan y then (x, fl)
  else
    let less := F.key x < F.key y || (F.key x == F.key y && F.neg x && !F.neg y)
    (if less != mx then x else y, fl)

/-- FCMP (R163). -/
def FF.compare (F : FF) (ftz : Bool) (c : FCond) (x y : Nat) : Bool × BitVec 5 :=
  let x := F.flush ftz x
  let y := F.flush ftz y
  let un := F.isNan x || F.isNan y
  let sn := F.isSnan x || F.isSnan y
  let ord := match c with
    | .lt => true
    | .le => true
    | .gt => true
    | .ge => true
    | _ => false
  let b : Bool := match c with
    | .eq => !un && F.key x == F.key y
    | .ne => un || F.key x != F.key y
    | .lt => !un && F.key x < F.key y
    | .le => !un && F.key x ≤ F.key y
    | .gt => !un && F.key y < F.key x
    | .ge => !un && F.key y ≤ F.key x
    | .un => un
    | .ord => !un
  (b, flagIf (sn || (ord && un)) fNV)

/-- FCLASS (R164). -/
def FF.classify (F : FF) (x : Nat) : Nat :=
  let n := F.neg x
  if F.isNan x then (if F.isSnan x then 2 ^ 8 else 2 ^ 9)
  else if F.isInf x then (if n then 1 else 2 ^ 7)
  else if F.isZero x then (if n then 2 ^ 3 else 2 ^ 4)
  else if F.exp x = 0 then (if n then 2 ^ 2 else 2 ^ 5)
  else (if n then 2 ^ 1 else 2 ^ 6)

/-! ## Special functions (R112, R113, R166) -/

/-- The largest r below 2^k with r * r at most n. -/
def isqrt (n : Nat) : Nat → Nat → Nat
  | 0, r => r
  | k + 1, r => let r' := r + 2 ^ k; isqrt n k (if r' * r' ≤ n then r' else r)

/-- A quotient or root with a sticky bit below it. -/
def sticky (q : Nat) (exact : Bool) (e : Int) (neg : Bool) : Ex :=
  { neg := neg, m := 2 * q + (if exact then 0 else 1), e := e - 1 }

/-- 1 / a, enough bits for one rounding. -/
def exRcp (a : Ex) : Ex :=
  let k := Nat.log2 a.m + 64
  let q := 2 ^ k / a.m
  sticky q (q * a.m == 2 ^ k) (-(k : Int) - a.e) a.neg

/-- The square root of a positive value. -/
def exSqrt (a : Ex) : Ex :=
  let odd := a.e % 2 = 1
  let m := if odd then 2 * a.m else a.m
  let e := if odd then a.e - 1 else a.e
  let n := m * 2 ^ 80
  let r := isqrt n 64 0
  sticky r (r * r == n) (e / 2 - 40) false

/-- 1 / √a of a positive value. -/
def exRsq (a : Ex) : Ex :=
  let odd := a.e % 2 = 1
  let m := if odd then 2 * a.m else a.m
  let e := if odd then a.e - 1 else a.e
  let n := 2 ^ 140 / m
  let r := isqrt n 72 0
  sticky r (r * r * m == 2 ^ 140) (-(e / 2) - 70) false

/-! ### EXP2, LOG2, SIN and COS: the candidates within two units of the last place -/

/-- Working precision of the enclosures, in bits below the point. -/
abbrev fixP : Nat := 400

/-- Floor(2π * 2^400). -/
def fixTwoPi : Int :=
  0x6487ed5110b4611a62633145c06e0e68948127044533e63a0105df531d89cd9128a5043cc71a026ef7ca8cd9e69d218d98158

/-- Floor(ln 2 * 2^400). -/
def fixLn2 : Int :=
  0xb17217f7d1cf79abc9e3b39803f2f6af40f343267298b62d8a0d175b8baafa2be7b876206debac98559552fb4afa1b10ed2e

def fixMul (a b : Int) : Int := a * b / 2 ^ fixP

/-- Sum of a series: `next k t` is the term after t. -/
def series (next : Nat → Int → Int) : Nat → Nat → Int → Int → Int
  | 0, _, _, acc => acc
  | n + 1, k, t, acc => series next n (k + 1) (next k t) (acc + t)

/-- e^x for x in [0, 1). -/
def fixExp (x : Int) : Int := series (fun k t => fixMul t x / (k + 1)) 120 0 (2 ^ fixP) 0

/-- ln m for m in [1, 2). -/
def fixLn (m : Int) : Int :=
  let one : Int := 2 ^ fixP
  let z := (m - one) * 2 ^ fixP / (m + one)
  let z2 := fixMul z z
  let rec go : Nat → Nat → Int → Int → Int
    | 0, _, _, acc => acc
    | n + 1, k, t, acc => go n (k + 2) (fixMul t z2) (acc + t / k)
  2 * go 160 1 z 0

/-- sin (true) or cos of x in [0, 2π). -/
def fixTrig (sine : Bool) (x : Int) : Int :=
  let x2 := fixMul x x
  let rec go : Nat → Nat → Int → Int → Int
    | 0, _, _, acc => acc
    | n + 1, k, t, acc => go n (k + 2) (-(fixMul t x2) / ((k + 1) * (k + 2))) (acc + t)
  if sine then go 90 1 x 0 else go 90 0 (2 ^ fixP) 0

/-- The exact value as a fixed-point number; bits below the precision are dropped. -/
def Ex.fix (a : Ex) : Int :=
  let k := a.e + fixP
  let n : Int := if 0 ≤ k then (a.m * 2 ^ k.toNat : Nat) else (a.m / 2 ^ (-k).toNat : Nat)
  if a.neg then -n else n

/-- A value close to the exact one, as sign, magnitude and exponent. -/
def approx (op : Nat) (a : Ex) : Ex :=
  let x := a.fix
  match op with
  | 0 => -- EXP2
    let n := if x / 2 ^ fixP < -400 then -400 else x / 2 ^ fixP
    let f := x % 2 ^ fixP
    { neg := false, m := (fixExp (fixMul f fixLn2)).toNat, e := n - fixP }
  | 1 => -- LOG2
    let l := Nat.log2 a.m
    let m : Int := (a.m * 2 ^ (fixP - l) : Nat)
    let y := fixLn m * 2 ^ fixP / fixLn2 + (a.e + l) * 2 ^ fixP
    { neg := y < 0, m := y.natAbs, e := -fixP }
  | _ => -- SIN, COS
    -- of a small angle the exact value lies just below x, or just below 1, in magnitude: no code lies between (R107, R112)
    if a.m != 0 && (Nat.log2 a.m : Int) + a.e < -60 then
      if op = 2 then { neg := a.neg, m := a.m * 2 ^ 200 - 1, e := a.e - 200 } else { neg := false, m := 2 ^ 200 - 1, e := -200 }
    else
    let r := x.natAbs % fixTwoPi
    let y := fixTrig (op = 2) r
    let y := if op = 2 && a.neg then -y else y
    { neg := y < 0, m := y.natAbs, e := -fixP }

/-- The finite FP32 codes within two units of the last place of a value, in increasing magnitude. -/
def within2 (a : Ex) : List Nat :=
  if a.m = 0 then [0]
  else
    let ex : Int := (Nat.log2 a.m : Int) + a.e
    let q : Int := (if ex < -126 then -126 else ex) - 23
    let c0 := f32.mag (f32.round .rtz 0 .ieee false { a with neg := false }).1
    let codes := (List.range 10).filterMap fun i => if c0 + i < 5 then none else some (c0 + i - 5)
    let near (c : Nat) : Bool :=
      -- |v - a| at most two units 2^q
      let v := f32.val c
      let e0 := [a.e, q].foldl (fun k x => if x < k then x else k) v.e
      let d : Int := ((v.m * 2 ^ (v.e - e0).toNat : Nat) : Int) - ((a.m * 2 ^ (a.e - e0).toNat : Nat) : Int)
      d.natAbs ≤ 2 * 2 ^ (q - e0).toNat
    (codes.filter fun c => c < f32.infCode && near c).map (f32.signed a.neg)

/-- A result of EXP2, LOG2, SIN or COS that no table lists: one of the candidates, which one Config says (R112). UF is judged on the
exact value, rounded (R107); FTZ replaces a subnormal result (R100). -/
def transcend (op : Nat) (ftz : Bool) (x : Nat) : Nat × BitVec 5 :=
  let v := approx op (f32.val x)
  let cs := within2 v
  let c := cs.getD (Config.transcendental op (BitVec.ofNat 32 x) cs.length % cs.length) 0
  let fl := ((f32.round .rne 0 .ieee false v).2 &&& fUF) ||| fNX
  if ftz && f32.isSub c then (f32.signed (f32.neg c) 0, fUF ||| fNX) else (c, fl)

/-- The integer an FP32 code holds exactly, if any. -/
def intOf (x : Nat) : Option Int :=
  let a := f32.val x
  if 0 ≤ a.e then some (a.scaled 0)
  else
    let d := 2 ^ (-a.e).toNat
    if a.m % d = 0 then some (if a.neg then -((a.m / d : Nat) : Int) else ((a.m / d : Nat) : Int)) else none

/-- The seven special functions: 0 RCP, 1 RSQ, 2 SQRT, 3 EXP2, 4 LOG2, 5 SIN, 6 COS (R113). -/
def special (fn : Nat) (ftz : Bool) (x0 : Nat) : Nat × BitVec 5 :=
  let x := f32.flush ftz x0
  let one := 0x3F800000
  let neg := f32.neg x
  match f32.nanOf [x] with
  | some r => r
  | none =>
    let zero := f32.isZero x
    let inf := f32.isInf x
    let fin (v : Ex) := f32.round .rne 0 .ieee ftz v
    match fn with
    | 0 => if zero then (f32.signed neg f32.infCode, fDZ) else if inf then (f32.signed neg 0, 0) else fin (exRcp (f32.val x))
    | 1 =>
      if zero then (f32.signed neg f32.infCode, fDZ)
      else if neg then f32.invalid
      else if inf then (0, 0)
      else fin (exRsq (f32.val x))
    | 2 =>
      if zero then (x, 0) else if neg then f32.invalid else if inf then (x, 0) else fin (exSqrt (f32.val x))
    | 3 =>
      if zero then (one, 0)
      else if inf then (if neg then 0 else x, 0)
      else
        match intOf x with
        | some n =>
          if -149 ≤ n && n ≤ 127 then fin { neg := false, m := 1, e := n }
          else if 128 ≤ n then (f32.infCode, fOF ||| fNX)
          else transcend 0 ftz x
        | none => if !neg && 134 ≤ f32.exp x then (f32.infCode, fOF ||| fNX) else transcend 0 ftz x
    | 4 =>
      if zero then (f32.signed true f32.infCode, fDZ)
      else if neg then f32.invalid
      else if inf then (x, 0)
      else
        let a := f32.val x
        if a.m = 2 ^ Nat.log2 a.m then
          let n : Int := (Nat.log2 a.m : Int) + a.e
          fin { neg := n < 0, m := n.natAbs, e := 0 }
        else transcend 1 ftz x
    | 5 => if zero then (x, 0) else if inf then f32.invalid else transcend 2 ftz x
    | _ => if zero then (one, 0) else if inf then f32.invalid else transcend 3 ftz x

/-! ## Sums of products (R119-R122, R167) -/

/-- The value S of a group (R120). -/
inductive GroupSum where
  | nan
  | inf (neg : Bool)
  | fin (n : Int) (e : Int)
  deriving DecidableEq, Repr

/-- Products of one group: pairs of codes in the formats of a and b; the flag says whether an invalid product, infinities of
both signs or a signalling NaN came up. -/
def groupSum (A B : FF) (l : List (Nat × Nat)) : GroupSum × Bool :=
  let nan := l.any fun p => A.isNan p.1 || B.isNan p.2
  let snan := l.any fun p => A.isSnan p.1 || B.isSnan p.2
  let bad := l.any fun p => (A.isInf p.1 && B.isZero p.2) || (A.isZero p.1 && B.isInf p.2)
  let infs := l.filterMap fun p =>
    if !(A.isNan p.1 || B.isNan p.2) && (A.isInf p.1 || B.isInf p.2) && !(A.isZero p.1 || B.isZero p.2) then
      some (A.neg p.1 != B.neg p.2) else none
  let both := infs.any id && infs.any (!·)
  let inv := snan || bad || both
  if nan || bad || both then (.nan, inv)
  else match infs with
    | n :: _ => (.inf n, inv)
    | [] =>
      let ts := l.map fun p => (A.val p.1).mul (B.val p.2)
      let e0 := ts.foldl (fun k a => if a.e < k then a.e else k) 0
      (.fin (ts.foldl (fun n a => n + a.scaled e0) 0) e0, inv)

/-- acc + S with one rounding: R109 with acc first, and a zero S is +0. -/
def accAdd (rm : Rm) (fz : Bool) (acc : Nat) (s : GroupSum) : Nat × BitVec 5 :=
  if f32.isNan acc then (f32.quieted acc, flagIf (f32.isSnan acc) fNV)
  else
    match s with
    | .nan => (f32.defNan, 0)
    | .inf n => if f32.isInf acc && f32.neg acc != n then f32.invalid else (f32.signed n f32.infCode, 0)
    | .fin n e =>
      if f32.isInf acc then (acc, 0)
      else f32.round rm 0 .ieee fz (exSum rm [f32.val acc, { neg := n < 0, m := n.natAbs, e := e }])

/-- DOT2 and DOT4 (R122, R167). -/
def dot (A B : FF) (ftz : Bool) (rm : Rm) (l : List (Nat × Nat)) (c : Nat) : Nat × BitVec 5 :=
  let (s, inv) := groupSum A B l
  let (r, f) := accAdd rm ftz (f32.flush ftz c) s
  (r, f ||| flagIf inv fNV)

/-! ## Conversions (R111, R114-R118, R168-R172) -/

/-- The fraction of a NaN placed in a target's fraction from the top, with the quiet bit (R111). -/
def nanTo (A B : FF) (x : Nat) : Nat :=
  let fr := if A.fb ≤ B.fb then A.frac x * 2 ^ (B.fb - A.fb) else A.frac x / 2 ^ (A.fb - B.fb)
  B.signed (A.neg x) (B.infCode + (fr ||| B.quiet))

/-- Converts between IEEE formats; a target of FP32 is exact. -/
def cvtFloat (A B : FF) (ftz : Bool) (rm : Rm) (g : W32) (x0 : Nat) : Nat × BitVec 5 :=
  let x := A.flush ftz x0
  if A.isNan x then (nanTo A B x, flagIf (A.isSnan x) fNV)
  else if A.isInf x then (B.signed (A.neg x) B.infCode, 0)
  else B.round rm g .ieee (ftz && B.fb != 2) (A.val x)

/-- Converts an exact or special value to a narrow format (R114, R115). -/
def toNarrow (A B : FF) (rm : Rm) (g : W32) (nosat : Bool) (x : Nat) (scale : Int) : Nat × BitVec 5 :=
  let neg := A.neg x
  if A.isNan x then
    (if B.kind = 2 then 0 else B.signed neg (if B.kind = 1 then 0x7F else 0x7F), flagIf (A.isSnan x || B.kind == 2) fNV)
  else if A.isInf x then
    match B.kind with
    | 0 => if nosat then (B.signed neg B.infCode, 0) else (B.signed neg B.maxCode, fNX)
    | 1 => if nosat then (B.signed neg 0x7F, fNV) else (B.signed neg B.maxCode, fNV)
    | _ => (B.signed neg B.maxCode, fNV)
  else
    let v := A.val x
    B.round rm g (if nosat then .nosat else .sat) false { v with e := v.e + scale }

/-- Converts a narrow code to FP32, exactly (R111). -/
def widen (A : FF) (x : Nat) : Nat × BitVec 5 :=
  if A.isNan x then (nanTo A f32 x, flagIf (A.isSnan x) fNV)
  else if A.isInf x then (f32.signed (A.neg x) f32.infCode, 0)
  else f32.round .rne 0 .ieee false (A.val x)

/-- CVTW's widening with a scale (R172). -/
def widenScaled (A : FF) (ftz : Bool) (rm : Rm) (x e : Nat) : Nat × BitVec 5 :=
  if A.isNan x then widen A x
  else if e = 255 then (f32.defNan, fNV)
  else if A.isInf x then widen A x
  else
    let v := A.val x
    f32.round rm 0 .ieee ftz { v with e := v.e + ((e : Int) - 127) }

/-- CVTW's narrowing with a scale (R172). -/
def narrowScaled (B : FF) (ftz : Bool) (rm : Rm) (g : W32) (nosat : Bool) (x0 e : Nat) : Nat × BitVec 5 :=
  let x := f32.flush ftz x0
  if e = 255 then (if B.kind = 2 then 0 else B.signed (f32.neg x) 0x7F, fNV)
  else toNarrow f32 B rm g nosat x (127 - (e : Int))

/-- The range of an integer type. -/
def intRange : ITy → Int × Int
  | .i32 => (-(2 ^ 31), 2 ^ 31 - 1)
  | .ui32 => (0, 2 ^ 32 - 1)
  | .i64 => (-(2 ^ 63), 2 ^ 63 - 1)
  | .ui64 => (0, 2 ^ 64 - 1)

def intWidth : ITy → Nat
  | .i32 => 32
  | .ui32 => 32
  | _ => 64

/-- CVTFI (R118, R169). -/
def floatToInt (A : FF) (ftz : Bool) (rm : Rm) (t : ITy) (x0 : Nat) : Int × BitVec 5 :=
  let x := A.flush ftz x0
  let (lo, hi) := intRange t
  if A.isNan x then (0, fNV)
  else if A.isInf x then (if A.neg x then lo else hi, fNV)
  else
    let a := A.val x
    let (n, inexact) := toUlps rm 0 a.neg a.m a.e 0
    let v : Int := if a.neg then -(n : Int) else n
    if hi < v then (hi, fNV) else if v < lo then (lo, fNV) else (v, flagIf inexact fNX)

/-- CVTIF (R118, R169). -/
def intToFloat (B : FF) (rm : Rm) (v : Int) : Nat × BitVec 5 :=
  if v = 0 then (0, 0) else B.round rm 0 .ieee false { neg := v < 0, m := v.natAbs, e := 0 }

end Sys2Proof.Machine
end

