-- ==== Sys2Proof/Machine/Perform.lean ====
section
/-! DEFINITION. When an access in flight performs, what it reads and writes, and its landing (R51, R78, R79, R244-R247, R253,
R256-R266, R272-R280, R448, R478, R479). -/

namespace Sys2Proof.Machine

/-! ## Notices (R232, R380, R381) -/

/-- An asynchronous cause of a thread: code, XVAL and the slice it names. -/
def State.postAsync (s : State) (t code : Nat) (val : W64) (sl : Nat) : State :=
  s.mapThread t fun th => { th with async := th.async ++ [(code, val, sl)] }

/-- Warp 0, or the XS of thread 0, of a block. -/
def Block.first (b : Block) : Nat := let t := b.thr.headD 0; if b.tile then t + 1 else t

/-- The resident block of a job with the lowest ordinal. -/
def State.firstBlock (s : State) (card : Nat) : Option Block :=
  (s.blocksOf card).foldl (fun (x : Option Block) e =>
    if e.2.phase = .resident || e.2.phase = .saving then
      match x with
      | some b => if e.2.ord < b.ord then some e.2 else x
      | none => some e.2
    else x) none

/-- A NOTIFY of a job: delivered now or to the first block placed or restored (R381). -/
def State.notify (s : State) (card code : Nat) : State :=
  match s.firstBlock card with
  | some b => s.postAsync b.first code (BitVec.ofNat 64 card) 0
  | none => s.mapJob card fun j => { j with notices := j.notices ++ [code] }

/-- A job exception's Silt entry (R380). -/
def State.logException (s : State) (card code : Nat) : State :=
  match s.job? card with
  | some j => s.log 0x0432 0xA000 j.ident (BitVec.ofNat 64 card) (BitVec.ofNat 64 code)
  | none => s

/-- A job's request is held at a weir (R479): the first hold of a window may raise BUDGET_BANDWIDTH. -/
def State.heldAtWeir (s : State) (card : Nat) : State :=
  match s.job? card with
  | none => s
  | some j =>
    let s := s.mapJob card fun j => { j with bwheld := true }
    if j.bwx && !j.bwWindow then
      ((s.mapJob card fun j => { j with bwWindow := true, overran := j.overran }).logException card 0x32).notify card 0x32
    else s

/-! ## Order (R256-R264, R402) -/

def Pend.mem_ (p : Pend) : Bool := p.op.reads || p.op.writes
def Pend.device (p : Pend) : Bool := p.ps.any fun q => q.pol == 4

/-- Two accesses touch a common byte. -/
def Pend.touches (e p : Pend) : Bool := e.ps.any fun a => p.ps.any fun b => a.at_.any b.at_.contains

/-- Two accesses touch a common line. -/
def Pend.nearBy (e p : Pend) : Bool :=
  e.ps.any fun a => p.ps.any fun b => (a.at_.head?.bind Place.line) == (b.at_.head?.bind Place.line)

/-- The access is a release: by its own field, or as a member's first store after a CFENCE.rel (R262, R264). -/
def Pend.releases (p : Pend) : Bool := p.rel || p.also.any (·.2 != 0)

/-- The access is a release of member m for class c. -/
def Pend.relFor (p : Pend) (m : Nat) (c : BitVec 4) : Bool :=
  (p.rel && p.oc == c) || p.also.any fun e => e.1 == m && e.2.getLsbD c.toNat

/-- Whether the pend e, earlier in the order of member m, holds back p. -/
def blocksPend (m : Nat) (e p : Pend) : Bool :=
  match e.op with
  | .result => false
  | .xadd _ => false
  | .pref _ => false
  | .flush => p.op.isInval
  | .inval _ _ _ _ => true
  | .commit => p.op.writes || p.op == .commit
  | .fence k m =>
    (p.mem_ || (match p.op with | .cctl _ _ => true | _ => false)) && m.getLsbD p.oc.toNat && (k != .rel || p.op.writes)
  | .cctl _ _ => p.op.isInval || (p.mem_ && (p.oc == 0 || e.nearBy p)) || (match p.op with
      -- it counts as an access of class 0 towards what follows
      | .fence k mask => mask.getLsbD 0 && k != .acq
      | _ => false)
  | _ =>
    match p.op with
    | .result => false
    | .xadd _ => false
    | .pref _ => false
    | .flush => false
    | .inval _ _ _ _ => true
    | .commit => e.op.writes
    | .fence k m => m.getLsbD e.oc.toNat && (k != .acq || e.op.reads)
    | .cctl _ _ => e.oc == 0 || e.nearBy p
    | _ =>
      e.device || p.device || e.touches p || (p.op.writes && e.op.reads) || p.relFor m e.oc ||
      (e.oc == p.oc && (e.acq || (e.op.reads && p.op.reads) || (e.op.writes && p.op.writes)))

/-- Nothing that the manual orders before pend p of thread t is still in flight. -/
def State.mayPerform (s : State) (t : Nat) (p : Pend) : Bool :=
  let ms := if p.mem.contains t then p.mem else t :: p.mem
  !ms.any fun m => (s.pendsOf m).any fun e => e.at_ < p.at_ && !e.done && blocksPend m e p

/-! ## Points of performance (R256) -/

/-- The cores of the members that make an access. -/
def Pend.cores (p : Pend) (t : Nat) : List Nat := ((t :: p.mem).map coreOf).eraseDups

/-- Device or system scope. -/
def Pend.wide (p : Pend) : Bool := p.ms == .device || p.ms == .system

/-- The access performs at the home slice and not at an L1: its scope, or members on several tile cores, ask for it. -/
def Pend.atHome (p : Pend) (t : Nat) : Bool := p.wide || (isTile t && p.ms == .block) || 1 < (p.cores t).length

/-- The same of one line: a page of POL 3 is cached nowhere (R402). -/
def Pend.homeFor (p : Pend) (t pol : Nat) : Bool := p.atHome t || pol == 4

/-- Key of the acquire point of class c that counts for loads of scope m alone. -/
def narrowKey (m : MScope) (c : Nat) : Nat := 16 * (scopeRank m + 1) + c

/-- The latest acquire point of a class among the members that make an access (R257, R258, R262). -/
def State.acqOf (s : State) (t : Nat) (p : Pend) : Nat :=
  (t :: p.mem).foldl (fun n m => match s.thread? m with
    | some th => Nat.max n (Nat.max (th.acq.get 0 p.oc.toNat) (th.acq.get 0 (narrowKey p.ms p.oc.toNat)))
    | none => n) 0

/-- Whether a narrow load whose latest acquire point is given may use the copy in L1 of these bytes (R257). -/
def State.l1Usable (s : State) (core ln acq : Nat) (ps : List Place) : Bool :=
  match s.l1.get none (l1Key core ln) with
  | none => false
  | some x => acq ≤ x.fill || ps.all fun q => x.dirty.getLsbD q.inLine

/-- Lines in memory or carved Mere that a pend's pieces touch, with their policy. -/
def Pend.lines (p : Pend) : List (Nat × Nat) :=
  (p.ps.filterMap fun q => (q.at_.head?.bind Place.line).map fun ln => (ln, q.pol)).eraseDups

/-- What preparing an access comes to. -/
inductive Prep where
  | ready (s : State)
  /-- held at a weir (R478) -/
  | held (s : State)
  | err (s : State) (m : Meet) (pa : Nat)

/-- Passes the weir for a line that the Mere does not hold. One that has no credit waits for the next window; one that only stands behind
others may ask again before it. A slice pair that stands still lets nothing pass (R478, R488). -/
def State.meter (s : State) (t : Nat) (id : Nat) (ln : Nat) : State × Bool :=
  if s.lineHalted ln then (s, false)
  else if 0x100000000000 ≤ ln || (s.findWay (ln * 128)).isSome then (s.leaveWeir (.pend t id), true)
  else
    match s.thread? t with
    | none => (s, true)
    | some th =>
      if th.pend.any (fun q => q.id == id && q.got.contains ln) then (s, true)
      else
        let card := (s.block? th.block).map (·.card)
        let before := s.weirQ
        match s.weirPass card (.pend t id) ln with
        | (s, true) =>
          (s.mapThread t fun th => { th with pend := th.pend.map fun q => if q.id = id then { q with got := ln :: q.got } else q }, true)
        | (s, false) =>
          let short := s.weirCredit card ln < 2
          let s := s.mapThread t fun th => { th with pend := th.pend.map fun q => if q.id = id then { q with weir := short } else q }
          let s := if before.any (fun e => e.2 == .pend t id) then s else s.eventOf t 0x09 1
          (match card with | some c => s.heldAtWeir c | none => s, false)

/-- The line can be held: its carved way has not been taken back (R289). -/
def State.lineStands (s : State) (ln : Nat) : Bool := ln < 0x100000000000 || s.stillCarved ((ln - 0x100000000000) * 128)

/-- Gets a line ready for an access of thread t: own dirty bytes go down before an access at home; a narrow access without a
usable copy fills one, unless its policy allocates nothing (R237). The contributions of a RED have passed their weirs before. -/
def State.prepLine (s : State) (t : Nat) (th : Thread) (p : Pend) (ln pol : Nat) : Prep :=
  let core := coreOf t
  let places := p.ps.flatMap fun q => q.at_.filter fun a => a.line == some ln
  let meter (s : State) : State × Bool := match p.op with
    | .atom _ false => (s, true)
    | _ => s.meter t p.id ln
  if p.homeFor t pol || (2 ≤ pol && p.op.writes) then
    let s := (p.cores t).foldl (fun s u => s.l1Down u ln) s
    match meter s with
    | (s, false) => .held s
    | (s, true) =>
      if !p.op.reads then .ready s
      else
        -- a load's policy may fill L1 for later loads at narrower scope (R237, R257)
        let fills := (match p.op with | .atom _ _ => false | _ => true) && pol != 2 && pol != 4
        match s.readHome (if fills then linePlaces ln else places) th.ident (allocates pol) with
        | (s, _, .data) => .ready (if fills && s.lineStands ln then s.l1Fill core ln th.ident pol else s)
        | (s, _, m) => .err s m (ln * 128)
  else if !s.lineStands ln || s.l1Usable core ln (s.acqOf t p) places then .ready s
  else
    match meter s with
    | (s, false) => .held s
    | (s, true) =>
      match s.readHome (if pol = 2 then places else linePlaces ln) th.ident (allocates pol) with
      | (s, _, .data) => .ready (if pol = 2 then s else s.l1Fill core ln th.ident pol)
      | (s, _, m) => if p.op.reads then .err s m (ln * 128) else .ready s

def State.prepLines (s : State) (t : Nat) (th : Thread) (p : Pend) : List (Nat × Nat) → Prep
  | [] => .ready s
  | (ln, pol) :: l =>
    match s.prepLine t th p ln pol with
    | .ready s => s.prepLines t th p l
    | r => r

/-! ## Bytes -/

/-- A byte as the access reads it, once its line is ready: the newest buffered copy, the L1 copy of a narrow access, the home. -/
def State.peek (s : State) (t : Nat) (th : Thread) (p : Pend) (pol : Nat) (pl : Place) : Byte :=
  let stored : Byte :=
    match pl.line with
    | none => s.homeByte pl
    | some ln =>
      if p.homeFor t pol then s.homeByte pl
      else match s.l1.get none (l1Key (coreOf t) ln) with
        | some x => if s.acqOf t p ≤ x.fill || x.dirty.getLsbD pl.inLine then x.bytes.get 0 pl.inLine else s.homeByte pl
        | none => s.homeByte pl
  -- a read-modify-write at device or system scope acts on the home, whatever the buffer came to hold after it (R273, R279)
  let away := match p.op with | .atom _ _ => p.wide | _ => false
  match pl.line, s.block? th.block with
  | some _, some b => if b.cont && !away then (bufByte b.sbuf pl).getD stored else stored
  | _, _ => stored

/-- Units whose publications a store at a place of storage may meet. -/
def pubUnits : Place → List Nat
  | .core u _ => [u]
  | .group g _ => (List.range 4).map fun m => 64 + 4 * g + m
  | _ => []

/-- A store by an instruction of block b is forwarded by its publications (R448). -/
def State.forward (s : State) (b : Nat) (cls : BitVec 4) : List (Place × Byte) → State
  | [] => s
  | (p, x) :: l =>
    let o := match p with | .core _ o => o | .group _ o => o | _ => 0
    ((pubUnits p).foldl (fun s u => s.publish u b o x cls) s).forward b cls l

/-- An access of a contained block performs on its store buffer: its stores but for a release at device or system scope, which is a commit
event itself, and its narrow read-modify-writes (R253, R254, R273). -/
def State.buffered (s : State) (th : Thread) (p : Pend) : Bool :=
  (match s.block? th.block with | some b => b.cont | none => false) &&
  (match p.op with
   | .store => !(p.releases && p.wide)
   | .tstore => !(p.releases && p.wide)
   | _ => !p.wide)

/-- Writes bytes of one piece at the point where the access performs. A narrow store whose line could not be filled goes to the home. -/
def State.poke (s : State) (t : Nat) (th : Thread) (p : Pend) (q : Piece) (ws : List (Place × Byte)) : State :=
  match ws with
  | [] => s
  | (.dev o, _) :: _ => (s.clearResv (Place.dev o).resvLine).writeReg (.vi th.vi) o ws.length (BitVec.ofNat 64 (ofBytes (ws.map (·.2))))
  | (.peer _, _) :: _ => s.setHomes ws
  | (pl, _) :: _ =>
    match pl.line with
    | none => (s.writeRun th.ident true (ws.length + 1) ws).forward th.block p.oc ws
    | some ln =>
      if s.buffered th p then s.bufStore th.block ws p.ms q.pol q.va
      else if p.homeFor t q.pol || 2 ≤ q.pol || (s.l1.get none (l1Key (coreOf t) ln)).isNone then
        s.storeHome (p.cores t) ws th.ident (allocates q.pol)
      else (s.clearResv (some ln)).l1Write (coreOf t) ln ws th.ident true

/-! ## Read-modify-write (R272) -/

/-- The new value of an operation on n bytes and whether it is stored. -/
def atomNew (op : AOp) (w : Nat) (old a b : W64) : W64 × Bool :=
  let lo (x : Nat) : W64 := BitVec.ofNat 64 (x % 2 ^ w)
  let o := old.toNat % 2 ^ w
  let x := a.toNat % 2 ^ w
  let sg (n : Nat) : Int := if n < 2 ^ (w - 1) then n else (n : Int) - 2 ^ w
  match op with
  | .add => (lo (o + x), true)
  | .and => (old &&& a, true)
  | .or => (old ||| a, true)
  | .xor => (old ^^^ a, true)
  | .smin => (lo (if sg x < sg o then x else o), true)
  | .smax => (lo (if sg o < sg x then x else o), true)
  | .umin => (lo (if x < o then x else o), true)
  | .umax => (lo (if o < x then x else o), true)
  | .xchg => (lo x, true)
  | .cas => (lo b.toNat, o == x)
  | .incw => (lo (if x ≤ o then 0 else o + 1), true)
  | .bfadd => (lo (o + x), o + x ≤ b.toNat % 2 ^ w)
  | .fadd => (lo (f32.add false .rne o x).1, true)

/-! ## Reading, writing and modifying (R244-R246, R250, R272-R275) -/

/-- Reads one piece: a register of the configuration space is read by its interface. -/
def State.readPiece (s : State) (t : Nat) (th : Thread) (p : Pend) (q : Piece) : State × Nat :=
  match q.at_ with
  | .dev o :: _ => let (s, x) := s.readReg (.vi th.vi) o q.at_.length; (s, x.toNat)
  | ps => (s, ofBytes (ps.map (s.peek t th p q.pol)))

/-- Reads every piece: lane and value. -/
def State.readPieces (s : State) (t : Nat) (th : Thread) (p : Pend) : List Piece → State × List (Nat × Nat)
  | [] => (s, [])
  | q :: l =>
    let (s, x) := s.readPiece t th p q
    let (s, xs) := s.readPieces t th p l
    (s, (q.lane, x) :: xs)

/-- Stores every piece, lanes in increasing order, so that the highest lane's bytes stay (R246). -/
def State.writePieces (s : State) (t : Nat) (th : Thread) (p : Pend) : List Piece → State
  | [] => s
  | q :: l => (s.poke t th p q (q.at_.zip q.data)).writePieces t th p l

/-- One lane's read-modify-write: its old value and whether it stored. -/
def State.atomPiece (s : State) (t : Nat) (th : Thread) (p : Pend) (op : AOp) (q : Piece) : State × Nat × Bool :=
  let n := q.at_.length
  let (s, old) := s.readPiece t th p q
  let a := BitVec.ofNat 64 (ofBytes (q.data.take n))
  let b := BitVec.ofNat 64 (ofBytes (q.data.drop n))
  let (new, ok) := atomNew op (8 * n) (BitVec.ofNat 64 old) a b
  (if ok then s.poke t th p q (q.at_.zip (toBytes new.toNat n)) else s, old, ok)

def State.atomPieces (s : State) (t : Nat) (th : Thread) (p : Pend) (op : AOp) : List Piece → State × List (Nat × Nat × Bool)
  | [] => (s, [])
  | q :: l =>
    let (s, old, ok) := s.atomPiece t th p op q
    let (s, xs) := s.atomPieces t th p op l
    (s, (q.lane, old, ok) :: xs)

/-! ## Results (R130, R244) -/

/-- A value of n bytes as a register of `w` bits takes it. -/
def extend (sx : Bool) (n w : Nat) (x : Nat) : Nat :=
  if sx && x.testBit (8 * n - 1) then x + (2 ^ w - 2 ^ (8 * n)) else x

/-- Fills the destinations of a load: `val` of each write numbers the part of the value that it takes. -/
def fillWrs (one sx : Bool) (n : Nat) (vals : List (Nat × Nat)) (ws : List Wr) : List Wr :=
  let at_ (m l : Nat) : Nat := if one then (vals.head?.map (·.2)).getD 0 else ((vals.find? (·.1 == 32 * m + l)).map (·.2)).getD 0
  ws.map fun w =>
    match w.loc with
    | .v m _ => { w with lanes := (lanesOf w.mask).map fun l => (l, BitVec.ofNat 32 (extend sx n 32 (at_ m l) / 2 ^ (32 * w.val.toNat))) }
    | .p m _ => { w with val := ((lanesOf w.mask).foldl (fun (x : W32) l => if at_ m l != 0 then x ||| lane1 l else x) 0).setWidth 64 }
    | _ => { w with val := BitVec.ofNat 64 (extend sx n 64 ((vals.head?.map (·.2)).getD 0) / 2 ^ (64 * w.val.toNat)) }

/-- Puts bits in the predicate results. -/
def fillPreds (f : Nat → Nat → Bool) (ws : List Wr) : List Wr :=
  ws.map fun w =>
    match w.loc with
    | .p m _ => { w with val := ((lanesOf w.mask).foldl (fun (x : W32) l => if f m l then x ||| lane1 l else x) 0).setWidth 64 }
    | _ => w

/-- What performing an access gives: the state and the pend with its results, and whether its paths are demoted (R51). -/
inductive Perf where
  | ok (s : State) (p : Pend) (fail : Bool)
  | held (s : State)
  | err (s : State) (m : Meet) (pa : Nat)

/-- Keeps the later of two acquire points of each class named. -/
def mergeAcq (cls : Nat → Bool) (a b : Tbl Nat) : Tbl Nat :=
  b.foldl (fun q e => if cls (e.1 % 16) && q.get 0 e.1 < e.2 then Tbl.set 0 q e.1 e.2 else q) a

/-- Thread m takes over what the warps of its core have acquired in some classes: through the L1 that they share it may have read what they
released after their acquires (R262, R266). -/
def State.takeOver (s : State) (m : Nat) (cls : Nat → Bool) : State :=
  let seen := s.threads.foldl (fun q e => match e.2 with
    | some th => if coreOf e.1 == coreOf m then mergeAcq cls q th.acq else q
    | none => q) []
  s.mapThread m fun th => { th with acq := mergeAcq cls th.acq seen }

/-- The acquire point of an access that acquires (R257, R262): of its class at device scope; at block or core scope for loads narrower than it,
with what the other warps of the core have acquired. -/
def State.acquirePoint (s : State) (t : Nat) (p : Pend) : State :=
  let c := p.oc.toNat
  if !p.acq || p.ms == .warp then s
  else if p.wide || (isTile t && p.ms == .block) then
    (t :: p.mem).foldl (fun s m => s.mapThread m fun th => { th with acq := Tbl.set 0 th.acq c s.clock }) s
  else
    (t :: p.mem).foldl (fun s m => (s.takeOver m (· == c)).mapThread m fun th =>
      { th with acq := ([MScope.warp, .block].filter fun n => scopeRank n < scopeRank p.ms).foldl (fun q n => Tbl.set 0 q (narrowKey n c) s.clock) th.acq }) s

/-- The release that an access makes before it performs (R254, R262): earlier stores reach the home slice, and a contained block's
buffer drains. -/
def State.releasePoint (s : State) (t : Nat) (th : Thread) (p : Pend) : State :=
  let atomic := match p.op with | .atom _ _ => true | .reserve => true | .cond _ => true | _ => false
  let away := (p.op == .store || p.op == .tstore) && p.ps.any fun q => match q.at_.head? with
    | some (.peer _) => true
    | some (.core _ _) => p.remote
    | some (.group _ _) => p.remote
    | _ => false
  let s := if (p.wide && (p.releases || atomic)) || away then s.drain th.block else s
  -- only the members that it is a release of
  let cs := if p.rel then p.cores t else (p.also.map fun e => coreOf e.1).eraseDups
  if p.releases && p.atHome t then cs.foldl State.l1Flush s else s

/-- The lines that some places cover whole. -/
def wholeOf (ps : List Place) : List Nat :=
  ((ps.filterMap Place.line).eraseDups).filter fun ln => 128 ≤ ((ps.filter fun p => p.line == some ln).map Place.inLine).eraseDups.length

/-- A tile store of whole lines is one access: it clears their poison where it performs at the home, else once the L1 or the store buffer that
holds them writes them down (R187, R295). -/
def State.wholeLines (s : State) (t : Nat) (th : Thread) (p : Pend) : State :=
  let mark (ln : Nat) (e : BufEntry) : BufEntry := if e.line.line == (some ln) && e.mask == BitVec.allOnes 128 then { e with whole := true } else e
  (wholeOf (p.ps.flatMap (·.at_))).foldl (fun s ln =>
    if s.buffered th p then s.mapBlock th.block fun b => { b with sbuf := b.sbuf.map (mark ln) }
    else match s.l1.get none (l1Key (coreOf t) ln) with
      | some x => if x.dirty = 0 then { s with poison := s.poison.set false ln false }
          else { s with l1 := s.l1.insert (l1Key (coreOf t) ln) (some { x with whole := true }) }
      | none => { s with poison := s.poison.set false ln false }) s

/-- The scratchpad word with an error that an access reads, or replaces in part (R292). -/
def State.sramMeet (s : State) (p : Pend) : Option Place :=
  let ps := p.ps.flatMap (·.at_)
  if p.op.reads then s.sramRead ps else if p.op.writes then s.sramWrite ps else none

/-- Performs a memory access. -/
def State.perform (s : State) (t : Nat) (th : Thread) (p : Pend) : Perf :=
  let s := s.releasePoint t th p
  match s.prepLines t th p p.lines with
  | .held s => .held s
  | .err s m pa => .err s m pa
  | .ready s =>
    match s.sramMeet p with
    | some pl => .err s (.sram pl) 0
    | none =>
    let s := if p.op.writes then s.sramClear (p.ps.flatMap (·.at_)) else s
    match p.op with
    | .load sx poll =>
      let (s, vs) := s.readPieces t th p p.ps
      let none_ := poll && vs.all (·.2 == 0)
      .ok (s.acquirePoint t p) { p with wr := fillWrs p.one sx p.sz vs p.wr, got := if p.port.isSome then vs.map (·.2) else p.got } none_
    | .reserve =>
      let (s, vs) := s.readPieces t th p p.ps
      let s := p.ps.foldl (fun s q => s.mapThread (q.lane / 32) fun x =>
        { x with resv := q.at_.head?.map fun a => { place := a, sz := p.sz } }) s
      .ok (s.acquirePoint t p) { p with wr := fillWrs p.one false p.sz vs p.wr } false
    | .store => .ok (s.writePieces t th p p.ps) p false
    | .tstore => .ok (((s.writePieces t th p p.ps).wholeLines t th p).acquirePoint t p) p false
    | .tload =>
      -- a piece's lane is its first byte in the tile register
      let (s, vs) := s.readPieces t th p p.ps
      let bytes := (p.ps.zip vs).foldl (fun (b : Tbl Byte) e =>
        ((toBytes e.2.2 e.1.at_.length).zip (List.range e.1.at_.length)).foldl (fun b x => Tbl.insert b (e.1.lane + x.2) x.1) b) []
      .ok (s.acquirePoint t p) { p with wr := p.wr.map fun w => { w with bytes := bytes } } false
    | .atom op _ =>
      let (s, rs) := s.atomPieces t th p op p.ps
      let ok (m l : Nat) : Bool := if p.one then rs.any (·.2.2) else rs.any fun r => r.1 == 32 * m + l && r.2.2
      .ok (s.acquirePoint t p) { p with wr := fillPreds ok (fillWrs p.one false p.sz (rs.map fun r => (r.1, r.2.1)) p.wr) }
        (op == .cas && rs.all fun r => !r.2.2)
    | .cond owner =>
      let held := match s.thread? owner with
        | some x => match x.resv with
          | some r => p.ps.any fun q => (q.at_.head?.bind Place.resvLine) == r.place.resvLine
          | none => false
        | none => false
      let s := if held then s.writePieces t th p p.ps else s
      let s := s.mapThread owner fun x => { x with resv := none }
      .ok s { p with wr := fillPreds (fun m l => held && p.ps.any fun q => q.lane == 32 * m + l) p.wr } (!held)
    | _ => .ok s p false

/-! ## Reductions (R277-R280) -/

/-- The earlier accesses of its class have performed for a `.rel` contribution, those of every member that arrived with its RED; on a page of
POL 3 the accesses of all classes (R258, R280, R402). -/
def State.redFollows (s : State) (t : Nat) (e : RedEntry) : Bool :=
  !(e.rel || e.pol == 4) || (t :: e.mem).eraseDups.all fun m =>
    !(s.pendsOf m).any fun p => p.mem_ && !p.done && (e.pol == 4 || p.oc == e.oc) && p.at_ < e.at_

/-- That of all the contributions of a thread. -/
def State.redReleased (s : State) (t : Nat) : Bool :=
  match s.thread? t with
  | none => true
  | some th => th.red.all (s.redFollows t)

/-- That of those entered before a clock. -/
def State.redReleasedBy (s : State) (n t : Nat) : Bool :=
  match s.thread? t with
  | none => true
  | some th => (th.red.filter fun e => e.at_ < n).all (s.redFollows t)

/-- Every line that the round of a thread asks of LPDDR6 passes its weir first (R478). -/
def State.redMeter (s : State) (t : Nat) : State × Bool :=
  match s.thread? t with
  | none => (s, true)
  | some th =>
    let card := (s.block? th.block).map (·.card)
    let narrow (e : RedEntry) (ln : Nat) : Bool := e.ms != .device && e.ms != .system && (s.l1.get none (l1Key (coreOf t) ln)).isSome
    let r := th.red.foldl (fun (x : State × List RedEntry × Bool) e =>
      match e.place.line with
      | none => (x.1, x.2.1 ++ [e], x.2.2)
      | some ln =>
        if x.1.lineHalted ln then (x.1, x.2.1 ++ [e], false)
        else if e.passed || !x.2.2 || 0x100000000000 ≤ ln || (x.1.findWay (ln * 128)).isSome || narrow e ln then (x.1, x.2.1 ++ [e], x.2.2)
        else match x.1.weirPass card (.red t) ln with
          | (s, true) => (s, x.2.1 ++ [{ e with passed := true }], true)
          | (s, false) => (match card with | some c => (if x.1.weirQ.any (fun e => e.2 == .red t) then s else s.eventOf t 0x09 1).heldAtWeir c | none => s, x.2.1 ++ [e], false)) (s, [], true)
    (r.1.mapThread t fun th => { th with red := r.2.1 }, r.2.2)

/-- The lines of the rounds of some threads pass their weirs; else what waiting for them leaves. -/
def State.metered (s : State) (ts : List Nat) : State × Bool := ts.foldl (fun x t => if x.2 then x.1.redMeter t else x) (s, true)

/-- A round over some threads can be applied; else what waiting for the weirs leaves (R280, R478). -/
def State.redReady (s : State) (ts : List Nat) : State × Bool := if ts.all s.redReleased then s.metered ts else (s, false)

/-- Applies one contribution at the point its scope names, the stores before a `.rel` contribution first; an error it meets is consumed by
its block (R279, R280, R294). -/
def State.applyRed (s : State) (t : Nat) (th : Thread) (e : RedEntry) : State :=
  let q : Piece := { lane := 0, at_ := (List.range e.sz).map e.place.plus, data := toBytes e.val.toNat e.sz, va := 0, pol := e.pol }
  let p : Pend := { Pend.value 0 none [t] [] [] s.clock with op := .atom e.op false, ps := [q], sz := e.sz, ms := e.ms, oc := e.oc }
  let s := if e.rel && p.atHome t then (t :: e.mem).foldl (fun s m => s.l1Flush (coreOf m)) s else s
  match s.prepLines t th p p.lines with
  | .ready s =>
    match s.sramMeet p with
    | some pl => (s.consume t (.sram pl) 0).1
    | none => (s.atomPiece t th p e.op q).1
  | .held s => s
  | .err s m pa => (s.consume t m pa).1

/-- One round: of the entries of the threads given those that `f` picks, by block ordinal, index, program order and lane (R279). -/
def State.applyPicked (s : State) (f : RedEntry → Bool) (ts : List Nat) : State :=
  let key (t : Nat) : Nat := match s.thread? t with
    | some th => match s.block? th.block with
      | some b => b.ord * 4096 + th.index
      | none => th.index
    | none => 0
  let sorted := sortBy (fun a b => decide (key a ≤ key b)) ts
  sorted.foldl (fun s t =>
    match s.thread? t with
    | none => s
    | some th => ((th.red.filter f).foldl (fun s e => if (s.thread? t).isSome then s.applyRed t th e else s) s).mapThread t fun th =>
        { th with red := th.red.filter fun e => !f e }) s

/-- One round of all the entries. -/
def State.applyRound (s : State) (ts : List Nat) : State := s.applyPicked (fun _ => true) ts

/-- The round of a REDFLUSH that issued at clock n: the entries made before it. With a contribution at device or system scope it is a commit
event of the block (R254, R278; log entry 73). -/
def State.flushRound (s : State) (n : Nat) (ts : List Nat) : State :=
  let s := ts.foldl (fun s t => match s.thread? t with
    | some th => if th.red.any fun e => e.at_ < n && (e.ms == .device || e.ms == .system) then s.drain th.block else s
    | none => s) s
  s.applyPicked (fun e => e.at_ < n) ts

/-- Threads with a contribution whose translation has been taken out (R414). -/
def State.staleReds (s : State) : List Nat :=
  s.threads.filterMap fun e => match e.2 with
    | some th => if th.red.any (·.stale) then some e.1 else none
    | none => none

/-- What was translated through entries that are gone and has not performed performs: contributions as in a round of their own, a contained
block's store buffer as at a commit event (R414; log entry 73). -/
def State.settle (s : State) : State :=
  let bs := s.blocks.filterMap fun e => match e.2 with
    | some b => if b.sbuf.any (·.stale) then some e.1 else none
    | none => none
  (bs.foldl State.drain s).applyPicked (·.stale) s.staleReds

/-! ## Landing (R51, R78, R79, R108) -/

/-- Lanes of a register that later instructions wrote while this result was in flight. -/
def contested (cs : List (RegLoc × W32)) (l : RegLoc) : W32 := (cs.filter fun e => e.1 == l).foldl (fun m e => m ||| e.2) 0

/-- A write that lands; in the lanes of its register that a later write contested either value stays, a free choice (R79). -/
def State.landWr (s : State) (cs : List (RegLoc × W32)) (n : Nat) (w : Wr) : State :=
  let lost := contested cs w.loc &&& (s.free (0x10000000 + n)).setWidth 32
  if contested cs w.loc = 0 then s.applyWr w
  else match w.loc with
    | .v _ _ => s.applyWr { w with mask := w.mask &&& ~~~lost }
    | .p _ _ => s.applyWr { w with mask := w.mask &&& ~~~lost }
    | _ => if lost.getLsbD 0 then s else s.applyWr w

def State.landWrs (s : State) (cs : List (RegLoc × W32)) : List Wr → State
  | [] => s
  | w :: l => (s.landWr cs l.length w).landWrs cs l

/-- The error that a result meets as it is written: in a v-register of which it leaves lanes, in a segment of a t-register of which it leaves
bytes (R293, R294). -/
def State.wrHit (s : State) (w : Wr) : Option ErrLoc :=
  s.regErr.find? fun e => match e, w.loc with
    | .reg (.v m r), .v m' r' => m == m' && r == r' && w.mask != BitVec.allOnes 32
    | .tseg m n, .t m' r =>
      let k := (w.bytes.filter fun b => b.1 / 64 == n % 64).length
      m == m' && n / 64 == r && k != 0 && k != 64
    | _, _ => false

/-- The errors that a result overwrites. -/
def State.wrOver (s : State) (w : Wr) : State :=
  { s with regErr := s.regErr.filter fun e => match e, w.loc with
      | .reg l, l' => l != l' || (match l with | .v _ _ => w.mask != BitVec.allOnes 32 | _ => false)
      | .tseg m n, .t m' r => !(m == m' && n / 64 == r && (w.bytes.filter fun b => b.1 / 64 == n % 64).length == 64)
      | _, _ => true }

/-- A result meets the errors of the registers that it is written to: its block ends with UE_REGISTER, or they are overwritten. -/
def State.meetWrs (s : State) (t : Nat) (ws : List Wr) : State :=
  if s.regErr.isEmpty then s
  else match ws.findSome? s.wrHit, s.thread? t with
    | some e, some th => s.loseBlock th.block Block.again 0x29 (BitVec.ofNat 64 e.number)
    | _, _ => ws.foldl State.wrOver s

/-- The register a write names is one lane wide: a counter of XADD. -/
def Wr.isScalar (w : Wr) : Bool := match w.loc with | .v _ _ => false | _ => true

/-- XADD as it lands: the counter of the lowest member is read, the sums are written, and every counter named takes the old value and the
total (R46, R124, R125, R154). -/
def State.landXadd (s : State) (w64 : Bool) (cs : List (RegLoc × W32)) (ws : List Wr) : State :=
  let d := ws.filter fun w => !w.isScalar
  let counters := ws.filter Wr.isScalar
  match counters with
  | [] => s
  | c :: _ =>
    let w := if w64 then 64 else 32
    let old := (s.readLoc c.loc).toNat % 2 ^ w
    let cell (r l : Nat) (m : Nat) : Nat := ((d.find? fun x => x.loc == .v m r).map fun x => (x.lanes.get 0 l).toNat).getD 0
    let s := d.foldl (fun s x => match x.loc with
      | .v m r =>
        -- the lower register of the member's pair
        let base := d.foldl (fun b y => match y.loc with | .v m' r' => if m' = m then Nat.min b r' else b | _ => b) r
        s.landWr cs (64 * m + r) { x with lanes := x.lanes.map fun e =>
          let sum := (old + cell base e.1 m + (if w64 then 2 ^ 32 * cell (base + 1) e.1 m else 0)) % 2 ^ w
          (e.1, BitVec.ofNat 32 (sum / 2 ^ (32 * (r - base)))) }
      | _ => s) s
    (counters.map fun x => { x with val := BitVec.ofNat 64 ((old + c.val.toNat) % 2 ^ w) }).foldl (fun s x => s.landWr cs 0x800000 x) s

/-- A demotion that finds the path in a trapping slice waits for the handler's return: that path resumes at XPC as it was (R51, R229). -/
def Thread.demoteNow (th : Thread) (lane : Nat) : Thread :=
  match th.inTrap with
  | some x => if hasLane (gangLanes x.gang) lane then { th with inTrap := some { x with later := x.later ++ [lane] } } else th.demote lane
  | none => th.demote lane

/-- A pend leaves flight: its registers, flags, counter and demotion. -/
def State.landPend (s : State) (t : Nat) (p : Pend) (fail : Bool) : State :=
  let s := (s.mapThread t fun th => { th with pend := th.pend.filter (·.id != p.id) }).meetWrs t p.wr
  let s := match p.op with
    | .xadd w64 => s.landXadd w64 p.contest p.wr
    | _ => s.landWrs p.contest p.wr
  let s := p.flags.foldl (fun s e => s.orFlags e.1 e.2) s
  let s := s.countDown p.mem p.sig
  if fail then p.demote.foldl (fun s d => s.mapThread d.1 fun th => th.demoteNow d.2) s else s

end Sys2Proof.Machine
end

