-- ==== Sys2Proof/Machine/MemOps.lean ====
section
/-! DEFINITION. The memory instructions: loads, stores, polling, prefetch, cache control, commits, fences, atomics, reservations
and reductions (R147, R243-R255, R264, R269-R281). -/

namespace Sys2Proof.Machine

/-! ## Operands (R238, R244, R245) -/

/-- Width in which an offset is read (R238). -/
def offWidth (k : TKind) (x : Src) : Nat :=
  match effSrc k x with
  | .scl _ => 64
  | .lit _ => 64
  | _ => 32

/-- Width of the registers that an access of n bytes names. -/
def regWidth (n : Nat) : Nat := if n < 8 then 32 else 8 * n

/-- The register D as a source. -/
def dataSrc : Dst → Src
  | .vec a => .vec a
  | .scl a => .scl a

/-- The register `j` after D. -/
def Dst.next (x : Dst) (j : Nat) : Dst :=
  match x with
  | .vec a => .vec (a + BitVec.ofNat 8 j)
  | .scl a => .scl (a + BitVec.ofNat 8 j)

/-- Sources of a store's datum of n bytes: one, or two halves of 16. -/
def dataSrcs (k : TKind) (d : Dst) (n : Nat) : List (Src × Nat) :=
  let step := match effDst k d with | .vec _ => 2 | .scl _ => 1
  if n = 16 then
    [(dataSrc d, 64), (dataSrc (match d with | .vec a => .vec (a + BitVec.ofNat 8 step) | .scl a => .scl (a + 1)), 64)]
  else [(dataSrc d, if n = 8 then 64 else match effDst k d with | .vec _ => 32 | .scl _ => 64)]

/-- The destinations of a load of n bytes: each write numbers its part of the value. -/
def loadWrs (s : State) (c : Ctx0) (k : TKind) (d : Dst) (n : Nat) : List Wr :=
  match effDst k d with
  | .vec a =>
    c.mem.flatMap fun m =>
      let act := c.active m
      if act = 0 then []
      else (List.range (regsOf (regWidth n))).map fun j =>
        { Wr.vec (.v m (vindex s c m a.toNat + j)) act [] with val := BitVec.ofNat 64 j }
  | .scl a =>
    if 96 ≤ a.toNat then []
    else if a.toNat < 64 then
      -- a write to s0 is discarded (R67)
      c.mem.flatMap fun m => ((List.range (if n = 16 then 2 else 1)).filter fun j => a.toNat + j != 0).map fun j =>
        Wr.scalar (.s m (a.toNat + j)) (BitVec.ofNat 64 j)
    else match scalarLoc s c.t a.toNat with
      | some l => [Wr.scalar l 0]
      | none => []

/-- The port that a load's destination names. -/
def portOf (k : TKind) (d : Dst) : Option Nat :=
  match effDst k d with
  | .scl a => if 96 ≤ a.toNat && a.toNat < 112 then some (a.toNat - 96) else none
  | _ => none

def isVecSrc (k : TKind) (x : Src) : Bool := (effSrc k x).isVec
def isVecDst (k : TKind) (x : Dst) : Bool := (effDst k x).isVec

/-- The accesses of an instruction: every active lane, or the leader's alone. -/
def accLanes (c : Ctx0) (perLane : Bool) : List (Nat × Nat) :=
  if perLane then c.act.flatMap fun e => (lanesOf e.2).map fun l => (e.1, l)
  else match c.leader with
    | some e => [e]
    | none => []

/-- The lowest active lane of an instruction, whose path a failure demotes (R51). -/
def lowLane (c : Ctx0) : List (Nat × Nat) := c.leader.toList

/-- A lane of the path of each arrived member, which an LDPOLL that finds nothing demotes: its lowest active lane, or in a member without
one its lowest running lane (R250). -/
def memberLanes (s : State) (c : Ctx0) : List (Nat × Nat) :=
  c.mem.filterMap fun m =>
    let a := c.active m
    (lowest (if a = 0 then (match s.thread? m with | some th => th.run | none => 0) else a)).map fun l => (m, l)

/-- R68: no vector offset under a scalar-like register. -/
def offMix (d : Dst) (off : Src) : Ctx0 → Thread → Option Nat := fun _ th =>
  if !isVecDst th.kind d && isVecSrc th.kind off then some 23 else none

/-- R244: `.s` extends nothing of 32 bits in a vector register. -/
def sxBad (sx : Bool) (n : Nat) (d : Dst) : Ctx0 → Thread → Option Nat := fun _ th =>
  if sx && n == 4 && isVecDst th.kind d then some 62 else none

/-- Threads in flight start here: a pend of a memory access. -/
def memPend (s : State) (c : Ctx0) (h : Hdr) (op : PendOp) (n : Nat) (m : MArg) (acq rel : Bool) (one : Bool) (he : HEntry) (ps : List Piece)
    (wr : List Wr) : Pend :=
  { Pend.value 0 h.sig c.mem wr [] s.clock with
    -- a page of POL 3 is accessed at system scope (R402)
    op := op, ps := ps, sz := n, ms := if ps.any (·.pol == 4) then .system else m.ms, oc := m.oc, acq := acq, rel := rel, one := one, done := false,
    remote := he.space == 3, circ := if he.space = 3 then some he.core else none, sent := s.time }

/-- A memory access goes into flight: a member's first store after a CFENCE.rel of its class releases that member's classes of the fence, and a
load is the last one of its class (R264). -/
def State.pushMem (s : State) (t : Nat) (p : Pend) : State :=
  let also := if p.op.writes then
      p.mem.filterMap fun x => match s.thread? x with
        | some th =>
          let m : W16 := (th.relFences.filter fun f => f.getLsbD p.oc.toNat).foldl (fun m f => m ||| f) 0
          if m = 0 then none else some (x, m)
        | none => none
    else []
  (s.push t { p with also := also }).mapMembers p.mem fun th =>
    { th with
      relFences := if p.op.writes then th.relFences.filter fun f => !f.getLsbD p.oc.toNat else th.relFences
      lastLoads := if p.op.reads then (p.oc, p.wide || (isTile t && p.ms == .block)) :: th.lastLoads.filter (·.1 != p.oc) else th.lastLoads }

/-- The last load of a mask's classes was at device or system scope, to which block scope counts on a tile core (R256). -/
def Thread.lastWide (th : Thread) (mask : W16) : Bool :=
  match th.lastLoads.find? fun e => mask.getLsbD e.1.toNat with
  | some e => e.2
  | none => false

/-! ## Loads (R243-R250) -/

/-- Passes of the crossbar that bank conflicts add to an access of the scratchpad of the issuing SIMT core (R249). -/
def conflicts (u : Nat) (ps : List Piece) : Nat :=
  let words := (ps.flatMap fun q => q.at_.filterMap fun a => match a with | .core v o => if v = u then some (o / 4) else none | _ => none).eraseDups
  ((List.range 32).map fun b => (words.filter fun w => w % 32 == b).length).foldl Nat.max 1 - 1

/-- LD, LDSP and LDPOLL. -/
def loadWord (op : Nat) (mop : MOp) (poll : Bool) (h : Hdr) (sx : Bool) (d : Dst) (m : MArg) (s : State) : Out :=
  let n := sizeBytes m.sz
  issue op h [.dst d (regWidth n), .src 42 m.off 32 false] (andThen (offMix d m.off) (sxBad sx n d))
    (fun c s =>
      let k := kindOf s c
      withSrcs c s [(m.off, offWidth k m.off)] fun vs s' =>
        let v := vs.getD 0 fun _ _ => 0
        if c.idle then .adv s'
        else
          let perLane := isVecSrc k m.off
          let accs := (accLanes c perLane).map fun e => (32 * e.1 + e.2, v e.1 e.2, ([] : List Byte))
          match s'.checkAccess c.t c.gang mop m.hd.toNat n accs with
          | (_, .error r) => r
          | (s', .ok (he, ps)) =>
            let preds := if poll then predWrites c h.pr.idx.toNat fun _ _ => true else []
            let p := memPend s' c h (.load sx poll) n m (m.sem == .acqrel) false (!perLane) he ps (loadWrs s' c k d n ++ preds)
            .adv ((s'.pushMem c.t { p with port := portOf k d, demote := if poll then memberLanes s' c else [] }).eventOf c.t 3 (conflicts (coreOf c.t) ps))) s

/-- LD (R243). -/
def execLd (h : Hdr) (sx : Bool) (d : Dst) (m : MArg) (s : State) : Out := loadWord 0x80 .ld false h sx d m s

/-- LDSP (R248). -/
def execLdsp (h : Hdr) (sx : Bool) (d : Dst) (m : MArg) (s : State) : Out := loadWord 0x86 .ldsp false h sx d m s

/-- LDPOLL (R250). -/
def execLdpoll (h : Hdr) (sx : Bool) (d : Dst) (m : MArg) (s : State) : Out := loadWord 0x82 .poll true h sx d m s

/-! ## Stores (R243-R248) -/

/-- The bytes of a datum read as one or two words. -/
def datum (n : Nat) (vs : List Opd) (m l : Nat) : List Byte :=
  if n = 16 then toBytes ((vs.getD 0 fun _ _ => 0) m l).toNat 8 ++ toBytes ((vs.getD 1 fun _ _ => 0) m l).toNat 8
  else toBytes ((vs.getD 0 fun _ _ => 0) m l).toNat n

/-- ST and STSP. -/
def storeWord (op : Nat) (mop : MOp) (h : Hdr) (d : Dst) (m : MArg) (s : State) : Out :=
  let n := sizeBytes m.sz
  issue op h [.data d (regWidth n), .src 42 m.off 32 false] noExtra
    (fun c s =>
      let k := kindOf s c
      withSrcs c s (dataSrcs k d n ++ [(m.off, offWidth k m.off)]) fun vs s' =>
        let v := vs.getLastD fun _ _ => 0
        if c.idle then .adv s'
        else
          let perLane := isVecSrc k m.off || isVecDst k d
          let accs := (accLanes c perLane).map fun e => (32 * e.1 + e.2, v e.1 e.2, datum n vs e.1 e.2)
          match s'.checkAccess c.t c.gang mop m.hd.toNat n accs with
          | (_, .error r) => r
          | (s', .ok (he, ps)) =>
            .adv ((s'.pushMem c.t (memPend s' c h .store n m false (m.sem == .acqrel) (!perLane) he ps [])).eventOf c.t 3 (conflicts (coreOf c.t) ps))) s

/-- ST (R243). -/
def execSt (h : Hdr) (d : Dst) (m : MArg) (s : State) : Out := storeWord 0x81 .st h d m s

/-- STSP (R248). -/
def execStsp (h : Hdr) (d : Dst) (m : MArg) (s : State) : Out := storeWord 0x87 .stsp h d m s

/-! ## Handles, prefetch, cache control (R147, R251, R252, R255) -/

/-- What HINFO reads of each lane's entry. -/
def State.hinfos (s : State) (t : Nat) (th : Thread) (k : HKind) : List (Nat × Nat) → Opd → State × Except (Meet × Nat) (List (Nat × W64))
  | [], _ => (s, .ok [])
  | (m, l) :: rest, v =>
    match s.handle (coreOf t) th.vi th.ctx ((v m l).toNat % 256) with
    | (s, .err e pa) => (s, .error (e, pa))
    | (s, r) =>
      let x : W64 := match r with
        | .ok h => (match k with | .len => h.len | .attr => h.attr | .base => h.base)
        | _ => 0
      match s.hinfos t th k rest v with
      | (s, .ok xs) => (s, .ok ((32 * m + l, x) :: xs))
      | (s, .error e) => (s, .error e)

/-- HINFO (R147). It reads a at 32 bits, the width that the manual leaves open (DESIGN CHOICE, log entry 65). -/
def execHinfo (h : Hdr) (k : HKind) (d : Dst) (a : Src) (s : State) : Out :=
  issue 0x27 h [.dst d 64, .src 34 a 32 false] (noMix d [a])
    (fun c s =>
      withSrcs c s [(a, 32)] fun vs s' =>
        match s'.thread? c.t with
        | none => .stall
        | some th =>
          match s'.hinfos c.t th k (accLanes c true) (vs.getD 0 fun _ _ => 0) with
          | (s', .error (e, pa)) => .lost s' e pa
          | (s', .ok xs) =>
            deliverDst s' c h d 64 0 (fun m l => ((xs.find? (·.1 == 32 * m + l)).map (·.2)).getD 0) []) s

/-- The line of one prefetched address, if a prefetch has anything to fetch there: a lane that would fail a check is dropped (R251). -/
def State.prefetchLane (s : State) (t : Nat) (th : Thread) (b : Block) (he : HEntry) (mere : Bool) (off : W64) : State × List Piece :=
  match s.locate (walkerOf t th) b (coreOf t) he .pref 1 off with
  | (s, .ok (.mem pa :: l) pol _) =>
    (s, if pol = 4 then [] else [{ lane := 0, at_ := .mem pa :: l, data := [], va := 0, pol := pol }])
  | (s, .ok (.carved o :: l) pol _) => (s, if mere then [] else [{ lane := 0, at_ := .carved o :: l, data := [], va := 0, pol := pol }])
  | (s, _) => (s, [])

/-- The lines that a PREF fetches: none through a handle that is not valid, or whose space drops prefetches (R240, R251). -/
def State.prefetch (s : State) (t : Nat) (th : Thread) (b : Block) (hd : Nat) (mere : Bool) (offs : List W64) : State × List Piece :=
  match s.handle (coreOf t) th.vi th.ctx hd with
  | (s, .ok he) =>
    if !spaceOk th.kind .pref he.space || he.space = 6 || (1 ≤ he.space && he.space ≤ 3) then (s, [])
    else offs.foldl (fun x off => let (s, q) := x.1.prefetchLane t th b he mere off; (s, x.2 ++ q)) (s, [])
  | (s, _) => (s, [])

/-- PREF (R251). -/
def execPref (h : Hdr) (mere : Bool) (hd : BitVec 8) (off : Src) (s : State) : Out :=
  issue 0x83 h [.src 42 off 32 false] noExtra
    (fun c s =>
      let k := kindOf s c
      withSrcs c s [(off, offWidth k off)] fun vs s' =>
        if c.idle then .adv s'
        else match s'.thread? c.t with
          | none => .stall
          | some th =>
            match s'.block? th.block with
            | none => .stall
            | some b =>
              let (s', ps) := s'.prefetch c.t th b hd.toNat mere
                ((accLanes c (isVecSrc k off)).map fun e => (vs.getD 0 fun _ _ => 0) e.1 e.2)
              .adv (s'.push c.t { Pend.value 0 h.sig c.mem [] [] s'.clock with op := .pref mere, ps := ps, done := false })) s

/-- The memory fields of an instruction that has none. -/
def plainArg (hd : BitVec 8) (off : Src) : MArg := { sz := .b8, ms := .device, sem := .plain, oc := 0, hd := hd, off := off }

/-- CCTL (R252). -/
def execCctl (h : Hdr) (inv sys : Bool) (hd : BitVec 8) (off : Src) (s : State) : Out :=
  issue 0x84 h [.src 42 off 32 false] noExtra
    (fun c s =>
      let k := kindOf s c
      withSrcs c s [(off, offWidth k off)] fun vs s' =>
        if c.idle then .adv s'
        else
          let accs := (accLanes c (isVecSrc k off)).map fun e => (32 * e.1 + e.2, (vs.getD 0 fun _ _ => 0) e.1 e.2, ([] : List Byte))
          match s'.checkAccess c.t c.gang .cctl hd.toNat 1 accs with
          | (_, .error r) => r
          | (s', .ok (he, ps)) =>
            .adv (s'.push c.t { memPend s' c h (.cctl inv sys) 1 (plainArg hd off) false false false he ps [] with remote := false, circ := none })) s

/-- COMMIT (R255). -/
def execCommit (h : Hdr) (s : State) : Out :=
  issue 0x85 h [] noExtra
    (fun c s =>
      let cont := match (s.thread? c.t).bind fun th => s.block? th.block with | some b => b.cont | none => false
      if c.idle || !cont then .adv s
      else .adv (s.push c.t { Pend.value 0 h.sig c.mem [] [] s.clock with op := .commit, done := false })) s

/-- The fence of one arrived warp: it orders the accesses of that warp alone (R264). -/
def State.fenceOf (s : State) (m : Nat) (k : FenceKind) (ms : MScope) (mask : W16) : State :=
  let last := match s.thread? m with | some th => th.lastWide mask | none => false
  (s.push m { Pend.value 0 none [m] [] [] s.clock with op := .fence k mask, ms := ms, acq := k == .acq && last, done := false }).mapThread m
    fun th => if k = .rel then { th with relFences := mask :: th.relFences } else th

/-- CFENCE (R264). -/
def execCfence (h : Hdr) (k : FenceKind) (ms : MScope) (mask : W16) (s : State) : Out :=
  issue 0x95 h [] noExtra
    (fun c s =>
      if c.idle then .adv s
      else .adv (c.mem.foldl (fun s m => s.fenceOf m k ms mask) s)) s

/-! ## Atomics (R269-R276) -/

/-- The data group's registers: a and b; on the AS DK 0 reads as DK 1 (R68, R271). -/
def groupSrcs (k : TKind) (g : AGrp) (n : Nat) : Src × Src :=
  let r : BitVec 8 := BitVec.ofNat 8 (4 * g.n.toNat)
  if g.scl || k == .as then (.scl r, .scl (r + 1)) else (.vec r, .vec (r + (if n = 8 then 2 else 1)))

def groupDst (g : AGrp) : Dst :=
  let r : BitVec 8 := BitVec.ofNat 8 (4 * g.n.toNat)
  if g.scl then .scl r else .vec r

/-- The checks of a data group. -/
def groupBad (g : AGrp) (off : Src) : Ctx0 → Thread → Option Nat := fun c th =>
  let vec := !g.scl && th.kind != .as
  if vec && c.scp == .block then some 23
  else if !vec && isVecSrc th.kind off then some 23
  else if !vec && 16 ≤ g.n.toNat then some 26
  else if vec && c.scp == .sheaf && 16 < 4 * g.n.toNat + 4 then some 26
  else if vec && c.scp != .sheaf && th.nv < 4 * g.n.toNat + 4 then some 26
  else none

/-- The registers of a data group that an operation reads: a, and b of CAS and BFADD, each one register, or two v-registers at 64 bits (R271). -/
def groupCount (g : AGrp) (op : AOp) (n : Nat) : Nat :=
  (if op == .cas || op == .bfadd then 2 else 1) * (if n = 8 && !g.scl then 2 else 1)

/-- At sheaf scope the group's x-registers are checked against each member (R73). -/
def groupUses (g : AGrp) (op : AOp) (n : Nat) (off : Src) : List Use :=
  [.src 42 off 32 false, .grp (groupDst g) (groupCount g op n)]

/-- The sources of a data group on a kind of sequencer: 32- or 64-bit a and b. -/
def groupReads (k : TKind) (g : AGrp) (n : Nat) : List (Src × Nat) :=
  let (a, b) := groupSrcs k g n
  let w := if n = 8 then 64 else 32
  [(a, w), (b, w)]

/-- ATOM (R270-R273). -/
def execAtom (h : Hdr) (op : AOp) (g : AGrp) (m : MArg) (s : State) : Out :=
  let n := sizeBytes m.sz
  issue 0x90 h (groupUses g op n m.off) (groupBad g m.off)
    (fun c s =>
      let k := kindOf s c
      withSrcs c s (groupReads k g n ++ [(m.off, offWidth k m.off)]) fun vs s' =>
        let v := vs.getLastD fun _ _ => 0
        if c.idle then .adv s'
        else
          let perLane := isVecDst k (groupDst g)
          let two (e : Nat × Nat) : List Byte :=
            toBytes ((vs.getD 0 fun _ _ => 0) e.1 e.2).toNat n ++ toBytes ((vs.getD 1 fun _ _ => 0) e.1 e.2).toNat n
          let accs := (accLanes c perLane).map fun e => (32 * e.1 + e.2, v e.1 e.2, two e)
          match s'.checkAccess c.t c.gang .atom m.hd.toNat n accs with
          | (_, .error r) => r
          | (s', .ok (he, ps)) =>
            let wr := loadWrs s' c k (groupDst g) n ++ (if op = .bfadd then predWrites c h.pr.idx.toNat fun _ _ => true else [])
            let p := memPend s' c h (.atom op true) n m (m.sem != .plain) (m.sem == .both) (!perLane) he ps wr
            .adv ((s'.pushMem c.t { p with demote := if op = .cas then lowLane c else [] }).eventOf c.t 3 (conflicts (coreOf c.t) ps))) s

/-- The lane that acts in LDRES and STCOND: the leader alone. -/
def leaderOnly (c : Ctx0) : Ctx0 :=
  { c with act := match c.leader with | some (m, l) => [(m, lane1 l)] | none => [] }

/-- LDRES (R274). -/
def execLdres (h : Hdr) (d : Dst) (m : MArg) (s : State) : Out :=
  let n := sizeBytes m.sz
  issue 0x91 h [.dst d (regWidth n), .src 42 m.off 32 false] (offMix d m.off)
    (fun c s =>
      let k := kindOf s c
      withSrcs c s [(m.off, offWidth k m.off)] fun vs s' =>
        if c.idle then .adv s'
        else
          let accs := (accLanes c false).map fun e => (32 * e.1 + e.2, (vs.getD 0 fun _ _ => 0) e.1 e.2, ([] : List Byte))
          match s'.checkAccess c.t c.gang .ldres m.hd.toNat n accs with
          | (_, .error r) => r
          | (s', .ok (he, ps)) =>
            .adv (s'.pushMem c.t (memPend s' c h .reserve n m (m.sem == .acqrel) false true he ps (loadWrs s' (leaderOnly c) k d n)))) s

/-- STCOND (R275). -/
def execStcond (h : Hdr) (d : Dst) (m : MArg) (s : State) : Out :=
  let n := sizeBytes m.sz
  issue 0x92 h [.data d (regWidth n), .src 42 m.off 32 false] noExtra
    (fun c s =>
      let k := kindOf s c
      withSrcs c s (dataSrcs k d n ++ [(m.off, offWidth k m.off)]) fun vs s' =>
        if c.idle then .adv s'
        else
          let v := vs.getLastD fun _ _ => 0
          let accs := (accLanes c false).map fun e => (32 * e.1 + e.2, v e.1 e.2, datum n vs e.1 e.2)
          match s'.checkAccess c.t c.gang .stcond m.hd.toNat n accs with
          | (_, .error r) => r
          | (s', .ok (he, ps)) =>
            let owner := match c.leader with | some (m, _) => m | none => c.t
            let p := memPend s' c h (.cond owner) n m false (m.sem == .acqrel) true he ps (predWrites c h.pr.idx.toNat fun _ _ => false)
            let lane := match c.leader with | some e => [e] | none => []
            .adv (s'.pushMem c.t { p with demote := lane })) s

/-! ## Reductions (R277-R281) -/

/-- Entries that a sub-buffer holds: the contributions of one RED take one. -/
def Thread.redEntries (th : Thread) : Nat := (th.red.map (·.at_)).eraseDups.length

/-- What waiting for the weirs leaves in the state in which a RED waits: their credits and the contributions that have passed. -/
def State.keepMeter (s w : State) (ts : List Nat) : State :=
  ts.foldl (fun s t => match w.thread? t with
    | some x => s.mapThread t fun th => { th with red := x.red }
    | none => s) { s with cfg := w.cfg, weirHeld := w.weirHeld, weirQ := w.weirQ, jobs := w.jobs, silt := w.silt, siltCount := w.siltCount }

/-- The full sub-buffers of some threads are applied, each spill an event (R277, R278, R490). -/
def State.spillReds (s : State) (ts : List Nat) : State :=
  ts.foldl (fun s t => ((s.applyRound [t]).mapThread t fun th => { th with redspill := true }).eventOf t 0x0C (if isTile t then 0 else 1)) s

/-- One contribution for each access enters a sub-buffer: of the lane's warp, or of t (R277). -/
def State.addReds (s : State) (perLane : Bool) (c : Ctx0) (n : Nat) (op : AOp) (m : MArg) (ps : List Piece) : State :=
  ps.foldl (fun x q => x.mapThread (if perLane then q.lane / 32 else c.t) fun th =>
    { th with red := th.red ++ [{ place := q.at_.headD (.dev 0x1000000), sz := n, op := op, val := BitVec.ofNat 64 (ofBytes q.data),
                                  -- a page of POL 3 is accessed at system scope (R402)
                                  ms := if q.pol == 4 then .system else m.ms, oc := m.oc, pol := q.pol, rel := m.sem == .acqrel, passed := false
                                  at_ := s.clock, mem := c.mem, va := q.va }] }) s

/-- A RED whose accesses have passed their checks (R254, R270, R277, R278): the sub-buffers that its contributions enter and find full are
applied first. -/
def redWord (c : Ctx0) (perLane : Bool) (op : AOp) (m : MArg) (ps : List Piece) (s : State) : Res :=
  let takes := if perLane then c.mem.filter fun t => ps.any fun q => q.lane / 32 == t else [c.t]
  let full := takes.filter fun t => match s.thread? t with | some th => 4 ≤ th.redEntries | none => false
  let commits := (m.ms == .device || m.ms == .system || ps.any (·.pol == 4)) &&
    (match (s.thread? c.t).bind fun th => s.block? th.block with | some b => b.cont | none => false)
  let busy := c.mem.any fun t => (s.pendsOf t).any fun p => p.op.writes && !p.done
  if (commits && busy) || !full.all s.redReleased then .stall
  else match s.redReady full with
    | (w, false) => .waitWith fun h => h.keepMeter w full
    | (s, true) =>
      let s := s.spillReds full
      let s := if commits then match s.thread? c.t with | some th => s.drain th.block | none => s else s
      .adv (s.addReds perLane c (sizeBytes m.sz) op m ps)

/-- RED (R270, R277). -/
def execRed (h : Hdr) (op : AOp) (g : AGrp) (m : MArg) (s : State) : Out :=
  let n := sizeBytes m.sz
  issue 0x93 h (groupUses g op n m.off) (groupBad g m.off)
    (fun c s =>
      let k := kindOf s c
      withSrcs c s (groupReads k g n ++ [(m.off, offWidth k m.off)]) fun vs s' =>
        let v := vs.getLastD fun _ _ => 0
        if c.idle then .adv s'
        else
          let perLane := isVecDst k (groupDst g)
          let accs := (accLanes c perLane).map fun e => (32 * e.1 + e.2, v e.1 e.2, toBytes ((vs.getD 0 fun _ _ => 0) e.1 e.2).toNat n)
          match s'.checkAccess c.t c.gang .red m.hd.toNat n accs with
          | (_, .error r) => r
          | (s', .ok (_, ps)) => redWord c perLane op m ps s') s

/-- REDFLUSH (R281): the warps whose entries the round applies. -/
def execRedflush (h : Hdr) (s : State) : Out :=
  issue 0x94 h [] noExtra
    (fun c s =>
      if c.idle then .adv s
      else .adv (s.push c.t { Pend.value 0 h.sig c.mem [] [] s.clock with op := .flush, ms := .device, done := false })) s

end Sys2Proof.Machine
end

