-- ==== Sys2Proof/Machine/Landing.lean ====
section
/-! DEFINITION. The steps of warps that no word makes: results landing, acknowledgements, remote accesses, walks read again,
asynchronous traps, rotations, spawns and exits (R34, R38, R46, R78, R232, R247, R394, R407, R441, R454). -/

namespace Sys2Proof.Machine

/-- The pend of a resident thread. -/
def State.pend? (s : State) (t id : Nat) : Option (Thread × Pend) :=
  match s.thread? t with
  | none => none
  | some th => (th.pend.find? (·.id == id)).map fun p => (th, p)

/-- Replaces a pend. -/
def State.setPend (s : State) (t : Nat) (p : Pend) : State :=
  s.mapThread t fun th => { th with pend := th.pend.map fun q => if q.id = p.id then p else q }

/-- What performing an access, or the error it meets, leaves. -/
def perfOut (t id : Nat) (r : Perf) (k : State → Pend → Bool → Out) : Out :=
  match r with
  | .ok s p fail => k s p fail
  | .held s => .next s
  | .err s m pa =>
    match s.consume t m pa with
    | (s, true) => .next (s.mapThread t fun th => { th with pend := th.pend.map fun q => if q.id = id then { q with weir := false } else q })
    | (s, false) => .next s

/-- Acquire points of masked classes (R257, R264). -/
def State.acquireMask (s : State) (m : Nat) (mask : W16) : State :=
  s.mapThread m fun th =>
    { th with acq := (List.range 16).foldl (fun a c => if mask.getLsbD c then Tbl.set 0 a c s.clock else a) th.acq }

/-- A fence has seen everything it orders perform (R254, R264, R448). `acq` of a fence says that the last masked load before it was at
device or system scope; one at block or core scope takes over what the other warps of the core have acquired. -/
def State.endFence (s : State) (p : Pend) (k : FenceKind) (mask : W16) : State :=
  p.mem.foldl (fun s m =>
    match s.thread? m with
    | none => s
    | some th =>
      let dev := p.wide || (isTile m && p.ms == .block)
      let s := if p.wide then s.drain th.block else s
      let s := if dev && k != .acq then s.l1Flush (coreOf m) else s
      let s := s.flushClasses th.block mask
      if (dev && k != .rel) || (k == .acq && p.acq) then s.acquireMask m mask
      else if k != .rel && p.ms != .warp then s.takeOver m mask.getLsbD
      else s) s

/-- Cache control of the lines of a pend (R252); `.wbinv.sys` clears the reservations on its lines (R276). -/
def State.cacheControl (s : State) (cores : List Nat) (inv sys : Bool) (ps : List Piece) : State :=
  ps.foldl (fun s q =>
    match q.at_.head?.bind Place.line with
    | none => s
    | some ln =>
      let s := cores.foldl (fun s u => if inv then s.l1Drop u ln else s.l1Down u ln) s
      let s := if inv && sys then s.clearResv (some ln) else s
      if sys && ln < 0x100000000000 then
        match s.findWay (ln * 128) with
        | none => s
        | some w =>
          let key := wayKey (sliceOf (ln * 128)) (setOf (ln * 128)) w
          let lock := match s.mere.get none key with | some l => l.lock | none => false
          let s := s.writeBack key
          if inv && !lock then s.dropLine key else s
      else s) s

/-- Whether an access that was under way when an invalidation took entries out is still in flight (R414). -/
def State.inFlight (s : State) (vi before : Nat) : Bool :=
  s.threads.any fun e => match e.2 with
    | some th => th.vi == vi && th.pend.any fun p => p.mem_ && !p.done && p.at_ < before
    | none => false

/-- The value that a load pushes to a port, and the width of the push (R244, R301). -/
def portValue (p : Pend) (q : Nat) (x : Nat) (sx : Bool) : W64 × Nat :=
  let v := BitVec.ofNat 64 (extend sx p.sz 64 x)
  if 8 ≤ q then (v, 64) else (v, if p.sz = 1 then 16 else Nat.min 64 (8 * p.sz))

/-- A result whose destination is a port: the push waits for room, for the pushes before it and for the stores before it (log entry 48). -/
def State.portReady (s : State) (t : Nat) (th : Thread) (p : Pend) : Bool :=
  match p.port with
  | none => true
  | some q =>
    !(th.pend.any fun e => e.port == some q && e.at_ < p.at_) &&
    portRoom s t q (portValue p q 0 false).2 &&
    (8 ≤ q || !((s.pendsOf t).any fun e => e.op.writes && !e.done && e.at_ < p.at_))

/-- A result lands: its registers, or the push of its value. -/
def State.landLoad (s : State) (t : Nat) (th : Thread) (p : Pend) (fail : Bool) : State :=
  match p.port with
  | some q =>
    let sx := match p.op with | .load sx _ => sx | _ => false
    let (v, w) := portValue p q (p.got.headD 0) sx
    let s := if q < 6 then (p.cores t).foldl State.l1Flush (s.drain th.block) else s
    let c : Ctx0 := { t := t, gang := 0, scp := .lane, mem := p.mem, pc := 0, act := [], sheaf := 0, trapm := false }
    (pushPort s c q w v p.sig).landPend t p fail
  | none => s.landPend t p fail

/-- What ends an invalidation that has performed: the words it was to take out are out, and no access that was under way is left. -/
def State.startInval (s : State) (t : Nat) (th : Thread) (p : Pend) (kind ctx va : Nat) (leaf : Bool) : State :=
  let s := (p.cores t).foldl State.l1Flush (s.drain th.block)
  let land (s : State) : State := p.mem.foldl State.acquireAll ((s.landPend t p false).acquireAll t)
  if kind = 3 then land (s.dropHandles th.vi ctx (some va))
  else if kind = 4 then land (s.dropHandles th.vi ctx none)
  else (s.dropTlb th.vi kind ctx va leaf).setPend t { p with done := true, sent := BitVec.ofNat 64 s.clock }

/-- Whether an access leaves its core: a request of it rides a gutter (R440, R441). -/
def Pend.rides (p : Pend) : Bool := p.remote || p.ps.any fun q => match q.at_.head? with
  | some (.core _ _) => false
  | some (.group _ _) => false
  | some _ => true
  | none => false

/-- A request, or a reply, that waits for the pause of the gutters to end (R452). -/
def State.paused (s : State) (p : Pend) : Bool := (p.rides && s.heldBack p.sent) || (p.circ.isSome && s.heldBack p.back)

/-- An access through a circuit, issued before, that is ready and has not arrived (R439). -/
def State.accessAhead (s : State) (src dst at_ : Nat) : Bool := s.threads.any fun e => coreOf e.1 == src && match e.2 with
  | some th => th.pend.any fun p => p.remote && p.lostAs != 1 && p.circ == some dst && p.at_ < at_ && s.mayPerform e.1 p
  | none => false

/-- A batch entry of the same pair of cores that left before and has not arrived (R439). -/
def State.entryAhead (s : State) (src dst at_ : Nat) : Bool :=
  s.batches.any fun m => !m.lost && m.acked.isNone && m.src == src && m.dst == dst && m.at_ < at_

/-- The entries among these that stood when an UNSUB issued. -/
def State.standing (s : State) (at_ : Nat) (ks : List Nat) : List Nat := ks.filter fun k => match s.subs.get none k with
  | some x => x.made < at_
  | none => false

/-- The publications among these with something in their batch buffers. -/
def State.unsent (s : State) (ks : List Nat) : List Nat := ks.filter fun k => match s.subs.get none k with
  | some x => x.pub && !x.batch.isEmpty
  | none => false

/-- Where an access has performed: its result lands, unless its reply was lost (R454). -/
def State.afterPerform (s : State) (t : Nat) (p : Pend) (fail : Bool) (land : State) : State :=
  if p.lostAs = 2 then s.setPend t { p with done := true, demote := if fail then p.demote else [] } else land

/-- Fetches the lines of a PREF, each past its weir; false while one is held (R251, R478). -/
def State.prefetchLines (s : State) (t : Nat) (th : Thread) (p : Pend) (mere : Bool) : List (Nat × Nat) → State × Bool
  | [] => (s, true)
  | (ln, pol) :: l =>
    if !s.lineStands ln then s.prefetchLines t th p mere l
    else match s.meter t p.id ln with
      | (s, false) => (s, false)
      | (s, true) =>
        let (s, _, m) := s.readHome (linePlaces ln) th.ident true
        (if mere || m != .data then s else s.l1Fill (coreOf t) ln th.ident pol).prefetchLines t th p mere l

/-- Everything but stores: a result lands (R78). -/
def execResultLanding (t id : Nat) (s : State) : Out :=
  match s.pend? t id with
  | none => .refused .notEnabled
  | some (th, p) =>
    if p.weir || p.remote || p.lostAs == 1 || (p.lostAs == 2 && p.done && p.mem_) || s.paused p then .refused .notEnabled
    else
      match p.op with
      | .result => if s.portReady t th p then .next (s.landLoad t th p true) else .refused .notEnabled
      | .xadd _ => .next (s.landPend t p false)
      | .store => .refused .notEnabled
      | .tstore => .refused .notEnabled
      | .fence k mask =>
        if s.mayPerform t p then .next ((s.endFence p k mask).landPend t p false) else .refused .notEnabled
      | .commit => if s.mayPerform t p then .next ((s.drain th.block).landPend t p false) else .refused .notEnabled
      | .cctl inv sys =>
        if s.mayPerform t p then .next ((s.cacheControl (p.cores t) inv sys p.ps).landPend t p false) else .refused .notEnabled
      | .pref mere =>
        match s.prefetchLines t th p mere p.lines with
        | (s, true) => .next (s.landPend t p false)
        | (s, false) => .next s
      | .flush =>
        if !p.mem.all (s.redReleasedBy p.at_) then .refused .notEnabled
        else match s.metered p.mem with
          | (s, true) => .next ((s.flushRound p.at_ p.mem).landPend t p false)
          | (s, false) => .next s
      | .subCopy key =>
        -- the publisher reads one line after another; the SUB lands once the last is applied
        match s.nextLine key with
        | some s => .next s
        | none =>
          if s.batches.any fun m => m.copy && m.dst * 16 + m.dstEntry == key then .refused .notEnabled
          else if p.lostAs = 2 then .refused .notEnabled
          else .next (s.landPend t p false)
      | .subWait keys remove =>
        let ks := s.standing p.at_ (keys.map (·.1))
        -- stores made since an UNSUB leave too, before its publication goes
        if remove && !(s.unsent ks).isEmpty then .next ((s.unsent ks).foldl (fun s k => s.sendBatch k 16) s)
        else if keys.any fun k => s.batches.any fun m =>
            m.acked.isNone && m.src * 16 + m.srcEntry == k.1 && (m.copy || remove || m.seq < k.2) then .refused .notEnabled
        else .next ((if remove then ks.foldl State.removeSub s else s).landPend t p false)
      | .inval kind ctx va leaf =>
        if p.done then
          if s.inFlight th.vi p.sent.toNat || !s.staleReds.all s.redReleased then .refused .notEnabled
          else match s.metered s.staleReds with
            | (s, true) => .next (p.mem.foldl State.acquireAll ((s.settle.landPend t p false).acquireAll t))
            | (s, false) => .next s
        else if s.mayPerform t p then .next (s.startInval t th p kind ctx va leaf)
        else .refused .notEnabled
      | _ =>
        if !s.portReady t th p then .refused .notEnabled
        else if p.done then .next (s.landLoad t th p true)
        else if s.mayPerform t p then
          perfOut t id (s.perform t th p) fun s p fail => .next (s.afterPerform t p fail (s.landLoad t th p fail))
        else .refused .notEnabled

/-- A store is acknowledged (R247). -/
def execStoreAck (t id : Nat) (s : State) : Out :=
  match s.pend? t id with
  | none => .refused .notEnabled
  | some (th, p) =>
    if p.weir || p.remote || !(p.op == .store || p.op == .tstore) || p.lostAs == 1 || (p.lostAs == 2 && p.done) || s.paused p then
      .refused .notEnabled
    else if p.done then .next (s.landPend t p false)
    else if s.mayPerform t p then
      perfOut t id (s.perform t th p) fun s p fail => .next (s.afterPerform t p fail (s.landPend t p false))
    else .refused .notEnabled

/-- An access to another core's scratchpad arrives, behind what left for that core before it, and performs there; its reply is on the way
(R439-R441). -/
def execRemoteAccess (t id : Nat) (s : State) : Out :=
  match s.pend? t id with
  | none => .refused .notEnabled
  | some (th, p) =>
    let dst := p.circ.getD 0
    if !p.remote || p.lostAs == 1 || s.coreClosed dst || s.heldBack p.sent || !s.mayPerform t p || s.entryAhead (coreOf t) dst p.at_ ||
        s.accessAhead (coreOf t) dst p.at_ then .refused .notEnabled
    else perfOut t id (s.perform t th p) fun s p fail =>
      .next (s.setPend t { p with remote := false, done := true, back := s.time, demote := if fail then p.demote else [] })

/-- A pend whose reply never comes: its registers hold free values and its counter falls (log entry 3). -/
def State.loseReply (s : State) (t : Nat) (p : Pend) : State :=
  let wr := (p.wr.zip (List.range p.wr.length)).map fun e =>
    let tag (l : Nat) : Nat := 0x11000000 + 64 * e.2 + l
    { e.1 with val := s.free (tag 32), lanes := (lanesOf e.1.mask).map fun l => (l, (s.free (tag l)).setWidth 32) }
  s.landPend t { p with wr := wr } false

/-- An asynchronous cause of thread t; the AS runs no handler, so its causes go to the XS (R232). -/
def State.postTo (s : State) (t code : Nat) (val : W64) : State :=
  match s.thread? t with
  | some th => if th.kind = .as then s.postAsync (pairOf t) code val 1 else s.postAsync t code val 0
  | none => s

/-- A walk of thread t over the link has had no reply for 64 us (R406): the cause is posted, and its instruction issues again. -/
def State.loseWalk (s : State) (t : Nat) : Out :=
  match s.thread? t with
  | none => .refused .notEnabled
  | some th =>
    match th.walkM.find? fun w => w.level == noReply && 64000 ≤ (s.time - w.since).toNat with
    | none => .refused .notEnabled
    | some w => .next ((s.setThread t { th with walkM := th.dropWalk w.gang }).postTo t cPacketLost (s.free 0x12000001))

/-- A pend that holds an entry in the outstanding-request table: its request has left the core and its reply has not come (R454). A SUB.sub has the
reply to its request once the first line is read for it. -/
def State.awaitsReply (s : State) (t : Nat) (p : Pend) : Bool :=
  if p.lostAs != 0 then true
  else if p.mem_ then p.done || ((p.remote || p.rides) && !p.weir && s.mayPerform t p)
  else match p.op with
    | .subCopy key => match s.subs.get none key with
      | some x => x.copied == 0
      | none => false
    | .result => p.circ.isSome
    | _ => false

/-- The entry of a SUB.sub whose request never arrived is not made. -/
def State.undoSub (s : State) (p : Pend) : State :=
  match p.op with
  | .subCopy key => match s.subs.get none key with
    | some x => if x.copied = 0 then s.removeSub key else s
    | none => s
  | _ => s

/-- No reply came within 64 us (R406, R454). Whether the access performed is open, unless it is known which of request and reply was lost. -/
def execPacketLost (t id : Nat) (s : State) : Out :=
  match s.pend? t id with
  | none => s.loseWalk t
  | some (th, p) =>
    if !s.awaitsReply t p || (s.time - p.sent).toNat < 64000 then .refused .notEnabled
    else if p.mem_ && !p.done && p.lostAs != 1 && !p.circ.any s.coreClosed && (p.lostAs == 2 || (s.free 0x12000000).getLsbD 0) && s.mayPerform t p then
      perfOut t id (s.perform t th p) fun s p _ => .next ((s.loseReply t p).postTo t cPacketLost (s.free 0x12000001))
    else .next (((s.undoSub p).loseReply t p).postTo t cPacketLost (s.free 0x12000001))

/-! ## Tables under migration (R407) -/

/-- One reading again of an entry with M set: once it is clear, the gang's instruction is no longer held. -/
def State.rereadWalk (t : Nat) (id : W16) (s : State) (w : WalkM) : State :=
  if !w.set_ then s
  else if w.level = noReply then
    if (if peerBase ≤ w.entry then (s.free (0x1C001000 + w.gang.toNat)).getLsbD 0 else s.sliceHalted w.entry) then s
    else s.mapThread t fun th => { th with walkM := { w with set_ := false } :: th.dropWalk w.gang }
  else match s.readWord w.entry id with
    | (s, e, .data) =>
      if e.getLsbD 0 && e.getLsbD 2 then s
      else s.mapThread t fun th => { th with walkM := { w with set_ := false } :: th.dropWalk w.gang }
    | (s, _, m) => (s.consume t m w.entry).1

/-- The walkers read the entries they wait on again. -/
def execWalkReread (t : Nat) (s : State) : Out :=
  match s.thread? t with
  | none => .refused .notEnabled
  | some th =>
    if th.walkM.all fun w => !w.set_ then .refused .notEnabled
    else .next (th.walkM.foldl (State.rereadWalk t th.ident) s)

/-- 16 us have passed within one attempt: the access traps. -/
def execMigrationStall (t : Nat) (s : State) : Out :=
  match s.thread? t with
  | none => .refused .notEnabled
  | some th =>
    match th.walkM.findSome? fun w => (w.stalled s.time).map fun l => (w, l) with
    | none => .refused .notEnabled
    | some (w, level) =>
      let c : Ctx0 := { t := t, gang := w.gang, scp := w.scp, mem := w.mem, pc := w.pc, act := w.act, sheaf := w.sheaf,
                        trapm := th.inTrap.isSome }
      .next ((s.setThread t { th with walkM := th.dropWalk w.gang }).trapWord c cMigrationStall (lvlVal level w.va) w.sl false)

/-! ## Asynchronous causes (R232) -/

/-- The lowest pending cause. -/
def lowestCause : List (Nat × W64 × Nat) → Option (Nat × W64 × Nat)
  | [] => none
  | e :: l =>
    match lowestCause l with
    | none => some e
    | some f => if f.1 < e.1 then some f else some e

/-- The trap record of an asynchronous cause. SCP and XMASK name an instruction, and there is none: they are free. -/
def State.asyncInfo (s : State) (t : Nat) (th : Thread) (e : Nat × W64 × Nat) : TrapInfo :=
  let i := ((slicesOf th.liveSlices).head?).getD 0
  let lane := (lowest (th.live &&& sliceMask i)).getD (4 * i)
  let gang := (th.gangOf lane).getD (1#8 <<< i)
  let scp : Scope := match ((s.free 0x13000000).extractLsb' 0 2).toNat with | 0 => .lane | 1 => .warp | 2 => .sheaf | _ => .block
  { code := e.1, async := true, scp := scp, pc := th.standsAt i, val := e.2.1, slice := if th.kind = .simt then i else e.2.2,
    lane := if th.kind = .simt then lane else 0, mask := (s.free 0x13000001).setWidth 32, gang := gang, members := [t],
    pushed := th.kind = .xs && e.2.2 = 1 }

/-- A pending asynchronous cause is taken at an instruction boundary. -/
def execAsyncTrapEntry (t : Nat) (s : State) : Out :=
  match s.thread? t with
  | none => .refused .notEnabled
  | some th =>
    match lowestCause th.async with
    | none => .refused .notEnabled
    | some e =>
      if th.inTrap.isSome || th.kind == .as || th.susp.isSome || th.exiting || th.saved || th.ccopy then .refused .notEnabled
      else
        let s := s.setThread t { th with async := th.async.erase e }
        .next (s.trapEntry t (s.asyncInfo t th e))

/-! ## Streams, spawns, rendezvous and exits -/

/-- After every 256 issues: the stream held longest is parked, the head of the park list takes its stream (R38). -/
def Thread.rotateStreams (th : Thread) : Thread :=
  match th.park, th.oldestStream with
  | h :: rest, some j =>
    { th with streams := th.streams.set j { gang := h, since := th.issues }, rotate := false
              park := rest ++ ((th.streams[j]?).map IssueStream.gang).toList }.fillStreams
  | _, _ => { th with rotate := false }

def execStreamRotation (t : Nat) (s : State) : Out :=
  match s.thread? t with
  | none => .refused .notEnabled
  | some th =>
    if !th.rotate then .refused .notEnabled
    else .next ((s.setThread t th.rotateStreams).eventOf t 0x0B (if th.park.isEmpty then 0 else 1))

/-- The head request of a core's spawn queue is placed when a slot and its registers are free (R394). -/
def execSpawnQueuePlace (core : Nat) (s : State) : Out :=
  match s.spawnq.get [] core with
  | [] => .refused .notEnabled
  | r :: rest =>
    match s.block? r.block with
    | none => .refused .notEnabled
    | some b =>
      match s.freeSlot core b.nv with
      | none => .refused .notEnabled
      | some t => .next (({ s with spawnq := s.spawnq.set [] core rest } : State).startSpawn t r)

/-- The last member of a scope has arrived, or has gone (R46, R47): the word issues next (log entry 2). -/
def execScopedRendezvous (t : Nat) (s : State) : Out :=
  match s.thread? t with
  | none => .refused .notEnabled
  | some th =>
    match th.rdv with
    | none => .refused .notEnabled
    | some r =>
      match s.scopeSet t th r.scp with
      | none => .refused .notEnabled
      | some (ms, _) =>
        if ms.all fun m => s.hasArrived m r then
          let lo := ms.headD t
          .next { s with agenda := .issueAt lo ((s.thread? lo).elim 0 (·.liveSlices)) :: s.agenda }
        else .refused .notEnabled

/-- Nothing of a thread is in flight, and every wait counter is zero (R34). -/
def State.drained (s : State) (t : Nat) : Bool :=
  match s.thread? t with
  | none => true
  | some th => th.exiting && (List.range 6).all (fun i => th.counter i == 0) && (s.pendsOf t).isEmpty

/-- What other threads still hold of a thread that leaves its slot. -/
def State.forgetThread (s : State) (t : Nat) : State :=
  let s := s.mapThreads fun _ x =>
    { x with
      parent := if (x.parent.map (·.1)) == some t then none else x.parent }
  { s with spawnq := s.spawnq.map fun e => (e.1, e.2.map fun r => if r.parent = t then { r with parent := goneKey, wc := none } else r) }

/-- A thread that has drained leaves its slot, and its parent's counter falls (R34, R57). -/
def State.leaveSlot (s : State) (t : Nat) : State :=
  match s.thread? t with
  | none => s
  | some th =>
    let s := s.applyRound [t]
    -- what it has acquired stays with the warps that share its L1 (R262, R266)
    let s := s.mapThreads fun m x => if coreOf m == coreOf t then { x with acq := mergeAcq (fun _ => true) x.acq th.acq } else x
    let s := match th.parent with
      | some (p, wc) => s.countDown [p] wc
      | none => s
    -- a lease outlasts the exit until the q3 streams are empty (R342)
    let gs := s.groups
    let keep := isTile t && s.ridgeBusy t
    let s := (s.forgetThread t).endThread t
    ({ s with groups := if keep then gs else s.groups } : State).mapBlock th.block fun b =>
      { b with thr := b.thr.map fun x => if x = t then goneKey else x, spawned := b.spawned.filter (· != t)
               gone := if th.kind == .simt && b.thr.contains t && b.sheaves.any (fun h => h.members.getLsbD th.index) then b.gone.insert th.index th.v
                       else b.gone }

/-- A block ends once every warp of it, and every warp spawned from them, has exited (R34); its end is a commit event (R254). -/
def State.blockDone (s : State) (b : Nat) : State :=
  match s.block? b with
  | none => s
  | some x =>
    if x.thr.all (· == goneKey) && x.spawned.isEmpty && !(s.spawnq.any fun e => e.2.any fun r => r.block == b) then
      (s.drain b).endBlock b false
    else s

/-- The exit of a warp, or of both sequencers of a tile thread, completes (R34). -/
def execWarpExitComplete (t : Nat) (s : State) : Out :=
  match s.thread? t with
  | none => .refused .notEnabled
  | some th =>
    -- a report that the XS still owes comes first (R378)
    if th.overdue != 0 || (isTile t && (s.thread? (asOf t + 1)).any (·.overdue != 0)) then .refused .notEnabled
    else if th.kind = .simt then
      if !s.drained t then .refused .notEnabled
      else match s.redReady [t] with
        | (s, true) => .next ((s.leaveSlot t).blockDone th.block)
        | (s, false) => .next s
    else if s.drained (asOf t) && s.drained (asOf t + 1) then
      match s.redReady [asOf t] with
      | (s, true) => .next (((s.leaveSlot (asOf t + 1)).leaveSlot (asOf t)).blockDone th.block)
      | (s, false) => .next s
    else .refused .notEnabled

end Sys2Proof.Machine
end

