-- ==== Sys2Proof/Machine/Engine.lean ====
section
/-! DEFINITION. Engine ports: the front end, the parameter stack, completion records, halts and pacing, and the accesses that
engines make (R86-R88, R300-R315, R402, R412). -/

namespace Sys2Proof.Machine

/-! ## Streams and the units that serve them -/

/-- Port of a stream. -/
def portNo (k : Nat) : Nat := k % 8

def isHartStream (k : Nat) : Bool := 40000 ≤ k && k < 41000
/-- A stream of a block that is saved: nothing leaves it (R304). -/
def isSavedStream (k : Nat) : Bool := 100000 ≤ k
def hartOf (k : Nat) : Nat := (k - 40000) / 8

/-- The core that a stream belongs to. -/
def streamCore (k : Nat) : Nat := coreOf (k / 8)

/-- Key of semaphore n as a stream names it (R320, R494). -/
def streamSem (k n : Nat) : Nat := if isHartStream k then hartSemKey (hartOf k) n else semKey (streamCore k) n

/-- The SIMT or tile course of a core, counted over both dies (R20). -/
def courseOf (u : Nat) : Nat := if u < 64 then [0, 1, 4, 5, 6, 7, 10, 11].getD (u / 8) 0 else [2, 3, 8, 9].getD (groupOf u / 4) 2

/-- Whether a core lies on the west die. -/
def westCore (u : Nat) : Bool := if u < 64 then 32 ≤ u else 8 ≤ groupOf u

/-- The engine that serves a stream (R300, R494): for copies, one engine of the course that is not restarting. -/
def State.engineOf (s : State) (k : Nat) : Nat :=
  let west := if isHartStream k then 12 ≤ hartOf k else westCore (streamCore k)
  match portNo k with
  | 2 => 0x1000 + streamCore k
  | 3 => 0x2000 + 4 * ((s.stream k).ident.map (·.array)).getD (groupOf (streamCore k))
  | 4 => 0x8000
  | 5 => if west then 0x7001 else 0x7000
  | _ =>
    let j := if isHartStream k then (if west then 6 else 0) else courseOf (streamCore k)
    let es := (List.range 4).map fun i => 0x6000 + 4 * j + (k / 8 + i) % 4
    (es.find? fun e => !s.restarting e).getD (es.headD 0)

/-- A vision pipeline runs one launch at a time (R329). -/
def State.pipelineBusy (s : State) (e : Nat) : Bool :=
  s.streams.any fun x => portNo x.1 == 5 && (match x.2.run with | some l => l.engine == e | none => false)

/-- Numbers in cyclic order after the last one served: `last` is that one plus 1, or 0. -/
def afterLast (last : Nat) (l : List Nat) : List Nat := l.filter (last ≤ ·) ++ l.filter (· < last)

/-- The streams that one front end serves, in slot order (R306, R340): the q3 streams of an array, else one queue of a core; a hart's command
port has one of each. -/
def State.frontStreams (s : State) (k : Nat) : List Nat :=
  let u := streamCore k
  if isHartStream k || isSavedStream k then [k]
  else if u < 64 then (List.range 64).map fun w => streamKey (64 * u + w) (portNo k)
  else if portNo k = 3 then
    let a (j : Nat) : Nat := ((s.stream j).ident.map (·.array)).getD (groupOf (streamCore j))
    ((List.range 8).map fun i => streamKey (4096 + 8 * groupOf u + i) 3).filter fun j => a j == a k
  else [streamKey (4096 + 2 * (u - 64)) (portNo k), streamKey (4097 + 2 * (u - 64)) (portNo k)]

/-! ## Records, halts and what leaves a stream (R302, R305, R310, R313, R314) -/

/-- A completion record. -/
def record (status port seq ctx mark : Nat) : W64 :=
  BitVec.ofNat 64 (status * 2 ^ 56 + port * 2 ^ 53 + seq % 32 * 2 ^ 48 + ctx % 4096 * 2 ^ 36 + mark % 2 ^ 36)

/-- A record enters the return FIFO: in the place reserved for it, or behind the others where there is room; a fault's waits
otherwise. -/
def Stream.putRecord (x : Stream) (r : W64) (reserved fault : Bool) : Stream :=
  let x := if reserved then { x with reserved := x.reserved - 1 } else x
  if reserved || (x.fifo.length + x.reserved < 8 && x.waitRecs.isEmpty) then
    let n := x.fifo.length
    { x with fifo := x.fifo ++ [r], haltLeft := if n < x.haltLeft then x.haltLeft + 1 else if fault then n + 1 else x.haltLeft }
  else { x with waitRecs := x.waitRecs ++ [r], haltLeft := x.fifo.length + x.waitRecs.length + 1 }

/-! ## ACCWIN and UNLEASE behind words of q3 (R199, R355) -/

/-- A window becomes that of XS t, or, once it has exited, that of its streams and of its block's record. -/
def State.setWindow (s : State) (t : Nat) (w : Nat × Nat) : State :=
  match s.thread? t with
  | some th => s.setThread t { th with wbase := w.1, wlim := w.2 }
  | none =>
    [t - 1, t].foldl (fun s m =>
      let k := streamKey m 3
      let s := match (s.stream k).ident with
        | some i => s.mapBlock i.block fun b => if i.span then { b with wins := b.wins.insert (i.array % 4) w } else b
        | none => s
      s.mapStream k fun x => { x with ident := x.ident.map fun i =>
        { i with win := w, wins := if i.wins.isEmpty then i.wins else i.wins.insert (i.array % 4) w } }) s

/-- The words have left that it waits for. -/
def State.ridgePassed (s : State) (e : RidgeWait) : Bool := e.ups.all fun u => u.2 ≤ (s.stream u.1).taken

/-- Every ACCWIN and UNLEASE whose words have left takes effect, in the order of their issue. -/
def State.passRidge (s : State) : State :=
  if s.ridgeWaits.isEmpty then s
  else (s.ridgeWaits.filter s.ridgePassed).foldl (fun s e =>
    match e.win with
    | some w => e.ms.foldl (fun s m => s.setWindow m w) s
    | none => e.ms.foldl (fun s m => if (s.leaseOf m).isSome then s.dropLease m else s) s)
    { s with ridgeWaits := s.ridgeWaits.filter fun e => !s.ridgePassed e }

/-- Nothing waits for a stream that is gone. -/
def State.freeRidge (s : State) (k : Nat) : State :=
  { s with ridgeWaits := s.ridgeWaits.map fun e => { e with ups := e.ups.filter (·.1 != k) } }

/-- An orphan stream that has nothing left is gone (R305). -/
def State.tidyStream (s : State) (k : Nat) : State :=
  let x := s.stream k
  if x.orphan && x.buf.isEmpty && x.run.isNone then
    let s := ((s.setStream k emptyStream).freeRidge k).passRidge
    -- the lease of a holder that has exited ends with its q3 streams (R342)
    if portNo k = 3 && isTile (k / 8) && (s.thread? (k / 8)).isNone && !s.ridgeBusy (k / 8) then s.quitLease (asOf (k / 8) + 1) else s
  else s

/-- A launch word leaves; the counter of a saved thread falls in its image too (R304, R310). -/
def State.dropWord (s : State) (k : Nat) (w : W16 × Option (Fin 6) × List Nat) : State :=
  let s := s.discardWord k w
  if isLaunchWord w.1 then s.imageDown w.2.2 w.2.1 else s

/-- The stream halts: its stack is cleared and every word behind is discarded. -/
def State.haltStream (s : State) (k : Nat) : State :=
  let ws := (s.stream k).buf
  let s := s.mapStream k fun x => { x with buf := [], stack := [], halted := !x.orphan, taken := x.taken + ws.length }
  (ws.foldl (fun s w => s.dropWord k w) s).passRidge

/-- The asynchronous cause that a faulting word leaves with its pusher (R232, R233, R462); a matrix word that finds too few entries leaves its
record only (R346). -/
def State.trapPusher (s : State) (k status : Nat) (w : W16) : State :=
  if isHartStream k || isSavedStream k || (s.stream k).orphan then s
  else if status = 0x20 && portNo k = 3 && isLaunchWord w && !(decode16 w).acceptedBy 2 then s
  else if status = 0x18 then s.postTo (k / 8) cSemCeiling (BitVec.ofNat 64 (w.toNat % 16))
  else if 0x20 ≤ status && status ≤ 0x25 then s.postTo (k / 8) status (BitVec.ofNat 64 (w.toNat + portNo k * 65536))
  else s

/-- A word leaves its stream for good, with its status and mark: its record, its counter, and the halt that a fault makes. -/
def State.leaveWord (s : State) (k : Nat) (w : W16 × Option (Fin 6) × List Nat) (status mark : Nat) (wants reserved : Bool) : State :=
  let x := s.stream k
  let ctx := (x.ident.map (·.ctx)).getD 0
  let r := record status (portNo k) x.seq.toNat ctx mark
  let vi := (x.ident.map (·.vi)).getD 0
  let s :=
    if x.orphan then
      if status = 0 then s else s.log 0x0420 (coreSource (streamCore k)) (vi * 4096 + ctx) r (BitVec.ofNat 64 (portNo k * 256 + k / 8 % 64))
    else if wants || status != 0 then s.setStream k (x.putRecord r reserved (status != 0))
    else s
  let s := s.dropWord k w
  let s := if status = 0 then s else (s.haltStream k).trapPusher k status w.1
  (s.imageStreams (k / 8)).tidyStream k

/-! ## Dequeue (R306, R308) -/

/-- The stream whose head word is being dequeued. -/
def headWord (s : State) (f : Nat → Stream → W16 × Option (Fin 6) × List Nat → State → Out) : Out :=
  match s.cur with
  | .stream k =>
    match (s.stream k).buf with
    | [] => .refused .notActing
    | w :: rest =>
      if isSavedStream k then .next { s with held := true }
      else match f k ((s.stream k).pop rest) w s with
        | .next s => .next s.passRidge
        | o => o
  | _ => .refused .notActing

/-- The head word faults. -/
def faultWord (k : Nat) (x : Stream) (w : W16 × Option (Fin 6) × List Nat) (status : Nat) (s : State) : Out :=
  .next ((s.setStream k x).leaveWord k w status 0 false false)

/-- One stack word (R307): `none` is ENGINE_STACK. The newest entry is the head. -/
def stackStep (w : Nat) (st : List W64) : Option (List W64) :=
  if w < 0x8000 then if st.length < 8 then some (BitVec.ofNat 64 w :: st) else none
  else if w < 0xC000 then
    match st with
    | t :: l => some ((t <<< 14 ||| BitVec.ofNat 64 (w % 16384)) :: l)
    | [] => none
  else if w = 0xC000 then
    match st with
    | t :: l => if st.length < 8 then some (t :: t :: l) else none
    | [] => none
  else if w = 0xC001 then
    match st with
    | _ :: l => some l
    | [] => none
  else if w = 0xC002 then
    match st with
    | t :: n :: l => some (n :: t :: l)
    | _ => none
  else if w = 0xC003 then
    match st with
    | t :: n :: l => if st.length < 8 then some (n :: t :: n :: l) else none
    | _ => none
  else if w = 0xC004 then
    match st with
    | t :: n :: l => some ((n + t) :: l)
    | _ => none
  else if w = 0xC005 then
    match st with
    | t :: n :: l => some ((n * t) :: l)
    | _ => none
  else if w = 0xC006 then some []
  else some st

/-- A stack word takes effect as it is dequeued. -/
def stackExec (v : Nat) (s : State) : Out :=
  headWord s fun k x w s =>
    match stackStep v x.stack with
    | some st => .next ((s.setStream k { x with stack := st }).tidyStream k)
    | none => faultWord k x w 0x20 s

/-- LIT (R307). -/
def execLit (v : BitVec 15) (s : State) : Out := stackExec v.toNat s
/-- LITX (R307). -/
def execLitx (v : BitVec 14) (s : State) : Out := stackExec (0x8000 + v.toNat) s
/-- DUP (R307). -/
def execDup (s : State) : Out := stackExec 0xC000 s
/-- DROP (R307). -/
def execDrop (s : State) : Out := stackExec 0xC001 s
/-- SWAP (R307). -/
def execSwap (s : State) : Out := stackExec 0xC002 s
/-- OVER (R307). -/
def execOver (s : State) : Out := stackExec 0xC003 s
/-- ADD (R307). -/
def execAdd (s : State) : Out := stackExec 0xC004 s
/-- MUL (R307). -/
def execMul (s : State) : Out := stackExec 0xC005 s
/-- CLR (R307). -/
def execClr (s : State) : Out := stackExec 0xC006 s
/-- 0xFFFF (R307). -/
def execEngineNop (s : State) : Out := stackExec 0xFFFF s

/-- A word that names nothing, or that its queue does not accept (R87): a launch-class word waits for the launch before it. -/
def execEngineWord (v : W16) (s : State) : Out :=
  headWord s fun k x w s =>
    if isLaunchWord v && x.run.isSome then .next { s with held := true } else faultWord k x w 0x21 s

/-! ## Starting a launch word (R306, R308, R313, R315) -/

def qpaceOff (u port : Nat) : Nat := 0x20000 + 0x40 * u + 8 * port

/-- Key of a queue's last data launch. -/
def paceKey (k : Nat) : Nat := (if isHartStream k then 128 + hartOf k else streamCore k) * 8 + portNo k

/-- A data launch of a queue is held by its GAP: less than GAP gutter cycles, two in a nanosecond, have gone by. -/
def State.paced (s : State) (k : Nat) : Bool :=
  !isHartStream k && s.cfgAt (qpaceOff (streamCore k) (portNo k)) != 0 && s.lastData.get 0 (paceKey k) != 0

/-- A data launch starts: the next one of its queue is held for the GAP, until QPACE_GAP_ELAPSED. Device time 0 is kept as 1. -/
def State.startPace (s : State) (k : Nat) : State :=
  { s with lastData := s.lastData.set 0 (paceKey k) (if s.time = 0 then 1 else s.time) }

/-- The gutter cycles of the GAP have passed since the previous data launch of the queue started. -/
def execQpaceGapElapsed (u port : Nat) (s : State) : Out :=
  let key := u * 8 + port
  let last := s.lastData.get 0 key
  let gap := (s.cfgAt (qpaceOff u port)).toNat % 65536
  if last = 0 || 2 * (s.time - last).toNat < gap then .refused .notEnabled
  else .next { s with lastData := s.lastData.set 0 key 0 }

/-- A launch of the pipeline waits at the head of stream k, and nothing but the pipeline holds it. -/
def State.pipelineWaits (s : State) (k : Nat) : Bool :=
  let x := s.stream k
  match x.buf with
  | [] => false
  | w :: _ => (decode16 w.1).acceptedBy 5 && !(decode16 w.1).acceptedBy 0 && x.run.isNone && !isSavedStream k && !s.paced k &&
      (!w.1.getLsbD 4 || x.orphan || x.fifo.length + x.reserved < 8)

/-- The pipeline of a die takes its launches round robin: in increasing core number and stream order, the harts after the cores (R329, R494). -/
def State.pipelineTurn (s : State) (k : Nat) : Bool :=
  let e := s.engineOf k
  let ks := (s.streams.map (·.1)).filter fun j => portNo j == 5 && s.engineOf j == e && s.pipelineWaits j
  (afterLast (s.served.get 0 (50000 + e)) ks).head? == some k

/-- The launch word at the head: it waits for the launch before it, for a slot of the FIFO, for its queue's pace and for its
engine; then its n parameters are popped and `go` starts it. What a vision launch does on a die whose pipeline VISEN marks disabled (R22) the
manual leaves open: it runs (DESIGN CHOICE, log entry 63). -/
def launchWord (i : Instr) (n : Nat) (data wants : Bool)
    (go : Nat → Stream → W16 × Option (Fin 6) × List Nat → List W64 → State → Out) (s : State) : Out :=
  headWord s fun k x w s =>
    let w := ((encode16 i).getD w.1, w.2)
    let hold : Out := .next { s with held := true }
    if x.run.isSome then hold
    else if !i.acceptedBy (portNo k) then faultWord k x w 0x21 s
    else if x.stack.length < n then faultWord k x w 0x20 s
    else if wants && !x.orphan && 8 ≤ x.fifo.length + x.reserved then hold
    else if data && s.paced k then hold
    else if data && (s.restarting (s.engineOf k) || s.engineHalted (s.engineOf k)) then hold
    else if portNo k = 5 && data && (s.pipelineBusy (s.engineOf k) || !s.pipelineTurn k) then hold
    else
      let s := if portNo k = 5 && data then { s with served := s.served.set 0 (50000 + s.engineOf k) (k + 1) } else s
      go k { x with stack := x.stack.drop n } w (x.stack.take n).reverse (if data then s.startPace k else s)

/-- The identity of a stream; one that nothing has pushed to has none. -/
def Stream.who (x : Stream) : Ident :=
  x.ident.getD { vi := 0, ctx := 0, card := none, block := 0, who := 0, spBase := 0, spSize := 0, array := 0, span := false, win := (1, 0) }

/-- A launch under way. -/
def newLaunch (s : State) (k : Nat) (x : Stream) (w : W16 × Option (Fin 6) × List Nat) (ps : List W64) (wants : Bool) : Launch :=
  { word := w.1, prm := ps, reserved := wants, start := s.time, at_ := s.clock, engine := s.engineOf k, status := 256, mark := 0, hs := [],
    reads := [], done := 0, fail := 0, mig := none, passed := [], banks := 0, rows := [], wc := w.2.1, members := w.2.2, ident := x.who }

/-- Puts a launch under way. -/
def State.startLaunch (s : State) (k : Nat) (x : Stream) (l : Launch) : State :=
  s.setStream k { x with run := some l, reserved := if l.reserved && !x.orphan then x.reserved + 1 else x.reserved }

/-- The launch under way ends (R310). -/
def State.endLaunch (s : State) (k : Nat) (l : Launch) (status mark : Nat) : State :=
  (s.mapStream k fun x => { x with run := none }).leaveWord k (l.word, l.wc, l.members) status mark l.reserved (l.reserved && !(s.stream k).orphan)

/-! ## What engines read and write (R309, R402, R412, R478) -/

/-- Why an engine's access does not go on. -/
inductive Halt where
  | status (n : Nat)
  /-- M is set in an entry on the way to this page (R407) -/
  | mig (page : Nat)
  /-- held at a weir (R478) -/
  | held
  deriving DecidableEq, Repr

/-- What an engine does for the launch under way on a stream. -/
abbrev Eng := ExceptT Halt (StateM State)

def Eng.run' {α : Type} (e : Eng α) (s : State) : Except Halt α × State := e s

/-- Ends the launch with a status. -/
def engFail {α : Type} (n : Nat) : Eng α := throw (.status n)

/-- Number of the stream TLB of an engine (R409). -/
def engineTlb (e : Nat) : Nat := e - 0x1000

/-- Changes the launch under way on stream k. -/
def State.mapLaunch (s : State) (k : Nat) (f : Launch → Launch) : State :=
  s.mapStream k fun x => { x with run := x.run.map f }

/-- The launch under way on stream k. -/
def State.launch? (s : State) (k : Nat) : Option Launch := (s.stream k).run

/-- An error that an engine meets (R294): an error in LPDDR6 also retires the page, one in a scratchpad ends the block that owns the region; the
launch ends with the status that R312 gives an uncorrectable error (log entry 46). -/
def State.engineError (s : State) (m : Meet) (pa : Nat) (id : Ident) : State × Nat :=
  match m with
  | .dram => ({ s with ue := s.ue ++ [{ pa := pa / 128 * 128, slot := none, owner := none, stage := 1 }] }, 0x2B)
  | .sram p => (s.loseSram p, 0x2A)
  | _ =>
    let mine := s.charges (identity id.vi id.ctx) pa
    (s, if mine then 0x2A else 0x2C)

/-- Fails with the status of an error met. -/
def engLost {α : Type} (m : Meet) (pa : Nat) (id : Ident) : Eng α := do
  let s ← get
  let (s, st) := s.engineError m pa id
  set s
  engFail st

/-- Whether a space accepts an engine's reference (R309): core scratchpads for warps, group scratchpads for tile sequencers, saved or not. -/
def engineSpace (k : Nat) (he : HEntry) : Bool :=
  if he.space = 1 then !isHartStream k && !isTile (k / 8)
  else if he.space = 2 then !isHartStream k && isTile (k / 8)
  else true

/-- The handle entry of a reference, read once for the launch. -/
def engHandle (k : Nat) (l : Launch) (ref : W64) : Eng HEntry := do
  let s ← get
  let n := bitsOf ref.toNat 56 8
  let known := match s.launch? k with
    | some y => y.hs.find? (·.idx == n)
    | none => none
  match known with
  | some h => if engineSpace k h then pure h else engFail cHandleInvalid
  | none =>
    match s.handle 1000 l.ident.vi l.ident.ctx n with
    | (s, .ok h) => do
      set (s.mapLaunch k fun y => { y with hs := h :: y.hs })
      if engineSpace k h then pure h else engFail cHandleInvalid
    | (s, .invalid) => do
      set s
      engFail cHandleInvalid
    | (s, .err m pa) => do
      set s
      engLost m pa l.ident

/-- Offset of a reference. -/
def refOff (ref : W64) : Int := bitsOf ref.toNat 0 56

/-- Checks 3 and 4 of R241 over n bytes at an offset. -/
def State.engCheck (s : State) (l : Launch) (he : HEntry) (write : Bool) (off : Int) (n : Nat) : Option Nat :=
  if !(if write then he.canW else he.canR) then some cPermission
  else if n = 0 then none
  else if off < 0 || (he.len.toNat : Int) < off + n then some cBounds
  else
    let a := (he.base + BitVec.ofInt 64 off).toNat
    match he.space with
    | 1 => if l.ident.spSize < a + n then some cBounds else none
    | 2 => if l.ident.spSize < a + n then some cBounds else none
    | 4 => match s.carvedPlace l.ident.vi a, s.carvedPlace l.ident.vi (a + n - 1) with
      | some _, some _ => none
      | _, _ => some cBounds
    | _ => none

def engRange (l : Launch) (he : HEntry) (write : Bool) (off : Int) (n : Nat) : Eng Unit := do
  let s ← get
  match s.engCheck l he write off n with
  | some c => engFail c
  | none => pure ()

/-- Bytes that the held leaf of an address covers. -/
def State.leafSpan (s : State) (w : Walker) (a : Nat) : Nat :=
  match s.tlb.find? fun e => e.where_ == w.leaves && e.isLeaf && e.covers w.vi w.ctx a with
  | some e => 2 ^ lvlBits e.level
  | none => 65536

/-- The first access of a launch within a page walks the next page in its order: that of its next row or element, else the next higher one. A
walk that does not reach a leaf leaves nothing (R411). -/
def State.prefetchPage (s : State) (k : Nat) (he : HEntry) (w : Walker) (a : Nat) : State :=
  match s.launch? k with
  | none => s
  | some y =>
    let span := s.leafSpan w a
    let page := a / span * span
    if y.pages.contains page then s
    else
      let s := s.mapLaunch k fun y => { y with pages := page :: y.pages }
      let next := match y.ahead.find? (·.1 == he.idx) with
        | some e => (he.base + BitVec.ofInt 64 e.2).toNat
        | none => page + span
      if 2 ^ 52 ≤ next then s
      else match s.walk w next with
        | (s', .leaf _ _) => s'
        | _ => s

/-- Where one byte of a checked reference falls; frames of the configuration space give PERMISSION. -/
def engPlace (k : Nat) (l : Launch) (he : HEntry) (write : Bool) (off : Int) : Eng Place := do
  let s ← get
  let a := (he.base + BitVec.ofInt 64 off).toNat
  -- the region of a saved block is the one in its image (R304)
  let region (p : Place) : Place := if isSavedStream k then (s.imageByte l.ident.block a).getD (.dev 0x1000000) else p
  match he.space with
  | 1 => pure (region (.core (streamCore k) (l.ident.spBase + a)))
  | 2 => pure (region (.group (groupOf (streamCore k)) (l.ident.spBase + a)))
  | 3 => pure (if he.core < 64 then .core he.core a else .group (groupOf he.core) a)
  | 4 =>
    match s.carvedPlace l.ident.vi a with
    | some p => pure p
    | none => engFail cBounds
  | sp =>
    let w := engineWalker (engineTlb l.engine) l.ident.vi l.ident.ctx l.engine
    match s.translate w a (if write then .w else .r) (sp == 6) with
    | (s, .ok pa _) => do
      set (s.prefetchPage k he w a)
      match placeOf pa with
      | .dev _ => engFail cPermission
      | p => pure p
    | (s, .fault c _) => do
      set s
      engFail c
    | (s, .mig _ lv) => do
      set s
      throw (.mig (a / 65536 + if lv = noReply then 2 ^ 60 else 0))
    | (s, .err m pa) => do
      set s
      engLost m pa l.ident

/-- A line of memory that the Mere does not hold passes its weir (R478); a slice pair that stands still answers nothing (R488). -/
def engMeter (k : Nat) (l : Launch) (p : Place) : Eng Unit := do
  let s ← get
  if (match p.line with | some ln => s.lineHalted ln | none => false) then throw .held
  match p with
  | .mem pa =>
    let passed := match s.launch? k with
      | some y => y.passed.contains (pa / 128)
      | none => false
    if passed || (s.findWay pa).isSome then set (s.leaveWeir (.launch k l.at_))
    else
      match s.weirPass l.ident.card (.launch k l.at_) (pa / 128) with
      | (s, true) => set (s.mapLaunch k fun y => { y with passed := pa / 128 :: y.passed })
      | (s, false) => do
        set (match l.ident.card with | some c => s.heldAtWeir c | none => s)
        throw .held
  | _ => pure ()

/-- Reads one byte at its home. -/
def engReadByte (k : Nat) (l : Launch) (p : Place) : Eng Byte := do
  engMeter k l p
  let s ← get
  match s.readHome [p] (identity l.ident.vi l.ident.ctx) true with
  | (s, bs, .data) => do
    set s
    pure (bs.headD 0)
  | (s, _, m) => do
    set s
    engLost m (match p with | .mem pa => pa | _ => 0) l.ident

/-- Places of n bytes from an offset. -/
def engPlaces (k : Nat) (l : Launch) (he : HEntry) (write : Bool) (off : Int) (n : Nat) : Eng (List Place) :=
  (List.range n).mapM fun (i : Nat) => engPlace k l he write (off + (i : Int))

/-- Reads n bytes at an offset, with their places. -/
def engRead (k : Nat) (l : Launch) (he : HEntry) (off : Int) (n : Nat) : Eng (List (Place × Byte)) :=
  (List.range n).mapM fun (i : Nat) => do
    let p ← engPlace k l he false (off + (i : Int))
    let b ← engReadByte k l p
    pure (p, b)

/-- Reads n checked bytes as a number. -/
def engNat (k : Nat) (l : Launch) (he : HEntry) (off : Int) (n : Nat) : Eng Nat := do
  engRange l he false off n
  let bs ← engRead k l he off n
  pure (ofBytes (bs.map (·.2)))

/-- Writes bytes at places, at device scope (R266). -/
def engWrite (k : Nat) (l : Launch) (ws : List (Place × Byte)) : Eng Unit := do
  let _ ← ws.mapM fun w => engMeter k l w.1
  modify fun s => (s.writeRun (identity l.ident.vi l.ident.ctx) true (ws.length + 1) ws).clearPoison (ws.map (·.1))

/-- Writes checked bytes at an offset. -/
def engStore (k : Nat) (l : Launch) (he : HEntry) (off : Int) (bs : List Byte) : Eng Unit := do
  engRange l he true off bs.length
  let ps ← engPlaces k l he true off bs.length
  engWrite k l (ps.zip bs)

/-! ## Running a launch -/

/-- The wait of a launch for a page: a wait for M and one for the link count apart, and the 16 us run from the attempt's first M (R406, R407). -/
def migSince (old : Option (Nat × W64 × Option W64)) (a : Nat) (now : W64) : Nat × W64 × Option W64 :=
  let o := old.filter fun m => m.1 % 2 ^ 60 == a % 2 ^ 60
  let first := o.bind fun m => m.2.2
  (a, ((o.filter fun m => m.1 == a).map fun m => m.2.1).getD now, if 2 ^ 60 ≤ a then first else some (first.getD now))

/-- The status with which a launch has waited too long: 16 us since its attempt first found M, or 64 us for a reply (R406, R407). -/
def migOver (m : Nat × W64 × Option W64) (now : W64) : Option Nat :=
  if m.2.2.any fun t => 16000 ≤ (now - t).toNat then some cMigrationStall
  else if 2 ^ 60 ≤ m.1 && 64000 ≤ (now - m.2.1).toNat then some cPacketLost
  else none

/-- Takes a launch as far as it goes: what it did stays; its status and mark, or what it waits for. `e` gives the mark at its end,
and the mark of a launch that fails is the one it has reached. -/
def State.runEngine (s : State) (k : Nat) (e : Eng Nat) : State :=
  match e s with
  | (.ok mark, s) => s.mapLaunch k fun y => { y with status := 0, mark := mark, mig := none }
  | (.error (.status n), s) => s.mapLaunch k fun y => { y with status := n, mig := none }
  | (.error (.mig a), s) => s.mapLaunch k fun y => { y with mig := some (migSince y.mig a s.time) }
  | (.error .held, s) => s.mapLaunch k fun y => { y with mig := none }

/-- Something that leaves nothing behind where it fails. -/
def engTry {α : Type} (e : Eng α) : Eng (Option α) := fun s =>
  match e s with
  | (.ok a, s') => (.ok (some a), s')
  | (.error _, _) => (.ok none, s)

/-- The next row or element by handle, for the prefetch of R411. -/
def engAhead (k : Nat) (l : List (Nat × Int)) : Eng Unit := modify fun s => s.mapLaunch k fun y => { y with ahead := l }

/-- Counts units done. -/
def engMark (k : Nat) (mark : Nat) : Eng Unit := modify fun s => s.mapLaunch k fun y => { y with mark := mark, passed := [], mig := none }

/-- The launch as it stands now. -/
def engSelf (k : Nat) (l : Launch) : Eng Launch := do
  let s ← get
  pure ((s.launch? k).getD l)

/-- Starts a launch and takes it as far as it goes. -/
def startEngine (wants : Bool) (e : Nat → Launch → Eng Nat) (k : Nat) (x : Stream) (w : W16 × Option (Fin 6) × List Nat) (ps : List W64)
    (s : State) : Out :=
  let l := newLaunch s k x w ps wants
  .next ((s.startLaunch k x l).runEngine k (e k l))

end Sys2Proof.Machine
end

