-- ==== Sys2Proof/Machine/Sync.lean ====
section
/-! DEFINITION. Barriers, semaphores, read sections and grace periods (R434, R455-R471). -/

namespace Sys2Proof.Machine

/-! ## Barriers (R434, R463-R465) -/

/-- Barrier n of a kind as thread t names it. -/
def State.barrierOf (s : State) (k : BarKind) (t n : Nat) : Barrier :=
  match s.thread? t with
  | none => freshBar
  | some th =>
    match k with
    | .blk => match s.block? th.block with
      | some b => b.bars.get freshBar n
      | none => freshBar
    | .cor => s.coreBars.get freshBar (coreOf t * 8 + n)
    | .job => s.jobBars.get freshBar (th.vi * 4 + n)

/-- Replaces barrier n of a block, a core or an interface. -/
def State.setBarrier (s : State) (k : BarKind) (own n : Nat) (x : Barrier) : State :=
  match k with
  | .blk => s.mapBlock own fun b => { b with bars := Tbl.set freshBar b.bars n x }
  | .cor => { s with coreBars := s.coreBars.set freshBar (own * 8 + n) x }
  | .job => { s with jobBars := s.jobBars.set freshBar (own * 4 + n) x }

/-- Whose barrier a thread names. -/
def barOwner (k : BarKind) (t : Nat) (th : Thread) : Nat :=
  match k with
  | .blk => th.block
  | .cor => coreOf t
  | .job => th.vi

/-- The key of a party: the warp, or the AS of the tile thread. -/
def partyKey (t : Nat) : Nat := if isTile t then asOf t else t

/-- The episode in which an arrival of thread t at barrier n counts: of one that joined in an episode under way, the next (R464). -/
def State.episodeFor (s : State) (k : BarKind) (n t : Nat) : Nat :=
  let bar := s.barrierOf k t n
  let late := match k with
    | .job => match s.thread? t with
      | some th => bar.late.contains th.block
      | none => false
    | _ => bar.late.contains (partyKey t)
  if late then bar.episode + 1 else bar.episode

/-- Whether a thread is a member of a barrier (R434). -/
def State.barMember (s : State) (k : BarKind) (t n : Nat) : Bool :=
  match (s.thread? t).bind fun th => s.block? th.block with
  | none => false
  | some b => b.thr.contains (partyKey t) && (match k with | .blk => true | .cor => b.cbar.getLsbD n | .job => b.jbar.getLsbD n)

/-- A party that takes part still: a warp, or a tile thread of which a sequencer does. -/
def State.partyOn (s : State) (t : Nat) : Bool :=
  if isTile t then s.takesPart t || s.takesPart (t + 1) else s.takesPart t

/-- A thread's arrival at barrier n in episode e. -/
def Thread.hasArv (th : Thread) (k : BarKind) (n e : Nat) : Bool := th.arvd.contains (k, n, e)

/-- Every access of these threads has performed. -/
def State.quiet (s : State) (ms : List Nat) : Bool := ms.all fun m => (s.pendsOf m).all (·.done)

/-- Accesses before an arrival are seen at the barrier's scope, and the batches of the block leave (R267, R448, R465). -/
def State.beforeBar (s : State) (k : BarKind) (t : Nat) (th : Thread) : State :=
  let s := s.flushClasses th.block 0xFFFF
  if k = .job || isTile t then s.l1Flush (coreOf t) else s

/-- Party t arrives at barrier n. -/
def State.arrive (s : State) (k : BarKind) (n t : Nat) : State :=
  match s.thread? t with
  | none => s
  | some th =>
    let bar := s.barrierOf k t n
    let e := s.episodeFor k n t
    let th' := { th with arvd := (k, n, e) :: th.arvd.filter fun e => !(e.1 == k && e.2.1 == n) }
    ((s.setThread t th').beforeBar k t th).setBarrier k (barOwner k t th) n { bar with begun := bar.begun || e == bar.episode }

/-- What goes on after a barrier sees what came before it (R465): at block or core scope of a SIMT core also what the others on the core have
acquired (R262, R266). -/
def State.afterBar (s : State) (k : BarKind) (n t : Nat) : State :=
  let s := s.mapThread (partyKey t) fun th => { th with arvd := th.arvd.filter fun e => !(e.1 == k && e.2.1 == n) }
  let s := s.mapThread t fun th => { th with barAt := none }
  if k = .job || isTile t then s.acquireAll t else s.takeOver t fun _ => true

/-- The BAR at which a thread waits, if it is this one. -/
def State.atBar (s : State) (k : BarKind) (n mode : Nat) (pc : Addr) (t : Nat) : Option BarWait :=
  match (s.thread? t).bind (·.barAt) with
  | some w => if w.kind = k && w.n = n && w.mode = mode && w.pc = pc then some w else none
  | none => none

def State.setBarAt (s : State) (t : Nat) (w : BarWait) : State := s.mapThread t fun th => { th with barAt := some w }

/-- The episode count at which a party that arrived may go on: 0 where it has no arrival. -/
def State.target_ (s : State) (k : BarKind) (n t : Nat) : Nat :=
  match s.thread? (partyKey t) with
  | some th => match th.arvd.find? fun e => e.1 == k && e.2.1 == n with
    | some e => e.2.2 + 1
    | none => 0
  | none => 0

/-- XVAL of BARRIER_MEMBER: IMM<5:0>. -/
def barVal (k : BarKind) (n : Nat) : W64 :=
  BitVec.ofNat 64 ((match k with | .blk => 0 | .cor => 1 | .job => 2) + 4 * n)

/-- BAR of the warps of a SIMT scope. -/
def simtBar (k : BarKind) (n mode : Nat) (c : Ctx0) (s : State) : Res :=
  if mode = 1 then
    if s.quiet c.mem then .adv (c.mem.foldl (fun s m => s.arrive k n m) s) else .stall
  else if mode = 2 then
    if c.mem.all fun m => s.target_ k n m ≤ (s.barrierOf k m n).episode then .adv (c.mem.foldl (fun s m => s.afterBar k n m) s)
    else .stall
  else if c.mem.all fun m => (s.atBar k n 0 c.pc m).isSome then
    if c.mem.all fun m => match s.atBar k n 0 c.pc m with
        | some w => w.episode ≤ (s.barrierOf k m n).episode
        | none => false then .adv (c.mem.foldl (fun s m => s.afterBar k n m) s)
    else .stall
  else if !s.quiet c.mem then .stall
  else .waitWith fun s => c.mem.foldl (fun s m =>
    let e := s.episodeFor k n m
    let s := match s.thread? m with
      | some th => if th.hasArv k n e then s else s.arrive k n m
      | none => s
    s.setBarAt m { kind := k, n := n, mode := 0, pc := c.pc, episode := e + 1, counted := true }) s

/-- A sequencer reaches a BAR; with its partner at the same BAR, the tile thread arrives (R463). -/
def State.tileReach (s : State) (k : BarKind) (n mode : Nat) (pc : Addr) (m : Nat) : State :=
  let own : BarWait := { kind := k, n := n, mode := mode, pc := pc, episode := 0, counted := false }
  match (s.thread? (pairOf m)).bind (·.barAt) with
  | some w =>
    if !w.counted && s.quiet [m, pairOf m] then
      let s := if mode = 2 then s else
        match s.thread? (asOf m) with
        | some th => if mode = 0 && th.hasArv k n (s.episodeFor k n m) then s else s.arrive k n (asOf m)
        | none => s
      let tgt := s.target_ k n m
      (s.setBarAt m { own with episode := tgt, counted := true }).setBarAt (pairOf m) { w with episode := tgt, counted := true }
    else s.setBarAt m own
  | none => s.setBarAt m own

/-- The two sequencers wait at different BARs, or the AS has gone: the XS takes SCOPE_MISMATCH. -/
def State.barMismatch (s : State) (c : Ctx0) (m : Nat) : State :=
  let x := asOf m + 1
  let pcOf (t : Nat) : Addr := match s.thread? t with
    | some th => if t = m then c.pc else match th.barAt with
      | some w => w.pc
      | none => (th.slice 0).pc
    | none => 0
  let clear (th : Thread) : Thread := { th with barAt := none }
  ((s.mapThread (asOf m) clear).mapThread x clear).trapWord
    { c with t := x, mem := [x], pc := pcOf x, act := [(x, 1)], gang := 1 } cScopeMismatch ((pcOf (asOf m)).setWidth 64) none false

/-- BAR of tile sequencers. -/
def tileBar (k : BarKind) (n mode : Nat) (c : Ctx0) (s : State) : Res :=
  let counted := c.mem.all fun m => match s.atBar k n mode c.pc m with
    | some w => w.counted
    | none => false
  if counted then
    if mode = 1 then .adv (c.mem.foldl (fun s m => s.mapThread m fun th => { th with barAt := none }) s)
    else if c.mem.all fun m => match s.atBar k n mode c.pc m with
        | some w => w.episode ≤ (s.barrierOf k m n).episode
        | none => false then .adv (c.mem.foldl (fun s m => s.afterBar k n m) s)
    else .stall
  else
    match c.mem.find? fun m => otherGone s m with
    | some m =>
      if m % 2 = 1 then .waitWith fun s => s.barMismatch c m
      else match s.thread? m with
        | some th => .moved (s.killBlock th.block (BitVec.ofNat 64 cScopeMismatch) (c.pc.setWidth 64))
        | none => .stall
    | none =>
      match c.mem.find? fun m => match (s.thread? (pairOf m)).bind (·.barAt) with
          | some w => !w.counted && !(w.kind == k && w.n == n && w.mode == mode)
          | none => false with
      | some m => .waitWith fun s => s.barMismatch c m
      | none => .waitWith fun s => c.mem.foldl (fun s m =>
          match s.atBar k n mode c.pc m with
          | some w => if w.counted then s else s.tileReach k n mode c.pc m
          | none => s.tileReach k n mode c.pc m) s

/-- BAR: mode 0 sync, 1 arv, 2 wt. -/
def barWord (mode : Nat) (h : Hdr) (k : BarKind) (n : BitVec 4) (s : State) : Out :=
  issue 0xB0 h [] noExtra
    (fun c s =>
      let n := n.toNat
      if !(c.mem.all fun m => s.barMember k m n) then .trap cBarrierMember (barVal k n) none
      else if mode = 1 && c.mem.any (fun m =>
          (s.atBar k n 1 c.pc m).isNone &&
          (match s.thread? (partyKey m) with
           | some th => th.hasArv k n (s.episodeFor k n m)
           | none => false)) then .trap cIllegalOperand 0x107 none
      else if isTile c.t then tileBar k n mode c s
      else simtBar k n mode c s) s

/-- BAR.sync (R463). -/
def execBarSync (h : Hdr) (k : BarKind) (n : BitVec 4) (s : State) : Out := barWord 0 h k n s

/-- BAR.arv (R463). -/
def execBarArv (h : Hdr) (k : BarKind) (n : BitVec 4) (s : State) : Out := barWord 1 h k n s

/-- BAR.wt (R463). -/
def execBarWt (h : Hdr) (k : BarKind) (n : BitVec 4) (s : State) : Out := barWord 2 h k n s

/-- Parties of a resident block that still take part. -/
def State.parties (s : State) (b : Block) : List Nat := b.thr.filter s.partyOn

/-- Launched threads of a block that remain: resident, or in its image. -/
def State.remaining (s : State) (b : Block) : List Thread :=
  (s.parties b).filterMap s.thread?

/-- Blocks that are members of job barrier n of an interface. -/
def State.jobMembers (s : State) (v n : Nat) : List (Nat × Block) :=
  s.blocks.filterMap fun e => match e.2 with
    | some b => if b.vi == v && b.jbar.getLsbD n && b.phase != .relaunch then some (e.1, b) else none
    | none => none

/-- Warps and tile threads that are members of a block or core barrier. -/
def State.barParties (s : State) (k : BarKind) (own n : Nat) : List Nat :=
  match k with
  | .blk => match s.block? own with
    | some b => if b.phase = .saved then [] else s.parties b
    | none => []
  | .cor => s.blocks.flatMap fun e => match e.2 with
    | some b => if b.cbar.getLsbD n && (b.phase == .resident || b.phase == .saving) then (s.parties b).filter (coreOf · == own) else []
    | none => []
  | .job => []

/-- Whether every current member of barrier n has arrived in its episode. A saved block is a member still: its barriers, and the job barriers of
which it is a member, wait for it to be restored (R464). -/
def State.barComplete (s : State) (k : BarKind) (own n : Nat) (bar : Barrier) : Bool :=
  match k with
  | .job =>
    let ms := (s.jobMembers own n).filter fun e => !bar.late.contains e.1
    let done (e : Nat × Block) : Bool := e.2.phase != .saved && (s.remaining e.2).all fun th => th.hasArv k n bar.episode
    ms.all done && ms.any fun e => !(s.remaining e.2).isEmpty && done e
  | _ =>
    bar.begun && !(k == .blk && (s.block? own).any (·.phase == .saved)) && ((s.barParties k own n).filter fun t => !bar.late.contains t).all fun t =>
      match s.thread? t with
      | some th => th.hasArv k n bar.episode
      | none => true

/-- Blocks whose members take part in a barrier. -/
def State.barBlocks (s : State) (k : BarKind) (own n : Nat) : List Nat :=
  match k with
  | .blk => [own]
  | .job => (s.jobMembers own n).map (·.1)
  | .cor => (s.barParties k own n).filterMap fun t => (s.thread? t).map (·.block)

/-- Entries that publications of these blocks have sent and that are not applied (R267). -/
def State.unapplied (s : State) (bs : List Nat) : Bool :=
  s.batches.any fun m => m.acked.isNone && match s.subs.get none (m.src * 16 + m.srcEntry) with
    | some x => bs.contains x.block
    | none => false

/-- A thread holds contributions that are not applied. -/
def State.holdsReds (s : State) (t : Nat) : Bool := (s.thread? t).any fun th => !th.red.isEmpty

/-- The threads whose round the release of a barrier applies: those of the block, or those that pass the episode of a job barrier (R278). -/
def State.roundOf (s : State) (k : BarKind) (own n : Nat) (bar : Barrier) : List Nat :=
  match k with
  | .blk => s.barParties k own n
  | .cor => []
  | .job => ((s.jobMembers own n).filter fun e => !bar.late.contains e.1).flatMap fun e => s.parties e.2

/-- The next episode opens; it has begun if one that joined late has arrived in it (R464). -/
def State.openEpisode (s : State) (k : BarKind) (own n : Nat) (bar : Barrier) : State :=
  let begun := s.threads.any fun e => match e.2 with
    | some th => barOwner k e.1 th == own && th.hasArv k n (bar.episode + 1)
    | none => false
  s.setBarrier k own n { episode := bar.episode + 1, begun := begun, late := [] }

/-- The round of a barrier is applied, and what it writes to published regions leaves at the barrier (R448). -/
def State.barRound (s : State) (ts bs : List Nat) : State := bs.foldl (fun s b => s.flushClasses b 0xFFFF) (s.applyRound ts)

/-- An episode releases: the rounds of R278 first, the batches of R267 with them, and once these are applied the next episode opens (R464,
R465). -/
def execBarrierRelease (k : BarKind) (own n : Nat) (s : State) : Out :=
  let bar : Barrier := match k with
    | .blk => match s.block? own with
      | some b => b.bars.get freshBar n
      | none => freshBar
    | .cor => s.coreBars.get freshBar (own * 8 + n)
    | .job => s.jobBars.get freshBar (own * 4 + n)
  let bs := s.barBlocks k own n
  let ts := s.roundOf k own n bar
  if !s.barComplete k own n bar then .refused .notEnabled
  else if !ts.any s.holdsReds then
    if s.unapplied bs then .refused .notEnabled else .next (s.openEpisode k own n bar)
  else match s.redReady ts with
    | (s, false) => .next s
    | (s, true) =>
      let s := s.barRound ts bs
      .next (if s.unapplied bs then s else s.openEpisode k own n bar)

/-! ## Semaphores (R456-R462) -/

/-- The sequencers that issue for a party: of a tile thread both (R256). -/
def partySeqs (ms : List Nat) : List Nat := ms.flatMap fun m => if isTile m then [m, pairOf m] else [m]

/-- The release of SEMP and GPSTART: every earlier access of the party performed, at device scope (R461, R468). `none` while one is not. -/
def State.releaseParty (s : State) (ms : List Nat) : Option State :=
  if s.quiet (partySeqs ms) then some (ms.foldl (fun s m => s.l1Flush (coreOf m)) s) else none

/-- A take acquires for its party (R461). -/
def State.acquireParty (s : State) (ms : List Nat) : State := (partySeqs ms).foldl State.acquireAll s

/-- SEMP (R459). -/
def sempWord (h : Hdr) (k : BitVec 4) (f : Nat → State → Option State) (s : State) : Out :=
  issue 0xB1 h [] noExtra
    (fun c s =>
      if c.idle then .adv s
      else match s.releaseParty c.mem with
        | none => .stall
        | some s =>
          match f (semKey (coreOf c.t) k.toNat) s with
          | some s => .adv s
          | none => .moved (s.trapWord c cSemCeiling (k.setWidth 64) none true)) s

/-- SEMP.post. -/
def execSempPost (h : Hdr) (k : BitVec 4) (n : BitVec 8) (s : State) : Out :=
  sempWord h k (fun key s => s.semPost key n.toNat) s

/-- SEMP.init. -/
def execSempInit (h : Hdr) (k : BitVec 4) (v : BitVec 8) (ceil : BitVec 8) (s : State) : Out :=
  sempWord h k (fun key s => some (s.semInit key v.toNat ceil.toNat)) s

/-- The lanes of the path that issues. -/
def pathLanes (s : State) (c : Ctx0) : W32 :=
  match s.thread? c.t with
  | some th => if c.scp = .lane then th.run &&& gangLanes c.gang else th.live
  | none => 0

/-- A take that waits for its turn. -/
def State.waitTake (s : State) (key t n : Nat) (lanes : W32) : State :=
  let x := s.sem key
  let s := { s.setSem key { x with takes := x.takes ++ [{ stream := false, who := t, n := n, ticket := s.ticket }] } with
    ticket := s.ticket + 1 }
  s.mapThread t fun th => { th with takes := { lanes := lanes, sem := key, ticket := s.ticket - 1 } :: th.takes }

/-- SEMW.wait (R460). -/
def execSemwWait (h : Hdr) (k : BitVec 4) (n : BitVec 8) (s : State) : Out :=
  issue 0xB2 h [] noExtra
    (fun c s =>
      match s.thread? c.t with
      | none => .stall
      | some th =>
        let key := semKey (coreOf c.t) k.toNat
        let x := s.sem key
        let lanes := pathLanes s c
        if c.idle then .adv s
        else match th.takes.find? fun r => r.sem == key && r.lanes &&& lanes != 0 with
          | some r =>
            if x.takes.any (·.ticket == r.ticket) then .stall
            else .adv ((s.setThread c.t { th with takes := th.takes.filter (· != r) }).acquireParty c.mem)
          | none =>
            if x.ceil < n.toNat then .trap cIllegalOperand 0x10C none
            else if x.takes.isEmpty && n.toNat ≤ x.value then
              .adv ((s.setSem key { x with value := x.value - n.toNat }).acquireParty c.mem)
            else .waitWith fun s => s.waitTake key c.t n.toNat lanes) s

/-- A predicate result of variable latency that demotes the path when it is false (R51). -/
def demotingPred (s : State) (c : Ctx0) (h : Hdr) (p : BitVec 3) (ok : Bool) : State :=
  let wr := predWrites c p.toNat fun _ _ => ok
  s.push c.t { Pend.value 0 h.sig c.mem wr [] s.clock with demote := if ok then [] else lowLane c }

/-- SEMW.try (R460). -/
def execSemwTry (h : Hdr) (p : BitVec 3) (k : BitVec 4) (n : BitVec 8) (s : State) : Out :=
  issue 0xB2 h [] noExtra
    (fun c s =>
      let key := semKey (coreOf c.t) k.toNat
      let x := s.sem key
      if c.idle then .adv s
      else if x.ceil < n.toNat then .trap cIllegalOperand 0x10C none
      else if x.takes.isEmpty && n.toNat ≤ x.value then
        .adv (demotingPred ((s.setSem key { x with value := x.value - n.toNat }).acquireParty c.mem) c h p true)
      else .adv (demotingPred s c h p false)) s

/-- SEMW.rd (R460). -/
def execSemwRd (h : Hdr) (d : BitVec 8) (k : BitVec 4) (s : State) : Out :=
  issue 0xB2 h [.dst (.scl d) 64] noExtra
    (fun c s => deliverDst s c h (.scl d) 64 0 (fun _ _ => (s.sem (semKey (coreOf c.t) k.toNat)).word) []) s

/-- Semaphore `k` serves its head take (R458): a path goes on when it next issues; a SEMWAIT decrements and completes in one step, and leaves
its stream (R320). The take behind it follows in the same cycle where the value covers it. -/
def execSemTakeServed (k : Nat) (s : State) : Out :=
  let x := s.sem k
  match x.takes with
  | [] => .refused .notEnabled
  | t :: rest =>
    if x.value < t.n then .refused .notEnabled
    else
      let s := (s.setSem k { x with value := x.value - t.n, takes := rest }).serveNext k
      if !t.stream then .next s
      else
        let y := s.stream t.who
        match y.buf with
        | [] => .next s
        | w :: l => .next ((s.setStream t.who { y.pop l with waiting := none }).leaveWord t.who w 0 0 (w.1.getLsbD 4)
            false).passRidge

/-! ## Read sections (R466, R467) -/

/-- RSECT.enter (R466). -/
def execRsectEnter (h : Hdr) (s : State) : Out :=
  issue 0xB3 h [] noExtra
    (fun c s =>
      match s.thread? c.t with
      | none => .stall
      | some th =>
        if th.rsdepth = 15 then .trap cRsectDepth 15 none
        else .adv ((s.setThread c.t { th with rsdepth := th.rsdepth + 1 }).acquireAll c.t)) s

/-- RSECT.exit (R466): every earlier load has returned. -/
def execRsectExit (h : Hdr) (s : State) : Out :=
  issue 0xB3 h [] noExtra
    (fun c s =>
      match s.thread? c.t with
      | none => .stall
      | some th =>
        if th.rsdepth = 0 then .trap cRsectDepth 0 none
        else if (s.pendsOf c.t).any (·.op.reads) then .stall
        else
          let s := s.setThread c.t { th with rsdepth := th.rsdepth - 1 }
          .adv (if th.rsdepth = 1 then s.leaveGrace th else s)) s

/-! ## Grace periods (R468-R471) -/

/-- Slots of a context that are free. -/
def Ctx.freeSlots (c : Ctx) : List Nat := (List.range 16).filter fun i => !(c.grace.get freshGrace i).open_

/-- Warps of a context in a read section, resident or saved. -/
def State.readers (s : State) (vi ctx : Nat) : List Nat :=
  let inside (th : Thread) : Bool := th.vi == vi && th.ctx == ctx && th.rsdepth != 0
  s.threads.filterMap fun e => match e.2 with
    | some th => if inside th then some th.uid else none
    | none => none

/-- GPSTART (R468). Of a context whose slots are all free it takes slot 0, as R542 has it; else which free slot it takes is open (log entry 3). -/
def execGpstart (h : Hdr) (d : BitVec 8) (s : State) : Out :=
  issue 0xB4 h [.dst (.scl d) 64] noExtra
    (fun c s =>
      match s.thread? c.t with
      | none => .stall
      | some th =>
        let key := ctxKey th.vi th.ctx
        let x := s.ctx key
        let free := x.freeSlots
        if c.idle then .adv s
        else match free with
          | [] => .stall
          | f :: _ =>
            match s.releaseParty c.mem with
            | none => .stall
            | some s =>
              let slot := if free.length = 16 then f else free.getD ((s.free 0x14000000).toNat % free.length) f
              let g := x.grace.get freshGrace slot
              let own := c.mem.filterMap fun m => (s.thread? m).map (·.uid)
              let g' : Grace := { open_ := true, gen := g.gen, mask := (s.readers th.vi th.ctx).filter (!own.contains ·), entries := [],
                                  opened := s.clock }
              let s := s.setCtx key { x with grace := Tbl.set freshGrace x.grace slot g' }
              deliverDst s c h (.scl d) 64 0 (fun _ _ => BitVec.ofNat 64 (g.gen.toNat * 16 + slot)) []) s

/-- Whether a ticket is complete (R469). -/
def State.ticketDone (s : State) (th : Thread) (t : W64) : Bool :=
  let g := (s.ctx (ctxKey th.vi th.ctx)).grace.get freshGrace (t.toNat % 16)
  !g.open_ || g.gen.toNat != t.toNat / 16

/-- GPWAIT (R469). -/
def execGpwait (h : Hdr) (t : Src) (s : State) : Out :=
  issue 0xB5 h [.sclsrc 34 t 64] noExtra
    (fun c s =>
      withSrcs c s [(t, 64)] fun vs s' =>
        match s'.thread? c.t with
        | none => .stall
        | some th =>
          if c.idle then .adv s'
          else if s'.ticketDone th ((vs.getD 0 fun _ _ => 0) c.t 0) then .adv (c.mem.foldl State.acquireAll s')
          else .stall) s

/-- GPTEST (R469). -/
def execGptest (h : Hdr) (p : BitVec 3) (t : Src) (s : State) : Out :=
  issue 0xB6 h [.sclsrc 34 t 64] noExtra
    (fun c s =>
      withSrcs c s [(t, 64)] fun vs s' =>
        match s'.thread? c.t with
        | none => .stall
        | some th =>
          if c.idle then .adv s'
          else
            -- one that observes a completion acquires (R257)
            let ok := s'.ticketDone th ((vs.getD 0 fun _ _ => 0) c.t 0)
            .adv (demotingPred (if ok then c.mem.foldl State.acquireAll s' else s') c h p ok)) s

/-- The open slot that opened last. -/
def Ctx.newest (c : Ctx) : Option Nat :=
  (c.grace.foldl (fun (b : Option (Nat × Nat)) e =>
    if !e.2.open_ then b
    else match b with
      | some x => if x.2 < e.2.opened then some (e.1, e.2.opened) else b
      | none => some (e.1, e.2.opened)) none).map (·.1)

/-- The first fault of one entry of a DFREE (R470). -/
def freeFault (he : HEntry) (len off : W64) : Option (Nat × W64) :=
  if !he.canW then some (cPermission, he.base + off)
  else if he.len.toNat < off.toNat + len.toNat then some (cBounds, off)
  else if len.toNat % 16 != 0 || off.toNat % 16 != 0 then some (cMisaligned, he.base + off)
  else if len = 0 || 1048576 < len.toNat || 2 ^ 40 ≤ off.toNat then some (cIllegalOperand, 0x10A)
  else none

/-- The entry word as the table of R470 lays it out: the length stands at bit 40. The words that R471's example and R542 show have it at bit 48,
where it would not hold the lengths up to 1 MiB that R470 allows (DEDUCED; log entry 74). -/
def freeWord (hd : Nat) (len off : W64) : W64 :=
  BitVec.ofNat 64 (hd * 2 ^ 56 + (len.toNat / 16 - 1) % 65536 * 2 ^ 40 + off.toNat % 2 ^ 40)

/-- DFREE (R470). -/
def execDfree (h : Hdr) (len : BitVec 8) (hd : BitVec 8) (off : Src) (s : State) : Out :=
  issue 0xB7 h [.src 24 (.scl len) 64 false, .src 42 off 32 false] noExtra
    (fun c s =>
      let k := kindOf s c
      withSrcs c s [(.scl len, 64), (off, offWidth k off)] fun vs s' =>
        if c.idle then .adv s'
        else match s'.thread? c.t with
          | none => .stall
          | some th =>
            match s'.handle (coreOf c.t) th.vi th.ctx hd.toNat with
            | (s', .invalid) => .trapAt s' cHandleInvalid (hd.setWidth 64) none
            | (s', .err m pa) => .lost s' m pa
            | (s', .ok he) =>
              if he.space != 0 && he.space != 4 then .trapAt s' cHandleInvalid (hd.setWidth 64) none
              else
                let n : W64 := (vs.getD 0 fun _ _ => 0) c.t 0
                let offs := (accLanes c (isVecSrc k off)).map fun e => (vs.getD 1 fun _ _ => 0) e.1 e.2
                match offs.findSome? (freeFault he n) with
                | some (code, val) => .trapAt s' code val none
                | none =>
                  let key := ctxKey th.vi th.ctx
                  let x := s'.ctx key
                  match x.newest with
                  | none => .trapAt s' cIllegalOperand 0x109 none
                  | some slot =>
                    if 256 < x.attached + offs.length then .stall
                    else match s'.releaseAll c.mem with
                    | none => .stall
                    | some s' =>
                      let x := s'.ctx key
                      let g := x.grace.get freshGrace slot
                      let g : Grace := { g with entries := g.entries ++ offs.map (freeWord hd.toNat n) }
                      .adv (s'.setCtx key { x with grace := Tbl.set freshGrace x.grace slot g })) s

/-- A slot whose mask is empty completes: its entries move towards the FIFO and its generation rises (R467, R468, R471). -/
def execGraceSlotComplete (key slot : Nat) (s : State) : Out :=
  let x := s.ctx key
  let g := x.grace.get freshGrace slot
  if !g.open_ || !g.mask.isEmpty then .refused .notEnabled
  else
    let x : Ctx := { x with grace := Tbl.set freshGrace x.grace slot { freshGrace with gen := g.gen + 1 }, wait := x.wait ++ g.entries }
    .next (s.setCtx key x.fill)

end Sys2Proof.Machine
end

