-- ==== Sys2Proof/Machine/Subs.lean ====
section
/-! DEFINITION. Publications and subscriptions: SUB, UNSUB and SUBFLUSH, and the batches that carry updates (R443-R451). -/

namespace Sys2Proof.Machine

/-- Free entries of a core's table. -/
def State.freeEntries (s : State) (u : Nat) : List Nat := (List.range 16).filter fun e => (s.subs.get none (u * 16 + e)).isNone

/-- Whether a region overlaps that of an entry of a core: a tile core's regions lie in its group's scratchpad. -/
def State.subOverlap (s : State) (u base len : Nat) : Bool :=
  (List.range 16).any fun e => match s.subs.get none (u * 16 + e) with
    | some x => x.base < base + len && base < x.base + x.len
    | none => false

/-- A fresh entry. -/
def newSub (pub : Bool) (block base len : Nat) (time : W64) (clock : Nat) : SubEntry :=
  { pub := pub, block := block, base := base, len := len, peers := [], broken := false, ended := false, seqOut := 0,
    seqIn := 0, batch := [], lastStore := time, made := clock }

/-- Address in the core's whole scratchpad of a byte of the window, and the end of the scratchpad part that the block may name. -/
def windowStart (b : Block) (he : HEntry) (off : W64) : Nat :=
  if he.space = 3 then (he.base + off).toNat else b.spBase + (he.base + off).toNat

/-- The checks of SUB over its whole range (R241, R444). -/
def subFault (b : Block) (he : HEntry) (pub : Bool) (local_ len off : W64) : Option (Nat × W64) :=
  let a := (he.base + off).toNat
  let start := windowStart b he off
  if !(if pub then he.canW else he.canR) then some (cPermission, he.base + off)
  else if he.len.toNat < off.toNat + len.toNat || (pub && b.spSize < a + len.toNat) then some (cBounds, off)
  else if len = 0 || len.toNat % 128 != 0 then some (cIllegalOperand, 0x106)
  else if start % 128 != 0 then some (cMisaligned, he.base + off)
  else if pub then (if local_ != 0 then some (cIllegalOperand, 24) else none)
  else if b.spSize < local_.toNat + len.toNat then some (cIllegalOperand, 24)
  else if (b.spBase + local_.toNat) % 128 != 0 then some (cMisaligned, local_)
  else none

/-- The publication whose region is exactly this. -/
def State.findPub (s : State) (u base len : Nat) : Option Nat :=
  (List.range 16).find? fun e => match s.subs.get none (u * 16 + e) with
    | some x => x.pub && x.base == base && x.len == len
    | none => false

/-- Changes an entry. -/
def State.mapSub (s : State) (key : Nat) (f : SubEntry → SubEntry) : State :=
  match s.subs.get none key with
  | some x => { s with subs := s.subs.insert key (some (f x)) }
  | none => s

/-- Makes the entry of a SUB: the status word, the state, and the subscription whose copy is awaited. -/
def State.makeSub (s : State) (u block base len : Nat) (src : Option (Nat × Nat)) : State × Nat × Option Nat :=
  match s.freeEntries u with
  | [] => (s, 1, none)
  | e :: _ =>
    let key := u * 16 + e
    match src with
    | none =>
      if s.subOverlap u base len then (s, 4, none)
      else ({ s with subs := s.subs.insert key (some (newSub true block base len s.time s.clock)) }, 256 * e, none)
    | some (pu, start) =>
      match s.findPub pu start len with
      | none => (s, 2, none)
      | some pe =>
        match s.subs.get none (pu * 16 + pe) with
        | none => (s, 2, none)
        | some x =>
          if 8 ≤ x.peers.length then (s, 3, none)
          else if s.subOverlap u base len then (s, 4, none)
          else
            let mine := { newSub false block base len s.time s.clock with peers := [(pu, pe)], seqIn := x.seqOut }
            let subs := (s.subs.insert (pu * 16 + pe) (some { x with peers := x.peers ++ [(u, e)] })).insert key (some mine)
            ({ s with subs := subs }, 256 * e, some key)

/-- What SUB puts in flight: the write of its status; SUB.sub is a request to the publisher's core (R445, R454). -/
def subPend (s : State) (c : Ctx0) (h : Hdr) (d st : Nat) (key : Option Nat) (dst : Option Nat) : Pend :=
  { Pend.value 0 h.sig c.mem (sclWrites s c d (BitVec.ofNat 64 st)) [] s.clock with
    op := match key with | some k => .subCopy k | none => .result
    circ := dst, sent := s.time, back := s.time }

/-- SUB.pub and SUB.sub (R444, R445). -/
def subWord (pub : Bool) (h : Hdr) (d : BitVec 8) (hd : BitVec 8) (off : Src) (s : State) : Out :=
  issue 0xB8 h [.sclsrc 42 off 32]
    (fun _ _ => if d.toNat % 2 != 0 || d.toNat < 2 || 62 < d.toNat then some 24 else none)
    (fun c s =>
      withSrcs c s [(.scl d, 64), (.scl (d + 1), 64), (off, offWidth .xs off)] fun vs s' =>
        if c.idle then .adv s'
        else match s'.thread? c.t with
          | none => .stall
          | some th =>
            match s'.block? th.block with
            | none => .stall
            | some b =>
              let v (i : Nat) : W64 := (vs.getD i fun _ _ => 0) c.t 0
              match s'.handle (coreOf c.t) th.vi th.ctx hd.toNat with
              | (s', .invalid) => .trapAt s' cHandleInvalid (hd.setWidth 64) none
              | (s', .err m pa) => .lost s' m pa
              | (s', .ok he) =>
                if !spaceOk th.kind (if pub then .pub else .sub) he.space then .trapAt s' cHandleInvalid (hd.setWidth 64) none
                else match subFault b he pub (v 0) (v 1) (v 2) with
                  | some (code, val) => .trapAt s' code val none
                  | none =>
                    let len := (v 1).toNat
                    let start := windowStart b he (v 2)
                    let (s', st, key) := if pub then s'.makeSub (coreOf c.t) th.block start len none
                      else s'.makeSub (coreOf c.t) th.block (b.spBase + (v 0).toNat) len (some (he.core, start))
                    .adv (s'.push c.t (subPend s' c h d.toNat st key (if pub then none else some he.core)))) s

/-- SUB.pub (R444). -/
def execSubPub (h : Hdr) (d : BitVec 8) (hd : BitVec 8) (off : Src) (s : State) : Out := subWord true h d hd off s

/-- SUB.sub (R444, R445). -/
def execSubSub (h : Hdr) (d : BitVec 8) (hd : BitVec 8) (off : Src) (s : State) : Out := subWord false h d hd off s

/-- Keys of the entries that UNSUB or SUBFLUSH names: the block's entries on this core. -/
def State.namedSubs (s : State) (u block : Nat) (all : Bool) (e : Nat) : List Nat :=
  ((if all then List.range 16 else [e]).map (u * 16 + ·)).filter fun k => match s.subs.get none k with
    | some x => x.block == block
    | none => false

def State.isPub (s : State) (k : Nat) : Bool :=
  match s.subs.get none k with
  | some x => x.pub
  | none => false

/-- Sends all that some publications hold; what has then to be applied. -/
def State.sendAll (s : State) (ks : List Nat) : State × List (Nat × Nat) :=
  let s := ks.foldl (fun s k => match s.subs.get none k with
    | some x => s.sendBatch k x.batch.length
    | none => s) s
  (s, ks.filterMap fun k => (s.subs.get none k).map fun x => (k, x.seqOut))

/-- UNSUB (R446) and SUBFLUSH (R447). What an UNSUB names goes as it lands. -/
def unsubWord (op : Nat) (remove : Bool) (h : Hdr) (all : Bool) (e : BitVec 4) (s : State) : Out :=
  issue op h [] noExtra
    (fun c s =>
      match s.thread? c.t with
      | none => .stall
      | some th =>
        let ks := s.namedSubs (coreOf c.t) th.block all e.toNat
        if c.idle then .adv s
        else if !all && ks.isEmpty then .trap cIllegalOperand 0x105 none
        else
          let (s, keys) := s.sendAll (ks.filter s.isPub)
          let keys := keys ++ if remove then (ks.filter fun k => !s.isPub k).map fun k => (k, 0) else []
          .adv (s.push c.t { Pend.value 0 h.sig c.mem [] [] s.clock with op := .subWait keys remove })) s

/-- UNSUB (R446). -/
def execUnsub (h : Hdr) (all : Bool) (e : BitVec 4) (s : State) : Out := unsubWord 0xB9 true h all e s

/-- SUBFLUSH (R447). -/
def execSubflush (h : Hdr) (all : Bool) (e : BitVec 4) (s : State) : Out := unsubWord 0xBA false h all e s

/-! ## Steps of the batches (R448, R451) -/

/-- Power cluster of a core, and tenths of its clock cycles in a nanosecond (R17, R18). -/
def clusterOf (u : Nat) : Nat := if u < 64 then u else 64 + groupOf u

def State.coreRate (s : State) (u : Nat) : Nat :=
  let full := if u < 64 then 22 else 18
  if (s.cluster (clusterOf u)).high then full else full / 2

/-- 256 core cycles without a store to the publication: its entries leave (R448). -/
def execBatchIdleFlush (core e : Nat) (s : State) : Out :=
  match s.subs.get none (core * 16 + e) with
  | none => .refused .notEnabled
  | some x =>
    if !x.pub || x.batch.isEmpty || (s.time - x.lastStore).toNat * s.coreRate core < 2560 then .refused .notEnabled
    else .next (s.sendBatch (core * 16 + e) x.batch.length)

/-- An asynchronous cause for warp 0, or the XS of thread 0, of a block, resident or saved (R451). -/
def State.postBlock (s : State) (b code : Nat) (val : W64) : State :=
  match s.block? b with
  | none => s
  | some x => s.postAsync x.first code val 0

/-- Both ends mark a subscription BROKEN; what is under way to it is not applied (R451). One that has ended raises no trap (R446). -/
def State.breakSub (s : State) (key : Nat) : State :=
  let rest := s.batches.filter fun m => m.dst * 16 + m.dstEntry != key
  match s.subs.get none key with
  | none => { s with batches := rest }
  | some x =>
    if x.ended then { s with batches := rest }
    else
      ({ s with subs := s.subs.insert key (some { x with broken := true }), batches := rest } : State).postBlock x.block cSubBroken
        (BitVec.ofNat 64 (key % 16))

/-- Whom the publisher awaits an acknowledgement from: its peers, and after it is gone those to which entries of it are still under way. -/
def State.ackPeers (s : State) (core e : Nat) : List (Nat × Nat) :=
  (match s.subs.get none (core * 16 + e) with
   | some x => x.peers
   | none => []) ++ (s.batches.filter fun m => m.src == core && m.srcEntry == e).map fun m => (m.dst, m.dstEntry)

/-- The publisher has had no acknowledgement for 64 us (R451). -/
def execSubAckTimeout (core e peer : Nat) (s : State) : Out :=
  match (s.ackPeers core e)[peer]? with
  | none => .refused .notEnabled
  | some p =>
    if s.batches.any fun m => m.src == core && m.srcEntry == e && m.dst == p.1 && m.dstEntry == p.2 && 64000 ≤ (s.time - m.sent).toNat then
      .next (s.breakSub (p.1 * 16 + p.2))
    else .refused .notEnabled

end Sys2Proof.Machine
end

