-- ==== Sys2Proof/Machine/Integer.lean ====
section
/-! DEFINITION. The integer, bit, compare, select, predicate and move instructions (R129-R146). -/

namespace Sys2Proof.Machine

/-! ## Values -/

/-- Signed reading of the low w bits. -/
def sgn (w : Nat) (x : W64) : Int := if w = 64 then x.toInt else (x.setWidth 32).toInt

/-- Unsigned reading of the low w bits. -/
def uns (w : Nat) (x : W64) : Nat := (lowW w x).toNat

/-- The low w bits of an integer. -/
def wrapTo (w : Nat) (x : Int) : W64 := lowW w (BitVec.ofInt 64 x)

def clampInt (lo hi x : Int) : Int := if x < lo then lo else if hi < x then hi else x

def AddForm_width : AddForm → Nat
  | .w64 => 64
  | _ => 32

/-- Reads operands and wraps or clamps the exact result (R132). -/
def addForm (f : AddForm) (op : List Int → Int) (vs : List W64) : W64 :=
  match f with
  | .w32 => wrapTo 32 (op (vs.map (sgn 32)))
  | .w64 => wrapTo 64 (op (vs.map (sgn 64)))
  | .ss => wrapTo 32 (clampInt (-(2 ^ 31)) (2 ^ 31 - 1) (op (vs.map (sgn 32))))
  | .us => wrapTo 32 (clampInt 0 (2 ^ 32 - 1) (op (vs.map fun x => (uns 32 x : Int))))

def CmpForm_width : CmpForm → Nat
  | .s32 => 32
  | .u32 => 32
  | _ => 64

def CmpForm_uns : CmpForm → Bool
  | .u32 => true
  | .u64 => true
  | _ => false

/-- The operands of an IMULHI, IMIN or IMAX as integers (R133). -/
def cmpVal (f : CmpForm) (x : W64) : Int := if CmpForm_uns f then (uns (CmpForm_width f) x : Int) else sgn (CmpForm_width f) x

def at0 (vs : List W64) : W64 := vs.getD 0 0
def at1 (vs : List W64) : W64 := vs.getD 1 0
def at2 (vs : List W64) : W64 := vs.getD 2 0

def sum2 (l : List Int) : Int := l.getD 0 0 + l.getD 1 0
def diff2 (l : List Int) : Int := l.getD 0 0 - l.getD 1 0
def prod2 (l : List Int) : Int := l.getD 0 0 * l.getD 1 0
def mad3 (l : List Int) : Int := l.getD 0 0 * l.getD 1 0 + l.getD 2 0

def wid (w64 : Bool) : Nat := if w64 then 64 else 32

/-- SHL and its rotate (R136). -/
def shlVal (w : Nat) (rot : Bool) (x b : W64) : W64 :=
  let n := b.toNat % w
  if rot then lowW w ((lowW w x <<< n) ||| (lowW w x >>> (w - n))) else lowW w (x <<< n)

/-- SHR and its arithmetic form. -/
def shrVal (w : Nat) (arith : Bool) (x b : W64) : W64 :=
  let n := b.toNat % w
  if arith then wrapTo w (sgn w x / 2 ^ n) else lowW w x >>> n

/-- BFX (R137). -/
def bfxVal (w : Nat) (signed : Bool) (x b c : W64) : W64 :=
  let pos := b.toNat % 256
  let len := Nat.min (c.toNat % 256) w
  if len = 0 then 0
  else
    let field := (uns w x / 2 ^ pos) % 2 ^ len
    if signed && field.testBit (len - 1) then wrapTo w ((field : Int) - 2 ^ len) else BitVec.ofNat 64 field

/-- BFI (R137). -/
def bfiVal (w : Nat) (x b f : W64) : W64 :=
  let pos := f.toNat % 256
  let len := Nat.min (f.toNat / 256 % 256) w
  let mask : W64 := BitVec.ofNat 64 ((2 ^ len - 1) * 2 ^ pos)
  lowW w ((x &&& ~~~mask) ||| (BitVec.ofNat 64 (b.toNat * 2 ^ pos) &&& mask))

def popcVal (w : Nat) (x : W64) : Nat := ((List.range w).filter fun i => x.getLsbD i).length
def ctzVal (w : Nat) (x : W64) : Nat := ((List.range w).find? fun i => x.getLsbD i).getD w
def clzVal (w : Nat) (x : W64) : Nat := ((List.range w).find? fun i => x.getLsbD (w - 1 - i)).getD w
def brevVal (w : Nat) (x : W64) : W64 :=
  BitVec.ofNat 64 ((List.range w).foldl (fun n i => if x.getLsbD i then n + 2 ^ (w - 1 - i) else n) 0)

/-- The carry-less product of R139, 2w bits. -/
def clmulVal (w : Nat) (a b : W64) : BitVec 128 :=
  (List.range w).foldl (fun p i => if b.getLsbD i then p ^^^ ((lowW w a).setWidth 128 <<< i) else p) 0

/-- A comparison (R140). -/
def icmp (c : ICond) (u : Bool) (w : Nat) (a b : W64) : Bool :=
  let x : Int := if u then uns w a else sgn w a
  let y : Int := if u then uns w b else sgn w b
  match c with
  | .eq => x == y
  | .ne => x != y
  | .lt => x < y
  | .le => x ≤ y
  | .gt => y < x
  | .ge => y ≤ x

def combine (k : Comb) (old new : Bool) : Bool :=
  match k with
  | .write => new
  | .and => old && new
  | .or => old || new

/-! ## Shapes -/

/-- A two-source value instruction of F-3S. -/
def op3 (op : Nat) (h : Hdr) (d : Dst) (w lat : Nat) (u : Bool) (a b : Src) (f : List W64 → W64) (s : State) : Out :=
  issue op h [.dst d w, .src 34 a w u, .src 44 b w u] (noMix d [a, b])
    (valueBody h d w lat [(a, w), (b, w)] fun _ vs => (f vs, 0)) s

/-- A three-source value instruction. -/
def op4 (op : Nat) (h : Hdr) (d : Dst) (w lat : Nat) (u : Bool) (a b c : Src) (f : List W64 → W64) (s : State) : Out :=
  issue op h [.dst d w, .src 34 a w u, .src 44 b w u, .src 54 c w u] (noMix d [a, b, c])
    (valueBody h d w lat [(a, w), (b, w), (c, w)] fun _ vs => (f vs, 0)) s

/-- A one-source value instruction. -/
def op2 (op : Nat) (h : Hdr) (d : Dst) (w lat : Nat) (a : Src) (f : List W64 → W64) (s : State) : Out :=
  issue op h [.dst d w, .src 34 a w false] (noMix d [a])
    (valueBody h d w lat [(a, w)] fun _ vs => (f vs, 0)) s

/-- The predicate of a comparison delivered to every active lane, combined with its old value; `lat` 0 when a port was popped. -/
def predBody (h : Hdr) (p : BitVec 3) (k : Comb) (lat : Nat) (xs : List (Src × Nat))
    (f : Thread → List W64 → Bool × BitVec 5) (c : Ctx0) (s : State) : Res :=
  withSrcs c s xs fun vs s' =>
    if c.idle then .adv s'
    else
      let g (m l : Nat) : Bool × BitVec 5 :=
        match s.thread? m with
        | none => (false, 0)
        | some th => f th (vs.map fun v => v m l)
      .adv (deliver s' c h (latOf (kindOf s c) xs lat)
        (predWrites c p.toNat fun m l => combine k (hasLane (readPred s m p.toNat) l) (g m l).1)
        (memberFlags c fun m l => (g m l).2))

/-! ## The instructions -/

/-- IADD (R132). -/
def execIadd (h : Hdr) (f : AddForm) (d : Dst) (a b : Src) (s : State) : Out :=
  op3 0x01 h d (AddForm_width f) 4 (f == .us) a b (addForm f sum2) s

/-- ISUB (R132). -/
def execIsub (h : Hdr) (f : AddForm) (d : Dst) (a b : Src) (s : State) : Out :=
  op3 0x02 h d (AddForm_width f) 4 (f == .us) a b (addForm f diff2) s

/-- IMUL (R132). -/
def execImul (h : Hdr) (f : AddForm) (d : Dst) (a b : Src) (s : State) : Out :=
  op3 0x03 h d (AddForm_width f) 4 (f == .us) a b (addForm f prod2) s

/-- IMULHI: the high half of the exact product (R133). -/
def execImulhi (h : Hdr) (f : CmpForm) (d : Dst) (a b : Src) (s : State) : Out :=
  op3 0x04 h d (CmpForm_width f) 4 (CmpForm_uns f) a b
    (fun vs => wrapTo (CmpForm_width f) (cmpVal f (at0 vs) * cmpVal f (at1 vs) / 2 ^ CmpForm_width f)) s

/-- IMAD (R132). -/
def execImad (h : Hdr) (f : AddForm) (d : Dst) (a b c : Src) (s : State) : Out :=
  op4 0x05 h d (AddForm_width f) 4 (f == .us) a b c (addForm f mad3) s

/-- IMIN (R133). -/
def execImin (h : Hdr) (f : CmpForm) (d : Dst) (a b : Src) (s : State) : Out :=
  op3 0x06 h d (CmpForm_width f) 4 (CmpForm_uns f) a b
    (fun vs => lowW (CmpForm_width f) (if cmpVal f (at0 vs) < cmpVal f (at1 vs) then at0 vs else at1 vs)) s

/-- IMAX (R133). -/
def execImax (h : Hdr) (f : CmpForm) (d : Dst) (a b : Src) (s : State) : Out :=
  op3 0x07 h d (CmpForm_width f) 4 (CmpForm_uns f) a b
    (fun vs => lowW (CmpForm_width f) (if cmpVal f (at1 vs) < cmpVal f (at0 vs) then at0 vs else at1 vs)) s

/-- |a| (R134). -/
def absVal (f : AbsForm) (x : W64) : W64 :=
  match f with
  | .w32 => wrapTo 32 (sgn 32 x).natAbs
  | .w64 => wrapTo 64 (sgn 64 x).natAbs
  | .ss => wrapTo 32 (clampInt 0 (2 ^ 31 - 1) (sgn 32 x).natAbs)
  | .ss64 => wrapTo 64 (clampInt 0 (2 ^ 63 - 1) (sgn 64 x).natAbs)

/-- IABS (R134). -/
def execIabs (h : Hdr) (f : AbsForm) (d : Dst) (a : Src) (s : State) : Out :=
  let w := match f with
    | .w32 => 32
    | .ss => 32
    | _ => 64
  op2 0x08 h d w 4 a (fun vs => absVal f (at0 vs)) s

/-- AND (R135). -/
def execAnd (h : Hdr) (w64 inv : Bool) (d : Dst) (a b : Src) (s : State) : Out :=
  op3 0x10 h d (wid w64) 4 false a b
    (fun vs => lowW (wid w64) (at0 vs &&& (if inv then ~~~(at1 vs) else at1 vs))) s

/-- OR (R135). -/
def execOr (h : Hdr) (w64 inv : Bool) (d : Dst) (a b : Src) (s : State) : Out :=
  op3 0x11 h d (wid w64) 4 false a b
    (fun vs => lowW (wid w64) (at0 vs ||| (if inv then ~~~(at1 vs) else at1 vs))) s

/-- XOR (R135). -/
def execXor (h : Hdr) (w64 inv : Bool) (d : Dst) (a b : Src) (s : State) : Out :=
  op3 0x12 h d (wid w64) 4 false a b
    (fun vs => lowW (wid w64) (at0 vs ^^^ (if inv then ~~~(at1 vs) else at1 vs))) s

/-- SHL (R136). -/
def execShl (h : Hdr) (w64 rot : Bool) (d : Dst) (a b : Src) (s : State) : Out :=
  op3 0x13 h d (wid w64) 4 false a b (fun vs => shlVal (wid w64) rot (at0 vs) (at1 vs)) s

/-- SHR (R136). -/
def execShr (h : Hdr) (w64 arith : Bool) (d : Dst) (a b : Src) (s : State) : Out :=
  op3 0x14 h d (wid w64) 4 false a b (fun vs => shrVal (wid w64) arith (at0 vs) (at1 vs)) s

/-- BFX (R137). -/
def execBfx (h : Hdr) (w64 sgn : Bool) (d : Dst) (a b c : Src) (s : State) : Out :=
  op4 0x15 h d (wid w64) 4 false a b c (fun vs => bfxVal (wid w64) sgn (at0 vs) (at1 vs) (at2 vs)) s

/-- BFI (R137). -/
def execBfi (h : Hdr) (w64 : Bool) (d : Dst) (a b c : Src) (s : State) : Out :=
  op4 0x16 h d (wid w64) 4 false a b c (fun vs => bfiVal (wid w64) (at0 vs) (at1 vs) (at2 vs)) s

/-- POPC (R138). -/
def execPopc (h : Hdr) (w64 : Bool) (d : Dst) (a : Src) (s : State) : Out :=
  op2 0x17 h d (wid w64) 4 a (fun vs => BitVec.ofNat 64 (popcVal (wid w64) (at0 vs))) s

/-- CLZ (R138). -/
def execClz (h : Hdr) (w64 : Bool) (d : Dst) (a : Src) (s : State) : Out :=
  op2 0x18 h d (wid w64) 4 a (fun vs => BitVec.ofNat 64 (clzVal (wid w64) (at0 vs))) s

/-- CTZ (R138). -/
def execCtz (h : Hdr) (w64 : Bool) (d : Dst) (a : Src) (s : State) : Out :=
  op2 0x19 h d (wid w64) 4 a (fun vs => BitVec.ofNat 64 (ctzVal (wid w64) (at0 vs))) s

/-- BREV (R138). -/
def execBrev (h : Hdr) (w64 : Bool) (d : Dst) (a : Src) (s : State) : Out :=
  op2 0x1A h d (wid w64) 4 a (fun vs => brevVal (wid w64) (at0 vs)) s

/-- CLMUL (R139). -/
def execClmul (h : Hdr) (w64 hi : Bool) (d : Dst) (a b : Src) (s : State) : Out :=
  op3 0x1B h d (wid w64) 6 false a b
    (fun vs => lowW (wid w64)
      ((clmulVal (wid w64) (at0 vs) (at1 vs) >>> (if hi then wid w64 else 0)).setWidth 64)) s

/-- ICMP (R140). -/
def execIcmp (h : Hdr) (c : ICond) (u w64 : Bool) (k : Comb) (p : BitVec 3) (a b : Src) (s : State) : Out :=
  issue 0x20 h [.src 34 a (wid w64) u, .src 44 b (wid w64) u] noExtra
    (predBody h p k 4 [(a, wid w64), (b, wid w64)] fun _ vs => (icmp c u (wid w64) (at0 vs) (at1 vs), 0)) s

/-- SEL (R141). -/
def execSel (h : Hdr) (w64 : Bool) (d : Dst) (a b : Src) (neg : Bool) (p : BitVec 3) (s : State) : Out :=
  issue 0x21 h [.dst d (wid w64), .src 34 a (wid w64) false, .src 44 b (wid w64) false] (noMix d [a, b])
    (fun c s =>
      withSrcs c s [(a, wid w64), (b, wid w64)] fun vs s' =>
        deliverDst s' c h d (wid w64) (latOf (kindOf s c) [(a, wid w64), (b, wid w64)] 4)
          (fun m l =>
            let pick := hasLane (readPred s m p.toNat) l != neg
            if pick then (vs.getD 0 fun _ _ => 0) m l else (vs.getD 1 fun _ _ => 0) m l) []) s

/-- PLOP (R142). -/
def execPlop (h : Hdr) (p pa pb : BitVec 3) (lut : BitVec 4) (s : State) : Out :=
  issue 0x22 h [] noExtra
    (fun c s =>
      if c.idle then .adv s
      else .adv (deliver s c h 4
        (predWrites c p.toNat fun m l =>
          lut.getLsbD ((if hasLane (readPred s m pa.toNat) l then 2 else 0) + (if hasLane (readPred s m pb.toNat) l then 1 else 0)))
        [])) s

/-- MOV (R143). -/
def execMov (h : Hdr) (w64 : Bool) (d : Dst) (a : Src) (s : State) : Out :=
  op2 0x23 h d (wid w64) 4 a (fun vs => at0 vs) s

/-- MOVL (R144). -/
def execMovl (h : Hdr) (d : Dst) (lit : W32) (s : State) : Out :=
  issue 0x24 h [.dst d 32] noExtra (valueBody h d 32 4 [] fun _ _ => (lit.setWidth 64, 0)) s

/-- LEA (R146). -/
def execLea (h : Hdr) (sc : BitVec 2) (d : Dst) (a b : Src) (s : State) : Out :=
  issue 0x26 h [.dst d 64, .src 34 a 64 false, .src 44 b 32 false] (noMix d [a, b])
    (valueBody h d 64 4 [(a, 64), (b, 32)] fun _ vs =>
      (at0 vs + (((at1 vs).setWidth 32).signExtend 64 <<< sc.toNat), 0)) s

end Sys2Proof.Machine
end

