-- ==== Sys2Proof/Machine/FloatOps.lean ====
section
/-! DEFINITION. The floating-point, conversion and generator instructions (R158-R175). -/

namespace Sys2Proof.Machine

/-! ## Sources (R158) -/

/-- The value of a source: an inline literal is converted to the operand's type. -/
def litOr (x : Src) (conv : BitVec 8 → Nat) (v : W64) : Nat :=
  match x with
  | .lit a => conv a
  | _ => v.toNat % 2 ^ 32

/-- A literal as FP32. -/
def litF32 (a : BitVec 8) : Nat := (intToFloat f32 .rne a.toInt).1

/-- A literal in each element of a packed operand. -/
def litPacked (F : FF) (n w : Nat) (a : BitVec 8) : Nat :=
  let x := if F.kind = 0 && F.fb != 2 then (intToFloat F .rne a.toInt).1
    else (F.round .rne 0 .sat false { neg := a.toInt < 0, m := a.toInt.natAbs, e := 0 }).1
  (List.range n).foldl (fun y e => y + x * 2 ^ (w * e)) 0

/-- Element e of w bits. -/
def elem (w e x : Nat) : Nat := (x / 2 ^ (w * e)) % 2 ^ w

def w32 (x : Nat) : W64 := BitVec.ofNat 64 (x % 2 ^ 32)

/-! ## Shapes -/

/-- An FP32 operation of two sources. -/
def fop2 (op : Nat) (h : Hdr) (dyn : Bool) (d : Dst) (a b : Src) (f : Thread → Nat → Nat → Nat × BitVec 5) (s : State) : Out :=
  issue op h [.dst d 32, .src 34 a 32 false, .src 44 b 32 false] (andThen (dynStoch dyn) (noMix d [a, b]))
    (valueBody h d 32 6 [(a, 32), (b, 32)] fun th vs =>
      let (r, fl) := f th (litOr a litF32 (at0 vs)) (litOr b litF32 (at1 vs))
      (w32 r, fl)) s

/-- A packed 16-bit operation of two or three sources (R165). -/
def hop (op : Nat) (h : Hdr) (bf dyn : Bool) (d : Dst) (xs : List Src) (f : FF → Thread → List Nat → Nat × BitVec 5)
    (s : State) : Out :=
  let F := if bf then bf16 else f16
  let us := (xs.zip [34, 44, 54]).map fun e => Use.src e.2 e.1 32 false
  issue op h (Use.dst d 32 :: us) (andThen (dynStoch dyn) (noMix d xs))
    (valueBody h d 32 6 (xs.map fun x => (x, 32)) fun th vs =>
      let ns := (xs.zip vs).map fun e => litOr e.1 (litPacked F 2 16) e.2
      let lo := f F th (ns.map (elem 16 0))
      let hi := f F th (ns.map (elem 16 1))
      (w32 (hi.1 % 65536 * 65536 + lo.1 % 65536), lo.2 ||| hi.2)) s

def n0 (l : List Nat) : Nat := l.getD 0 0
def n1 (l : List Nat) : Nat := l.getD 1 0
def n2 (l : List Nat) : Nat := l.getD 2 0

/-- The rounding mode of a packed operation. -/
def hrm (th : Thread) (dyn : Bool) : Rm := if dyn then th.rm else .rne

/-! ## FP32 -/

/-- FADD (R160). -/
def execFadd (h : Hdr) (rm : Rm2) (d : Dst) (a b : Src) (s : State) : Out :=
  fop2 0x40 h (rm == .dyn) d a b (fun th x y => f32.add th.ftz (rm2 th rm) x y) s

/-- FSUB (R160). -/
def execFsub (h : Hdr) (rm : Rm2) (d : Dst) (a b : Src) (s : State) : Out :=
  fop2 0x41 h (rm == .dyn) d a b (fun th x y => f32.sub th.ftz (rm2 th rm) x y) s

/-- FMUL (R160). -/
def execFmul (h : Hdr) (rm : Rm2) (d : Dst) (a b : Src) (s : State) : Out :=
  fop2 0x42 h (rm == .dyn) d a b (fun th x y => f32.mul th.ftz (rm2 th rm) x y) s

/-- FFMA (R160). -/
def execFfma (h : Hdr) (rm : Rm2) (d : Dst) (a b c : Src) (s : State) : Out :=
  issue 0x43 h [.dst d 32, .src 34 a 32 false, .src 44 b 32 false, .src 54 c 32 false]
    (andThen (dynStoch (rm == .dyn)) (noMix d [a, b, c]))
    (valueBody h d 32 6 [(a, 32), (b, 32), (c, 32)] fun th vs =>
      let (r, fl) := f32.fma th.ftz (rm2 th rm) (litOr a litF32 (at0 vs)) (litOr b litF32 (at1 vs)) (litOr c litF32 (at2 vs))
      (w32 r, fl)) s

/-- FMIN (R161). -/
def execFmin (h : Hdr) (d : Dst) (a b : Src) (s : State) : Out :=
  fop2 0x44 h false d a b (fun th x y => f32.minmax th.ftz false x y) s

/-- FMAX (R161). -/
def execFmax (h : Hdr) (d : Dst) (a b : Src) (s : State) : Out :=
  fop2 0x45 h false d a b (fun th x y => f32.minmax th.ftz true x y) s

/-- The sign FSGN gives (R162). -/
def fsgnVal (op : SgnOp) (x y : Nat) : Nat :=
  let sx := f32.neg x
  let sy := f32.neg y
  let sg := match op with
    | .cpy => sy
    | .neg => !sy
    | .xor => sx != sy
  f32.signed sg (f32.mag x)

/-- FSGN (R162). -/
def execFsgn (h : Hdr) (op : SgnOp) (d : Dst) (a b : Src) (s : State) : Out :=
  issue 0x46 h [.dst d 32, .src 34 a 32 false, .src 44 b 32 false] (noMix d [a, b])
    (valueBody h d 32 0 [(a, 32), (b, 32)] fun _ vs =>
      (w32 (fsgnVal op (litOr a litF32 (at0 vs)) (litOr b litF32 (at1 vs))), 0)) s

/-- FCMP (R163). -/
def execFcmp (h : Hdr) (c : FCond) (k : Comb) (p : BitVec 3) (a b : Src) (s : State) : Out :=
  issue 0x47 h [.src 34 a 32 false, .src 44 b 32 false] noExtra
    (predBody h p k 6 [(a, 32), (b, 32)] fun th vs =>
      f32.compare th.ftz c (litOr a litF32 (at0 vs)) (litOr b litF32 (at1 vs))) s

/-- FCLASS (R164). -/
def execFclass (h : Hdr) (t : FTy) (hi : Bool) (d : Dst) (a : Src) (s : State) : Out :=
  issue 0x48 h [.dst d 32, .src 34 a 32 false] (noMix d [a])
    (valueBody h d 32 0 [(a, 32)] fun _ vs =>
      let F := fTy t
      let x := match t with
        | .f32 => litOr a litF32 (at0 vs)
        | _ => elem 16 (if hi then 1 else 0) (litOr a (litPacked F 2 16) (at0 vs))
      (w32 (F.classify x), 0)) s

/-! ## Packed FP16 and BF16 (R165) -/

/-- HADD2. -/
def execHadd2 (h : Hdr) (bf dyn : Bool) (d : Dst) (a b : Src) (s : State) : Out :=
  hop 0x50 h bf dyn d [a, b] (fun F th l => F.add th.ftz (hrm th dyn) (n0 l) (n1 l)) s

/-- HMUL2. -/
def execHmul2 (h : Hdr) (bf dyn : Bool) (d : Dst) (a b : Src) (s : State) : Out :=
  hop 0x51 h bf dyn d [a, b] (fun F th l => F.mul th.ftz (hrm th dyn) (n0 l) (n1 l)) s

/-- HFMA2. -/
def execHfma2 (h : Hdr) (bf dyn : Bool) (d : Dst) (a b c : Src) (s : State) : Out :=
  hop 0x52 h bf dyn d [a, b, c] (fun F th l => F.fma th.ftz (hrm th dyn) (n0 l) (n1 l) (n2 l)) s

/-- HMIN2. -/
def execHmin2 (h : Hdr) (bf : Bool) (d : Dst) (a b : Src) (s : State) : Out :=
  hop 0x53 h bf false d [a, b] (fun F th l => F.minmax th.ftz false (n0 l) (n1 l)) s

/-- HMAX2. -/
def execHmax2 (h : Hdr) (bf : Bool) (d : Dst) (a b : Src) (s : State) : Out :=
  hop 0x54 h bf false d [a, b] (fun F th l => F.minmax th.ftz true (n0 l) (n1 l)) s

/-! ## Special functions (R166) -/

/-- A special function, by its place in the opcode map. -/
def fspecial (fn : Nat) (h : Hdr) (d : Dst) (a : Src) (s : State) : Out :=
  issue (0x58 + fn) h [.dst d 32, .src 34 a 32 false] (noMix d [a])
    (valueBody h d 32 0 [(a, 32)] fun th vs =>
      let (r, fl) := special fn th.ftz (litOr a litF32 (at0 vs))
      (w32 r, fl)) s

/-- RCP. -/
def execRcp (h : Hdr) (d : Dst) (a : Src) (s : State) : Out := fspecial 0 h d a s
/-- RSQ. -/
def execRsq (h : Hdr) (d : Dst) (a : Src) (s : State) : Out := fspecial 1 h d a s
/-- SQRT. -/
def execSqrt (h : Hdr) (d : Dst) (a : Src) (s : State) : Out := fspecial 2 h d a s
/-- EXP2. -/
def execExp2 (h : Hdr) (d : Dst) (a : Src) (s : State) : Out := fspecial 3 h d a s
/-- LOG2. -/
def execLog2 (h : Hdr) (d : Dst) (a : Src) (s : State) : Out := fspecial 4 h d a s
/-- SIN. -/
def execSin (h : Hdr) (d : Dst) (a : Src) (s : State) : Out := fspecial 5 h d a s
/-- COS. -/
def execCos (h : Hdr) (d : Dst) (a : Src) (s : State) : Out := fspecial 6 h d a s

/-! ## Dot products (R167) -/

/-- DOT2. -/
def execDot2 (h : Hdr) (bf rz : Bool) (d : Dst) (a b c : Src) (s : State) : Out :=
  let F := if bf then bf16 else f16
  issue 0x60 h [.dst d 32, .src 34 a 32 false, .src 44 b 32 false, .src 54 c 32 false] (noMix d [a, b, c])
    (valueBody h d 32 8 [(a, 32), (b, 32), (c, 32)] fun th vs =>
      let x := litOr a (litPacked F 2 16) (at0 vs)
      let y := litOr b (litPacked F 2 16) (at1 vs)
      let (r, fl) := dot F F th.ftz (if rz then .rtz else .rne)
        ((List.range 2).map fun e => (elem 16 e x, elem 16 e y)) (litOr c litF32 (at2 vs))
      (w32 r, fl)) s

/-- The narrow format of an FP8 format. -/
def narrowOf : F8 → FNarrow
  | .e4 => .e4
  | .e5 => .e5

/-- DOT4. -/
def execDot4 (h : Hdr) (fa fb : F8) (d : Dst) (a b c : Src) (s : State) : Out :=
  issue 0x61 h [.dst d 32, .fp8 34 a (narrowOf fa), .fp8 44 b (narrowOf fb), .src 54 c 32 false] (noMix d [a, b, c])
    (valueBody h d 32 8 [(a, 32), (b, 32), (c, 32)] fun th vs =>
      let x := litOr a (litPacked (f8 fa) 4 8) (at0 vs)
      let y := litOr b (litPacked (f8 fb) 4 8) (at1 vs)
      let (r, fl) := dot (f8 fa) (f8 fb) th.ftz .rne
        ((List.range 4).map fun e => (elem 8 e x, elem 8 e y)) (litOr c litF32 (at2 vs))
      (w32 r, fl)) s

/-! ## Conversions (R168-R172) -/

/-- The successive states of a generator. -/
def genSeq : Nat → W32 → List W32
  | 0, _ => []
  | n + 1, x => genNext x :: genSeq n (genNext x)

/-- The state a lane's conversion steps: its own on SIMT, state 0 on the XS (R173). -/
def genIndex (th : Thread) (l : Nat) : Nat := if th.kind = .simt then l else 0

/-- A conversion that takes `n` generator values in each lane that converts: every active lane, or the lowest one for a
scalar-like destination (R117, R173). -/
def cvtBody (h : Hdr) (d : Dst) (w : Nat) (xs : List (Src × Nat)) (n : Thread → Nat)
    (f : Thread → List W64 → List W32 → W64 × BitVec 5) (c : Ctx0) (s : State) : Res :=
  withSrcs c s xs fun vs s' =>
    match s.thread? c.t with
    | none => .stall
    | some th0 =>
      let g (m l : Nat) : W64 × BitVec 5 :=
        match s.thread? m with
        | none => (0, 0)
        | some th => f th (vs.map fun v => v m l) (genSeq (n th) (th.genAt (genIndex th l)))
      let all := c.act.flatMap fun e => (lanesOf e.2).map fun l => (e.1, l)
      let lanes := match effDst th0.kind d with
        | .vec _ => all
        | .scl _ => c.leader.toList
      let fl := match effDst th0.kind d with
        | .vec _ => memberFlags c fun m l => (g m l).2
        | .scl _ => match c.leader with
          | some (m, l) => (c.mem.filter fun x => c.active x != 0).map fun x => (x, (g m l).2)
          | none => []
      let s'' := lanes.foldl (fun s e => s.mapThread e.1 fun th =>
        match (genSeq (n th) (th.genAt (genIndex th e.2))).getLast? with
        | some x => th.setGen (genIndex th e.2) x
        | none => th) s'
      deliverDst s'' c h d w 0 (fun m l => (g m l).1) (fl.filter (·.2 != 0))

/-- Elements a conversion converts with STOCH. -/
def stochCount (rm : Rm3) (n : Nat) (th : Thread) : Nat := if rm3 th rm = .stoch then n else 0

/-- CVTF (R168). -/
def execCvtf (h : Hdr) (pk hi : Bool) (dst src : FTy) (rm : Rm3) (d : Dst) (a b : Src) (s : State) : Out :=
  let wide := dst == .f32
  let one (th : Thread) (x : Nat) (g : W32) : Nat × BitVec 5 :=
    cvtFloat (fTy src) (fTy dst) th.ftz (if wide then .rne else rm3 th rm) g x
  let srcVal (x : Src) (v : W64) : Nat :=
    if src = .f32 then litOr x litF32 v else elem 16 (if hi then 1 else 0) (litOr x (litPacked (fTy src) 2 16) v)
  let us : List Use := [.dst d 32, .src 34 a 32 false] ++ (if pk then [.src 44 b 32 false] else [])
  let xs : List (Src × Nat) := if pk then [(a, 32), (b, 32)] else [(a, 32)]
  issue 0x64 h us (noMix d (xs.map (·.1)))
    (cvtBody h d 32 xs (fun th => if wide then 0 else stochCount rm (if pk then 2 else 1) th) fun th vs gs =>
      let r0 := one th (srcVal a (at0 vs)) (gs.getD 0 0)
      if pk then
        let r1 := one th (srcVal b (at1 vs)) (gs.getD 1 0)
        (w32 (r1.1 * 65536 + r0.1), r0.2 ||| r1.2)
      else (w32 r0.1, r0.2)) s

/-- CVTFI (R169). -/
def execCvtfi (h : Hdr) (hi : Bool) (ity : ITy) (fty : FTy) (rm : Rm3) (d : Dst) (a : Src) (s : State) : Out :=
  let w := intWidth ity
  issue 0x65 h [.dst d w, .src 34 a 32 false] (andThen (dynStoch (rm == .dyn)) (noMix d [a]))
    (valueBody h d w 0 [(a, 32)] fun th vs =>
      let x := if fty = .f32 then litOr a litF32 (at0 vs)
        else elem 16 (if hi then 1 else 0) (litOr a (litPacked (fTy fty) 2 16) (at0 vs))
      let (v, fl) := floatToInt (fTy fty) th.ftz (rm3 th rm) ity x
      (wrapTo w v, fl)) s

/-- CVTIF (R169). -/
def execCvtif (h : Hdr) (ity : ITy) (fty : FTy) (rm : Rm3) (d : Dst) (a : Src) (s : State) : Out :=
  let w := intWidth ity
  let u := ity == .ui32 || ity == .ui64
  issue 0x66 h [.dst d 32, .src 34 a w u] (andThen (dynStoch (rm == .dyn)) (noMix d [a]))
    (valueBody h d 32 0 [(a, w)] fun th vs =>
      let v : Int := if u then uns w (at0 vs) else sgn w (at0 vs)
      let (r, fl) := intToFloat (fTy fty) (rm3 th rm) v
      (w32 r, fl)) s

/-- Puts a code of w bits at element e. -/
def setElem (w e x code : Nat) : Nat := x - elem w e x * 2 ^ (w * e) + code * 2 ^ (w * e)

/-- CVT8 (R170). -/
def execCvt8 (h : Hdr) (unpk : Bool) (byte : BitVec 2) (nosat : Bool) (t : F8) (rm : Rm3) (d : Dst) (a b : Src) (s : State) : Out :=
  if unpk then
    issue 0x67 h [.dst d 32, .fp8 34 a (narrowOf t)] (noMix d [a])
      (valueBody h d 32 0 [(a, 32)] fun _ vs =>
        let (r, fl) := widen (f8 t) (elem 8 byte.toNat (litOr a (litPacked (f8 t) 4 8) (at0 vs)))
        (w32 r, fl)) s
  else
    issue 0x67 h [.dst d 32, .src 34 a 32 false, .src 44 b 32 false] (noMix d [a, b])
      (cvtBody h d 32 [(a, 32), (b, 32)] (stochCount rm 1) fun th vs gs =>
        let x := f32.flush th.ftz (litOr a litF32 (at0 vs))
        let (r, fl) := toNarrow f32 (f8 t) (rm3 th rm) (gs.getD 0 0) nosat x 0
        (w32 (setElem 8 byte.toNat (uns 32 (at1 vs)) r), fl)) s

/-- CVT4 (R171). -/
def execCvt4 (h : Hdr) (unpk : Bool) (nib : BitVec 3) (rm : Rm3) (d : Dst) (a b : Src) (s : State) : Out :=
  if unpk then
    issue 0x68 h [.dst d 32, .fp8 34 a .f4] (noMix d [a])
      (valueBody h d 32 0 [(a, 32)] fun _ vs =>
        let (r, fl) := widen e2m1 (elem 4 nib.toNat (litOr a (litPacked e2m1 8 4) (at0 vs)))
        (w32 r, fl)) s
  else
    issue 0x68 h [.dst d 32, .src 34 a 32 false, .src 44 b 32 false] (noMix d [a, b])
      (cvtBody h d 32 [(a, 32), (b, 32)] (stochCount rm 1) fun th vs gs =>
        let x := f32.flush th.ftz (litOr a litF32 (at0 vs))
        let (r, fl) := toNarrow f32 e2m1 (rm3 th rm) (gs.getD 0 0) false x 0
        (w32 (setElem 4 nib.toNat (uns 32 (at1 vs)) r), fl)) s

/-- CVTW (R172). -/
def execCvtw (h : Hdr) (unpk : Bool) (t : FNarrow) (nosat : Bool) (rm : Rm3) (d : Dst) (a b : Src) (s : State) : Out :=
  let F := fNarrow t
  if unpk then
    issue 0x69 h [.dst d 32, .src 34 a 32 false, .src 44 b 32 false] (andThen (dynStoch (rm == .dyn)) (noMix d [a, b]))
      (valueBody h d 32 0 [(a, 32), (b, 32)] fun th vs =>
        let wd := if t = .f4 then 4 else 8
        let (r, fl) := widenScaled F th.ftz (rm3 th rm) (elem wd 0 (uns 32 (at0 vs))) (uns 32 (at1 vs) % 256)
        (w32 r, fl)) s
  else
    issue 0x69 h [.dst d 32, .src 34 a 32 false, .src 44 b 32 false] (noMix d [a, b])
      (cvtBody h d 32 [(a, 32), (b, 32)] (stochCount rm 1) fun th vs gs =>
        let (r, fl) := narrowScaled F th.ftz (rm3 th rm) (gs.getD 0 0) nosat (litOr a litF32 (at0 vs)) (uns 32 (at1 vs) % 256)
        (w32 r, fl)) s

/-! ## Generators (R174, R175) -/

/-- RSEED: no result and no landing event. -/
def execRseed (h : Hdr) (a : Src) (s : State) : Out :=
  issue 0x6C h [.src 34 a 32 false] noExtra
    (fun c s =>
      withSrcs c s [(a, 32)] fun vs s' =>
        let v := vs.getD 0 fun _ _ => 0
        if c.idle then .adv s'
        else .adv (s'.mapThread c.t fun th =>
          if th.kind = .simt then
            (lanesOf (c.active c.t)).foldl (fun th l => th.setGen l (genSeed ((v c.t l).setWidth 32) l)) th
          else (List.range 32).foldl (fun th j => th.setGen j (genSeed ((v c.t 0).setWidth 32) j)) th)) s

/-- RNEXT. -/
def execRnext (h : Hdr) (j : BitVec 5) (f : Bool) (d : Dst) (s : State) : Out :=
  issue 0x6D h [.dst d 32]
    (fun _ th => if th.kind = .simt then (if j != 0 then some 54 else if d.dk then some 23 else none)
      else if !d.dk then some 23 else none)
    (fun c s =>
      match s.thread? c.t with
      | none => .stall
      | some th =>
        let idx (l : Nat) : Nat := if th.kind = .simt then l else j.toNat
        let val (l : Nat) : W64 :=
          let x := genNext (th.genAt (idx l))
          if f then w32 (f32.round .rne 0 .ieee false { neg := false, m := x.toNat / 256, e := -24 }).1 else x.setWidth 64
        let s' := (lanesOf (c.active c.t)).foldl (fun s l => s.mapThread c.t fun th => th.setGen (idx l) (genNext (th.genAt (idx l)))) s
        deliverDst s' c h d 32 0 (fun _ l => val l) []) s

end Sys2Proof.Machine
end

