-- ==== Sys2Proof/Machine/Copy.lean ====
section
/-! DEFINITION. Copies, gathers, scatters, fills, semaphore words and NOTE (R316-R322). -/

namespace Sys2Proof.Machine

/-! ## Reading and writing units (R312, R317) -/

/-- Adds a unit that has been read. -/
def engPush (k : Nat) (u : MoveUnit) : Eng Unit :=
  modify fun s => s.mapLaunch k fun y => { y with reads := u :: y.reads, passed := [], mig := none }

/-- Reads units until one fails; the status with which it fails is kept, and the units before it are still written. -/
def moveRead {α : Type} (k : Nat) (f : α → Eng MoveUnit) : List α → Eng Unit
  | [] => pure ()
  | a :: rest => do
    let s ← get
    match f a s with
    | (.ok u, s) => do
      set s
      engPush k u
      moveRead k f rest
    | (.error (.status n), s) => set (s.mapLaunch k fun y => { y with fail := n })
    | (.error h, s) => do
      set s
      throw h

/-- Where units go, up to the first that does not go on. -/
def State.resolve (s : State) (k : Nat) (l : Launch) (he : HEntry) : List MoveUnit → State × List (List Place) × Option Halt
  | [] => (s, [], none)
  | u :: us =>
    let e : Eng (List Place) := do
      engAhead k (match u.ahead with | some o => [(he.idx, o)] | none => [])
      let ps ← engPlaces k l he true u.dst u.bytes.length
      let _ ← ps.mapM (engMeter k l)
      pure ps
    match e s with
    | (.ok ps, s) =>
      let (s, r, h) := s.resolve k l he us
      (s, ps :: r, h)
    | (.error h, s) => (s, [], some h)

/-- The bytes that units leave at their places. With `open_`, a byte of a place that the launch also reads receives some source byte of the
launch, and with `dup` so does one that it writes twice: which one is open (R317, log entry 3). -/
def State.moved (s : State) (open_ dup : Bool) (us : List MoveUnit) (ws : List (Place × Byte)) : List (Place × Byte) :=
  if !open_ then ws
  else
    let srcs := us.flatMap (·.src)
    let pool := us.flatMap (·.bytes)
    let dsts := ws.map (·.1)
    (ws.zip (List.range ws.length)).map fun e =>
      if srcs.contains e.1.1 || (dup && dsts.count e.1.1 != 1) then
        (e.1.1, pool.getD ((s.free (0x15000000 + e.2)).toNat % pool.length) e.1.2)
      else e.1

/-- The naturally aligned 16 bytes of a place, as a place. -/
def Place.block16 : Place → Place
  | .mem a => .mem (a / 16 * 16)
  | .core u o => .core u (o / 16 * 16)
  | .group g o => .group g (o / 16 * 16)
  | .carved o => .carved (o / 16 * 16)
  | .peer o => .peer (o / 16 * 16)
  | .dev o => .dev (o / 16 * 16)

/-- How far one step of a running launch goes: some of n, at least one (log entry 38). -/
def State.some_ (s : State) (tag n : Nat) : Nat := 1 + (s.free tag).toNat % Nat.max 1 n

/-- The writes of one step: those of the first n units, and any others of the launch, in naturally aligned units of 16 bytes (R317). -/
def State.someWrites (s : State) (n : Nat) (ws : List (List (Place × Byte))) : List (Place × Byte) :=
  let now := ((ws.take n).flatten.map fun w => w.1.block16).eraseDups
  let late := (ws.flatten.map fun w => w.1.block16).eraseDups
  ws.flatten.filter fun w => now.contains w.1.block16 || (s.free (0x1D000000 + late.idxOf w.1.block16)).getLsbD 0

/-- Reads some of what is left to read; once all is read, or a read has failed, writes some of what is left to write. Mark: units written
with all before them. A launch that has not done everything goes on in a later step. -/
def moveRun {α : Type} (k : Nat) (l : Launch) (open_ dup : Bool) (dst : HEntry) (units : List α) (f : α → Eng MoveUnit) : Eng Nat := do
  let y ← engSelf k l
  let s ← get
  let left := units.drop y.reads.length
  if y.fail = 0 then moveRead k f (left.take (s.some_ 0x1C000040 left.length))
  let y ← engSelf k l
  if y.fail = 0 && y.reads.length < units.length then throw .held
  let us := y.reads.reverse
  let s ← get
  let (s, ps, h) := s.resolve k l dst (us.drop y.done)
  let all := s.moved open_ dup us (((us.drop y.done).zip ps).flatMap fun e => e.2.zip e.1.bytes)
  let n := Nat.min ps.length (s.some_ 0x1C000041 ps.length)
  let lens := ps.map (·.length)
  let ws := s.someWrites n ((List.range ps.length).map fun i => (all.drop (lens.take i).sum).take (lens.getD i 0))
  let s := (s.writeRun (identity l.ident.vi l.ident.ctx) true (ws.length + 1) ws).clearPoison (ws.map (·.1))
  set (s.mapLaunch k fun y => { y with done := y.done + n, mark := y.done + n, mig := if n = 0 then y.mig else none })
  if n < ps.length then throw .held
  match h with
  | some h => throw h
  | none => if y.fail != 0 then engFail y.fail else pure us.length

/-! ## COPY and FILL (R316, R319) -/

/-- Segments of a copy: source offset, destination offset and length, relative to the references. -/
def copySegs (prm : List Nat) : List (Int × Int × Nat) :=
  let sx (x : Nat) : Int := if x < 2 ^ 31 then x else (x : Int) - 2 ^ 32
  let p (i : Nat) : Nat := prm.getD i 0
  if prm.length = 3 then [(0, 0, p 2)]
  else
    let width := p 2
    let rows := p 3
    let planes := if prm.length = 5 then 1 else p 4
    let rs := if prm.length = 5 then p 4 else p 5
    let ps := if prm.length = 5 then 0 else p 6
    (List.range planes).flatMap fun (z : Nat) => (List.range rows).map fun (r : Nat) =>
      ((r : Int) * sx (bitsOf rs 32 32) + (z : Int) * sx (bitsOf ps 32 32), (r : Int) * sx (bitsOf rs 0 32) + (z : Int) * sx (bitsOf ps 0 32), width)

/-- A copy launch: its limits, the checks of its whole ranges, then its bytes. -/
def copyEng (k : Nat) (l : Launch) : Eng Nat := do
  let prm := l.prm.map (·.toNat)
  let p (i : Nat) : Nat := prm.getD i 0
  let total := p 2 * (if prm.length = 3 then 1 else p 3) * (if prm.length = 7 then p 4 else 1)
  if 2 ^ 36 ≤ total || (prm.length != 3 && (2 ^ 32 ≤ p 2 || 2 ^ 32 ≤ p 3 || (prm.length = 7 && 2 ^ 32 ≤ p 4))) then engFail 0x80
  else if total = 0 then pure 0
  else do
    let dst := l.prm.getD 0 0
    let src := l.prm.getD 1 0
    let hd ← engHandle k l dst
    let hs ← engHandle k l src
    let segs := copySegs prm
    let y ← engSelf k l
    if y.reads.isEmpty then
      segs.forM fun g => do
        engRange l hs false (refOff src + g.1) g.2.2
        engRange l hd true (refOff dst + g.2.1) g.2.2
    -- each byte, with where the next row starts on either side
    let one := prm.length == 3
    let nexts := (segs.drop 1).map (fun g => (refOff src + g.1, refOff dst + g.2.1)) ++ [(refOff src, refOff dst)]
    let units := (segs.zip nexts).flatMap fun g => (List.range g.1.2.2).map fun (i : Nat) =>
      ((refOff src + g.1.1 + (i : Int), refOff dst + g.1.2.1 + (i : Int)), g.2)
    moveRun k l (!one) true hd units fun u => do
      engAhead k (if one then [] else [(hs.idx, u.2.1)])
      let bs ← engRead k l hs u.1.1 1
      pure { src := bs.map (·.1), bytes := bs.map (·.2), dst := u.1.2.toNat, ahead := if one then none else some u.2.2 }

/-- COPY1D (R316). -/
def execCopy1d (r : Bool) (s : State) : Out := launchWord (.copy1d r) 3 true r (startEngine r copyEng) s
/-- COPY2D (R316). -/
def execCopy2d (r : Bool) (s : State) : Out := launchWord (.copy2d r) 5 true r (startEngine r copyEng) s
/-- COPY3D (R316). -/
def execCopy3d (r : Bool) (s : State) : Out := launchWord (.copy3d r) 7 true r (startEngine r copyEng) s

/-- FILL (R319). -/
def fillEng (k : Nat) (l : Launch) : Eng Nat := do
  let dst := l.prm.getD 0 0
  let pat := l.prm.getD 1 0
  let len := (l.prm.getD 2 0).toNat
  let w := 2 ^ (l.word.toNat % 4)
  if len % w != 0 then engFail 0x80
  else do
    let hd ← engHandle k l dst
    engRange l hd true (refOff dst) len
    if bitsOf dst.toNat 0 56 % w != 0 then engFail cMisaligned
    else moveRun k l false false hd (List.range len) fun (i : Nat) =>
      pure { src := [], bytes := [pat.extractLsb' (8 * (i % w)) 8], dst := bitsOf dst.toNat 0 56 + i }

/-- FILL (R319). -/
def execFill (r : Bool) (w : FillW) (s : State) : Out := launchWord (.fill r w) 3 true r (startEngine r fillEng) s

/-! ## GATHER and SCATTER (R318) -/

/-- A gather or a scatter: each element's index, then its accesses, are checked as it is reached. -/
def gatherEng (k : Nat) (l : Launch) : Eng Nat := do
  let word := l.word.toNat
  let scatter := bitsOf word 5 3 = 4
  let i64 := word.testBit 0
  let sc := word.testBit 1
  let p (i : Nat) : W64 := l.prm.getD i 0
  let count := (p 3).toNat
  let esize := (p 4).toNat
  if esize = 0 || 4096 < esize || 2 ^ 24 ≤ count then engFail 0x80
  else do
    let hd ← engHandle k l (p 0)
    let hb ← engHandle k l (p 1)
    let hi ← engHandle k l (p 2)
    let iw := if i64 then 8 else 4
    moveRun k l true (!scatter) (if scatter then hb else hd) (List.range count) fun (i : Nat) => do
      engAhead k []
      let x ← engNat k l hi (refOff (p 2) + (i * iw : Nat)) iw
      let place (x : Nat) : Int := refOff (p 1) + (if sc then x * esize else x : Nat)
      let far := place x
      let near : Int := refOff (p 0) + (i * esize : Nat)
      let y ← engTry (engNat k l hi (refOff (p 2) + ((i + 1) * iw : Nat)) iw)
      let farNext := (y.map place).getD far
      let (hs, a, ht, b) := if scatter then (hd, near, hb, far) else (hb, far, hd, near)
      engRange l hs false a esize
      engRange l ht true b esize
      engAhead k [(hs.idx, if scatter then near + (esize : Int) else farNext)]
      let bs ← engRead k l hs a esize
      pure { src := bs.map (·.1), bytes := bs.map (·.2), dst := b.toNat, ahead := some (if scatter then farNext else near + (esize : Int)) }

/-- GATHER (R318). -/
def execGather (r : Bool) (sc i64 : Bool) (s : State) : Out := launchWord (.gather r sc i64) 5 true r (startEngine r gatherEng) s
/-- SCATTER (R318). -/
def execScatter (r : Bool) (sc i64 : Bool) (s : State) : Out := launchWord (.scatter r sc i64) 5 true r (startEngine r gatherEng) s

/-! ## Semaphore words and NOTE (R320-R322, R458) -/

/-- SEMPOST (R320, R462). -/
def execSempost (r : Bool) (n : BitVec 4) (s : State) : Out :=
  launchWord (.sempost r n) 0 false r (fun k x w _ s =>
    let s := s.setStream k x
    match s.semPost (streamSem k n.toNat) 1 with
    | some s => .next (s.leaveWord k w 0 0 r false)
    | none => .next (s.leaveWord k w 0x18 0 r false)) s

/-- SEMWAIT (R320): it takes at once, or waits behind the takes before it until its take is served. -/
def execSemwait (r : Bool) (n : BitVec 4) (s : State) : Out :=
  launchWord (.semwait r n) 0 false r (fun k x w _ s =>
    let key := streamSem k n.toNat
    let y := s.sem key
    match x.waiting with
    -- its take waits its turn: it completes as it is served
    | some _ => .next { s with held := true }
    | none =>
      if y.takes.isEmpty && 1 ≤ y.value then
        .next (((s.setStream k x).setSem key { y with value := y.value - 1 }).leaveWord k w 0 0 r false)
      else
        let s := s.mapStream k fun z => { z with waiting := some s.ticket }
        let s := s.setSem key { y with takes := y.takes ++ [{ stream := true, who := k, n := 1, ticket := s.ticket }] }
        .next { s with ticket := s.ticket + 1, held := true }) s

/-- NOTE (R322). -/
def execNote (s : State) : Out :=
  launchWord .note 1 false true (fun k x w ps s =>
    .next ((s.setStream k x).leaveWord k w 0 (ps.headD 0).toNat true false)) s

end Sys2Proof.Machine
end

