-- ==== Sys2Proof/Machine/Ray.lean ====
section
/-! DEFINITION. Ray queries: trees, RAYHIT, RAYRAD and RAYKNN (R323-R327). -/

namespace Sys2Proof.Machine

/-- A point of a leaf: x, y, z, its id, and whether it lies within every box on its path. -/
structure RayPoint where
  xyz : List Nat
  id : Nat
  within : Bool
  deriving DecidableEq, Repr

/-! ## Trees (R324) -/

/-- Word i (32 bits) of some bytes. -/
def wordAt (bs : List Byte) (o : Nat) : Nat := ofBytes ((bs.drop o).take 4)

/-- One comparison of FP32 codes; NaN compares false. -/
def fle (x y : Nat) : Bool := !f32.isNan x && !f32.isNan y && f32.key x ≤ f32.key y

/-- A point lies within a box: min x, y, z and max x, y, z. -/
def inBox (box p : List Nat) : Bool := (List.range 3).all fun i => fle (box.getD i 0) (p.getD i 0) && fle (p.getD i 0) (box.getD (3 + i) 0)

/-- A node read from its 128 bytes: children with their boxes, or points; `none` for a reserved value. -/
inductive RayNode where
  | inner (kids : List (Nat × List Nat))
  | leaf (points : List (List Nat × Nat))
  deriving DecidableEq, Repr

def nodeOf (bs : List Byte) : Option RayNode :=
  let w (o : Nat) : Nat := wordAt bs o
  let zero (lo hi : Nat) : Bool := ((bs.drop lo).take (hi - lo)).all (· == 0)
  let n := bitsOf (w 0) 2 3 + 1
  if bitsOf (w 0) 5 27 != 0 then none
  else if bitsOf (w 0) 0 2 = 0 then
    if 4 < n || !zero 104 128 then none
    else some (.inner ((List.range n).map fun j => ((w 4 + j) % 2 ^ 32, (List.range 6).map fun i => w (8 + 24 * j + 4 * i))))
  else if bitsOf (w 0) 0 2 = 1 then
    if 7 < n || w 4 != 0 || !zero 120 128 then none
    else some (.leaf ((List.range n).map fun j => ((List.range 3).map fun i => w (8 + 16 * j + 4 * i), w (20 + 16 * j))))
  else none

/-- The points of a tree, for one query: nodes still to visit with their depth and the boxes on their path, nodes visited so far.
Every node that can be reached is visited (log entry 20). -/
def rayWalk (k : Nat) (l : Launch) (he : HEntry) (root : Int) (base : Nat) : Nat → Nat → List (Nat × Nat × List (List Nat)) → List RayPoint →
    Eng (List RayPoint)
  | _, _, [], ps => pure ps
  | 0, _, _ :: _, _ => engFail 0x82
  | fuel + 1, seen, (i, depth, boxes) :: rest, ps => do
    if 32 < depth then engFail 0x82
    else do
      let off := root + (128 * i : Nat)
      engRange l he false off 128
      let bs ← engRead k l he off 128
      modify fun s => s.mapLaunch k fun y => { y with mark := base + seen + 1 }
      match nodeOf (bs.map (·.2)) with
      | none => engFail 0x81
      | some (.inner kids) =>
        rayWalk k l he root base fuel (seen + 1) ((kids.map fun c => (c.1, depth + 1, c.2 :: boxes)) ++ rest) ps
      | some (.leaf pts) =>
        rayWalk k l he root base fuel (seen + 1) rest
          (ps ++ pts.map fun p => { xyz := p.1, id := p.2, within := boxes.all fun b => inBox b p.1 })

/-- The points that a query examines: those within their boxes, and any others as the device chooses (R324, log entry 3). -/
def examined (s : State) (ps : List RayPoint) : List RayPoint :=
  ((ps.zip (List.range ps.length)).filter fun e => e.1.within || (s.free (0x16000000 + e.2)).getLsbD 0).map (·.1)

/-! ## RAYHIT (R325) -/

/-- A sum of products, exact, then rounded once to FP32. -/
def sumRound (l : List (Nat × Nat)) : Nat :=
  match (groupSum f32 f32 l).1 with
  | .nan => f32.defNan
  | .inf n => f32.signed n f32.infCode
  | .fin n e => (f32.round .rne 0 .ieee false { neg := n < 0, m := n.natAbs, e := e }).1

def fneg (x : Nat) : Nat := x ^^^ 0x80000000

/-- The square root, rounded once. -/
def sqrtRound (x : Nat) : Nat :=
  if f32.isNan x then f32.quieted x
  else if f32.isZero x then x
  else if f32.neg x then f32.defNan
  else if f32.isInf x then x
  else (f32.round .rne 0 .ieee false (exSqrt (f32.val x))).1

/-- The quotient, rounded once. -/
def divRound (x y : Nat) : Nat :=
  let neg := f32.neg x != f32.neg y
  if f32.isNan x || f32.isNan y then f32.defNan
  else if f32.isInf x then (if f32.isInf y then f32.defNan else f32.signed neg f32.infCode)
  else if f32.isInf y then f32.signed neg 0
  else if f32.isZero y then (if f32.isZero x then f32.defNan else f32.signed neg f32.infCode)
  else if f32.isZero x then f32.signed neg 0
  else
    let a := f32.val x
    let b := f32.val y
    let q := a.m * 2 ^ 64 / b.m
    (f32.round .rne 0 .ieee false (sticky q (q * b.m == a.m * 2 ^ 64) (a.e - b.e - 64) neg)).1

/-- A ray: origin, tmin, direction, tmax. -/
structure Ray where
  org : List Nat
  tmin : Nat
  dir : List Nat
  tmax : Nat
  deriving DecidableEq, Repr

/-- The parameter at which a ray hits a point's sphere. -/
def rayHit (ray : Ray) (r : Nat) (p : List Nat) : Option Nat :=
  let o := (List.range 3).map fun i => (f32.sub false .rne (ray.org.getD i 0) (p.getD i 0)).1
  let a := sumRound (ray.dir.zip ray.dir)
  let b := sumRound (o.zip ray.dir)
  let c := sumRound ((o.zip o) ++ [(fneg r, r)])
  let d := sumRound [(b, b), (fneg a, c)]
  let t : Option Nat :=
    if fle c 0 then some ray.tmin
    else if (!f32.isNan d && f32.key d < 0) || f32.isZero a then none
    else some (divRound (f32.sub false .rne (fneg b) (sqrtRound d)).1 a)
  match t with
  | some t => if fle ray.tmin t && fle t ray.tmax then some t else none
  | none => none

/-- The hit with the smallest t, then the smaller id; a miss gives +∞ and all ones. -/
def bestHit (l : List (Nat × Nat)) : Nat × Nat :=
  match l.foldl (fun (b : Option (Nat × Nat)) h =>
    match b with
    | none => some h
    | some x => if f32.key h.1 < f32.key x.1 || (f32.key h.1 == f32.key x.1 && h.2 < x.2) then some h else b) none with
  | some h => h
  | none => (0x7F800000, 0xFFFFFFFF)

/-! ## RAYRAD and RAYKNN (R326) -/

/-- A finite FP32 value in units of 2^-149. -/
def fixed149 (x : Nat) : Int := (f32.val x).scaled (-149)

def finite (x : Nat) : Bool := !f32.isNan x && !f32.isInf x

/-- The exact squared distance in units of 2^-298. -/
def dist2 (q p : List Nat) : Nat := ((List.range 3).map fun i => (fixed149 (q.getD i 0) - fixed149 (p.getD i 0)).natAbs ^ 2).sum

/-- A candidate: squared distance, id, and the distance as FP32. -/
structure Near where
  d : Nat
  id : Nat
  f : Nat
  deriving DecidableEq, Repr

/-- Whether a finite point is included under the limit r. -/
def underLimit (r d : Nat) : Bool :=
  if f32.isNan r then false else if f32.neg r && !f32.isZero r then false else if f32.isInf r then true else d ≤ (fixed149 r).natAbs ^ 2

/-- The points that a query finds, nearest first, ties to the smaller id. The manual states no distance where a component is not
finite: whether such a point is found, and its distance, are open, and it ranks last (log entry 21). -/
def nearest (s : State) (q : List Nat) (r : Nat) (ps : List RayPoint) : List Near :=
  let found := (ps.zip (List.range ps.length)).filterMap fun e =>
    if q.all finite && e.1.xyz.all finite then
      let d := dist2 q e.1.xyz
      if underLimit r d then
        some ({ d := d, id := e.1.id, f := (f32.round .rne 0 .ieee false { neg := false, m := d, e := -298 }).1 } : Near)
      else none
    else if (s.free (0x17000000 + 2 * e.2)).getLsbD 0 then
      some { d := 2 ^ 700, id := e.1.id, f := (s.free (0x17000001 + 2 * e.2)).toNat % 2 ^ 32 }
    else none
  sortBy (fun a b => a.d < b.d || (a.d == b.d && a.id ≤ b.id)) found

/-! ## The words -/

/-- Bytes of 32-bit words. -/
def wordBytes (ws : List Nat) : List Byte := ws.flatMap fun w => toBytes w 4

/-- One query: its bytes, the points of the tree, and its result. A query that waits starts again later. -/
def rayQuery (k : Nat) (l : Launch) (tree hq hr : HEntry) (root qoff : Int) (qlen : Nat) (roff : Int)
    (answer : State → List Byte → List RayPoint → List Byte) : Eng Unit := do
  let y ← engSelf k l
  let s ← get
  let go : Eng Unit := do
    engRange l hq false qoff qlen
    let q ← engRead k l hq qoff qlen
    let ps ← rayWalk k l tree root y.mark 65536 0 [(0, 1, [])] []
    let s ← get
    engStore k l hr roff (answer s (q.map (·.2)) (examined s ps))
  match go s with
  | (.ok _, s) => set (s.mapLaunch k fun z => { z with done := z.done + 1, passed := [] })
  | (.error (.status n), s) => do
    set s
    engFail n
  | (.error h, s) => do
    set (s.mapLaunch k fun z => { z with mark := y.mark })
    throw h

/-- Queries in increasing order (R327). -/
def rayQueries (k : Nat) (f : Nat → Eng Unit) : Nat → Nat → Eng Unit
  | 0, _ => pure ()
  | n + 1, i => do
    f i
    rayQueries k f n (i + 1)

/-- The tree bound to the stream, the query array and the result array of a ray word. -/
def rayEng (qlen rlen : Nat) (answer : State → List Byte → List RayPoint → List Byte) (k : Nat) (l : Launch) : Eng Nat := do
  let s ← get
  match (s.stream k).root with
  | none => engFail cHandleInvalid
  | some root => do
    let p (i : Nat) : W64 := l.prm.getD i 0
    let tree ← engHandle k l root
    let hq ← engHandle k l (p 0)
    let hr ← engHandle k l (p 1)
    let y ← engSelf k l
    let count := (p 2).toNat
    rayQueries k (fun i => rayQuery k l tree hq hr (refOff root) (refOff (p 0) + (i * qlen : Nat)) qlen (refOff (p 1) + (i * rlen : Nat)) answer)
      (count - y.done) y.done
    let y ← engSelf k l
    pure y.mark

/-- RAYHIT. -/
def rayhitEng (k : Nat) (l : Launch) : Eng Nat :=
  let r := (l.prm.getD 3 0).toNat % 2 ^ 32
  if 2 ^ 24 ≤ (l.prm.getD 2 0).toNat || !finite r || (f32.neg r && !f32.isZero r) then engFail 0x80
  else rayEng 32 8 (fun _ bs ps =>
    let w (i : Nat) : Nat := wordAt bs (4 * i)
    let ray : Ray := { org := [w 0, w 1, w 2], tmin := w 3, dir := [w 4, w 5, w 6], tmax := w 7 }
    let hits := if (List.range 8).any fun i => f32.isNan (w i) then []
      else ps.filterMap fun p => (rayHit ray r p.xyz).map fun t => (t, p.id)
    let h := bestHit hits
    wordBytes [h.1, h.2]) k l

/-- RAYRAD. -/
def rayradEng (k : Nat) (l : Launch) : Eng Nat :=
  let cfg := (l.prm.getD 3 0).toNat
  let r := cfg % 2 ^ 32
  let m := bitsOf cfg 32 16
  if m = 0 || bitsOf cfg 48 16 != 0 then engFail 0x80
  else rayEng 16 (4 + 4 * m) (fun s bs ps =>
    let found := nearest s ((List.range 3).map fun i => wordAt bs (4 * i)) r ps
    wordBytes ((Nat.min found.length m + (if m < found.length then 2 ^ 31 else 0)) :: (found.take m).map (·.id))) k l

/-- RAYKNN. -/
def rayknnEng (k : Nat) (l : Launch) : Eng Nat :=
  let cfg := (l.prm.getD 3 0).toNat
  let n := bitsOf cfg 0 16
  if n = 0 || 64 < n || bitsOf cfg 16 16 != 0 then engFail 0x80
  else rayEng 16 (4 + 8 * n) (fun s bs ps =>
    let found := (nearest s ((List.range 3).map fun i => wordAt bs (4 * i)) (bitsOf cfg 32 32) ps).take n
    wordBytes (found.length :: (found.flatMap fun x => [x.id, x.f]) ++
      (List.range (n - found.length)).flatMap fun _ => [0xFFFFFFFF, 0x7F800000])) k l

/-- BVHSET binds a tree to the stream. -/
def bvhsetEng (k : Nat) (l : Launch) : Eng Nat := do
  modify fun s => s.mapStream k fun x => { x with root := some (l.prm.getD 0 0) }
  pure 0

/-- BVHSET (R323). -/
def execBvhset (r : Bool) (s : State) : Out := launchWord (.bvhset r) 1 true r (startEngine r bvhsetEng) s
/-- RAYHIT (R325). -/
def execRayhit (r : Bool) (s : State) : Out := launchWord (.rayhit r) 4 true r (startEngine r rayhitEng) s
/-- RAYRAD (R326). -/
def execRayrad (r : Bool) (s : State) : Out := launchWord (.rayrad r) 4 true r (startEngine r rayradEng) s
/-- RAYKNN (R326). -/
def execRayknn (r : Bool) (s : State) : Out := launchWord (.rayknn r) 4 true r (startEngine r rayknnEng) s

end Sys2Proof.Machine
end

