-- ==== Sys2Proof/Machine/Vision.lean ====
section
/-! DEFINITION. The vision pipeline: image descriptors, VREMAP, VPYR, VSTEREO, VFLOW and VCHAIN (R328-R334). -/

namespace Sys2Proof.Machine

/-! ## Images (R328) -/

/-- An image: the handle and offset of pixel (0, 0), its size, pitch and format. -/
structure Img where
  he : HEntry
  off : Int
  w : Nat
  h : Nat
  pitch : Nat
  fmt : Nat
  deriving DecidableEq, Repr

/-- Bytes of a pixel. -/
def pixelBytes (fmt : Nat) : Nat := if fmt = 0 then 1 else if fmt = 3 then 4 else 2

/-- A handle entry of the carved space. -/
def carvedHandle (k : Nat) (l : Launch) (ref : W64) : Eng HEntry := do
  let he ← engHandle k l ref
  if he.space = 4 then pure he else engFail cHandleInvalid

/-- The last byte of an image, counted from its reference. -/
def Img.bytes (m : Img) : Nat := (m.h - 1) * m.pitch + m.w * pixelBytes m.fmt

/-- Reads a descriptor and checks it. -/
def imgAt (k : Nat) (l : Launch) (he : HEntry) (off : Int) : Eng Img := do
  let bs ← engRead k l he off 16
  let n (lo len : Nat) : Nat := ofBytes (((bs.map (·.2)).drop lo).take len)
  let fmt := n 15 1
  if 3 < fmt || n 8 2 = 0 || 8192 < n 8 2 || n 10 2 = 0 || 8192 < n 10 2 || n 12 3 < n 8 2 * pixelBytes fmt then engFail 0x83
  else do
    let ref := BitVec.ofNat 64 (n 0 8)
    let hi ← carvedHandle k l ref
    pure { he := hi, off := refOff ref, w := n 8 2, h := n 10 2, pitch := n 12 3, fmt := fmt }

/-- The image that a parameter names; its descriptor is checked whole before anything is written (R309). -/
def imgOf (k : Nat) (l : Launch) (ref : W64) : Eng Img := do
  let he ← carvedHandle k l ref
  engRange l he false (refOff ref) 16
  imgAt k l he (refOff ref)

/-- Checks the whole range of an image's pixels. -/
def imgRange (l : Launch) (m : Img) (write : Bool) : Eng Unit := engRange l m.he write m.off m.bytes

/-- A check that ends the launch with IMAGE_FORMAT. -/
def wantImg (ok : Bool) : Eng Unit := if ok then pure () else engFail 0x83

/-- The pixel at (x, y), clamped to the edge. -/
def pixel (k : Nat) (l : Launch) (m : Img) (x y : Int) : Eng Nat := do
  let cx := (if x < 0 then 0 else if (m.w : Int) ≤ x then (m.w : Int) - 1 else x).toNat
  let cy := (if y < 0 then 0 else if (m.h : Int) ≤ y then (m.h : Int) - 1 else y).toNat
  let bs ← engRead k l m.he (m.off + (cy * m.pitch + cx * pixelBytes m.fmt : Nat)) (pixelBytes m.fmt)
  pure (ofBytes (bs.map (·.2)))

def setPixel (k : Nat) (l : Launch) (m : Img) (x y v : Nat) : Eng Unit := do
  let bs := toBytes v (pixelBytes m.fmt)
  let ps ← engPlaces k l m.he true (m.off + (y * m.pitch + x * pixelBytes m.fmt : Nat)) bs.length
  engWrite k l (ps.zip bs)

/-- Every pixel of an image whose value is computed from others, row by row; the mark counts rows unless a chain's stage does it. -/
def eachPixel (k : Nat) (marks : Bool) (m : Img) (f : Nat → Nat → Eng Unit) : Eng Unit :=
  (List.range m.h).forM fun (y : Nat) => do
    (List.range m.w).forM fun (x : Nat) => f x y
    if marks then engMark k (y + 1)

/-- The signed value of 16 bits. -/
def s16 (x : Nat) : Int := let v := x % 65536; if v < 32768 then v else (v : Int) - 65536

def mono (m : Img) : Bool := m.fmt ≤ 1
def sameSize (a b : Img) : Bool := a.w == b.w && a.h == b.h

/-! ## VREMAP (R330) -/

def remapEng (marks : Bool) (k : Nat) (l : Launch) (prm : List W64) : Eng Nat := do
  let src ← imgOf k l (prm.getD 0 0)
  let out ← imgOf k l (prm.getD 1 0)
  let map ← imgOf k l (prm.getD 2 0)
  wantImg (mono src && out.fmt == src.fmt && map.fmt == 3 && sameSize map out)
  imgRange l src false
  imgRange l out true
  imgRange l map false
  eachPixel k marks out fun x y => do
    let c ← pixel k l map x y
    let X := s16 c
    let Y := s16 (c / 65536)
    let i := X / 16
    let j := Y / 16
    let fx := (X % 16).toNat
    let fy := (Y % 16).toNat
    let p00 ← pixel k l src i j
    let p10 ← pixel k l src (i + 1) j
    let p01 ← pixel k l src i (j + 1)
    let p11 ← pixel k l src (i + 1) (j + 1)
    let t := (16 - fx) * (16 - fy) * p00 + fx * (16 - fy) * p10 + (16 - fx) * fy * p01 + fx * fy * p11
    setPixel k l out x y ((t + 128) / 256)
  pure out.h

/-! ## VPYR (R331) -/

/-- Weights of the five taps. -/
def tap (i : Nat) : Nat := [1, 4, 6, 4, 1].getD i 0

/-- The signed parts of a pixel: one, or the two of a pair. -/
def pixelParts (fmt p : Nat) : List Int := if fmt = 2 then [s16 p] else if fmt = 3 then [s16 p, s16 (p / 65536)] else [(p : Int)]

/-- A pixel from its parts. -/
def partsPixel (xs : List Int) : Nat := match xs with
  | [x] => (x % 65536).toNat
  | x :: y :: _ => (x % 65536).toNat + 65536 * (y % 65536).toNat
  | [] => 0

/-- Builds the levels from one image to the next; the parts of a pair are filtered one by one. -/
def pyrLevels (marks : Bool) (k : Nat) (l : Launch) : Img → Nat → List Img → Eng Unit
  | _, _, [] => pure ()
  | src, n, out :: rest => do
    eachPixel k false out fun x y => do
      let s ← (List.range 25).foldlM (fun (a : List Int) (t : Nat) => do
        let p ← pixel k l src (2 * x + (t % 5 : Nat) - 2) (2 * y + (t / 5 : Nat) - 2)
        pure (a.zipWith (fun u v => u + ((tap (t % 5) * tap (t / 5) : Nat) : Int) * v) (pixelParts src.fmt p))) ((pixelParts src.fmt 0).map fun _ => 0)
      setPixel k l out x y (partsPixel (s.map fun u => (u + 128) / 256))
    if marks then engMark k (n + 1)
    pyrLevels marks k l out (n + 1) rest

/-- Each level has half the size of the one before. -/
def pyrFits : Img → List Img → Bool
  | _, [] => true
  | a, b :: rest => b.fmt == a.fmt && b.w == (a.w + 1) / 2 && b.h == (a.h + 1) / 2 && pyrFits b rest

def pyrEng (marks : Bool) (k : Nat) (l : Launch) (prm : List W64) : Eng Nat := do
  let n := (prm.getD 2 0).toNat
  if n = 0 || 6 < n then engFail 0x80
  else do
    let src ← imgOf k l (prm.getD 0 0)
    let ref := prm.getD 1 0
    let he ← carvedHandle k l ref
    engRange l he false (refOff ref) (16 * n)
    let outs ← (List.range n).mapM fun (i : Nat) => imgAt k l he (refOff ref + (16 * i : Nat))
    wantImg (pyrFits src outs)
    imgRange l src false
    outs.forM fun m => imgRange l m true
    pyrLevels marks k l src 0 outs
    pure n

/-! ## VSTEREO (R332) -/

/-- The sum of absolute differences over the window at (x, y) for disparity d, from the left image (`right` false) or the right. -/
def stereoCost (k : Nat) (l : Launch) (a b : Img) (half : Nat) (x y : Int) (d : Int) : Eng Nat :=
  let n := 2 * half + 1
  (List.range (n * n)).foldlM (fun (s : Nat) (t : Nat) => do
    let i : Int := (t % n : Nat) - half
    let j : Int := (t / n : Nat) - half
    let p ← pixel k l a (x + i) (y + j)
    let q ← pixel k l b (x + i + d) (y + j)
    pure (s + ((p : Int) - q).natAbs)) 0

/-- The smallest index of the least value. -/
def argMin (l : List Nat) : Nat :=
  (l.zip (List.range l.length)).foldl (fun (b : Nat) e => if e.1 < l.getD b 0 then e.2 else b) 0

/-- Disparity and confidence from the costs C(0..M), the costs of the search from the right image at the place found, the width limit
and the margin U. -/
def stereoPixel (C : List Nat) (eStar : Nat) (U : Nat) : Nat × Nat :=
  let M := C.length - 1
  let d := argMin C
  let c1 := C.getD d 0
  let far := (List.range C.length).filter fun i => i + 2 ≤ d || d + 2 ≤ i
  let c2 := (far.map fun i => C.getD i 0).foldl Nat.min ((far.head?.map fun i => C.getD i 0).getD c1)
  if d = M && 0 < M then (0xFFF2, 0)
  else if 256 * c2 ≤ (256 + U) * c1 then (0xFFF0, 0)
  else if 1 < ((d : Int) - eStar).natAbs then (0xFFF1, 0)
  else
    let disp :=
      if d = 0 then 0
      else
        let a : Int := C.getD (d - 1) 0
        let b : Int := C.getD (d + 1) 0
        let den := 2 * (a + b - 2 * c1)
        -- Floor(16 δ + 1/2)
        let r := if den = 0 then 0 else (32 * (a - b) + den) / (2 * den)
        (16 * (d : Int) + r).toNat % 65536
    (disp, if 0 < c2 then 255 * (c2 - c1) / c2 else 0)

def stereoEng (marks : Bool) (word : Nat) (k : Nat) (l : Launch) (prm : List W64) : Eng Nat := do
  let dmax := 64 * 2 ^ (word % 4)
  let half := if word.testBit 2 then 3 else 2
  let cfg := (prm.getD 4 0).toNat
  if 256 ≤ cfg then engFail 0x80
  else do
    let lf ← imgOf k l (prm.getD 0 0)
    let rt ← imgOf k l (prm.getD 1 0)
    let disp ← imgOf k l (prm.getD 2 0)
    let conf ← imgOf k l (prm.getD 3 0)
    wantImg (mono lf && rt.fmt == lf.fmt && sameSize lf rt && disp.fmt == 2 && conf.fmt == 0 && sameSize disp lf && sameSize conf lf)
    imgRange l lf false
    imgRange l rt false
    imgRange l disp true
    imgRange l conf true
    eachPixel k marks disp fun x y => do
      let C ← (List.range (Nat.min (dmax - 1) x + 1)).mapM fun (d : Nat) => stereoCost k l lf rt half x y (-(d : Int))
      let d := argMin C
      let x' := x - d
      let E ← (List.range (Nat.min (dmax - 1) (lf.w - 1 - x') + 1)).mapM fun (e : Nat) => stereoCost k l rt lf half x' y e
      let r := stereoPixel C (argMin E) cfg
      setPixel k l disp x y r.1
      setPixel k l conf x y r.2
    pure disp.h

/-! ## VFLOW (R333) -/

/-- The order of candidates with equal cost: least |u| + |v|, then least v, then least u. -/
def flowBefore (a b : Nat × Int × Int) : Bool :=
  let k (c : Nat × Int × Int) : Nat := c.2.1.natAbs + c.2.2.natAbs
  a.1 < b.1 || (a.1 == b.1 && (k a < k b || (k a == k b && (a.2.2 < b.2.2 || (a.2.2 == b.2.2 && a.2.1 < b.2.1)))))

def flowEng (marks : Bool) (word : Nat) (k : Nat) (l : Launch) (prm : List W64) : Eng Nat := do
  let B := if word.testBit 0 then 16 else 8
  let cfg := (prm.getD 3 0).toNat
  if cfg = 0 || 32 < cfg then engFail 0x80
  else do
    let prev ← imgOf k l (prm.getD 0 0)
    let cur ← imgOf k l (prm.getD 1 0)
    let out ← imgOf k l (prm.getD 2 0)
    wantImg (mono prev && cur.fmt == prev.fmt && sameSize prev cur && out.fmt == 3 && out.w == cur.w / B && out.h == cur.h / B)
    imgRange l prev false
    imgRange l cur false
    imgRange l out true
    let n := 2 * cfg + 1
    eachPixel k marks out fun bx by_ => do
      let cands : List (Int × Int) := ((List.range (n * n)).map fun (t : Nat) => ((t % n : Nat) - (cfg : Int), (t / n : Nat) - (cfg : Int))).filter
        fun c => 0 ≤ (bx * B : Nat) + c.1 && (bx * B : Nat) + c.1 + B ≤ (prev.w : Int) && 0 ≤ (by_ * B : Nat) + c.2 && (by_ * B : Nat) + c.2 + B ≤ (prev.h : Int)
      let costs ← cands.mapM fun c => do
        let s ← (List.range (B * B)).foldlM (fun (s : Nat) (t : Nat) => do
          let x : Int := (bx * B + t % B : Nat)
          let y : Int := (by_ * B + t / B : Nat)
          let p ← pixel k l cur x y
          let q ← pixel k l prev (x + c.1) (y + c.2)
          pure (s + ((p : Int) - q).natAbs)) 0
        pure (s, c.1, c.2)
      let v := match costs.foldl (fun (b : Option (Nat × Int × Int)) c => match b with
          | none => some c
          | some x => if flowBefore c x then some c else b) none with
        | some c => (BitVec.ofInt 16 (16 * c.2.1)).toNat + 65536 * (BitVec.ofInt 16 (16 * c.2.2)).toNat
        | none => 0x80008000
      setPixel k l out bx by_ v
    pure out.h

/-! ## VCHAIN (R334) -/

/-- A vision word other than VCHAIN by its value; `none` for any other word, or with bit 4 set. -/
def stageEng (marks : Bool) (word : Nat) : Option (Nat × (Nat → Launch → List W64 → Eng Nat)) :=
  match decode16 (BitVec.ofNat 16 word) with
  | .vremap false => some (3, remapEng marks)
  | .vpyr false => some (3, pyrEng marks)
  | .vstereo false _ _ => some (5, stereoEng marks word)
  | .vflow false _ => some (4, flowEng marks word)
  | _ => none

/-- The stages of a chain, from stage i on; the mark counts stages. A stage record whose bytes 2-7 are not zero, which R334 says they are, ends
the chain with ENGINE_WORD: the model's choice (log entry 60). -/
def chainStages (k : Nat) (l : Launch) (he : HEntry) (off : Int) : Nat → Nat → Eng Unit
  | 0, _ => pure ()
  | n + 1, i => do
    let bs ← engRead k l he (off + (64 * i : Nat)) 64
    let num (lo len : Nat) : Nat := ofBytes (((bs.map (·.2)).drop lo).take len)
    match stageEng false (num 0 2) with
    | none => engFail 0x21
    | some (np, f) =>
      if num 2 6 != 0 then engFail 0x21
      else do
        let _ ← f k l ((List.range np).map fun j => BitVec.ofNat 64 (num (8 + 8 * j) 8))
        modify fun s => s.mapLaunch k fun y => { y with done := i + 1, mark := i + 1, passed := [] }
        chainStages k l he off n (i + 1)

def chainEng (k : Nat) (l : Launch) : Eng Nat := do
  let count := (l.prm.getD 1 0).toNat
  if count = 0 || 16 < count then engFail 0x80
  else do
    let ref := l.prm.getD 0 0
    let he ← engHandle k l ref
    engRange l he false (refOff ref) (64 * count)
    let y ← engSelf k l
    chainStages k l he (refOff ref) (count - y.done) y.done
    pure count

/-! ## The words -/

/-- The words of the pipeline but VCHAIN. -/
def visionEng (f : Nat → Launch → List W64 → Eng Nat) (k : Nat) (l : Launch) : Eng Nat := f k l l.prm

/-- VREMAP (R330). -/
def execVremap (r : Bool) (s : State) : Out := launchWord (.vremap r) 3 true r (startEngine r (visionEng (remapEng true))) s
/-- VPYR (R331). -/
def execVpyr (r : Bool) (s : State) : Out := launchWord (.vpyr r) 3 true r (startEngine r (visionEng (pyrEng true))) s
/-- VSTEREO (R332). -/
def execVstereo (r win7 : Bool) (dmax : DMax) (s : State) : Out :=
  launchWord (.vstereo r win7 dmax) 5 true r (startEngine r fun k l => visionEng (stereoEng true l.word.toNat) k l) s
/-- VFLOW (R333). -/
def execVflow (r b16 : Bool) (s : State) : Out :=
  launchWord (.vflow r b16) 4 true r (startEngine r fun k l => visionEng (flowEng true l.word.toNat) k l) s
/-- VCHAIN (R334). -/
def execVchain (r : Bool) (s : State) : Out := launchWord (.vchain r) 2 true r (startEngine r chainEng) s

end Sys2Proof.Machine
end

