-- ==== Sys2Proof/Machine/Storage.lean ====
section
/-! DEFINITION. Storage words, and the end of a running launch other than a matrix launch's (R310, R311, R335-R337, R407). -/

namespace Sys2Proof.Machine

/-! ## Bindings (R335) -/

/-- Register word i of binding b of an interface. -/
def State.binding (s : State) (vi b i : Nat) : W64 := s.cfgAt (0x30000 + 0x100 * vi + 0x20 * b + 8 * i)

/-- A storage launch's binding as it is when the word is dequeued. -/
structure Bound where
  /-- controller and namespace -/
  ns : Nat
  /-- block size in bytes -/
  size : Nat
  lba : Nat
  lim : Nat
  deriving DecidableEq, Repr

def State.bound (s : State) (vi b : Nat) : Option Bound :=
  let c := s.binding vi b 0
  if c.getLsbD 63 then
    some { ns := bitsOf c.toNat 32 16 * 2 ^ 32 + bitsOf c.toNat 0 32, size := if c.getLsbD 48 then 4096 else 512,
           lba := (s.binding vi b 1).toNat, lim := (s.binding vi b 2).toNat }
  else none

/-- Key of a block of a drive. -/
def blockKey (ns lba : Nat) : Nat := ns * 2 ^ 64 + lba % 2 ^ 64

/-! ## STWR, STRD and SFLUSH (R336, R337) -/

/-- The checks of a storage launch, as its word is dequeued; the launch then waits for the drive. -/
def storageStart (k : Nat) (l : Launch) : Eng Nat := do
  let s ← get
  let word := l.word.toNat
  let count := (l.prm.getD 2 0).toNat
  if bitsOf word 5 3 != 2 && (count = 0 || 65536 < count) then engFail 0x80
  else
    match s.bound l.ident.vi (word % 8) with
    | none => engFail cHandleInvalid
    | some b => do
      set (s.mapLaunch k fun y => { y with banks := 0, rows := [(b.ns, b.size, b.lba)] })
      if bitsOf word 5 3 = 2 then throw .held
      else if b.lim < (l.prm.getD 1 0).toNat + count then engFail cBounds
      else
        let mem := l.prm.getD 0 0
        if mem.toNat % 4 != 0 then engFail cMisaligned
        else do
          let he ← engHandle k l mem
          engRange l he (bitsOf word 5 3 == 1) (refOff mem) (count * b.size)
          throw .held

/-- One block moves between memory and the drive. -/
def storageBlock (k : Nat) (l : Launch) (he : HEntry) (ns size lba : Nat) (i : Nat) : Eng Unit := do
  let off := refOff (l.prm.getD 0 0) + ((i * size : Nat) : Int)
  let key := blockKey ns (lba + (l.prm.getD 1 0).toNat + i)
  if bitsOf l.word.toNat 5 3 = 0 then do
    let bs ← engRead k l he off size
    modify fun s => { s with nvme := ((bs.map (·.2)).zip (List.range size)).foldl (fun m e => Tbl.set 0 m (key * 4096 + e.2) e.1) s.nvme }
    modify fun s => { s with nvmeDirty := if l.word.toNat.testBit 3 then s.nvmeDirty.filter (·.1 != key) else (key, s.clock) :: s.nvmeDirty }
  else do
    let s ← get
    let ps ← engPlaces k l he true off size
    engWrite k l (ps.zip ((List.range size).map fun j => s.nvme.get 0 (key * 4096 + j)))
  engMark k (i + 1)

/-- What the drive reports: the blocks it has done, and its status where it failed. -/
def storageRun (rep : DriveReport) (k : Nat) (l : Launch) : Eng Nat := do
  let y ← engSelf k l
  let (ns, size, lba) := y.rows.headD (0, 512, 0)
  if bitsOf l.word.toNat 5 3 = 2 then
    match rep.err with
    | some e => do
      modify fun s => s.mapLaunch k fun y => { y with mark := e.toNat * 2 ^ 20 }
      engFail 0x84
    | none => do
      modify fun s => { s with nvmeDirty := s.nvmeDirty.filter fun e => !(e.1 / 2 ^ 64 == ns && e.2 ≤ y.at_) }
      pure 0
  else do
    let he ← engHandle k l (l.prm.getD 0 0)
    let _ ← ((List.range rep.blocks).drop y.mark).mapM (storageBlock k l he ns size lba)
    match rep.err with
    | some e => do
      modify fun s => s.mapLaunch k fun y => { y with mark := e.toNat * 2 ^ 20 + rep.blocks }
      engFail 0x84
    | none => pure rep.blocks

/-- STWR (R336). -/
def execStwr (r fua : Bool) (b : BitVec 3) (s : State) : Out := launchWord (.stwr r fua b) 3 true r (startEngine r storageStart) s
/-- STRD (R336). -/
def execStrd (r : Bool) (b : BitVec 3) (s : State) : Out := launchWord (.strd r b) 3 true r (startEngine r storageStart) s
/-- SFLUSH (R337). -/
def execSflush (r : Bool) (b : BitVec 3) (s : State) : Out := launchWord (.sflush r b) 0 true r (startEngine r storageStart) s

/-- A report that a drive can make of a launch: all of its blocks, or fewer with a status. -/
def reportOk (l : Launch) (rep : DriveReport) : Bool :=
  let n := if bitsOf l.word.toNat 5 3 = 2 then 0 else (l.prm.getD 2 0).toNat
  l.mark ≤ rep.blocks && rep.blocks ≤ n && (rep.err.isSome || rep.blocks == n)

/-- No NVMe completion within 8 s (R311). -/
def execStorageTimeout (k : Nat) (s : State) : Out :=
  match s.launch? k with
  | none => .refused .notEnabled
  | some l =>
    if portNo k != 4 || l.status != 256 || (s.time - l.start).toNat < 8000000000 then .refused .notEnabled
    else .next (s.endLaunch k l 0x85 l.mark)

/-! ## The end of a launch (R310) -/

/-- What the engine of a launch still has to do. -/
def engineRun (rep : DriveReport) (l : Launch) (k : Nat) : Eng Nat :=
  match decode16 l.word with
  | .copy1d _ => copyEng k l
  | .copy2d _ => copyEng k l
  | .copy3d _ => copyEng k l
  | .gather _ _ _ => gatherEng k l
  | .scatter _ _ _ => gatherEng k l
  | .fill _ _ => fillEng k l
  | .bvhset _ => bvhsetEng k l
  | .rayhit _ => rayhitEng k l
  | .rayrad _ => rayradEng k l
  | .rayknn _ => rayknnEng k l
  | .vremap _ => visionEng (remapEng true) k l
  | .vpyr _ => visionEng (pyrEng true) k l
  | .vstereo _ _ _ => visionEng (stereoEng true l.word.toNat) k l
  | .vflow _ _ => visionEng (flowEng true l.word.toNat) k l
  | .vchain _ => chainEng k l
  | _ => storageRun rep k l

/-- A launch that still works goes on; it fails once it has waited 16 us for one M bit (R407), or 64 us for a reply of the link (R406). -/
def State.goOn (s : State) (rep : DriveReport) (k : Nat) (l : Launch) : State :=
  let s := if l.status = 256 then s.runEngine k (engineRun rep l k) else s
  match s.launch? k with
  | none => s
  | some l =>
    if l.status != 256 then s.endLaunch k l l.status l.mark
    else match l.mig.bind fun m => migOver m s.time with
      | some st =>
        -- the units read before the page are still written: the mark stands at the page
        let s := (s.mapLaunch k fun y => { y with fail := st, mig := none }).runEngine k (engineRun rep l k)
        match s.launch? k with
        | none => s
        | some l =>
          if l.status != 256 then s.endLaunch k l st l.mark
          else if l.mig.isSome || l.reads.isEmpty then s.endLaunch k l st l.mark else s
      | none => s

end Sys2Proof.Machine
end

