-- ==== Sys2Proof/Machine/Matrix.lean ====
section
/-! DEFINITION. The matrix queue and the Ridge arrays: the lease, the checks of matrix words, multiplies, and the words that move
accumulator regions (R119-R121, R197, R338-R358), and the end of every launch. -/

namespace Sys2Proof.Machine

/-! ## Element types (R177) -/

/-- The format of a float type code. -/
def tyFmt (t : Nat) : FF :=
  match t with
  | 0 => f32
  | 1 => f16
  | 2 => bf16
  | 3 => e4m3
  | 4 => e5m2
  | _ => e2m1

def tyInt (t : Nat) : Bool := 6 ≤ t

/-- Element i of bytes read by `get`. -/
def packedAt (get : Nat → Byte) (t i : Nat) : Nat :=
  let w := tyBits t
  if w = 4 then ((get (i / 2)).toNat / 16 ^ (i % 2)) % 16
  else ofBytes ((List.range (w / 8)).map fun j => get (i * (w / 8) + j))

/-- The bytes of a row of elements (R98). -/
def packRow (t : Nat) (xs : List Nat) : List Byte :=
  let w := tyBits t
  let n := (xs.zip (List.range xs.length)).foldl (fun a e => a + e.1 % 2 ^ w * 2 ^ (w * e.2)) 0
  toBytes n (tyBytes t xs.length)

/-- A code of w bits as a signed number. -/
def sgnOf (w x : Nat) : Int := if x % 2 ^ w < 2 ^ (w - 1) then (x % 2 ^ w : Nat) else ((x % 2 ^ w : Nat) : Int) - 2 ^ w

/-- A number saturated to w signed bits. -/
def satInt (w : Nat) (x : Int) : Nat :=
  let lo : Int := -(2 ^ (w - 1))
  let hi : Int := 2 ^ (w - 1) - 1
  ((if x < lo then lo else if hi < x then hi else x) % 2 ^ w).toNat

/-- An accumulator element as a type's element: what ACCRD and ACCDRAIN give (R197). -/
def accOut (t : Nat) (ftz nosat : Bool) (rm : Rm) (x : Nat) : Nat × BitVec 5 :=
  match t with
  | 0 => (x, 0)
  | 1 => cvtFloat f32 f16 ftz rm 0 x
  | 2 => cvtFloat f32 bf16 ftz rm 0 x
  | 6 => (x, 0)
  | 7 => (satInt 8 (sgnOf 32 x), 0)
  | 8 => (satInt 4 (sgnOf 32 x), 0)
  | t => toNarrow f32 (tyFmt t) rm 0 nosat (f32.flush ftz x) 0

/-- An element of a type as an accumulator element: what ACCWR and ACCLOAD write (R197). -/
def accIn (t : Nat) (x : Nat) : Nat × BitVec 5 :=
  match t with
  | 0 => (x, 0)
  | 6 => (x, 0)
  | 7 => ((sgnOf 8 x % 2 ^ 32).toNat, 0)
  | 8 => ((sgnOf 4 x % 2 ^ 32).toNat, 0)
  | t => widen (tyFmt t) x

/-- The sum that `.add` leaves; FTZ applies to a tile instruction and not to matrix work (R100, R184). -/
def accSum (ftz : Bool) (t old x : Nat) : Nat × BitVec 5 :=
  if tyInt t then ((old + x) % 2 ^ 32, 0) else f32.add ftz .rne old x

/-! ## Accumulators and places (R338, R348, R358) -/

def accKey (arr row col : Nat) : Nat := (arr * 256 + row) * 512 + col
def State.accAt (s : State) (arr row col : Nat) : Nat := (s.acc.get 0 (accKey arr row col)).toNat
/-- The row of an accumulator segment with an error that an operation on these elements (array, row, column) reads, or replaces in part
(R292, R294). -/
def State.accHit (s : State) (reads : Bool) (cells : List (Nat × Nat × Nat)) : Option Nat :=
  s.regErr.findSome? fun e => match e with
    | .acc a n =>
      let k := (cells.filter fun c => c.1 == a && c.2.1 == n / 32 && c.2.2 / 16 == n % 32).length
      if k = 0 || (!reads && k = 16) then none else some (n / 32)
    | _ => none

/-- The errors of the segments that it replaces whole are gone. -/
def State.accClear (s : State) (cells : List (Nat × Nat × Nat)) : State :=
  if s.regErr.isEmpty then s
  else { s with regErr := s.regErr.filter fun e => match e with
    | .acc a n => (cells.filter fun c => c.1 == a && c.2.1 == n / 32 && c.2.2 / 16 == n % 32).length != 16
    | _ => true }

def State.setAcc (s : State) (arr row col x : Nat) : State := { s with acc := s.acc.set 0 (accKey arr row col) (BitVec.ofNat 32 x) }

/-- The window of the thread that owns a q3 stream as a word at a position of the stream sees it: the last ACCWIN that issued before the word
was accepted (R355). -/
def State.streamWindow (s : State) (k pos : Nat) : Nat × Nat :=
  let t := asOf (k / 8) + 1
  let waits := s.ridgeWaits.filter fun e => e.win.isSome && e.ms == [t] && e.ups.all fun u => u.1 != k || u.2 ≤ pos
  let now := match s.thread? t with
    | some _ => s.windowOf (k / 8)
    | none => ((s.stream k).ident.map (·.win)).getD (1, 0)
  ((waits.getLast?).bind (·.win)).getD now

/-- The window of thread m of the span block of a q3 stream for a word at a position of it; that of a thread that has exited stays as it was. -/
def State.spanWindow (s : State) (k pos m : Nat) : Nat × Nat :=
  match (s.stream k).ident with
  | none => (1, 0)
  | some i =>
    if !i.wins.isEmpty then i.wins.get (1, 0) m
    else if i.array % 4 = m then s.streamWindow k pos
    else match s.block? i.block with
      | none => (1, 0)
      | some b => match (b.thr[m]?).filter fun t => t != goneKey && (s.thread? (t + 1)).isSome with
        | some t => s.windowOf t
        | none => b.wins.get (1, 0) m

/-- Where element (i, j) of the region of a launch that has started lies: array, row and column. The rows are those of the windows as they
stood when it started (R355). -/
def Launch.accPlace (l : Launch) (x4 : Bool) (col i j : Nat) : Nat × Nat × Nat :=
  let a := if x4 then l.ident.array / 4 * 4 + (2 * (i / 256) + j / 512) else l.ident.array
  let lo := ((l.rows.find? (·.1 == a)).map (·.2.1)).getD 0
  (a, lo + (if x4 then i % 256 else i), col + (if x4 then j % 512 else j))

/-- The rows that a region touches, by array, with the last row of the window they must lie in. -/
def State.accRows (s : State) (k pos : Nat) (x : Ident) (x4 : Bool) (row rows cols : Nat) : List ((Nat × Nat × Nat) × Nat) :=
  if x4 then
    (List.range 4).filterMap fun m =>
      let r := if rows < 256 * (m / 2) then 0 else Nat.min 256 (rows - 256 * (m / 2))
      let c := if cols < 512 * (m % 2) then 0 else Nat.min 512 (cols - 512 * (m % 2))
      let (lo, hi) := s.spanWindow k pos m
      if r = 0 || c = 0 then none else some ((x.array / 4 * 4 + m, lo + row, lo + row + r - 1), hi)
  else
    let (lo, hi) := s.streamWindow k pos
    [((x.array, lo + row, lo + row + rows - 1), hi)]

/-! ## Launches as their parameters give them (R343-R345) -/

/-- What a matrix word asks for: a multiply (kind 0 MMA, 1 MMAS, 2 MMAX), or 3 ACCZ, 4 ACCDRAIN, 5 ACCLOAD. -/
structure MatJob where
  kind : Nat
  x4 : Bool
  /-- `.z`, `.clr` or `.add` -/
  flag : Bool
  nosat : Bool
  /-- kept elements of 16 -/
  nk : Nat
  rows : Nat
  cols : Nat
  k : Nat
  row : Nat
  col : Nat
  a : W64
  b : W64
  /-- metadata, or the scales of A -/
  c : W64
  /-- the scales of B -/
  d : W64
  lda : Nat
  ldb : Nat
  ta : Bool
  tb : Bool
  at_ : Nat
  bt : Nat
  int : Bool
  rm : Nat
  /-- a field is non-zero or reserved where it must not be (R344) -/
  bad : Bool
  deriving DecidableEq, Repr

def noJob : MatJob :=
  { kind := 3, x4 := false, flag := false, nosat := false, nk := 16, rows := 1, cols := 1, k := 1, row := 0, col := 0, a := 0, b := 0,
    c := 0, d := 0, lda := 0, ldb := 0, ta := false, tb := false, at_ := 0, bt := 0, int := false, rm := 0, bad := false }

/-- Fields that dims and region share, and the limits of R344. -/
def MatJob.extent (j : MatJob) (x : Nat) : MatJob := { j with cols := bitsOf x 9 10 + 1, rows := bitsOf x 0 9 + 1 }

/-- A multiply from its parameters. -/
def mulJob (kind : Nat) (x4 z : Bool) (nk : Nat) (a c d b dims strides cfg : W64) : MatJob :=
  let dm := dims.toNat
  let cf := cfg.toNat
  let j := (MatJob.extent { noJob with kind := kind, x4 := x4, flag := z, nk := nk } dm)
  { j with
    k := bitsOf dm 20 20 + 1, a := a, b := b, c := c, d := d, lda := bitsOf strides.toNat 32 32, ldb := bitsOf strides.toNat 0 32,
    row := bitsOf cf 56 8, col := bitsOf cf 47 9, tb := cf.testBit 13, ta := cf.testBit 12, bt := bitsOf cf 4 4, at_ := bitsOf cf 0 4,
    int := bitsOf cf 16 2 = 1
    bad := bitsOf dm 40 24 != 0 || dm.testBit 19 || bitsOf cf 18 29 != 0 || 1 < bitsOf cf 16 2 || bitsOf cf 14 2 != 0 || bitsOf cf 8 4 != 0 }

/-- A drain or a load from its parameters. -/
def moveJob (kind : Nat) (x4 flag nosat : Bool) (ref stride region dcfg : W64) : MatJob :=
  let rg := region.toNat
  let dc := dcfg.toNat
  let j := (MatJob.extent { noJob with kind := kind, x4 := x4, flag := flag, nosat := nosat } rg)
  { j with
    row := bitsOf rg 56 8, col := bitsOf rg 47 9, a := ref, lda := bitsOf stride.toNat 0 32, at_ := bitsOf dc 0 4, rm := bitsOf dc 4 3
    bad := bitsOf rg 19 28 != 0 || bitsOf stride.toNat 32 32 != 0 || bitsOf dc 7 57 != 0 ||
      (if kind = 4 then 4 < bitsOf dc 4 3 else bitsOf dc 4 3 != 0) }

def matJob (i : Instr) (ps : List W64) : Option MatJob :=
  let p (n : Nat) : W64 := ps.getD n 0
  match i with
  | .mma _ x4 z => some (mulJob 0 x4 z 16 (p 0) 0 0 (p 1) (p 2) (p 3) (p 4))
  | .mmas _ q x4 z => some (mulJob 1 x4 z (if q then 4 else 8) (p 0) (p 1) 0 (p 2) (p 3) (p 4) (p 5))
  | .mmax _ x4 z => some (mulJob 2 x4 z 16 (p 0) (p 2) (p 3) (p 1) (p 4) (p 5) (p 6))
  | .accz _ x4 => some (moveJob 3 x4 false false 0 0 (p 0) 0)
  | .accdrain _ nosat x4 clr => some (moveJob 4 x4 clr nosat (p 0) (p 1) (p 2) (p 3))
  | .accload _ x4 add => some (moveJob 5 x4 add false (p 0) (p 1) (p 2) (p 3))
  | _ => none

/-- Parameters a matrix word pops. -/
def matArity (i : Instr) : Nat :=
  match i with
  | .mma _ _ _ => 5
  | .mmas _ _ _ _ => 6
  | .mmax _ _ _ => 7
  | .accz _ _ => 1
  | .accdrain _ _ _ _ => 4
  | .accload _ _ _ => 4
  | _ => 0

def MatJob.isMul (j : MatJob) : Bool := j.kind ≤ 2

/-- Stored rows of A and B: their number and elements (R345, R349). -/
def MatJob.aShape (j : MatJob) : Nat × Nat := if j.ta then (j.k, j.rows) else (j.rows, j.k * j.nk / 16)
def MatJob.bShape (j : MatJob) : Nat × Nat := if j.tb then (j.cols, j.k) else (j.k, j.cols)

/-- Groups of 32 along k. -/
def MatJob.groups (j : MatJob) : Nat := (j.k + 31) / 32

/-- The limits of R344. -/
def MatJob.outside (j : MatJob) : Bool :=
  let opTy (t : Nat) : Bool := t = 0 || t = 6 || 9 ≤ t
  j.bad || (if j.x4 then 512 else 256) < j.rows || (if j.x4 then 1024 else 512) < j.cols ||
  (if j.x4 then 1024 else 512) < j.col + j.cols ||
  (if j.isMul then
    opTy j.at_ || opTy j.bt || (j.kind = 1 && (j.ta || j.k % 16 != 0)) ||
    (tyBits j.at_ == 4 && (if j.ta then j.rows else j.k) % 2 = 1) || (tyBits j.bt == 4 && j.bShape.2 % 2 = 1) ||
    j.lda < tyBytes j.at_ j.aShape.2 || j.ldb < tyBytes j.bt j.bShape.2
  else j.kind != 3 &&
    (9 ≤ j.at_ || (j.nosat && j.at_ != 3 && j.at_ != 4) || (tyBits j.at_ == 4 && j.cols % 2 = 1) || j.lda < tyBytes j.at_ j.cols))

/-- The combinations of R347. -/
def MatJob.listed (j : MatJob) : Bool :=
  let f8 (t : Nat) : Bool := t = 3 || t = 4
  if (j.at_ = 1 && j.bt = 1) || (j.at_ = 2 && j.bt = 2) then !j.int && j.kind != 2
  else if f8 j.at_ && f8 j.bt then !j.int
  else if j.at_ = 5 && j.bt = 5 then !j.int && j.kind != 1
  else if j.at_ = 7 && j.bt = 7 then j.kind != 2
  else if j.at_ = 8 && j.bt = 8 then j.kind = 0
  else false

/-! ## Checks at dequeue (R346) -/

/-- Offset in the group scratchpad of an operand of a launch whose handle entries have been read. -/
def Launch.operand (l : Launch) (ref : W64) : Nat :=
  match l.hs.find? (·.idx == bitsOf ref.toNat 56 8) with
  | some h => l.ident.spBase + h.base.toNat + bitsOf ref.toNat 0 56
  | none => 0

/-- A scratchpad operand of n bytes. -/
def matOperand (k : Nat) (l : Launch) (ref : W64) (n : Nat) : Eng (Nat × Nat) := do
  let he ← engHandle k l ref
  if he.space != 2 then engFail cHandleInvalid
  else do
    engRange l he false (refOff ref) n
    let at_ := l.ident.spBase + he.base.toNat + bitsOf ref.toNat 0 56
    if (he.base.toNat + bitsOf ref.toNat 0 56) % 64 != 0 then engFail cMisaligned else pure (at_, n)

/-- Bank groups of n bytes of a group scratchpad (R236, R339). -/
def banksOf (at_ n : Nat) : List Nat := if n = 0 then [] else (List.range 4).filter fun b => at_ / 1572864 ≤ b && b ≤ (at_ + n - 1) / 1572864

/-- The next row of a drain or a load, for the prefetch of R411. -/
def matAhead (k : Nat) (he : HEntry) (off : Int) (lda rows i : Nat) : Eng Unit :=
  engAhead k (if i + 1 < rows then [(he.idx, off + (((i + 1) * lda : Nat) : Int))] else [])

/-- Translates every page that holds bytes of one of the rows of n bytes each, in memory; M is met again as the launch proceeds. -/
def matPages (k : Nat) (l : Launch) (he : HEntry) (write : Bool) (off : Int) (lda rows n : Nat) : Eng Unit := do
  if he.space = 0 then
    (List.range rows).forM fun i => do
    matAhead k he off lda rows i
    let at_ := off + ((i * lda : Nat) : Int)
    let first := (he.base + BitVec.ofInt 64 at_).toNat
    let offs := at_ :: ((List.range (n / 65536 + 1)).map fun (i : Nat) => at_ + (((first / 65536 + i + 1) * 65536 - first : Nat) : Int))
    (offs.filter fun o => o < at_ + n).forM fun o => do
      let s ← get
      match engPlace k l he write o s with
      | (.ok _, s) => set s
      | (.error (.status c), s) => do
        set s
        engFail c
      | (.error _, s) => set s
  else pure ()

/-- Checks 3 to 7 of R346; it leaves the rows and bank groups that the launch touches. -/
def matCheck (k : Nat) (l : Launch) (j : MatJob) : Eng Unit := do
  if j.outside || (j.x4 && !l.ident.span) then engFail 0x80
  else if j.isMul && !j.listed then engFail 0x23
  else do
    let s ← get
    let rs := s.accRows k ((s.stream k).taken - 1) l.ident j.x4 j.row j.rows j.cols
    if rs.any fun e => e.2 < e.1.2.2 then engFail 0x25
    else if j.isMul then do
      let len (sh : Nat × Nat) (ld t : Nat) : Nat := (sh.1 - 1) * ld + tyBytes t sh.2
      let a ← matOperand k l j.a (len j.aShape j.lda j.at_)
      let mut ms : List (Nat × Nat) := []
      if j.kind = 1 then
        let m ← matOperand k l j.c (j.rows * (j.k * j.nk / 32))
        ms := [m]
      let b ← matOperand k l j.b (len j.bShape j.ldb j.bt)
      if j.kind = 2 then
        let sa ← matOperand k l j.c (j.rows * j.groups)
        let sb ← matOperand k l j.d (j.cols * j.groups)
        ms := [sa, sb]
      if j.lda % 64 != 0 || j.ldb % 64 != 0 then engFail cMisaligned
      else
        let ga := banksOf a.1 a.2
        let gb := banksOf b.1 b.2
        if ga.length != 1 || gb.length != 1 || ga == gb then engFail 0x24
        else
          let all := (a :: b :: ms).flatMap fun x => banksOf x.1 x.2
          modify fun s => s.mapLaunch k fun y =>
            { y with status := 0, rows := rs.map (·.1), banks := all.foldl (fun (m : BitVec 4) g => m ||| (1#4 <<< g)) 0 }
    else do
      if j.kind != 3 then
        let he ← engHandle k l j.a
        if he.space != 0 && he.space != 2 && he.space != 4 then engFail cHandleInvalid
        else
          let n := (j.rows - 1) * j.lda + tyBytes j.at_ j.cols
          engRange l he (j.kind == 4) (refOff j.a) n
          if (he.base.toNat + bitsOf j.a.toNat 0 56) % 4 != 0 || j.lda % 4 != 0 then engFail cMisaligned
          else matPages k l he (j.kind == 4) (refOff j.a) j.lda j.rows (tyBytes j.at_ j.cols)
      modify fun s => s.mapLaunch k fun y => { y with rows := rs.map (·.1) }

/-! ## The lease (R341, R358) -/

/-- The XS that owns a q3 stream. -/
def leaseThread (k : Nat) : Nat := asOf (k / 8) + 1

/-- Whether a matrix word is covered: its array leased to the stream's thread, or with `.x4` in a span all four, jointly. -/
def State.leased (s : State) (k : Nat) (x : Ident) (x4 : Bool) : Bool :=
  let held (a : Nat) : Bool := (s.group a).holder.contains (leaseThread k) && (s.group a).left != 0
  if x4 && x.span then (List.range 4).all fun m => held (x.array / 4 * 4 + m) else held x.array

/-- One launch less is left; at 0 the lease is released (R199, R342). -/
def State.spendLease (s : State) (t : Nat) : State :=
  { s with groups := s.groups.map fun e =>
      if e.2.holder.contains t then (e.1, if e.2.left ≤ 1 then { e.2 with holder := [], left := 0 } else { e.2 with left := e.2.left - 1 }) else e }

/-! ## Starting a matrix word -/

/-- Running matrix launches, by stream. -/
def State.ridgeRuns (s : State) : List (Nat × Launch) :=
  s.streams.filterMap fun e => if e.1 % 8 = 3 && !isSavedStream e.1 then e.2.run.map fun l => (e.1, l) else none

/-- Two launches that touch a common array. -/
def sameArray (a b : Launch) : Bool := a.rows.any fun r => b.rows.any fun q => q.1 == r.1

/-- A matrix word: the lease, the checks, and the start. A word with `.x4` starts once nothing runs on the arrays of its course (R358). -/
def matWord (i : Instr) (r x4 : Bool) (s : State) : Out :=
  let waits := match s.cur with
    | .stream k => x4 && s.ridgeRuns.any fun e => e.2.rows.any fun q => q.1 / 4 == (s.stream k).who.array / 4
    | _ => false
  if waits then .next { s with held := true }
  else
    launchWord i (matArity i) true r (fun k x w ps s =>
      if !s.leased k x.who x4 then .next ((s.setStream k x).leaveWord k w 0x22 0 r false)
      else
        let l := newLaunch s k x w ps r
        let s := (s.startLaunch k x l).spendLease (leaseThread k)
        match matJob i ps with
        | none => .next s
        | some j =>
          match matCheck k l j s with
          | (.ok _, s) => .next s
          | (.error (.status n), s) => .next (match s.launch? k with | some l => s.endLaunch k l n 0 | none => s)
          | (.error _, s) => .next s) s

/-- MMA (R343, R348). -/
def execMma (r x4 z : Bool) (s : State) : Out := matWord (.mma r x4 z) r x4 s
/-- MMAS (R343, R349). -/
def execMmas (r q x4 z : Bool) (s : State) : Out := matWord (.mmas r q x4 z) r x4 s
/-- MMAX (R343, R350). -/
def execMmax (r x4 z : Bool) (s : State) : Out := matWord (.mmax r x4 z) r x4 s
/-- ACCZ (R351). -/
def execAccz (r x4 : Bool) (s : State) : Out := matWord (.accz r x4) r x4 s
/-- ACCDRAIN (R351). -/
def execAccdrain (r nosat x4 clr : Bool) (s : State) : Out := matWord (.accdrain r nosat x4 clr) r x4 s
/-- ACCLOAD (R351). -/
def execAccload (r x4 add : Bool) (s : State) : Out := matWord (.accload r x4 add) r x4 s

/-! ## Multiplies (R119-R121, R348-R350) -/

/-- The operands of a running multiply as it reads them. -/
structure MulRead where
  /-- code of A[i][k] -/
  a : Nat → Nat → Nat
  /-- code of B[k][j] -/
  b : Nat → Nat → Nat
  /-- scales of a row and of a column, by group -/
  sa : Nat → Nat → Nat
  sb : Nat → Nat → Nat
  /-- groups of a row before the first whose metadata does not increase (R349) -/
  good : Nat → Nat

def State.mulRead (s : State) (l : Launch) (j : MatJob) : MulRead :=
  let g := groupOf (coreOf l.ident.who)
  let byte (o : Nat) : Byte := match l.before.find? fun e => e.1 == o with
    | some e => e.2
    | none => s.homeByte (.group g o)
  let el (ref : W64) (ld t : Nat) (row e : Nat) : Nat := packedAt (fun n => byte (l.operand ref + row * ld + n)) t e
  let idx (i h n : Nat) : Nat := packedAt (fun o => byte (l.operand j.c + i * (j.k * j.nk / 32) + o)) 8 (h * j.nk + n)
  let a (i k : Nat) : Nat :=
    if j.kind = 1 then
      match (List.range j.nk).find? fun n => idx i (k / 16) n == k % 16 with
      | some n => el j.a j.lda j.at_ i (k / 16 * j.nk + n)
      | none => 0
    else if j.ta then el j.a j.lda j.at_ k i else el j.a j.lda j.at_ i k
  let risen (i h : Nat) : Bool := (List.range (j.nk - 1)).all fun n => idx i h n < idx i h (n + 1)
  { a := a
    b := fun k c => if j.tb then el j.b j.ldb j.bt c k else el j.b j.ldb j.bt k c
    sa := fun i gr => (byte (l.operand j.c + i * j.groups + gr)).toNat
    sb := fun gr c => (byte (l.operand j.d + c * j.groups + gr)).toNat
    good := fun i =>
      if j.kind = 1 then
        match (List.range (j.k / 16)).find? fun h => !risen i h with
        | some h => h / 2
        | none => j.groups
      else j.groups }

/-- One group added to an element (R119-R121). -/
def addGroup (j : MatJob) (r : MulRead) (i c : Nat) (acc : Nat) (g : Nat) : Nat × BitVec 5 :=
  let ks := (List.range 32).filterMap fun n => if 32 * g + n < j.k then some (32 * g + n) else none
  if tyInt j.at_ then
    let w := tyBits j.at_
    let sum := ks.foldl (fun n k => n + sgnOf w (r.a i k) * sgnOf w (r.b k c)) (0 : Int)
    if j.int then (((acc : Int) + sum) % 2 ^ 32 |>.toNat, 0) else accAdd .rne false acc (.fin sum 0)
  else
    let (sum, inv) := groupSum (tyFmt j.at_) (tyFmt j.bt) (ks.map fun k => (r.a i k, r.b k c))
    let sum := if j.kind != 2 then sum
      else if r.sa i g = 255 || r.sb g c = 255 then .nan
      else match sum with
        | .fin n e => .fin n (e + ((r.sa i g : Nat) : Int) + ((r.sb g c : Nat) : Int) - 254)
        | x => x
    let (x, f) := accAdd .rne false acc sum
    (x, f ||| flagIf inv fNV)

/-- The first n groups added to an element, with the flags raised. -/
def addGroups (j : MatJob) (r : MulRead) (i c acc n : Nat) : Nat × BitVec 5 :=
  (List.range n).foldl (fun x g => let y := addGroup j r i c x.1 g; (y.1, x.2 ||| y.2)) (if j.flag then 0 else acc, 0)

/-- How many groups an element of a multiply that ended early has received: at least those below the mark, at most those before bad
metadata; which number is open (R352, log entry 3). -/
def State.applied (s : State) (count good i c : Nat) : Nat :=
  if good ≤ count then count else count + (s.free (0x18000000 + i * 1024 + c)).toNat % (good - count + 1)

/-- The elements of its result. -/
def MatJob.cells (j : MatJob) (l : Launch) : List (Nat × Nat × Nat) :=
  (List.range j.rows).flatMap fun i => (List.range j.cols).map fun c => l.accPlace j.x4 j.col i c

/-- Offsets and lengths of the operands of a multiply in its group's scratchpad. -/
def MatJob.extents (j : MatJob) (l : Launch) : List (Nat × Nat) :=
  let len (sh : Nat × Nat) (ld t : Nat) : Nat := (sh.1 - 1) * ld + tyBytes t sh.2
  [(l.operand j.a, len j.aShape j.lda j.at_), (l.operand j.b, len j.bShape j.ldb j.bt)] ++
  (if j.kind = 1 then [(l.operand j.c, j.rows * (j.k * j.nk / 32))] else []) ++
  (if j.kind = 2 then [(l.operand j.c, j.rows * j.groups), (l.operand j.d, j.cols * j.groups)] else [])

/-- A multiply that reads an error, in an operand or in an accumulator: the block that owns it ends (R294). -/
def State.mulMeet (s : State) (l : Launch) (j : MatJob) : Option State :=
  if s.regErr.isEmpty then none
  else
    let g := groupOf (coreOf l.ident.who)
    match s.regErr.findSome? fun e => match e with
        | .group h n => if h == g && (j.extents l).any fun x => 64 * n < x.1 + x.2 && x.1 < 64 * n + 64 then some (Place.group h (64 * n)) else none
        | _ => none with
    | some p => some (s.loseSram p)
    | none => (s.accHit (!j.flag) (j.cells l)).map fun row => s.loseBlock l.ident.block Block.again 0x29 (BitVec.ofNat 64 row)

/-- The multiply as it ends: status, mark, and the elements it leaves. A multiply that the write of R354 ended had applied an open number
of groups to every element. -/
def State.runMul (s : State) (l : Launch) (j : MatJob) : State × Nat × Nat :=
  let r := s.mulRead l j
  let bad := (List.range j.rows).foldl (fun n i => Nat.min n (r.good i)) j.groups
  let hit := l.status != 0
  let count := if hit then (s.free 0x17FFFFFF).toNat % Nat.max 1 (Nat.min bad j.groups) else bad
  let cut := hit || bad < j.groups
  let cells := (List.range j.rows).flatMap fun i => (List.range j.cols).map fun c => (i, c)
  let (s', fl) := cells.foldl (fun (x : State × BitVec 5) e =>
    let (arr, row, col) := l.accPlace j.x4 j.col e.1 e.2
    let n := if cut then s.applied count (r.good e.1) e.1 e.2 else j.groups
    -- an element that no group has reached keeps its value
    if cut && n = 0 then x
    else
      let (v, f) := addGroups j r e.1 e.2 (s.accAt arr row col) n
      (x.1.setAcc arr row col v, x.2 ||| f)) (s, 0)
  (s', if hit then l.status else if bad < j.groups then 0x80 else 0, fl.toNat * 2 ^ 31 + count)

/-! ## ACCZ, ACCDRAIN and ACCLOAD (R351) -/

/-- A static rounding mode of R104 by its code. -/
def rmOf (n : Nat) : Rm := [Rm.rne, .rtz, .rdn, .rup, .rmm].getD n .rne

/-- Row i of a region: what the word does to it, and the flags. -/
def matRow (k : Nat) (l : Launch) (j : MatJob) (i : Nat) : Eng (BitVec 5) := do
  let s ← get
  let old (s : State) (c : Nat) : Nat := let p := l.accPlace j.x4 j.col i c; s.accAt p.1 p.2.1 p.2.2
  let put (s : State) (c x : Nat) : State := let p := l.accPlace j.x4 j.col i c; s.setAcc p.1 p.2.1 p.2.2 x
  let cells := (List.range j.cols).map fun c => l.accPlace j.x4 j.col i c
  match s.accHit (j.kind = 4 || (j.kind = 5 && j.flag)) cells with
  | some row => do
    set (s.loseBlock l.ident.block Block.again 0x29 (BitVec.ofNat 64 row))
    engFail 0x2A
  | none =>
  if j.kind = 3 then do
    set ((List.range j.cols).foldl (fun s c => put s c 0) (s.accClear cells))
    pure 0
  else do
    let he ← engHandle k l j.a
    let off := refOff j.a + ((i * j.lda : Nat) : Int)
    matAhead k he (refOff j.a) j.lda j.rows i
    if j.kind = 4 then do
      let xs := (List.range j.cols).map fun c => accOut j.at_ false j.nosat (rmOf j.rm) (old s c)
      engStore k l he off (packRow j.at_ (xs.map (·.1)))
      modify fun s => if j.flag then (List.range j.cols).foldl (fun s c => put s c 0) s else s
      pure (xs.foldl (fun f x => f ||| x.2) 0)
    else do
      let n := tyBytes j.at_ j.cols
      engRange l he false off n
      let bs ← engRead k l he off n
      let ys := (List.range j.cols).map fun c =>
        let (x, f) := accIn j.at_ (packedAt (fun o => (bs.map (·.2)).getD o 0) j.at_ c)
        if j.flag then let (y, g) := accSum false j.at_ (old s c) x; (c, y, f ||| g) else (c, x, f)
      modify fun s => ys.foldl (fun s y => put s y.1 y.2.1) (s.accClear cells)
      pure (ys.foldl (fun f y => f ||| y.2.2) 0)

/-- The rows left, each counted as it is complete (R352). -/
def matRows (k : Nat) (l : Launch) (j : MatJob) : Eng Nat := do
  let y ← engSelf k l
  let _ ← ((List.range j.rows).drop (y.mark % 2 ^ 31)).mapM fun (i : Nat) => do
    let f ← matRow k l j i
    modify fun s => s.mapLaunch k fun y => { y with mark := (BitVec.ofNat 5 (y.mark / 2 ^ 31) ||| f).toNat * 2 ^ 31 + i + 1, passed := [] }
  let y ← engSelf k l
  pure y.mark

/-! ## The end of a launch (R310, R340) -/

/-- A matrix launch ends after every launch started earlier on its arrays. -/
def State.endMatrix (s : State) (k : Nat) (l : Launch) : Out :=
  if s.ridgeRuns.any fun e => e.1 != k && e.2.at_ < l.at_ && sameArray e.2 l then .refused .notEnabled
  else
    match matJob (decode16 l.word) l.prm with
    | none => .refused .notEnabled
    | some j =>
      if j.isMul then
        match s.mulMeet l j with
        | some s => .next (s.endLaunch k l 0x2A 0)
        | none =>
          let (s, st, mark) := s.runMul l j
          .next (s.endLaunch k l st mark)
      else
        let s := if l.status = 256 then s.runEngine k (matRows k l j) else s
        match s.launch? k with
        | none => .next s
        | some l =>
          if l.status != 256 then .next (s.endLaunch k l l.status l.mark)
          else match l.mig.bind fun m => migOver m s.time with
            | some st => .next (s.endLaunch k l st l.mark)
            | none => .next s

/-- The running launch of stream k ends, or goes on where it was held; a storage launch ends as its drive reports. -/
def execLaunchCompletion (k : Nat) (rep : DriveReport) (s : State) : Out :=
  match s.launch? k with
  | none => .refused .notEnabled
  | some l =>
    if s.engineHalted l.engine then .refused .notEnabled
    else if portNo k = 3 && !isHartStream k then s.endMatrix k l
    else if portNo k = 4 && l.status = 256 && !reportOk l rep then .refused .notEnabled
    else .next (s.goOn rep k l)

/-! ## Granting the lease (R342) -/

/-- Array of a thread, from its block. -/
def State.arrayAt (s : State) (t : Nat) : Nat :=
  match (s.thread? t).bind fun th => s.block? th.block with
  | some b => arrayOf b t
  | none => groupOf (coreOf t)

/-- The arrays of a lease request. -/
def State.arraysOf (s : State) (ms : List Nat) : List Nat := (ms.map s.arrayAt).eraseDups

/-- Rank of a request: the level of its job's card, then its lowest member's place after the last holder, cyclically. -/
def State.leaseRank (s : State) (last : Option Nat) (ms : List Nat) : Nat × Nat :=
  let t := ms.headD 0
  let level := match (s.thread? t).bind fun th => (s.block? th.block).bind fun b => s.job? b.card with
    | some j => j.cardLevel
    | none => 15
  (level, match last with
    | some n => (((coreOf t - 64) % 4) + 3 - n) % 4
    | none => (coreOf t - 64) % 4)

/-- The array grants its lease to one waiting request. -/
def execLeaseGrant (g : Nat) (s : State) : Out :=
  let x := s.group g
  let free (ms : List Nat) : Bool := (s.arraysOf ms).all fun a => (s.group a).holder.isEmpty
  let best := (x.queue.filter fun q => free q.1).foldl (fun (b : Option (List Nat × Nat)) q =>
    match b with
    | none => some q
    | some c =>
      let r := s.leaseRank x.last q.1
      let o := s.leaseRank x.last c.1
      if r.1 < o.1 || (r.1 = o.1 && r.2 < o.2) then some q else b) none
  match best with
  | none => .refused .notEnabled
  | some (ms, n) =>
    let s := (s.arraysOf ms).foldl (fun s a =>
      s.setGroup a { s.group a with holder := ms, left := n, queue := (s.group a).queue.filter (· != (ms, n)),
                                    last := some ((coreOf (ms.headD 0) - 64) % 4) }) s
    .next (ms.foldl (fun s m => s.mapThread m fun th =>
      { th with leaseWait := th.leaseWait.map fun _ => 0, leaseBack := [], leaseLeft := 0 }) s)

end Sys2Proof.Machine
end

