-- ==== Sys2Proof/Machine/Control.lean ====
section
/-! DEFINITION. NOP and the control instructions: branches, calls, loops, regrouping, leaders, yields, spawn, exit, rail
requests, sheaf selection and software traps (R85, R207-R225, R390). -/

namespace Sys2Proof.Machine

/-! ## Shared parts -/

/-- A control transfer at LEND by a member of the level (R214). -/
def loopEnd (s : State) (c : Ctx0) : Option Res :=
  if c.trapm then none
  else c.mem.findSome? fun m =>
    match s.thread? m with
    | none => none
    | some th => (slicesOf (if m = c.t then c.gang else th.liveSlices)).findSome? fun i =>
        (th.atEnd i).map fun l => .trap cLoopEndBranch (BitVec.ofNat 64 l) (some i)

/-- Moves the lanes `act m` of every member to their targets, the other running lanes to PC + 8 (R207). -/
def transferAll (s : State) (c : Ctx0) (act : Nat → W32) (dest : Nat → Addr) (rejoin : Option Addr) : Res :=
  if c.trapm then
    let pc := match lowest (act c.t) with
      | some l => dest l
      | none => c.pc + 8
    .moved (s.mapThread c.t fun th => { th with inTrap := th.inTrap.map fun x => { x with pc := pc } })
  else
    let r := c.mem.foldl (fun (a : Except Nat State) m =>
      match a with
      | .error i => .error i
      | .ok s => match s.thread? m with
        | none => .ok s
        | some th =>
          match th.transfer (if m = c.t then c.gang else th.liveSlices) (act m) dest (c.pc + 8) rejoin with
          | .error i => .error i
          | .ok th' =>
            .ok ((s.setThread m th').eventOf m 2 (if th.diverges (if m = c.t then c.gang else th.liveSlices) (act m) dest (c.pc + 8) then 1 else 0)))
      (.ok s)
    match r with
    | .error i => .trap cDivergenceDepth (BitVec.ofNat 64 i) (some i)
    | .ok s => .moved s

/-- Running lanes of a member at issue. -/
def runLanes (s : State) (c : Ctx0) (m : Nat) : W32 :=
  match s.thread? m with
  | none => 0
  | some th => th.run &&& gangLanes (if m = c.t then c.gang else th.liveSlices)

/-- Whether the word is issued for a whole scope, its predicate being the condition (R208). On a tile sequencer lane and warp
scope are the same thing. -/
def wideWord (s : State) (c : Ctx0) : Bool :=
  match s.thread? c.t with
  | none => false
  | some th => wideScope th.kind c.scp

/-- The condition of a branch at wide scope (R208). -/
def wideTaken (s : State) (c : Ctx0) (all : Bool) : Bool :=
  if all then c.mem.all fun m => c.active m == runLanes s c m else c.act.any (·.2 != 0)

/-- Rejoin PC of a branch at lane scope (R208, R209): PC + 8n, or the default. -/
def rejoinOf (pc : Addr) (n : BitVec 8) (dflt : Option Addr) : Option Addr :=
  if n = 0 then dflt else some (pc + BitVec.ofNat 52 (8 * n.toNat))

/-- PC-relative target (R65). -/
def relTarget (pc : Addr) (off : W32) : Addr := pc + off.signExtend 52

/-! ## NOP -/

/-- NOP n: n positions and nothing else (R85). -/
def execNop (h : Hdr) (n : W16) (s : State) : Out :=
  issue 0x00 h [] noExtra
    (fun c s => .adv (c.mem.foldl (fun s m => s.mapThread m fun th => { th with pos := th.pos + n.toNat }) s)) s

/-- An unassigned opcode (R81). -/
def execIllegalOpcode (op : BitVec 8) (h : Hdr) (s : State) : Out :=
  issue op.toNat h [] noExtra (fun _ _ => .stall) s

/-! ## Branches -/

/-- BRA (R208). One with OFF = 0 goes neither forward nor backward: its default rejoin is PC + 8, as that of a backward one (DESIGN CHOICE, log
entry 69). -/
def execBra (h : Hdr) (fn : BitVec 8) (off : W32) (s : State) : Out :=
  issue 0xA0 h []
    (fun c th => if th.kind != .simt then (if fn != 0 then some 24 else none)
      else if c.scp != .lane && 2 ≤ fn.toNat then some 24 else none)
    (fun c s =>
      match loopEnd s c with
      | some r => r
      | none =>
        let target := relTarget c.pc off
        if wideWord s c then
          let yes := wideTaken s c (fn == 1)
          transferAll s c (fun m => if yes then runLanes s c m else 0) (fun _ => target) none
        else
          let fwd := 0 < off.toInt
          transferAll s c c.active (fun _ => target) (rejoinOf c.pc fn (some (if fwd then target else c.pc + 8)))) s

/-- The targets of BRX and RET: MISALIGNED for a lane that has a bad one, before any lane moves (R209): the target and its slice. -/
def badTarget (c : Ctx0) (v : Opd) : Option (W64 × Option Nat) :=
  let ts := c.act.flatMap fun e => (lanesOf e.2).map fun l => (v e.1 l, if e.1 = c.t then some (l / 4) else none)
  ts.find? fun x => x.1.extractLsb' 0 3 != 0

/-- Lanes of a member that a register branch sends to a target with bits above 51: its fetch raises PAGE_FAULT (R209). -/
def wildLanes (act : W32) (v : Nat → W64) : List (W32 × W64) :=
  (lanesOf act).filterMap fun l => if (v l).extractLsb' 52 12 = 0 then none else some (lane1 l, v l)

/-- Notes the targets with bits above 51 once the lanes have moved. -/
def noteWild (c : Ctx0) (act : Nat → W32) (v : Nat → Nat → W64) : Res → Res
  | .moved s => .moved (c.mem.foldl (fun s m => s.mapThread m fun th =>
      if c.trapm then { th with inTrap := th.inTrap.map fun x => { x with wild := ((wildLanes (act m) (v m)).head?).map (·.2) } }
      else { th with wild := wildLanes (act m) (v m) ++ th.wild }) s)
  | r => r

/-- BRX and RET. -/
def branchReg (op : Nat) (h : Hdr) (fn : BitVec 8) (a : Src) (s : State) : Out :=
  issue op h [.src 34 a 64 false]
    (fun c th => if wideScope th.kind c.scp && (effSrc th.kind a).isVec then some 32 else none)
    (fun c s =>
      match loopEnd s c with
      | some r => r
      | none =>
        withSrcs c s [(a, 64)] fun vs s' =>
          let v := vs.getD 0 fun _ _ => 0
          match badTarget c v with
          | some (x, i) => .trap cMisaligned x i
          | none =>
            if wideWord s c then
              let yes := wideTaken s c false
              let act (m : Nat) : W32 := if yes then runLanes s c m else 0
              noteWild c act (fun _ _ => v c.t 0) (transferAll s' c act (fun _ => (v c.t 0).setWidth 52) none)
            else noteWild c c.active (fun _ l => v c.t l) (transferAll s' c c.active (fun l => (v c.t l).setWidth 52) (rejoinOf c.pc fn none))) s

/-- BRX (R209). -/
def execBrx (h : Hdr) (fn : BitVec 8) (a : Src) (s : State) : Out := branchReg 0xA1 h fn a s

/-- RET (R209). -/
def execRet (h : Hdr) (a : Src) (s : State) : Out := branchReg 0xA3 h 0 a s

/-- CALL (R210). -/
def execCall (h : Hdr) (l : Link) (off : W32) (s : State) : Out :=
  issue 0xA2 h []
    (fun c th =>
      match l with
      | .pair m =>
        if th.kind != .simt || c.scp = .block then some 31
        else if 128 ≤ m.toNat then some 24
        else badVec c th 24 (2 * m.toNat) 64
      | .scl i => if i = 0 then some 24 else if th.kind = .simt && c.scp = .lane then some 24 else none)
    (fun c s =>
      match loopEnd s c with
      | some r => r
      | none =>
        let wide := wideWord s c
        let yes := wideTaken s c false
        let act (m : Nat) : W32 := if wide then (if yes then runLanes s c m else 0) else c.active m
        let c' : Ctx0 := { c with act := c.mem.map fun m => (m, act m) }
        let link : W64 := (c.pc + 8).setWidth 64
        let s := if c'.idle then s
          else deliver s c' h 4 (match l with
            | .pair m => vecWrites s c' (2 * m.toNat) 64 fun _ _ => link
            | .scl i => sclWrites s c' i.toNat link) []
        transferAll s c act (fun _ => relTarget c.pc off) (some (c.pc + 8))) s

/-! ## Loops -/

/-- What LOOP does in one slice; `none` where it can open no level (R211). -/
def Thread.openLoop (th : Thread) (i : Nat) (pc stop : Addr) (count : W32) (act : W32) : Option Thread :=
  let sl := th.slice i
  let a := act &&& sliceMask i
  let free := !sl.l0.active && !sl.l1.active
  let inner := sl.l0.active && !sl.l1.active && a &&& ~~~th.m0 == 0 && stop.toNat < sl.l0.stop.toNat
  if !free && !inner then none
  else if count = 0 then some (th.setSlice i { sl with pc := stop + 8 })
  else
    -- a slice without an active lane opens the level, and holds none (R213)
    let lv : LoopLvl := { start := pc + 8, stop := stop, count := count }
    if free then some (({ th.setSlice i { sl with l0 := lv, pc := pc + 8 } with
      m0 := (th.m0 &&& ~~~sliceMask i) ||| a, m1 := th.m1 &&& ~~~sliceMask i } : Thread).popLevels i)
    else some (({ th.setSlice i { sl with l1 := lv, pc := pc + 8 } with m1 := (th.m1 &&& ~~~sliceMask i) ||| a } : Thread).popLevels i)

/-- LOOP (R211). -/
def execLoop (h : Hdr) (n : W16) (a : Src) (s : State) : Out :=
  issue 0xA4 h [.sclsrc 34 a 32] (negLit 34 a)
    (fun c s =>
      match loopEnd s c with
      | some r => r
      | none =>
        withSrcs c s [(a, 32)] fun vs s' =>
          if c.idle then .adv s'
          else match s'.thread? c.t with
            | none => .stall
            | some th =>
              let count : W32 := ((vs.getD 0 fun _ _ => 0) c.t 0).setWidth 32
              let stop : Addr := c.pc + BitVec.ofNat 52 (8 * (n.toNat + 1))
              let r := (slicesOf c.gang).foldl (fun (x : Except Nat Thread) i =>
                x.bind fun th => if th.runOf i = 0 then .ok th
                  else match th.openLoop i c.pc stop count (c.active c.t) with
                    | some th => .ok th
                    | none => .error i) (.ok th)
              match r with
              | .error i => .trap cIllegalOperand 0x102 (some i)
              | .ok th => .moved (s'.setThread c.t ((th.settleAll c.gang).regroup c.gang []))) s

/-! ## Regrouping and leaders -/

/-- The other PC at which a REGANG finds a conflict: a slice of its mask waits elsewhere, or a waiting REGANG elsewhere names a
slice that issues here (R216). -/
def Thread.regangConflict (th : Thread) (g m : BitVec 8) (pc : Addr) : Option Addr :=
  (List.range 8).findSome? fun i =>
    match (th.slice i).at_ with
    | some a => if a.pc != pc && (hasSlice m i || (a.regang && a.mask &&& g != 0)) then some a.pc else none
    | none => none

/-- REGANG (R216). -/
def execRegang (h : Hdr) (mask : BitVec 8) (s : State) : Out :=
  issue 0xA5 h [] noExtra
    (fun c s =>
      match s.thread? c.t with
      | none => .stall
      | some th =>
        let m := if mask = 0 then th.liveSlices else mask
        match th.regangConflict c.gang m c.pc with
        | some pc => .trap cScopeMismatch (pc.setWidth 64) none
        | none =>
          let th := (slicesOf c.gang).foldl (fun th i =>
            if th.runOf i = 0 then th
            else if hasSlice m i then th.reach i { pc := c.pc, mask := m, regang := true }
            else th.nextPc i) th
          .moved (s.setThread c.t (((th.settleAll c.gang).regroupWaiting c.gang).joinRegangs))) s

/-- ELECT (R59, R217). -/
def execElect (h : Hdr) (p : BitVec 3) (w : Option (Fin 6)) (k : BitVec 8) (s : State) : Out :=
  issue 0xA6 h [] noExtra
    (fun c s =>
      match c.leader with
      | none => .adv s
      | some (lm, ll) =>
        let s := deliver s c h 4 (predWrites c p.toNat fun m l => m == lm && l == ll) []
        match w with
        | none => .adv s
        | some i =>
          .adv (c.mem.foldl (fun s m => s.mapThread m fun th =>
            let g := if m = c.t then c.gang else th.liveSlices
            let lane := (lowest (c.active m)).getD 32
            { th.dropWindow g with windows := { path := runLanes s c m, lane := lane, left := k.toNat, wc := i, owner := lm } :: (th.dropWindow g).windows }) s)) s

/-! ## Yields -/

/-- The warps of the scheduler of thread t that may be ready: one that turns out to be held is struck out as the scheduler offers it
its turn (R218). -/
def State.rivals (s : State) (t : Nat) (th : Thread) : List Nat :=
  if isTile t then []
  else s.threads.filterMap fun e => match e.2 with
    | some x => if e.1 != t && e.1 / 64 == t / 64 && x.sched == th.sched && x.run != 0 && !s.blocked e.1 x then some e.1 else none
    | none => none

/-- YIELD and YIELD.C: the active lanes move to the target and wait there (R60, R218). -/
def yieldWord (h : Hdr) (w : Option (Fin 6)) (off : W32) (s : State) : Out :=
  issue 0xA7 h [] noExtra
    (fun c s =>
      match loopEnd s c with
      | some r => r
      | none =>
        let target := relTarget c.pc off
        match transferAll s c c.active (fun _ => target) (some target) with
        | .moved s =>
          if c.idle then .moved s
          else .moved (s.mapThread c.t fun th =>
            match w with
            | some i =>
              -- at warp scope the whole warp waits
              let lanes : W32 := if wideWord s c then BitVec.allOnes 32 else c.active c.t
              if th.counter i = 0 then th else { th with yieldC := (lanes, i) :: th.yieldC }
            | none =>
              let rs := s.rivals c.t th
              if rs.isEmpty then th else { th with yields := (c.active c.t, rs) :: th.yields })
        | r => r) s

/-- YIELD (R218). -/
def execYield (h : Hdr) (off : W32) (s : State) : Out := yieldWord h none off s

/-- YIELD.C (R60, R218). -/
def execYieldC (h : Hdr) (w : Fin 6) (off : W32) (s : State) : Out := yieldWord h (some w) off s

/-! ## Spawn and exit -/

/-- The request a SPAWN makes: what the child takes from its parent (R55, R394). -/
def spawnReq (th : Thread) (t : Nat) (pc : Addr) (lfsr : W16) (wc : Option (Fin 6)) : SpawnReq :=
  let keep := (List.range 16).filter fun i => (1 ≤ i && i ≤ 6) || 8 ≤ i
  let regs := keep.foldl (fun m i => Tbl.set 0 m i (th.sreg i)) ([] : Tbl W64)
  { pc := pc, s := Tbl.set 0 regs 7 (BitVec.ofNat 64 (th.depth + 1)), lfsr := lfsr, depth := th.depth + 1, parent := t, wc := wc,
    block := th.block, cbase := th.cbase, cbuf := th.cbuf, vec := th.trap.vec, save := th.trap.save, fmode := th.fmode,
    priv := th.priv, permit := th.permit }

/-- SPAWN and SPAWN.W (R55-R58, R219). One that a full queue refuses leaves its SIG counter as it was: the model's choice (log entry 60). -/
def spawnWord (h : Hdr) (waits : Bool) (p : BitVec 3) (off : W32) (s : State) : Out :=
  issue 0xA8 h [] noExtra
    (fun c s =>
      match s.thread? c.t with
      | none => .stall
      | some th =>
        if c.idle then .adv s
        else if 7 ≤ th.depth then .trap cSpawnDepth (BitVec.ofNat 64 th.depth) none
        else
          let core := coreOf c.t
          let q := s.spawnq.get [] core
          let x := (lfsrStep th.lfsr).1
          let r := spawnReq th c.t (relTarget c.pc off) (lfsrStep x).1 h.sig
          let s1 := s.setThread c.t { th with lfsr := x }
          let pred (b : Bool) (s : State) := deliver s c h 4 (predWrites c p.toNat fun _ _ => b) []
          match if q.isEmpty then s.freeSlot core th.nv else none with
          | some t => .adv ((pred true (s1.countUp c.mem h.sig 1)).startSpawn t r)
          | none =>
            if q.length < 16 then
              let s2 := pred true (s1.countUp c.mem h.sig 1)
              .adv { s2 with spawnq := s2.spawnq.set [] core (q ++ [r]) }
            else if waits then .stall
            else .adv (pred false s1)) s

/-- SPAWN (R219). -/
def execSpawn (h : Hdr) (p : BitVec 3) (off : W32) (s : State) : Out := spawnWord h false p off s

/-- SPAWN.W (R219). -/
def execSpawnW (h : Hdr) (p : BitVec 3) (off : W32) (s : State) : Out := spawnWord h true p off s

/-- EXIT (R220): the last live lane leaves the warp waiting for its counters (R34). -/
def execExit (h : Hdr) (s : State) : Out :=
  issue 0xA9 h [] noExtra
    (fun c s =>
      match s.thread? c.t with
      | none => .stall
      | some th =>
        if c.idle then .adv s
        else if th.kind = .xs && s.asHalted c.t then .stallQ
        else if th.kind = .xs && !th.pend.isEmpty then .stall
        else
          let th := th.exitLanes c.gang (c.active c.t)
          let th := if th.live = 0 then { th with exiting := true, plreq := 2 } else th
          .moved (s.setThread c.t th)) s

/-! ## Rail requests, sheaf selection, traps -/

/-- SETPL (R62, R222). -/
def execSetpl (h : Hdr) (a : Src) (s : State) : Out :=
  issue 0xAB h [.src 34 a 64 false] noExtra
    (fun c s =>
      withSrcs c s [(a, 64)] fun vs s' =>
        let v := vs.getD 0 fun _ _ => 0
        let xs := (lanesOf (c.active c.t)).map fun l => v c.t l
        if xs.any fun x => 3 ≤ x.toNat then
          .trap cIllegalOperand 0x10D (((lanesOf (c.active c.t)).find? fun l => 3 ≤ (v c.t l).toNat).map (· / 4))
        else match xs with
          | [] => .adv s'
          | x :: _ =>
            let req := xs.foldl (fun n y => Nat.max n y.toNat) 0
            let s' := s'.mapThread c.t fun th => { th with plreq := req, pldiv := th.pldiv || xs.any (· != x) }
            -- the two sequencers of a tile thread hold one request (R201)
            .adv (if isTile c.t then s'.mapThread (pairOf c.t) fun th => { th with plreq := req } else s')) s

/-- Whether thread th may select sheaf n of its block (R224). -/
def State.sheafOk (s : State) (t : Nat) (th : Thread) (n : Nat) : Bool :=
  match s.block? th.block with
  | none => false
  | some b => n < b.sheaves.length && b.launched.contains t && th.index < 16 && (b.sheaf n).members.getLsbD th.index

/-- SETSH (R224). -/
def execSetsh (h : Hdr) (none_ : Bool) (n : BitVec 4) (s : State) : Out :=
  issue 0xAD h [] noExtra
    (fun c s =>
      match s.thread? c.t with
      | none => .stall
      | some th =>
        if c.idle then .adv s
        else if none_ then .adv (s.setThread c.t { th with shreg := 1#1 ++ n })
        else if s.sheafOk c.t th n.toNat then .adv (s.setThread c.t { th with shreg := 0#1 ++ n })
        else .trap cIllegalOperand 0x10F none) s

/-- TRAP (R225). -/
def execTrap (h : Hdr) (code : W16) (s : State) : Out :=
  issue 0xAE h [] noExtra
    (fun c s => if c.idle then .adv s else .moved (s.trapWord c cTrapInstr (code.setWidth 64) none true)) s

/-- BRQ (R390). -/
def execBrq (h : Hdr) (n : Bool) (off : W32) (s : State) : Out :=
  issue 0xAF h [] noExtra
    (fun c s =>
      match loopEnd s c with
      | some r => r
      | none =>
        if c.idle then transferAll s c (fun _ => 0) (fun _ => c.pc + 8) none
        else
          let q := match s.thread? c.t with
            | some th => if th.kind = .xs then 14 else 15
            | none => 14
          match popPort s c.t q with
          | .wait => .stall
          | .waitQ => .stallQ
          | .bad v => .trap cIllegalOperand v none
          | .got x s0 =>
            let s' := s.shareAcq c s0
            let go := (x != 0) != n
            transferAll s' c (fun m => if go then c.active m else 0) (fun _ => relTarget c.pc off) none) s

end Sys2Proof.Machine
end

