-- ==== Sys2Proof/Machine/System.lean ====
section
/-! DEFINITION. Status registers, the return from a trap, KILL, and the invalidations of translations and handles
(R128, R156, R157, R177, R179, R201-R206, R226, R229, R230, R413-R415). -/

namespace Sys2Proof.Machine

/-! ## The constant buffer (R128) -/

/-- What the copy of a constant window comes to. -/
inductive Copied where
  | ok (th : Thread)
  | fault (code : Nat) (val : W64)
  | mig (entry level va : Nat)
  | err (m : Meet) (pa : Nat)
  /-- a line is held at its weir (R478), or its slice pair stands still (R488) -/
  | held

/-- A byte at its home, or the one that the core's own L1 holds and has not written down (log entry 15). -/
def State.ownByte (s : State) (core : Nat) (p : Place × Byte) : Byte :=
  match p.1.line with
  | some ln => match s.l1.get none (l1Key core ln) with
    | some x => if x.dirty.getLsbD p.1.inLine then x.bytes.get 0 p.1.inLine else p.2
    | none => p.2
  | none => p.2

/-- The line of memory that a fetch of a thread reads, of an instruction or of its constant buffer, passes its weir where the Mere does not hold
it (R476, R478); false where it is held, or where its slice pair stands still (R488). -/
def State.fetchLine (s : State) (t : Nat) (th : Thread) (pa : Nat) : State × Bool :=
  match placeOf pa with
  | .mem a =>
    if s.sliceHalted a then (s, false)
    else if (s.findWay a).isSome || ((s.thread? t).any fun x => x.lines.contains (a / 128)) then (s.leaveWeir (.fetch t), true)
    else
      let card := (s.block? th.block).map (·.card)
      match s.weirPass card (.fetch t) (a / 128) with
      | (s', true) => (s'.mapThread t fun x => { x with lines := a / 128 :: x.lines }, true)
      | (s', false) =>
        let s' := if s.weirQ.any (fun e => e.2 == .fetch t) then s' else s'.eventOf t 0x09 1
        (match card with | some c => s'.heldAtWeir c | none => s', false)
  | _ => (s, true)

/-- Copies the words of the window, from word i on, into a constant buffer. -/
def State.copyWords (s : State) (t : Nat) (th : Thread) (base : Nat) : Nat → Nat → Tbl W32 → State × Except Copied (Tbl W32)
  | 0, _, b => (s, .ok b)
  | n + 1, i, b =>
    match s.translate (walkerOf t th) (base + 4 * i) .r false with
    | (s, .ok pa _) =>
      match s.fetchLine t th pa with
      | (s, false) => (s, .error .held)
      | (s, true) =>
        match s.readHome (placesOf pa 4) th.ident true with
        | (s, bs, .data) =>
          let x : W32 := BitVec.ofNat 32 (ofBytes (((placesOf pa 4).zip bs).map (s.ownByte (coreOf t))))
          s.copyWords t th base n (i + 1) (Tbl.set 0 b i x)
        | (s, _, m) => (s, .error (.err m pa))
    | (s, .fault c v) => (s, .error (.fault c v))
    | (s, .mig e l) => (s, .error (.mig e l (base + 4 * i)))
    | (s, .err m pa) => (s, .error (.err m pa))

/-- The 1,024 bytes at `base` replace the constant buffer of a thread. -/
def State.copyConst (s : State) (t : Nat) (th : Thread) (base : Addr) : State × Copied :=
  match s.copyWords t th base.toNat 256 0 [] with
  | (s, .ok b) => (s, .ok { th with cbase := base, cbuf := b, ccopy := false, lines := [] })
  | (s, .error .held) => (s, .held)
  | (s, .error e) => (s.mapThread t fun x => { x with lines := [] }, e)

/-! ## Which registers a sequencer has (R202) -/

/-- Whether a kind of sequencer has status register n. -/
def hasReg (k : TKind) (n : Nat) : Bool :=
  if n = 2 || n = 3 then k != .as
  else if n = 7 then k == .simt
  else if n = 8 then k != .as
  else if 0x11 ≤ n && n ≤ 0x15 then k == .xs
  else n ≤ 0x10 || (0x20 ≤ n && n ≤ 0x26)

/-- Whether SWR may name it. -/
def writableReg (n : Nat) : Bool :=
  !(n == 0 || n == 7 || n == 8 || n == 0x0F || n == 0x10 || n == 0x12 || n == 0x15)

/-- The slice whose loop registers an instruction names: that of its lowest active lane; in trap mode the trapping one. -/
def loopSlice (c : Ctx0) (th : Thread) : Nat :=
  if th.kind != .simt then 0
  else if c.trapm then th.trap.slice.toNat % 8
  else match lowest (c.active c.t) with
    | some l => l / 4
    | none => ((slicesOf c.gang).head?).getD 0

/-- The value of status register n as an instruction of thread t reads it (R202-R206, R177-R180). -/
def State.statusReg (s : State) (c : Ctx0) (th : Thread) (n : Nat) : W64 :=
  let sl := th.slice (loopSlice c th)
  match n with
  | 0x00 => c.pc.setWidth 64
  | 0x01 => th.lfsr.setWidth 64
  | 0x02 => th.fmode.setWidth 64
  -- a flag of a result that may not have landed is free (R108)
  | 0x03 => (th.sureFlags ||| (th.flagsInFlight c.t &&& (s.free 0x15000000).setWidth 5)).setWidth 64
  | 0x04 => th.cbase.setWidth 64
  | 0x05 => th.shreg.setWidth 64
  | 0x06 => th.wstat
  | 0x07 => BitVec.ofNat 64 th.rsdepth
  | 0x08 => th.plreqWord
  | 0x09 => sl.l0.start.setWidth 64
  | 0x0A => sl.l0.stop.setWidth 64
  | 0x0B => sl.l0.count.setWidth 64
  | 0x0C => sl.l1.start.setWidth 64
  | 0x0D => sl.l1.stop.setWidth 64
  | 0x0E => sl.l1.count.setWidth 64
  | 0x0F => s.time
  | 0x10 => BitVec.ofNat 64 (s.cycle.get 0 (coreOf c.t) / 10)
  | 0x11 => th.shape.setWidth 64
  | 0x12 => BitVec.ofNat 64 (th.alim * 256 + th.abase)
  | 0x13 => BitVec.ofNat 64 th.wbase
  | 0x14 => BitVec.ofNat 64 th.wlim
  | 0x15 => match s.leaseOf c.t with
    | some n => BitVec.ofNat 64 (256 + n)
    | none => 0
  | 0x20 => th.trap.cause
  | 0x21 => th.trap.pc.setWidth 64
  | 0x22 => th.trap.val
  | 0x23 => th.trap.slice
  | 0x24 => th.trap.mask.setWidth 64
  | 0x25 => th.trap.vec.setWidth 64
  | 0x26 => th.trap.save
  | _ => 0

/-- SRD (R226). -/
def execSrd (h : Hdr) (d : BitVec 8) (reg : BitVec 8) (s : State) : Out :=
  issueR 0xE2 h (some reg.toNat) [.dst (.scl d) 64] (fun _ th => if hasReg th.kind reg.toNat then none else some 42)
    (fun c s =>
      match s.thread? c.t with
      | none => .stall
      | some th => deliverDst s c h (.scl d) 64 4 (fun _ _ => s.statusReg c th reg.toNat) []) s

/-! ## Writing status registers -/

/-- Bytes of an element times two (R177). -/
def shapeHalf (ty : Nat) : Nat := [8, 4, 4, 2, 2, 1, 8, 2, 1].getD ty 0

/-- Whether a SHAPE is legal (R177). -/
def shapeOk (x : W16) : Bool :=
  let ty := (x.extractLsb' 12 4).toNat
  ty ≤ 8 && ((x.extractLsb' 0 6).toNat + 1) * ((x.extractLsb' 6 6).toNat + 1) * shapeHalf ty ≤ 8192

/-- Checks a window of array rows against the allocation (R179, R196): the fault it raises. -/
def badWindow (th : Thread) (lo hi written : Nat) (empty : Nat) : Option (Nat × W64) :=
  if hi < lo then some (cIllegalOperand, BitVec.ofNat 64 empty)
  else if lo < th.abase || th.alim < hi then some (cAccWindow, BitVec.ofNat 64 written)
  else none

/-- Changes a loop level of every slice of the issuing gang. -/
def Thread.setLoops (th : Thread) (c : Ctx0) (f : Slice → Slice) : Thread :=
  let ss := if th.kind != .simt then [0] else if c.trapm then [loopSlice c th] else slicesOf c.gang
  ss.foldl (fun th i => th.setSlice i (f (th.slice i))) th

/-- What writing a status register does. -/
inductive Swr where
  | ok (th : Thread)
  | bad (code : Nat) (val : W64)
  /-- CBASE: the copy of R128 goes with it -/
  | copy (base : Addr)
  deriving DecidableEq, Repr

/-- What an SWR of register n with value x does to its thread (R204). -/
def State.swrOf (s : State) (c : Ctx0) (th : Thread) (n : Nat) (x : W64) : Swr :=
  let a52 : Addr := x.setWidth 52
  let al : Addr := a52 &&& ~~~7#52
  match n with
  | 0x01 => .ok { th with lfsr := if x.setWidth 16 = 0#16 then 0xACE1 else x.setWidth 16 }
  | 0x02 => if 6 ≤ (x.extractLsb' 0 3).toNat then .bad cIllegalOperand 0x108 else .ok { th with fmode := x.setWidth 4 }
  -- a fixed-latency flag still in flight has landed before the write, or lands after it (R108)
  | 0x03 =>
    .ok { th with
      fflags := x.setWidth 5
      ffHaz := (th.nearFlags.zip (List.range th.nearFlags.length)).map fun e => (e.1.1 &&& (s.free (0x15000001 + e.2)).setWidth 5, e.1.2) }
  | 0x04 => if x.extractLsb' 0 2 != 0 then .bad cMisaligned x else .copy a52
  | 0x05 =>
    if x.getLsbD 4 || s.sheafOk c.t th (x.extractLsb' 0 4).toNat then .ok { th with shreg := x.setWidth 5 } else .bad cIllegalOperand 0x10F
  | 0x06 => .ok { th with pldiv := th.pldiv && !x.getLsbD 1, redspill := th.redspill && !x.getLsbD 0 }
  | 0x09 => .ok (th.setLoops c fun y => { y with l0 := { y.l0 with start := al } })
  | 0x0A => .ok (th.setLoops c fun y => { y with l0 := { y.l0 with stop := al } })
  | 0x0B => .ok (th.setLoops c fun y => { y with l0 := { y.l0 with count := x.setWidth 32 } })
  | 0x0C => .ok (th.setLoops c fun y => { y with l1 := { y.l1 with start := al } })
  | 0x0D => .ok (th.setLoops c fun y => { y with l1 := { y.l1 with stop := al } })
  | 0x0E => .ok (th.setLoops c fun y => { y with l1 := { y.l1 with count := x.setWidth 32 } })
  | 0x11 => if shapeOk (x.setWidth 16) then .ok { th with shape := x.setWidth 16 } else .bad cIllegalOperand 0x108
  | 0x13 =>
    let v := (x.extractLsb' 0 8).toNat
    match badWindow th v th.wlim v 0x108 with
    | some (k, y) => .bad k y
    | none => .ok { th with wbase := v }
  | 0x14 =>
    let v := (x.extractLsb' 0 8).toNat
    match badWindow th th.wbase v v 0x108 with
    | some (k, y) => .bad k y
    | none => .ok { th with wlim := v }
  | 0x20 => .ok { th with trap := { th.trap with cause := x &&& 0xEFF } }
  | 0x21 => .ok { th with trap := { th.trap with pc := al } }
  | 0x22 => .ok { th with trap := { th.trap with val := x } }
  | 0x23 => .ok { th with trap := { th.trap with slice := x &&& 0x1F07 } }
  | 0x24 => .ok { th with trap := { th.trap with mask := x.setWidth 32 } }
  | 0x25 => if x.extractLsb' 0 3 != 0 then .bad cMisaligned x else .ok { th with trap := { th.trap with vec := a52 } }
  | 0x26 => .ok { th with trap := { th.trap with save := x } }
  | _ => .ok th

/-- A window register that software writes is the one that a later ACCWIN in force leaves: those that still wait give way (R355). -/
def State.swrWindow (s : State) (t reg : Nat) : State :=
  if reg != 0x13 && reg != 0x14 then s
  else match s.thread? t with
    | none => s
    | some th => { s with ridgeWaits := s.ridgeWaits.map fun e =>
        if e.ms == [t] then { e with win := e.win.map fun w => if reg = 0x13 then (th.wbase, w.2) else (w.1, th.wlim) } else e }

/-- SWR (R226). -/
def execSwr (h : Hdr) (reg : BitVec 8) (a : Src) (s : State) : Out :=
  issueR 0xE3 h (some reg.toNat) [.sclsrc 34 a 64]
    (fun _ th => if !hasReg th.kind reg.toNat || !writableReg reg.toNat then some 42
      else match a with | .vec _ => some 32 | _ => none)
    (fun c s =>
      withSrcs c s [(a, 64)] fun vs s' =>
        if c.idle then .adv s'
        else match s'.thread? c.t with
          | none => .stall
          | some th =>
            match s'.swrOf c th reg.toNat ((vs.getD 0 fun _ _ => 0) c.t 0) with
            | .ok th => .adv ((s'.setThread c.t th).swrWindow c.t reg.toNat)
            | .bad code val => .trap code val none
            | .copy base =>
              if th.migHeld c.gang then .stall
              else match s'.copyConst c.t th base with
                | (s', .ok th) => .adv (s'.setThread c.t th)
                | (_, .held) => .waitWith fun s => (s.copyConst c.t th base).1
                | (s', .fault code val) => .trapAt s' code val none
                | (s', .mig e l va) => .migrating s' e l va none
                | (s', .err m pa) => .lost s' m pa) s

/-! ## XRET and KILL -/

/-- XRET (R229). -/
def execXret (h : Hdr) (s : State) : Out :=
  issue 0xE0 h [] noExtra
    (fun c s =>
      if c.idle then .adv s
      else if !c.trapm then .trap cIllegalOperand 0x113 none
      else .moved (s.trapReturn c.t)) s

/-- KILL.blk: the block ends as KILLED with XCAUSE as it stands (R230, R384). -/
def execKillBlk (h : Hdr) (s : State) : Out :=
  issue 0xE1 h [] noExtra
    (fun c s =>
      match s.thread? c.t with
      | none => .stall
      | some th => if c.idle then .adv s else .moved (s.killBlock th.block th.trap.cause th.trap.val)) s

/-- KILL.ctx (R230, R384): the Silt entry, whose SOURCE is the dispatcher (R536), records XCAUSE as it stands. -/
def execKillCtx (h : Hdr) (s : State) : Out :=
  issue 0xE1 h [] noExtra
    (fun c s =>
      match s.thread? c.t with
      | none => .stall
      | some th =>
        if c.idle then .adv s
        else .moved (s.killContext th.vi th.ctx 0xA000 (BitVec.ofNat 64 (th.trap.cause.toNat % 256))
          th.trap.cause th.trap.val)) s

/-! ## Invalidation (R413-R415) -/

/-- The privilege that an invalidation beyond the issuer's own context asks for. -/
def foreign (th : Thread) (ctx : Option Nat) : Bool := !th.priv && ctx != some th.ctx

/-- Puts an invalidation in flight. -/
def invalRes (s : State) (c : Ctx0) (h : Hdr) (kind ctx va : Nat) (leaf : Bool) : Res :=
  .adv (s.push c.t { Pend.value 0 h.sig c.mem [] [] s.clock with op := .inval kind ctx va leaf, done := false })

/-- TLBINV.va (R413). -/
def execTlbinvVa (h : Hdr) (leaf : Bool) (a : Src) (b : Src) (s : State) : Out :=
  issue 0xE4 h [.sclsrc 34 a 64, .sclsrc 44 b 64] noExtra
    (fun c s =>
      withSrcs c s [(a, 64), (b, 64)] fun vs s' =>
        match s'.thread? c.t with
        | none => .stall
        | some th =>
          let va := (vs.getD 0 fun _ _ => 0) c.t 0
          let ctx := (vs.getD 1 fun _ _ => 0) c.t 0
          if c.idle then .adv s'
          else if va.extractLsb' 52 12 != 0 then .trap cIllegalOperand 34 none
          else if 4093 < ctx.toNat then .trap cIllegalOperand 0x10E none
          else if foreign th (some ctx.toNat) then .trap cPrivilege 0xE4 none
          else invalRes s' c h 0 ctx.toNat (va.toNat / 65536 * 65536) leaf) s

/-- TLBINV.ctx (R413). -/
def execTlbinvCtx (h : Hdr) (b : Src) (s : State) : Out :=
  issue 0xE4 h [.sclsrc 44 b 64] noExtra
    (fun c s =>
      withSrcs c s [(b, 64)] fun vs s' =>
        match s'.thread? c.t with
        | none => .stall
        | some th =>
          let ctx := (vs.getD 0 fun _ _ => 0) c.t 0
          if c.idle then .adv s'
          else if 4093 < ctx.toNat then .trap cIllegalOperand 0x10E none
          else if foreign th (some ctx.toNat) then .trap cPrivilege 0xE4 none
          else invalRes s' c h 1 ctx.toNat 0 false) s

/-- TLBINV.vi (R413). -/
def execTlbinvVi (h : Hdr) (s : State) : Out :=
  issue 0xE4 h [] noExtra
    (fun c s =>
      match s.thread? c.t with
      | none => .stall
      | some th =>
        if c.idle then .adv s
        else if foreign th none then .trap cPrivilege 0xE4 none
        else invalRes s c h 2 0 0 false) s

/-- HINV (R415). -/
def execHinv (h : Hdr) (all : Bool) (n : BitVec 8) (ctx : Option Src) (s : State) : Out :=
  let xs : List (Src × Nat) := match ctx with | some b => [(b, 64)] | none => []
  issue 0xE5 h (xs.map fun e => .sclsrc 34 e.1 e.2) noExtra
    (fun c s =>
      withSrcs c s xs fun vs s' =>
        match s'.thread? c.t with
        | none => .stall
        | some th =>
          let k : Nat := match vs with | v :: _ => (v c.t 0).toNat | [] => th.ctx
          if c.idle then .adv s'
          else if 4093 < k then .trap cIllegalOperand 0x10E none
          else if foreign th (some k) then .trap cPrivilege 0xE5 none
          else invalRes s' c h (if all then 4 else 3) k n.toNat false) s

end Sys2Proof.Machine
end

