-- ==== Sys2Proof/Machine/Tile.lean ====
section
/-! DEFINITION. Tile instructions, the accumulator window and the lease instructions (R176-R199, R355). -/

namespace Sys2Proof.Machine

/-! ## SHAPE and tiles (R177, R178) -/

/-- Element e of a t-register, read as a type. -/
def Thread.tEl (th : Thread) (r ty e : Nat) : Nat := packedAt (fun o => th.treg.get 0 (r * 4096 + o)) ty e

/-- The write of elements of a t-register: only their bits change. -/
def tWrite (m : Nat) (th : Thread) (r ty : Nat) (es : List (Nat × Nat)) : Wr :=
  let w := tyBits ty
  let bytes := es.foldl (fun (b : Tbl Byte) e =>
    if w = 4 then
      let i := e.1 / 2
      let old := if b.any (·.1 == i) then b.get 0 i else th.treg.get 0 (r * 4096 + i)
      Tbl.insert b i (if e.1 % 2 = 0 then (old &&& 0xF0) ||| BitVec.ofNat 8 (e.2 % 16) else (old &&& 0x0F) ||| BitVec.ofNat 8 (e.2 % 16 * 16))
    else ((toBytes e.2 (w / 8)).zip (List.range (w / 8))).foldl (fun b x => Tbl.insert b (e.1 * (w / 8) + x.2) x.1) b) []
  { loc := .t m r, mask := BitVec.allOnes 32, val := 0, lanes := [], bytes := bytes }

/-! ## Order and sources (R181, R182) -/

/-- A member still has a tile instruction in flight; any other result in flight holds it too. -/
def State.tileBusy (s : State) (ms : List Nat) : Bool :=
  ms.any fun m => (s.pendsOf m).any fun p => match p.op with
    | .result => true
    | .tload => true
    | .tstore => true
    | _ => false

/-- The format of a float type that FTZ applies to (R184). -/
def fzOf (th : Thread) (F : FF) : Bool := th.ftz && F.kind == 0 && F.fb != 2

/-- Whether an element type holds a literal exactly (R181). -/
def litFits (ty : Nat) (a : BitVec 8) : Bool :=
  if tyInt ty then (let w := tyBits ty; w != 4 || (-8 ≤ a.toInt && a.toInt < 8))
  else ((tyFmt ty).round .rne 0 .ieee false { neg := a.toInt < 0, m := a.toInt.natAbs, e := 0 }).2 == 0

def litCode (ty : Nat) (a : BitVec 8) : Nat :=
  if tyInt ty then (a.toInt % 2 ^ tyBits ty).toNat
  else ((tyFmt ty).round .rne 0 .ieee false { neg := a.toInt < 0, m := a.toInt.natAbs, e := 0 }).1

/-- Element e of a source: of a tile, or the one element of a broadcast. -/
def tSrc (th : Thread) (ty : Nat) (x : Src) (v : W64) (e : Nat) : Nat :=
  match x with
  | .vec a => th.tEl a.toNat ty e
  | .lit a => litCode ty a
  | _ => v.toNat % 2 ^ tyBits ty

/-- A broadcast literal that the element type cannot hold (R545: 0x112). -/
def litBad (xs : List Src) : Ctx0 → Thread → Option Nat := fun _ th =>
  if xs.any fun x => match x with | .lit a => !litFits th.tTy a | _ => false then some 0x112 else none

/-- The 2-bit rounding or wrap field (R184). -/
def fieldBad (f : BitVec 2) : Ctx0 → Thread → Option Nat := fun _ th =>
  if tyInt th.tTy then (if 2 ≤ f.toNat then some 0x112 else none)
  else if f = 2 && th.rm == .stoch then some 0x101 else none

def fieldRm (th : Thread) (f : BitVec 2) : Rm := if f = 0 then .rne else if f = 1 then .rtz else th.rm

/-- A NaN result in a narrow format is the one that it produces (R111, R184). -/
def narrowNan (F : FF) (r : Nat × BitVec 5) : Nat × BitVec 5 :=
  if (F.kind != 0 || F.fb = 2) && F.isNan r.1 then (F.signed (F.neg r.1) 0x7F, r.2) else r

/-- A tile instruction that computes: elements of d, the flags, and the thread with its generators stepped. -/
def tileWord (op : Nat) (h : Hdr) (d : BitVec 8) (us : List Use) (extra : Ctx0 → Thread → Option Nat) (xs : List Src)
    (f : Thread → List (Nat → Nat) → List (Nat × Nat) × BitVec 5 × Thread) (s : State) : Out :=
  issue op h (.tile 24 d :: us) (andThen extra (litBad xs))
    (fun c s =>
      if s.tileBusy c.mem then .stall
      else withSrcs c s (xs.map fun x => (x, 32)) fun vs s' =>
        if c.idle then .adv s'
        else match s'.thread? c.t with
          | none => .stall
          | some th =>
            let srcs := (xs.zip vs).map fun e => tSrc th th.tTy e.1 (e.2 c.t 0)
            let (es, fl, th') := f th srcs
            .adv (deliver (s'.setThread c.t th') c h 0 [tWrite c.t th d.toNat th.tTy es] [(c.t, fl)])) s

/-- An element-wise operation. -/
def tileMap (op : Nat) (h : Hdr) (d : BitVec 8) (extra : Ctx0 → Thread → Option Nat) (xs : List Src)
    (f : Thread → List Nat → Nat × BitVec 5) (s : State) : Out :=
  tileWord op h d ((xs.zip [34, 44, 54]).map fun e => .tsrc e.2 e.1) extra xs
    (fun th vs =>
      let rs := (List.range th.tCount).map fun e => (e, f th (vs.map fun v => v e))
      (rs.map fun r => (r.1, r.2.1), rs.foldl (fun fl r => fl ||| r.2.2) 0, th)) s

/-! ## Element-wise arithmetic (R191) -/

/-- An exact integer as an element: wrapped, or saturated with `.ss`. -/
def intEl (ty : Nat) (f : BitVec 2) (x : Int) : Nat := if f = 1 then satInt (tyBits ty) x else (x % 2 ^ tyBits ty).toNat

/-- TADD, TSUB, TMUL and TFMA of one element. -/
def tArith (k : Nat) (f : BitVec 2) (th : Thread) (vs : List Nat) : Nat × BitVec 5 :=
  let ty := th.tTy
  let x := n0 vs
  let y := n1 vs
  let z := n2 vs
  if tyInt ty then
    let g := sgnOf (tyBits ty)
    (intEl ty f (match k with | 0 => g x + g y | 1 => g x - g y | 2 => g x * g y | _ => g x * g y + g z), 0)
  else
    let F := tyFmt ty
    let fz := fzOf th F
    let rm := fieldRm th f
    narrowNan F (match k with
      | 0 => F.add fz rm x y
      | 1 => F.sub fz rm x y
      | 2 => F.mul fz rm x y
      | _ => F.fma fz rm x y z)

/-- TADD (R191). -/
def execTadd (h : Hdr) (f : BitVec 2) (d : BitVec 8) (a b : Src) (s : State) : Out := tileMap 0xC4 h d (fieldBad f) [a, b] (tArith 0 f) s
/-- TSUB (R191). -/
def execTsub (h : Hdr) (f : BitVec 2) (d : BitVec 8) (a b : Src) (s : State) : Out := tileMap 0xC5 h d (fieldBad f) [a, b] (tArith 1 f) s
/-- TMUL (R191). -/
def execTmul (h : Hdr) (f : BitVec 2) (d : BitVec 8) (a b : Src) (s : State) : Out := tileMap 0xC6 h d (fieldBad f) [a, b] (tArith 2 f) s
/-- TFMA (R191). -/
def execTfma (h : Hdr) (f : BitVec 2) (d : BitVec 8) (a b c : Src) (s : State) : Out :=
  tileMap 0xC7 h d (fieldBad f) [a, b, c] (tArith 3 f) s

/-- The smaller or larger of two elements (R110, R191). -/
def tMinMax (mx : Bool) (th : Thread) (vs : List Nat) : Nat × BitVec 5 :=
  let ty := th.tTy
  if tyInt ty then
    let g := sgnOf (tyBits ty)
    (if (g (n1 vs) < g (n0 vs)) == mx then n0 vs else n1 vs, 0)
  else let F := tyFmt ty; narrowNan F (F.minmax (fzOf th F) mx (n0 vs) (n1 vs))

/-- TMIN (R191). -/
def execTmin (h : Hdr) (d : BitVec 8) (a b : Src) (s : State) : Out := tileMap 0xC8 h d noExtra [a, b] (tMinMax false) s
/-- TMAX (R191). -/
def execTmax (h : Hdr) (d : BitVec 8) (a b : Src) (s : State) : Out := tileMap 0xC9 h d noExtra [a, b] (tMinMax true) s

/-! ## Conversions between element types (R190, R192) -/

/-- An exact conversion's source, with FTZ. -/
def tFlush (th : Thread) (F : FF) (x : Nat) : Nat := F.flush (fzOf th F) x

/-- Float to float (R111, R114-R116). -/
def tConv (th : Thread) (A B : FF) (rm : Rm) (g : W32) (nosat : Bool) (x0 : Nat) : Nat × BitVec 5 :=
  let x := tFlush th A x0
  if B.mode = .sat then toNarrow A B rm g nosat x 0
  else if A.isNan x then (nanTo A B x, flagIf (A.isSnan x) fNV)
  else if A.isInf x then (B.signed (A.neg x) B.infCode, 0)
  else B.round rm g .ieee (fzOf th B) (A.val x)

/-- The special function of an element, as FP32 and then rounded to its type. -/
def tSpecial (fn : Nat) (f : BitVec 2) (th : Thread) (x : Nat) : Nat × BitVec 5 :=
  let F := tyFmt th.tTy
  if F = f32 then special fn th.ftz x
  else
    let w := tConv th F f32 .rne 0 false x
    let r := special fn th.ftz w.1
    let y := tConv th f32 F (fieldRm th f) 0 false r.1
    (y.1, w.2 ||| r.2 ||| y.2)

/-- Whether TUN's operation is one of the seven functions. -/
def TUnOp.fn : TUnOp → Option Nat
  | .rcp => some 0
  | .rsq => some 1
  | .sqrt => some 2
  | .exp2 => some 3
  | .log2 => some 4
  | .sin => some 5
  | .cos => some 6
  | _ => none

def tUn (op : TUnOp) (f : BitVec 2) (th : Thread) (vs : List Nat) : Nat × BitVec 5 :=
  let ty := th.tTy
  let x := n0 vs
  match TUnOp.fn op with
  | some fn => tSpecial fn f th x
  | none =>
    if tyInt ty then
      let v := sgnOf (tyBits ty) x
      match op with
      | .abs => (intEl ty 0 v.natAbs, 0)
      | .neg => (intEl ty 0 (-v), 0)
      | .relu => (if v < 0 then 0 else x, 0)
      | _ => (x, 0)
    else
      let F := tyFmt ty
      match op with
      | .abs => (F.signed false (F.mag x), 0)
      | .neg => (F.signed (!F.neg x) (F.mag x), 0)
      | .relu => if F.isNan x then narrowNan F (F.quieted x, flagIf (F.isSnan x) fNV) else (if F.neg x then 0 else tFlush th F x, 0)
      | _ => (x, 0)

/-- TUN (R192). -/
def execTun (h : Hdr) (op : TUnOp) (f : BitVec 2) (d : BitVec 8) (a : Src) (s : State) : Out :=
  tileMap 0xCA h d
    (andThen (fun _ th =>
      if (TUnOp.fn op).isSome && (tyInt th.tTy || (th.tTy == 0 && f != 0)) then some 0x112 else none) (fieldBad f)) [a] (tUn op f) s

/-- An integer as the nearest element of a float type. -/
def intToEl (B : FF) (rm : Rm) (nosat : Bool) (v : Int) : Nat × BitVec 5 :=
  if v = 0 then (0, 0)
  else B.round rm 0 (if B.mode = .sat then (if nosat then .nosat else .sat) else .ieee) false { neg := v < 0, m := v.natAbs, e := 0 }

/-- Float to a signed integer of w bits (R118): out of range it clamps, or wraps with `.nosat`. -/
def floatToEl (th : Thread) (A : FF) (rm : Rm) (w : Nat) (nosat : Bool) (x0 : Nat) : Nat × BitVec 5 :=
  let x := tFlush th A x0
  let lo : Int := -(2 ^ (w - 1))
  let hi : Int := 2 ^ (w - 1) - 1
  let put (v : Int) : Nat := (v % 2 ^ w).toNat
  if A.isNan x then (0, fNV)
  else if A.isInf x then (put (if A.neg x then lo else hi), fNV)
  else
    let a := A.val x
    let (n, inexact) := toUlps rm 0 a.neg a.m a.e 0
    let v : Int := if a.neg then -(n : Int) else n
    if nosat && w < A.magBits + 1 then (put v, flagIf inexact fNX)
    else if hi < v then (put hi, fNV) else if v < lo then (put lo, fNV) else (put v, flagIf inexact fNX)

/-- One element of TCVT. -/
def tCvtEl (th : Thread) (src dst : Nat) (rm : Rm) (g : W32) (nosat : Bool) (x : Nat) : Nat × BitVec 5 :=
  if tyInt src then
    let v := sgnOf (tyBits src) x
    if tyInt dst then (if tyBits dst < tyBits src && !nosat then satInt (tyBits dst) v else (v % 2 ^ tyBits dst).toNat, 0)
    else intToEl (tyFmt dst) rm nosat v
  else if tyInt dst then floatToEl th (tyFmt src) rm (tyBits dst) nosat x
  else tConv th (tyFmt src) (tyFmt dst) rm g nosat x

/-- Steps the generators for n elements, element e with state e mod 32; the value each takes (R117). -/
def stepGens (th : Thread) : Nat → Nat → Thread × List W32
  | 0, _ => (th, [])
  | n + 1, e =>
    let x := genNext (th.genAt (e % 32))
    let (th', xs) := stepGens (th.setGen (e % 32) x) n (e + 1)
    (th', x :: xs)

/-- The code of a type. -/
def TTy.code : TTy → Nat
  | .f32 => 0
  | .f16 => 1
  | .bf16 => 2
  | .e4 => 3
  | .e5 => 4
  | .f4 => 5
  | .i32 => 6
  | .i8 => 7
  | .i4 => 8

/-- TCVT (R190). -/
def execTcvt (h : Hdr) (src : TTy) (nosat : Bool) (rm : Rm3) (d : BitVec 8) (a : BitVec 8) (s : State) : Out :=
  let sc := TTy.code src
  let narrows (th : Thread) : Bool := !tyInt sc && !tyInt th.tTy && th.tTy != 0
  tileWord 0xD0 h d [.tcvt 34 a sc]
    (fun _ th =>
      if sc = th.tTy || 4096 < tyBytes sc th.tCount || (nosat && (th.tTy ≤ 2 || th.tTy = 5)) || (rm = .mode .stoch && !narrows th) then
        some 0x112
      else if rm = .dyn && th.rm = .stoch && !narrows th then some 0x101 else none) []
    (fun th _ =>
      let mode := rm3 th rm
      let (th', gs) := if mode = .stoch then stepGens th th.tCount 0 else (th, [])
      let rs := (List.range th.tCount).map fun e => (e, tCvtEl th sc th.tTy mode (gs.getD e 0) nosat (th.tEl a.toNat sc e))
      (rs.map fun r => (r.1, r.2.1), rs.foldl (fun fl r => fl ||| r.2.2) 0, th')) s

/-! ## Comparisons, selection, broadcasts, transposes (R186, R188, R189, R193, R194) -/

/-- TCMP (R193). -/
def execTcmp (h : Hdr) (c : FCond) (u : Bool) (d : BitVec 8) (a b : Src) (s : State) : Out :=
  tileMap 0xCB h d
    (fun _ th => if (if tyInt th.tTy then c == .un || c == .ord else u) then some 0x112 else none) [a, b]
    (fun th vs =>
      let ty := th.tTy
      let (r, fl) : Bool × BitVec 5 :=
        if tyInt ty then
          let v (x : Nat) : Int := if u then (x : Int) else sgnOf (tyBits ty) x
          let x := v (n0 vs)
          let y := v (n1 vs)
          (match c with
            | .eq => x == y
            | .ne => x != y
            | .lt => x < y
            | .le => x ≤ y
            | .gt => y < x
            | _ => y ≤ x, 0)
        else let F := tyFmt ty; F.compare (fzOf th F) c (n0 vs) (n1 vs)
      (if r then 2 ^ tyBits ty - 1 else 0, fl)) s

/-- TSEL (R194). -/
def execTsel (h : Hdr) (d : BitVec 8) (a b : Src) (m : BitVec 8) (s : State) : Out :=
  tileWord 0xCC h d [.tsrc 34 a, .tsrc 44 b, .tile 54 m] noExtra [a, b]
    (fun th vs =>
      let x := vs.getD 0 fun _ => 0
      let y := vs.getD 1 fun _ => 0
      ((List.range th.tCount).map fun e => (e, if th.tEl m.toNat th.tTy e != 0 then x e else y e), 0, th)) s

/-- TBC (R188). -/
def execTbc (h : Hdr) (axis : TAxis) (d : BitVec 8) (a : Src) (s : State) : Out :=
  tileWord 0xCE h d [.tsrc 34 a] noExtra [a]
    (fun th vs =>
      let x := vs.getD 0 fun _ => 0
      let from_ (e : Nat) : Nat := match axis with
        | .row => e % th.tCols
        | .col => e / th.tCols * th.tCols
        | .all => 0
      ((List.range th.tCount).map fun e => (e, x (from_ e)), 0, th)) s

/-- TTR (R189). -/
def execTtr (h : Hdr) (d : BitVec 8) (a : BitVec 8) (s : State) : Out :=
  tileWord 0xCF h d [.tile 34 a] noExtra []
    (fun th _ =>
      ((List.range th.tCount).map fun e => (e, th.tEl a.toNat th.tTy (e % th.tRows * th.tCols + e / th.tRows)), 0, th)) s

/-- TZERO (R186). -/
def execTzero (h : Hdr) (t : BitVec 8) (s : State) : Out :=
  issue 0xC2 h [.tile 24 t] noExtra
    (fun c s =>
      if s.tileBusy c.mem then .stall
      else if c.idle then .adv s
      else .adv (deliver s c h 0
        [{ loc := .t c.t t.toNat, mask := BitVec.allOnes 32, val := 0, lanes := [],
           bytes := (List.range 4096).map fun i => (i, 0) }] [])) s

/-! ## TRED (R195) -/

/-- One reduction of elements. -/
def tReduce (op : TRedOp) (f : BitVec 2) (th : Thread) (xs : List Nat) : Nat × BitVec 5 :=
  let ty := th.tTy
  if tyInt ty then
    let vs := xs.map (sgnOf (tyBits ty))
    let pick (g : Int → Int → Bool) : Int := vs.foldl (fun m v => if g v m then v else m) (vs.headD 0)
    ((match op with
      | .add => vs.foldl (· + ·) 0
      | .max => pick fun v m => m < v
      | .min => pick fun v m => v < m) % 2 ^ tyBits ty |>.toNat, 0)
  else
    let F := tyFmt ty
    let fz := fzOf th F
    let xs := xs.map (F.flush fz)
    match op with
    | .add =>
      let nan := xs.any F.isNan
      let up := xs.any fun x => F.isInf x && !F.neg x
      let down := xs.any fun x => F.isInf x && F.neg x
      let fl := flagIf (xs.any F.isSnan || (up && down)) fNV
      if nan || (up && down) then (F.defNan, fl)
      else if up then (F.infCode, fl)
      else if down then (F.signed true F.infCode, fl)
      else
        let (r, g) := F.round (fieldRm th f) 0 F.mode fz (exSum (fieldRm th f) (xs.map F.val))
        (r, fl ||| g)
    | _ =>
      let fl := flagIf (xs.any F.isSnan) fNV
      let ns := xs.filter fun x => !F.isNan x
      match ns with
      | [] => narrowNan F (F.quieted (xs.headD 0), fl)
      | y :: ys => (ys.foldl (fun m x => (F.minmax fz (op == .max) m x).1) y, fl)

/-- TRED (R195). -/
def execTred (h : Hdr) (op : TRedOp) (axis : TAxis) (f : BitVec 2) (d : Dst) (a : Src) (s : State) : Out :=
  let extra : Ctx0 → Thread → Option Nat := fun _ th =>
    if tyInt th.tTy && f != 0 then some 0x112 else if f = 2 && !tyInt th.tTy && th.rm == .stoch then some 0x101 else none
  let all (th : Thread) (vs : List (Nat → Nat)) : Nat × BitVec 5 :=
    tReduce op f th ((List.range th.tCount).map (vs.getD 0 fun _ => 0))
  match d with
  | .vec d =>
    tileWord 0xCD h d [.tsrc 34 a] extra [a]
      (fun th vs =>
        let x := vs.getD 0 fun _ => 0
        let rs : List (Nat × Nat × BitVec 5) := match axis with
          | .row => (List.range th.tRows).map fun r =>
              (r * th.tCols, tReduce op f th ((List.range th.tCols).map fun c => x (r * th.tCols + c)))
          | .col => (List.range th.tCols).map fun c =>
              (c, tReduce op f th ((List.range th.tRows).map fun r => x (r * th.tCols + c)))
          | .all => [(0, all th vs)]
        (rs.map fun r => (r.1, r.2.1), rs.foldl (fun fl r => fl ||| r.2.2) 0, th)) s
  | .scl d =>
    issue 0xCD h [.dst (.scl d) 64, .tsrc 34 a] extra
      (fun c s =>
        if s.tileBusy c.mem then .stall
        else match s.thread? c.t with
          | none => .stall
          | some th =>
            let (x, fl) := all th [tSrc th th.tTy a 0]
            deliverDst s c h (.scl d) 64 0 (fun _ _ => BitVec.ofInt 64 (sgnOf (tyBits th.tTy) x)) [(c.t, fl)]) s

/-! ## TSHAPE (R185) -/

/-- TSHAPE with an immediate. -/
def execTshapeImm (h : Hdr) (v : W16) (s : State) : Out :=
  issue 0xC3 h [] (fun _ _ => if shapeOk v then none else some 0x108)
    (fun c s => if c.idle then .adv s else .adv (s.mapThread c.t fun th => { th with shape := v })) s

/-- TSHAPE from a register. -/
def execTshapeReg (h : Hdr) (a : Src) (s : State) : Out :=
  issue 0xC3 h [.sclsrc 34 a 64] noExtra
    (fun c s =>
      withSrcs c s [(a, 64)] fun vs s' =>
        let v := (vs.getD 0 fun _ _ => 0) c.t 0
        if c.idle then .adv s'
        else if v.extractLsb' 16 48 != 0 || !shapeOk (v.setWidth 16) then .trap cIllegalOperand 0x108 none
        else .adv (s'.mapThread c.t fun th => { th with shape := v.setWidth 16 })) s

/-! ## TLD and TST (R187) -/

/-- Offsets of the parts of a tile in memory: first byte in the t-register, offset, bytes. -/
def Thread.tParts (th : Thread) (str : Bool) (off stride : W64) : List (Nat × W64) × Nat :=
  let w := tyBits th.tTy
  let n := if w = 4 then 1 else w / 8
  if str then
    let per := tyBytes th.tTy th.tCols / n
    ((List.range th.tRows).flatMap fun r => (List.range per).map fun i =>
      ((r * per + i) * n, off + BitVec.ofNat 64 r * stride + BitVec.ofNat 64 (i * n)), n)
  else ((List.range (tyBytes th.tTy th.tCount / n)).map fun i => (i * n, off + BitVec.ofNat 64 (i * n)), n)

/-- TLD (0xC0) and TST (0xC1). -/
def tileMem (op : Nat) (load : Bool) (h : Hdr) (str : Bool) (t : BitVec 8) (m : MArg) (s : State) : Out :=
  issue op h [.tile 24 t, .sclsrc 42 m.off 32]
    (fun _ th => if str && tyBits th.tTy = 4 && th.tCols % 2 = 1 then some 0x112 else none)
    (fun c s =>
      if s.tileBusy c.mem then .stall
      else
        let next : Src := match m.off with | .scl a => .scl (a + 1) | x => x
        withSrcs c s ((m.off, offWidth .xs m.off) :: (if str then [(next, 64)] else [])) fun vs s' =>
          if c.idle then .adv s'
          else match s'.thread? c.t with
            | none => .stall
            | some th =>
              let off := (vs.getD 0 fun _ _ => 0) c.t 0
              let stride : W64 := if str then (vs.getD 1 fun _ _ => 0) c.t 0 else 0
              let (parts, n) := th.tParts str off stride
              let accs := parts.map fun e =>
                (e.1, e.2, if load then ([] : List Byte) else (List.range n).map fun i => th.treg.get 0 (t.toNat * 4096 + e.1 + i))
              match s'.checkAccess c.t c.gang (if load then .tld else .tst) m.hd.toNat n accs with
              | (_, .error r) => r
              | (s', .ok (he, ps)) =>
                if off.toNat % n != 0 then .trapAt s' cMisaligned (he.base + off) none
                else if stride.toNat % n != 0 then .trapAt s' cMisaligned (he.base + off + stride) none
                else
                  let both := m.sem == .both
                  let own := m.sem == .acqrel
                  let wr := if load then [({ loc := .t c.t t.toNat, mask := BitVec.allOnes 32, val := 0, lanes := [], bytes := [] } : Wr)] else []
                  .adv (s'.pushMem c.t (memPend s' c h (if load then .tload else .tstore) n m (both || (own && load)) (both || (own && !load))
                    false he ps wr))) s

/-- TLD (R187). -/
def execTld (h : Hdr) (str : Bool) (t : BitVec 8) (m : MArg) (s : State) : Out := tileMem 0xC0 true h str t m s
/-- TST (R187). -/
def execTst (h : Hdr) (str : Bool) (t : BitVec 8) (m : MArg) (s : State) : Out := tileMem 0xC1 false h str t m s

/-! ## The accumulator window (R196-R198, R355) -/

/-- The positions in the q3 streams of these threads' pairs behind the last word of a kind that they hold (R199, R355). -/
def State.ridgeUps (s : State) (ms : List Nat) (p : W16 → Bool) : List (Nat × Nat) :=
  (ms.flatMap fun m => [streamKey (asOf m) 3, streamKey (asOf m + 1) 3]).filterMap fun k =>
    let x := s.stream k
    match (List.range x.buf.length).reverse.find? fun i => (x.buf[i]?).any fun w => p w.1 with
    | some i => some (k, x.taken + i + 1)
    | none => none

/-- The matrix words (R343). -/
def isMatrixWord (w : W16) : Bool := (matJob (decode16 w) []).isSome

/-- What waits behind q3 words takes its place; it takes effect at once where there is none to wait for. -/
def State.queueRidge (s : State) (es : List RidgeWait) : State := ({ s with ridgeWaits := s.ridgeWaits ++ es } : State).passRidge

/-- The window a member receives: base and lim count from ABASE. -/
def splitWindow (split : Bool) (base lim n i : Nat) : Nat × Nat :=
  let q := (lim + 1 - base) / n
  if split then (base + i * q, base + (i + 1) * q - 1) else (base, lim)

/-- ACCWIN (R196): the windows change once the matrix launches accepted before it have started (R355). -/
def execAccwin (h : Hdr) (split : Bool) (base lim : BitVec 8) (s : State) : Out :=
  issue 0xD3 h []
    (fun c _ => if split && (c.scp == .lane || c.scp == .warp) then some 58 else if lim < base then some 42 else none)
    (fun c s =>
      let b := base.toNat
      let l := lim.toNat
      let n := c.mem.length
      if c.idle then .adv s
      else if split && (l + 1 - b) % n != 0 then .trap cIllegalOperand 0x111 none
      else
        let ws := (c.mem.zip (List.range n)).filterMap fun e => (s.thread? e.1).map fun th =>
          let (lo, hi) := splitWindow split b l n e.2
          (e.1, th.abase + lo, th.abase + hi, th.alim)
        match ws.find? fun w => w.2.2.2 < w.2.2.1 with
        | some w => .trap cAccWindow (BitVec.ofNat 64 (Nat.max w.2.1 (w.2.2.2 + 1) - ((s.thread? w.1).elim 0 (·.abase)))) none
        | none =>
          .adv (s.queueRidge (ws.map fun w => { ups := s.ridgeUps [w.1] isMatrixWord, ms := [w.1], win := some (w.2.1, w.2.2.1) }))) s

/-- Rows that the launches of a stream touch or will touch, those it has accepted included: a word that does not execute ends
the list, and a word that pops other parameters passes. -/
def State.acceptedRows (s : State) (k : Nat) : List (Nat × Nat × Nat) :=
  let x := s.stream k
  let run := match x.run with | some l => l.rows | none => []
  let step (a : Option (List W64) × List (Nat × Nat × Nat)) (e : (W16 × Option (Fin 6) × List Nat) × Nat) :
      Option (List W64) × List (Nat × Nat × Nat) :=
    let w := e.1
    match a.1 with
    | none => a
    | some st =>
      let i := decode16 w.1
      if !isLaunchWord w.1 then (stackStep w.1.toNat st, a.2)
      else
        let n := match i with
          | .note => 1
          | i => matArity i
        if st.length < n then (none, a.2)
        else match matJob i (st.take n).reverse with
          | some j => (some (st.drop n), a.2 ++ (s.accRows k (x.taken + e.2) x.who j.x4 j.row j.rows j.cols).map (·.1))
          | none => (some (st.drop n), a.2)
  ((x.buf.zip (List.range x.buf.length)).foldl step (some x.stack, run)).2

/-- Some launch accepted before touches rows lo to hi of an array (R198). -/
def State.ridgeTouches (s : State) (arr lo hi : Nat) : Bool :=
  s.streams.any fun e => e.1 % 8 = 3 && !isSavedStream e.1 && !isHartStream e.1 &&
    (s.acceptedRows e.1).any fun r => r.1 == arr && r.2.1 ≤ hi && lo ≤ r.2.2

/-- ACCRD and ACCWR. Row and column are read at 32 bits, the width that the manual leaves open (DESIGN CHOICE, log entry 68). -/
def accWord (op : Nat) (reads : Bool) (h : Hdr) (t : BitVec 8) (row col : Src) (bad : Thread → Option Nat)
    (f : Nat → Thread → Nat → Nat → Nat → State → State) (s : State) : Out :=
  issue op h [.tile 24 t, .sclsrc 34 row 32, .sclsrc 44 col 32] noExtra
    (fun c s =>
      match (c.mem.filterMap s.thread?).findSome? bad with
      | some v => .trap cIllegalOperand (BitVec.ofNat 64 v) none
      | none =>
        if s.tileBusy c.mem then .stall
        else withSrcs c s [(row, 32), (col, 32)] fun vs s' =>
          if c.idle then .adv s'
          else
            let r := ((vs.getD 0 fun _ _ => 0) c.t 0).toNat
            let q := ((vs.getD 1 fun _ _ => 0) c.t 0).toNat
            let ths := (c.mem.filter fun m => c.active m != 0).filterMap fun m => (s'.thread? m).map fun th => (m, th)
            if ths.any fun e => e.2.wlim < e.2.wbase + r + e.2.tRows - 1 || 511 < q + e.2.tCols - 1 then
              .trap cAccWindow (BitVec.ofNat 64 r) none
            else if ths.any fun e => s'.ridgeTouches (s'.arrayAt e.1) (e.2.wbase + r) (e.2.wbase + r + e.2.tRows - 1) then .stall
            else
              let cells (e : Nat × Thread) : List (Nat × Nat × Nat) :=
                (List.range e.2.tCount).map fun i => (s'.arrayAt e.1, e.2.wbase + r + i / e.2.tCols, q + i % e.2.tCols)
              match ths.findSome? fun e => (s'.accHit reads (cells e)).map fun n => (e.2.block, n) with
              | some (b, n) => .moved (s'.loseBlock b Block.again 0x29 (BitVec.ofNat 64 n))
              | none => .adv (ths.foldl (fun s e => f e.1 e.2 (s.arrayAt e.1) (e.2.wbase + r) q (s.accClear (cells e))) s')) s

/-- The pend that a member's accumulator access leaves. -/
def accPend (s : State) (h : Hdr) (m : Nat) (ws : List Wr) (fl : BitVec 5) : State := s.push m (Pend.value 0 h.sig [m] ws [(m, fl)] s.clock)

/-- ACCRD (R197). -/
def execAccrd (h : Hdr) (nosat clr : Bool) (f : BitVec 2) (d : BitVec 8) (row col : Src) (s : State) : Out :=
  accWord 0xD1 true h d row col
    (fun th =>
      if nosat && th.tTy != 3 && th.tTy != 4 then some 0x112
      else if f != 0 && (th.tTy == 0 || tyInt th.tTy) then some 0x112 else none)
    (fun m th arr r0 c0 s =>
      let mode := fieldRm th f
      let ty := th.tTy
      let narrows := !tyInt ty && ty != 0
      let (th', gs) := if narrows && mode = .stoch then stepGens th th.tCount 0 else (th, [])
      let at_ (e : Nat) : Nat × Nat := (r0 + e / th.tCols, c0 + e % th.tCols)
      let rs := (List.range th.tCount).map fun e =>
        let x := s.accAt arr (at_ e).1 (at_ e).2
        (e, if narrows then tConv th f32 (tyFmt ty) mode (gs.getD e 0) nosat x else accOut ty th.ftz nosat mode x)
      let s := s.setThread m th'
      let s := if clr then (List.range th.tCount).foldl (fun s e => s.setAcc arr (at_ e).1 (at_ e).2 0) s else s
      accPend s h m [tWrite m th d.toNat ty (rs.map fun r => (r.1, r.2.1))] (rs.foldl (fun fl r => fl ||| r.2.2) 0)) s

/-- ACCWR (R197). -/
def execAccwr (h : Hdr) (add : Bool) (t : BitVec 8) (row col : Src) (s : State) : Out :=
  accWord 0xD2 add h t row col (fun _ => none)
    (fun m th arr r0 c0 s =>
      let ty := th.tTy
      let (s, fl) := (List.range th.tCount).foldl (fun (a : State × BitVec 5) e =>
        let r := r0 + e / th.tCols
        let c := c0 + e % th.tCols
        let el := th.tEl t.toNat ty e
        let (x, fx) := accIn ty (if ty = 1 || ty = 2 then tFlush th (tyFmt ty) el else el)
        let (y, fy) := if add then accSum th.ftz ty (a.1.accAt arr r c) x else (x, 0)
        (a.1.setAcc arr r c y, a.2 ||| fx ||| fy)) (s, 0)
      accPend s h m [] fl) s

/-! ## LEASE and UNLEASE (R199, R342) -/

/-- An UNLEASE of one of these threads has still to take effect. -/
def State.unleasing (s : State) (ms : List Nat) : Bool := s.ridgeWaits.any fun e => e.win.isNone && e.ms.any ms.contains

/-- LEASE (R199): a lease held is released, after an UNLEASE that still waits, then the request waits until it is granted. -/
def execLease (h : Hdr) (n : BitVec 7) (s : State) : Out :=
  issue 0xD4 h [] (fun _ _ => if 64 < n.toNat then some 42 else none)
    (fun c s =>
      if c.idle then .adv s
      else
        let ths := c.mem.filterMap s.thread?
        if ths.all fun th => th.leaseWait == some 0 then
          .adv (c.mem.foldl (fun s m => s.mapThread m fun th => { th with leaseWait := none }) s)
        else if ths.any (fun th => th.leaseWait.isSome) || s.unleasing c.mem then .stall
        else .waitWith fun s =>
          let n := if n = 0 then 64 else n.toNat
          let s := c.mem.foldl State.dropLease s
          let s := (s.arraysOf c.mem).foldl (fun s a => s.setGroup a { s.group a with queue := (s.group a).queue ++ [(c.mem, n)] }) s
          c.mem.foldl (fun s m => s.mapThread m fun th => { th with leaseWait := some n }) s) s

/-- UNLEASE (R199): it takes effect once every launch accepted before it has been dequeued. -/
def execUnlease (h : Hdr) (s : State) : Out :=
  issue 0xD5 h [] noExtra
    (fun c s =>
      if c.idle then .adv s
      else .adv (s.queueRidge [{ ups := s.ridgeUps c.mem isLaunchWord, ms := c.mem, win := none }])) s

end Sys2Proof.Machine
end

