-- ==== Sys2Proof/Machine/Place.lean ====
section
/-! DEFINITION. The dispatcher: ready queues, where a block fits, placement, and the choice of victims (R29-R33, R357, R363-R367, R373). -/

namespace Sys2Proof.Machine

/-! ## Room on a unit (R30, R31, R179, R305, R339) -/

/-- A slot of a core holds no thread, and none of its streams still drains. -/
def State.slotFree (s : State) (t : Nat) : Bool := (s.thread? t).isNone && (List.range 6).all fun q => !(s.stream (streamKey t q)).orphan

/-- Slots of a SIMT core for n warps of nv registers, as many as the schedulers can take. -/
def State.warpSlots (s : State) (core nv n : Nat) : Option (List Nat) :=
  let l := (List.range 4).flatMap fun k =>
    (((List.range 16).map fun w => core * 64 + k * 16 + w).filter s.slotFree).take (s.freeRegs core k / Nat.max 1 nv)
  if n ≤ l.length then some (l.take n) else none

/-- The lowest place of `n` units in a space of `size`, among the spans in use. -/
def firstFit (used : List (Nat × Nat)) (align size n : Nat) : Option Nat :=
  let starts := 0 :: used.map fun u => (u.1 + u.2 + align - 1) / align * align
  (starts.filter fun a => a + n ≤ size && used.all fun u => a + n ≤ u.1 || u.1 + u.2 ≤ a).foldl (fun (b : Option Nat) a =>
    match b with
    | some x => some (Nat.min x a)
    | none => some a) none

/-- Resident blocks of a kind on a unit. -/
def State.onUnit (s : State) (tile : Bool) (u : Nat) : List (Nat × Block) :=
  s.blocks.filterMap fun e => match e.2 with
    | some b => if b.tile == tile && b.unit == u && (b.phase == .resident || b.phase == .saving) then some (e.1, b) else none
    | none => none

/-- What a block asks of a unit. -/
structure Ask where
  tile : Bool
  span : Bool
  vi : Nat
  nv : Nat
  /-- launched and spawned threads -/
  threads : Nat
  spill : Nat
  sp : Nat
  rows : Nat
  /-- sheaves it declares (R431) -/
  sheaves : Nat
  /-- subscription entries it brings back, for each of its cores (R443) -/
  subs : List Nat
  /-- the unit that a relaunched block leaves (R294) -/
  avoid : Option Nat
  deriving DecidableEq, Repr

/-- Where a block goes: its slots, region and accumulator rows. -/
structure Room where
  unit : Nat
  slots : List Nat
  spBase : Nat
  accBase : Nat
  deriving DecidableEq, Repr

/-- Spans of scratchpad in use on a SIMT core: regions with their spill areas. -/
def State.usedScratch (s : State) (u : Nat) : List (Nat × Nat) := (s.onUnit false u).map fun e => (e.2.spBase, e.2.spSize + 256 * e.2.thr.length)

/-- Free subscription entries of a core (R443). -/
def State.subsFree (s : State) (u : Nat) : Nat := ((List.range 16).filter fun e => (s.subs.get none (u * 16 + e)).isNone).length

/-- The head request of a core's spawn queue fits: it is placed before any new block (R394). -/
def State.spawnFits (s : State) (core : Nat) : Bool :=
  match s.spawnq.get [] core with
  | [] => false
  | r :: _ => match s.block? r.block with
    | some b => (s.freeSlot core b.nv).isSome
    | none => false

def State.fitSimt (s : State) (a : Ask) (u : Nat) : Option Room :=
  if s.spawnFits u || s.subsFree u < a.subs.getD 0 0 then none
  else match s.warpSlots u a.nv a.threads, firstFit (s.usedScratch u) 128 262144 (a.sp + 256 * a.spill) with
    | some l, some o => some { unit := u, slots := l, spBase := o, accBase := 0 }
    | _, _ => none

/-- Free tile cores of a group, by the key of their AS. -/
def State.freeCores (s : State) (g : Nat) : List Nat :=
  ((List.range 4).filter fun m => s.tileOn (4 * g + m)).filterMap fun m =>
    let t := 4096 + 2 * (4 * g + m)
    if s.slotFree t && s.slotFree (t + 1) then some t else none

/-- A resident block of a course's groups. -/
def State.courseBlocks (s : State) (g : Nat) : List (Nat × Block) := (List.range 4).flatMap fun i => s.onUnit true (g / 4 * 4 + i)

def State.fitTile (s : State) (a : Ask) (g : Nat) : Option Room :=
  let here := s.onUnit true g
  let course := s.courseBlocks g
  let cores := s.freeCores g
  if course.any (·.2.span) || (a.span && (!course.isEmpty || (List.range 4).any fun i => !(s.viGroups a.vi).contains (g / 4 * 4 + i))) then none
  else if cores.length < a.threads ||
      (((cores.take a.threads).zip a.subs).any fun e => s.subsFree (coreOf e.1) < e.2) || (a.sp != 0 && here.any fun e => e.2.spSize != 0) then none
  else match firstFit ((here.filter fun e => e.2.accRows != 0).map fun e => (e.2.accBase, e.2.accRows)) 1 256 a.rows with
    | some r => some { unit := g, slots := cores.take a.threads, spBase := 0, accBase := r }
    | none => none

/-- A unit of the interface that no handover is about to take away, that is powered, runs and is not under restart (R299, R488, R503, R507,
R510). -/
def State.usable (s : State) (tile : Bool) (u : Nat) : Bool :=
  !(s.handover.any fun p => p.2.1 == (if tile then 64 + u else u)) && !s.coreClosed (if tile then 64 + 4 * u else u)

/-- The course of a unit, with its die: the sheaf table is the course's (R11, R20, R43). -/
def unitCourse (tile : Bool) (u : Nat) : Nat × Bool :=
  let c := if tile then 64 + u else u
  (clusterCourse c, clusterWest c)

/-- Sheaves a block declares, each of them an entry of its course's table: a member mask that R430 lets in names some warp (R431). -/
def declaredSheaves (masks : List W16) : Nat := (masks.filter (· != 0)).length

/-- Entries of the sheaf table of a unit's course that resident blocks hold (R431). -/
def State.sheavesUsed (s : State) (tile : Bool) (u : Nat) : Nat :=
  (s.blocks.map fun e => match e.2 with
    | some b => if (b.phase == .resident || b.phase == .saving) && unitCourse b.tile b.unit == unitCourse tile u then
        declaredSheaves (b.sheaves.map (·.members)) else 0
    | none => 0).sum

/-- The room a block finds on one unit. -/
def State.fitOn (s : State) (a : Ask) (u : Nat) : Option Room :=
  if 256 < s.sheavesUsed a.tile u + a.sheaves then none
  else if !s.usable a.tile u || (a.span && !(List.range 4).all fun i => s.usable true (u / 4 * 4 + i)) then none else if a.tile then s.fitTile a u else s.fitSimt a u

def State.unitsOf (s : State) (a : Ask) : List Nat := if a.tile then s.viGroups a.vi else s.viCores a.vi

/-- Whether a block may not go to a unit: the core or tile group it left, or the course of a span. -/
def Ask.leaves (a : Ask) (u : Nat) : Bool := if a.span then a.avoid.any fun o => o / 4 == u / 4 else a.avoid == some u

/-- The first unit with room (R365). -/
def State.fit (s : State) (a : Ask) : Option Room := ((s.unitsOf a).filter fun u => !a.leaves u).findSome? (s.fitOn a)

/-! ## Ready queues (R364) -/

/-- Whether a job ranks before another, with their cards. -/
def ranksBefore (a b : Nat × Job) : Bool :=
  let dl (j : Job) : Nat := if j.absDl = 0 then 2 ^ 64 else j.absDl.toNat
  a.2.level < b.2.level || (a.2.level == b.2.level &&
    (dl a.2 < dl b.2 || (dl a.2 == dl b.2 && a.1 < b.1)))

/-- Jobs of a kind that have a block to place, in rank order. -/
def State.ready (s : State) (tile : Bool) : List (Nat × Job) :=
  let js := s.jobs.filterMap fun e => match e.2 with
    | some j => if j.tile == tile && j.ending = .none && (!j.walked || (s.blocksOf e.1).any fun x => x.2.phase == .saved || x.2.phase == .relaunch) then
        some (e.1, j) else none
    | none => none
  sortBy (fun a b => ranksBefore a b || a == b) js

/-- The next block of a job: one that awaits restore or relaunch, the lowest ordinal first, or none for the next iteration. -/
def State.nextBlock_ (s : State) (card : Nat) : Option (Nat × Block) :=
  ((s.blocksOf card).filter fun e => e.2.phase == .saved || e.2.phase == .relaunch).foldl (fun (b : Option (Nat × Block)) e =>
    match b with
    | some x => if e.2.ord < x.2.ord then some e else b
    | none => some e) none

/-- Threads of a saved block that remain, in area order. -/
def Block.areas (b : Block) : List Nat := (b.thr.filter (20000 ≤ ·)) ++ b.spawned

/-- The unit under which a saved block's subscription entries stand. -/
def savedUnit (b : Nat) : Nat := 200 + b

/-- Subscription entries that a saved block brings back, for each of its cores. -/
def State.savedSubs (s : State) (b : Nat) (x : Block) : List Nat :=
  let n (i : Nat) : Nat := ((List.range 16).filter fun e => (s.subs.get none ((savedUnit b * 4 + i) * 16 + e)).isSome).length
  if !x.tile then [n 0]
  else
    let l := (x.thr.filter (20000 ≤ ·)).map fun t => (t - (20064 + 128 * b)) / 2
    match l with
    | [] => []
    | i :: r => (n i + (((List.range 4).filter fun j => !l.contains j).map n).sum) :: r.map n

/-- What the next block of a job asks for. -/
def State.askOf (s : State) (card : Nat) (j : Job) : Ask :=
  let n := j.nest
  match s.nextBlock_ card with
  | some (k, b) =>
    { tile := b.tile, span := b.span, vi := j.vi, nv := b.nv
      threads := if b.phase = .relaunch then n.threads else b.areas.length
      spill := n.threads, sp := b.spSize, rows := b.accRows, sheaves := declaredSheaves (b.sheaves.map (·.members))
      subs := if b.phase = .relaunch then [] else s.savedSubs k b, avoid := if b.phase = .relaunch then some b.unit else none }
  | none => { tile := j.tile, span := n.span, vi := j.vi, nv := n.nv, threads := n.threads, spill := n.threads, sp := n.sp, rows := n.accRows,
              sheaves := declaredSheaves (n.sheaves.map (·.1)), subs := [], avoid := none }

/-- The first job in rank order whose next block fits, with its room. -/
def State.nextPlaced (s : State) (tile : Bool) : Option (Nat × Job × Room) :=
  (s.ready tile).findSome? fun e => (s.fit (s.askOf e.1 e.2)).map fun r => (e.1, e.2, r)

/-! ## A block at its start (R32, R33, R126, R381, R434) -/

/-- The LFSR of warp or tile thread w (R33). -/
def lfsrStart (seed : W16) (ord w : Nat) : W16 :=
  let x := seed ^^^ BitVec.ofNat 16 (ord % 4096 * 16) ^^^ BitVec.ofNat 16 w
  if x = 0 then 0xACE1 else x

/-- SHSEL at the start of warp or tile thread w: the lowest-numbered sheaf of which it is a member, or none (R201). What its SHEAF bits hold while it
is none the manual leaves open: zero here (DESIGN CHOICE, log entry 61). -/
def startSheaf (sheaves : List (W16 × Nat)) (w : Nat) : BitVec 5 :=
  match sheaves.findIdx? fun e => e.1.getLsbD w with
  | some n => BitVec.ofNat 5 n
  | none => 0x10

/-- What a thread of a job holds at its start. -/
def startOf (j : Job) (d : Desc) (b : Nat) (kind : TKind) (w sched : Nat) (pc : Addr) (idx : List W64) (ord : Nat) (r : Room) (now : Nat) :
    Thread :=
  let th := startThread kind b w sched j.vi j.ctx d.priv (if kind == .simt then j.nest.nv else 0) pc
  let s0 := (List.range 4).foldl (fun (m : Tbl W64) i => Tbl.set 0 m (i + 1) (idx.getD i 0)) []
  let s0 := Tbl.set 0 (Tbl.set 0 (Tbl.set 0 s0 5 (BitVec.ofNat 64 ord)) 6 j.args) 7 (BitVec.ofNat 64 w)
  let rows := j.nest.accRows
  let xs := kind == .xs
  { th with
    s := s0, lfsr := lfsrStart j.seed ord w, cbase := j.cbase, ccopy := true, permit := j.permit
    shreg := startSheaf j.nest.sheaves w
    trap := { th.trap with vec := d.xvec }
    abase := if !xs then 0 else if rows = 0 then 1 else r.accBase
    alim := if !xs || rows = 0 then 0 else r.accBase + rows - 1
    wbase := if !xs then 0 else if rows = 0 then 1 else r.accBase
    wlim := if !xs || rows = 0 then 0 else r.accBase + rows - 1
    ckptTime := now }

/-- A block joins the barriers of its record and card; in an episode that has begun it counts from the next (R434, R464). -/
def State.joinBars (s : State) (b : Nat) (jobs : Bool) : State :=
  match s.block? b with
  | none => s
  | some x =>
    let s := x.thr.foldl (fun s t => (List.range 8).foldl (fun s n =>
      let y := s.coreBars.get freshBar (coreOf t * 8 + n)
      if x.cbar.getLsbD n && y.begun && t != goneKey then s.setBarrier .cor (coreOf t) n { y with late := t :: y.late } else s) s) s
    if !jobs then s
    else (List.range 4).foldl (fun s n =>
      let y := s.jobBars.get freshBar (x.vi * 4 + n)
      let begun := (s.jobMembers x.vi n).any fun e => e.1 != b && (s.remaining e.2).any fun th => th.hasArv .job n y.episode
      if x.jbar.getLsbD n && begun then s.setBarrier .job x.vi n { y with late := b :: y.late } else s) s

/-- Notices that waited for a block go to the first one placed or restored (R381). -/
def State.giveNotices (s : State) (card b : Nat) : State :=
  match s.job? card, s.block? b with
  | some j, some x =>
    if j.notices.isEmpty then s
    else (j.notices.foldl (fun s c => s.postAsync x.first c (BitVec.ofNat 64 card) 0) s).mapJob card fun j => { j with notices := [] }
  | _, _ => s

/-- The region of a block that is placed reads zero (R235). -/
def State.clearRegion (s : State) (x : Block) : State :=
  if x.tile then
    let gs := if x.span then (List.range 4).map fun i => x.unit / 4 * 4 + i else [x.unit]
    -- the bytes that change, bank group by bank group: a multiply that still reads one of them ends (R354)
    let s := gs.foldl (fun s g => (List.range 4).foldl (fun s b =>
      if x.spBase < (b + 1) * 1572864 && b * 1572864 < x.spBase + x.spSize then
        s.bankWrite g (b * 1572864) ((s.gscratch.filter fun e =>
          e.1 / 8388608 == g && x.spBase ≤ e.1 % 8388608 && e.1 % 8388608 < x.spBase + x.spSize && e.1 % 8388608 / 1572864 == b).map fun e =>
            (.group g (e.1 % 8388608), 0))
      else s) s) s
    let s := { s with regErr := s.regErr.filter fun e => match e with
      | .group g n => !(gs.contains g && x.spBase ≤ 64 * n && 64 * n < x.spBase + x.spSize)
      | _ => true }
    { s with gscratch := s.gscratch.filter fun e => !(gs.contains (e.1 / 8388608) && x.spBase ≤ e.1 % 8388608 && e.1 % 8388608 < x.spBase + x.spSize) }
  else
    let s := { s with regErr := s.regErr.filter fun e => match e with
      | .core u n => !(u == x.unit && x.spBase ≤ 4 * n && 4 * n < x.spBase + x.spSize)
      | _ => true }
    { s with scratch := s.scratch.filter fun e => !(e.1 / 262144 = x.unit && x.spBase ≤ e.1 % 262144 && e.1 % 262144 < x.spBase + x.spSize) }

/-- The semaphores of a core at value 0 and ceiling 255 (R456). A word of a stream that drains after its block keeps its place among the takes. -/
def State.resetSems (s : State) (u : Nat) : State :=
  (List.range 16).foldl (fun s n => s.setSem (semKey u n) { freshSem with takes := (s.sem (semKey u n)).takes }) s

/-- A SIMT core that holds no resident block. -/
def State.emptyCore (s : State) (u : Nat) : Bool := !s.blocks.any fun e => match e.2 with
  | some b => !b.tile && b.unit == u && (b.phase == .resident || b.phase == .saving)
  | none => false

/-- Puts the threads of block b, at ordinal ord with indices idx, into their slots. -/
def State.startBlock (s : State) (card b : Nat) (j : Job) (r : Room) (ord : Nat) (idx : List W64) (relaunches : Nat) : State :=
  let n := j.nest
  let (s, d) := match s.rawDesc j.vi j.ctx with
    | (s, .ok d) => (s, d)
    | (s, _) => (s, { priv := false, rwalk := false, root := 0, htab := 0, xvec := 0, saveBase := 0, slots := 0, splBase := 0, splCount := 0,
                      splNext := 0 })
  let put (s : State) (t : Nat) (kind : TKind) (w : Nat) (pc : Addr) : State :=
    -- what was performed before the release is visible to it (R359)
    s.setThread t { startOf j d b kind w (t % 64 / 16) pc idx ord r s.time.toNat with acq := acqNow s.clock }
  let s := if j.tile then r.slots.foldl (fun s t => s.resetSems (coreOf t)) s else if s.emptyCore r.unit then s.resetSems r.unit else s
  let s := (r.slots.zip (List.range r.slots.length)).foldl (fun s e =>
    if j.tile then put (put s e.1 .as e.2 n.entry) (e.1 + 1) .xs e.2 n.xentry else put s e.1 .simt e.2 n.entry) s
  let x : Block :=
    { card := card, vi := j.vi, ctx := j.ctx, tile := j.tile, unit := r.unit, ord := ord, idx := idx, phase := .resident, thr := r.slots,
      spawned := [], spawnCount := 0, nv := n.nv, k := [], sheaves := n.sheaves.map fun e => { members := e.1, xb := e.2, h := [] },
      spBase := r.spBase, spSize := n.sp, cont := j.cont, idem := j.idem, sbuf := [], committed := false, bars := [], cbar := n.cbar,
      jbar := j.jbar, accBase := r.accBase, accRows := n.accRows, span := n.span, relaunches := relaunches, placedAt := s.clock, slot := none,
      savedSpawn := [], prey := none }
  (((s.setBlock b x).clearRegion x).joinBars b true).giveNotices card b

/-- The walker's next iteration becomes a block. -/
def State.placeIteration (s : State) (card : Nat) (j : Job) (r : Room) : State :=
  match j.iteration with
  | none => s
  | some (pos, idx) =>
    let b := s.nextBlock
    let j' := { j with step := pos + 1, next := j.next + 1 }
    let s := ({ s with nextBlock := b + 1 } : State).mapJob card fun _ => { j' with walked := j'.iteration.isNone }
    s.startBlock card b j r j.next idx 0

/-! ## Pre-emption (R366, R373) -/

/-- The state as it would be without some blocks, for a question of room. -/
def State.without (s : State) (bs : List Nat) : State :=
  { s with threads := s.threads.filter (fun e => match e.2 with | some th => !bs.contains th.block | none => true)
           blocks := s.blocks.filter fun e => !bs.contains e.1
           subs := s.subs.filter fun e => match e.2 with | some x => !bs.contains x.block | none => false }

/-- Victims of lower levels in order: the lowest-ranked first, ties going to the latest placed. -/
def State.victims (s : State) (tile : Bool) (level : Nat) : List (Nat × Block) :=
  let l := s.blocks.filterMap fun e => match e.2 with
    | some b =>
      if b.tile == tile && b.phase == .resident then
        match s.job? b.card with
        | some j => if level < j.level then some (e.1, b, j) else none
        | none => none
      else none
    | none => none
  let before (a b : Nat × Block × Job) : Bool :=
    if a.2.1.card = b.2.1.card then b.2.1.placedAt ≤ a.2.1.placedAt else ranksBefore (b.2.1.card, b.2.2) (a.2.1.card, a.2.2)
  (sortBy before l).map fun e => (e.1, e.2.1)

/-- Slots of a context that no block has claimed. -/
def State.freeSlots (s : State) (vi ctx : Nat) (d : Desc) : List Nat :=
  (List.range d.slots).filter fun n => !s.blocks.any fun e => match e.2 with
    | some b => b.vi == vi && b.ctx == ctx && b.slot == some n
    | none => false

/-- Claims a save slot for a victim. -/
def State.claim (s : State) (b : Nat) (x : Block) (prey : Nat) : Option State :=
  match s.rawDesc x.vi x.ctx with
  | (s, .ok d) =>
    match s.freeSlots x.vi x.ctx d with
    | n :: _ => some (s.setBlock b { x with phase := .saving, slot := some n, slotBase := d.saveBase, prey := some prey })
    | [] => none
  | _ => none

/-- Claims victims on one unit until the waiting block would fit there. -/
def State.claimUntil (s : State) (a : Ask) (u prey : Nat) : List (Nat × Block) → List Nat → Option State
  | [], _ => none
  | (b, x) :: rest, taken =>
    match s.claim b x prey with
    | none => s.claimUntil a u prey rest taken
    | some s' =>
      let taken := b :: taken
      if ((s'.without taken).fitOn a u).isSome then some s' else s'.claimUntil a u prey rest taken

/-- Units that victims lie on, in the victims' order; a span's room is its whole course. -/
def unitsInOrder (a : Ask) (vs : List (Nat × Block)) : List Nat := (vs.map fun e => if a.span then e.2.unit / 4 * 4 else e.2.unit).eraseDups

/-- Pre-empts for the highest-ranked job whose next block fits nowhere. -/
def State.preempt (s : State) (tile : Bool) : Option State :=
  match (s.ready tile).find? fun e => (s.fit (s.askOf e.1 e.2)).isNone with
  | none => none
  | some (card, j) =>
    if s.blocks.any fun e => match e.2 with | some b => b.phase == .saving && b.prey == some card | none => false then none
    else
      let a := s.askOf card j
      let vs := s.victims tile j.level
      (unitsInOrder a vs).findSome? fun u =>
        if !(s.unitsOf a).contains u || a.leaves u then none
        else s.claimUntil a u card (vs.filter fun e => if a.span then e.2.unit / 4 == u / 4 else e.2.unit == u) []

/-- One evaluation of placement: the next block that has room, unless that is one to restore; else a pre-emption. -/
def execBlockPlacement (tile : Bool) (s : State) : Out :=
  match s.nextPlaced tile with
  | some (card, j, r) =>
    match s.nextBlock_ card with
    | none => .next (s.placeIteration card j r)
    | some (b, x) => if x.phase = .relaunch then .next (s.startBlock card b j r x.ord x.idx (x.relaunches + 1)) else .refused .notEnabled
  | none =>
    match s.preempt tile with
    | some s => .next s
    | none => .refused .notEnabled

end Sys2Proof.Machine
end

