-- ==== Sys2Proof/Machine/Save.lean ====
section
/-! DEFINITION. Saving and restoring blocks, save images, and the application of subscription updates, to a core or to an image
(R80, R126, R200, R276, R304, R371-R375, R449, R450). -/

namespace Sys2Proof.Machine

/-- A byte of a block's region at its core. -/
def regionPlace (b : Block) (o : Nat) : Place := if b.tile then .group b.unit (b.spBase + o) else .core b.unit (b.spBase + o)

/-! ## Threads under new numbers -/

/-- A number under a renaming. -/
def renamed (r : List (Nat × Nat)) (t : Nat) : Nat := ((r.find? (·.1 == t)).map (·.2)).getD t

/-- Everything that names a thread of a block names it by its new number: threads, streams, the block, its spawn requests and
service entries. -/
def State.rename (s : State) (b : Nat) (r : List (Nat × Nat)) : State :=
  let f := renamed r
  let weirReq : WeirReq → WeirReq
    | .pend t id => .pend (f t) id
    | .launch k n => .launch (streamKey (f (k / 8)) (k % 8)) n
    | .red t => .red (f t)
    | .fetch t => .fetch (f t)
  let old (t : Nat) : Bool := r.any (·.1 == t)
  let th (x : Thread) : Thread :=
    { x with
      parent := x.parent.map fun p => (f p.1, p.2)
      windows := x.windows.map fun w => { w with owner := f w.owner }
      susp := x.susp.map f
      red := x.red.map fun e => { e with mem := e.mem.map f }
      inTrap := x.inTrap.map fun i => { i with members := i.members.map f }
      yields := [] }
  let other (x : Thread) : Thread := { x with yields := x.yields.map fun y => (y.1, y.2.filter fun t => !old t) }
  let moved : List (Nat × Option Thread) := s.threads.filterMap fun (e : Nat × Option Thread) => if old (Prod.fst e) then some (f (Prod.fst e), (Prod.snd e).map th) else none
  let stay : Tbl (Option Thread) := (s.threads.filter fun (e : Nat × Option Thread) => !old e.1).map fun (e : Nat × Option Thread) => (e.1, e.2.map other)
  let st (x : Stream) : Stream :=
    { x with
      buf := x.buf.map fun w => (w.1, w.2.1, w.2.2.map f)
      run := x.run.map fun l => { l with members := l.members.map f, ident := { l.ident with who := f l.ident.who } }
      ident := x.ident.map fun i => { i with who := f i.who } }
  let mine : List (Nat × Stream) := (s.streams.filter fun e => old (e.1 / 8)).map fun e => (streamKey (f (e.1 / 8)) (e.1 % 8), st e.2)
  let reg (l : RegLoc) : RegLoc := match l with
    | .v t n => .v (f t) n
    | .s t n => .s (f t) n
    | .p t n => .p (f t) n
    | .t t n => .t (f t) n
    | l => l
  let err (e : ErrLoc) : ErrLoc := match e with
    | .reg l => .reg (reg l)
    | .status t n => .status (f t) n
    | .tseg t n => .tseg (f t) n
    | e => e
  let s := { s with
    regErr := s.regErr.map err
    ridgeWaits := s.ridgeWaits.map fun (e : RidgeWait) => { e with ups := e.ups.map (fun (u : Nat × Nat) => (streamKey (f (u.1 / 8)) (u.1 % 8), u.2)), ms := e.ms.map f }
    weirQ := s.weirQ.map fun (e : Nat × WeirReq) => (e.1, weirReq e.2)
    threads := moved.foldl (fun (m : Tbl (Option Thread)) (e : Nat × Option Thread) => Tbl.insert m e.1 e.2) stay
    streams := mine.foldl (fun (m : Tbl Stream) (e : Nat × Stream) => Tbl.insert m e.1 e.2) (s.streams.filter fun (e : Nat × Stream) => !old (e.1 / 8))
    svcOut := s.svcOut.map fun (e : Nat × Option Nat) => (e.1, e.2.map f) }
  s.mapBlock b fun x =>
    { x with
      thr := x.thr.map f
      spawned := x.spawned.map f
      savedSpawn := x.savedSpawn.map fun q => { q with parent := f q.parent }
      bars := x.bars.map fun (e : Nat × Barrier) => (Prod.fst e, { Prod.snd e with late := (Prod.snd e).late.map f }) }

/-- Changes every thread of a block. -/
def State.mapBlockThreads (s : State) (b : Nat) (f : Thread → Thread) : State :=
  s.mapThreads fun _ th => if th.block = b then f th else th

/-! ## Subscription entries of a block that moves (R450) -/

/-- Entries of a block on unit u, by number. -/
def State.entriesOf (s : State) (u b : Nat) : List Nat := (List.range 16).filter fun e => match s.subs.get none (u * 16 + e) with
  | some x => x.block == b
  | none => false

/-- Moves one entry to another key, its region by `shift` bytes; whoever names it follows. -/
def State.moveSub (s : State) (from_ dst : Nat) (shift : Int) : State :=
  match s.subs.get none from_ with
  | none => s
  | some x =>
    let pt (p : Nat × Nat) : Nat × Nat := if p.1 * 16 + p.2 = from_ then (dst / 16, dst % 16) else p
    let key (k : Nat) : Nat := if k = from_ then dst else k
    let x := { x with base := ((x.base : Int) + shift).toNat }
    let subs := (((s.subs.erase from_).map fun e => (e.1, e.2.map fun y =>
      { y with peers := y.peers.map pt, batch := y.batch.map fun (l : BatchLine) => { l with skip := l.skip.map key } })) : Tbl (Option SubEntry))
    { s with
      subs := Tbl.insert subs dst (some { x with peers := x.peers.map pt })
      batches := s.batches.map fun m =>
        let m := if m.src * 16 + m.srcEntry = from_ then { m with src := dst / 16, srcEntry := dst % 16 } else m
        if m.dst * 16 + m.dstEntry = from_ then { m with dst := dst / 16, dstEntry := dst % 16 } else m }

/-- The cores whose tables hold a block's entries, each with the index of the tile thread on it; the cores that threads have left take the
indices of those threads. -/
def subUnits (x : Block) : List (Nat × Nat) :=
  if !x.tile then [(x.unit, 0)]
  else
    let here := ((x.thr.zip (List.range 4)).filter (·.1 != goneKey)).map fun e => (coreOf e.1, e.2)
    let cores := ((List.range 4).map fun m => 64 + 4 * x.unit + m).filter fun u => !here.any (·.1 == u)
    here ++ cores.zip ((List.range 4).filter fun i => !here.any (·.2 == i))

/-- The entries of a block that is saved: at most 16 for each core, all under its own unit by thread index, 16 entries to a core. -/
def State.parkSubs (s : State) (b : Nat) (x : Block) : State :=
  (subUnits x).foldl (fun s u =>
    (s.entriesOf u.1 b).foldl (fun s e => s.moveSub (u.1 * 16 + e) ((savedUnit b * 4 + u.2) * 16 + e) 0) s) s

/-- Updates written to a saved block's image of which the acknowledgement is under way. -/
def State.unacked (s : State) (b : Nat) : Bool := s.batches.any fun m => m.acked.isSome && match s.subs.get none (m.dst * 16 + m.dstEntry) with
  | some x => x.block == b
  | none => false

/-- Their new keys on the cores of a room: the number they had if it is free there, else the lowest free one; `none` where a table
is too full, or an entry written to the image is not acknowledged. -/
def State.unparkSubs (s : State) (b : Nat) (us : List (Nat × Nat)) (shift : Int) : Option State :=
  if s.unacked b then none
  else us.foldl (fun (o : Option State) u =>
    (List.range 16).foldl (fun (o : Option State) e =>
      o.bind fun s =>
        let from_ := (savedUnit b * 4 + u.2) * 16 + e
        if (s.subs.get none from_).isNone then some s
        else
          let free := s.freeEntries u.1
          if free.contains e then some (s.moveSub from_ (u.1 * 16 + e) shift)
          else match free with
            | n :: _ => some (s.moveSub from_ (u.1 * 16 + n) shift)
            | [] => none) o) (some s)

/-! ## What a save waits for -/

/-- Nothing of a thread is in flight: its results land before the save (R80). A launch that has started runs on (R304). -/
def State.saveQuiet (s : State) (t : Nat) : Bool := (s.pendsOf t).isEmpty

/-- Nothing that the block's publications have sent is still to be applied, and no copy of one is still to be read (R445, R450). -/
def State.sentApplied (s : State) (b : Nat) : Bool :=
  let ours (p : Nat × Nat) : Bool := match s.subs.get none (p.1 * 16 + p.2) with
    | some x => x.pub && x.block == b
    | none => false
  !(s.batches.any fun m => m.acked.isNone && ours (m.src, m.srcEntry)) &&
  !s.subs.any fun e => match e.2 with
    | some y => y.copying && y.peers.any ours
    | none => false

/-- A publisher flushes as its save begins: whether anything is left to send. -/
def State.pubKeys (s : State) (b : Nat) : List Nat :=
  s.subs.filterMap fun e => match e.2 with
    | some x => if x.block = b && x.pub then some e.1 else none
    | none => none

/-- What every save does to a thread: fixed-latency results have landed, reservations fall, and what it holds of a core
barrier ends (R276, R371, R434). -/
def Thread.stopFor (th : Thread) (area : Bool) : Thread :=
  { th with
    haz := [], ffHaz := [], fflags := th.allFlags, wild := [], walkM := [], resv := none, yields := [], saved := true, v := if area then [] else th.v
    arvd := th.arvd.filter fun e => e.1 != .cor
    barAt := match th.barAt with
      | some w => if w.kind = .cor then none else some w
      | none => none }

/-- The takes of a block's threads and streams leave their semaphores. A path whose take has been served keeps that it was: only a take
that waits is withdrawn (R460). -/
def State.dropAllTakes (s : State) (ts : List Nat) : State :=
  let s := ts.foldl (fun s t => s.mapThread t fun th =>
    { th with takes := th.takes.filter fun r => !(s.sem r.sem).takes.any (·.ticket == r.ticket) }) s
  let s := s.withdrawTakes fun k => if k.stream then k.who < 40000 && ts.contains (k.who / 8) else ts.contains k.who
  ts.foldl (fun s t => (List.range 6).foldl (fun s q => s.mapStream (streamKey t q) fun x => { x with waiting := none }) s) s

/-- Bytes of t's v-registers. -/
def Thread.vBytes (th : Thread) : List Byte :=
  (List.range th.nv).flatMap fun r => (List.range 32).flatMap fun l => toBytes (th.vreg r l).toNat 4

/-- The region of a block goes to its image. -/
def State.writeRegion (s : State) (base slot : Nat) (id : W16) (x : Block) : State :=
  s.writePhys (slotAddr base slot (regionArea x.tile)) ((List.range x.spSize).map fun o => s.homeByte (regionPlace x o)) id

/-- A save reads the registers, the live t-registers and rows and the region of the block, and meets their errors: the block ends (R294). -/
def State.saveMeet (s : State) (blk : Nat) (x : Block) (ts : List Nat) : Option State :=
  if s.regErr.isEmpty then none
  else
    let live (t : Nat) : BitVec 8 × W32 × Nat := ((s.thread? t).bind (·.ckpt)).getD (0, 0, 0)
    let hit (e : ErrLoc) : Bool := match e with
      | .reg l => l.ofBlock blk || ts.any l.ofThread
      | .status t _ => ts.contains t
      | .tseg t n => ts.contains t && hasLane (live (asOf t + 1)).2.1 (n / 64)
      | .acc a n => x.tile && ts.any fun t => t % 2 == 1 && s.arrayAt t == a && (s.windowOf t).1 ≤ n / 32 && n / 32 < (s.windowOf t).1 + (live t).2.2
      | .core u n => s.regionOwner (.core u (4 * n)) == some blk
      | .group g n => s.regionOwner (.group g (64 * n)) == some blk
    (s.regErr.find? hit).map fun e => match e with
      | .core u n => s.loseSram (.core u (4 * n))
      | .group g n => s.loseSram (.group g (64 * n))
      | e => s.loseBlock blk Block.again 0x29 (BitVec.ofNat 64 e.number)

/-! ## SIMT blocks (R371) -/

/-- The save of a SIMT victim, once its results have landed, its launches are done and its updates are applied. -/
def execSimtBlockSave (blk : Nat) (s : State) : Out :=
  match s.block? blk with
  | none => .refused .notEnabled
  | some x =>
    let ts := x.thr.filter (· != goneKey) ++ x.spawned
    if x.tile || x.phase != .saving || !ts.all s.saveQuiet then .refused .notEnabled
    else if (s.pubKeys blk).any fun k => match s.subs.get none k with | some y => !y.batch.isEmpty | none => false then
      .next ((s.sendAll (s.pubKeys blk)).1)
    else if !s.sentApplied blk then .refused .notEnabled
    else if (s.saveMeet blk x ts).isSome then .next ((s.saveMeet blk x ts).getD s)
    else
      match x.slot with
      | some slot =>
        let base := x.slotBase
        let id := identity x.vi x.ctx
        let s := x.cores.foldl State.l1Flush (s.dropAllTakes ts)
        -- dispatched warp w has area w, spawned warps follow from 16
        let named : List (Nat × Nat) := (x.thr.zip (List.range x.thr.length)).filter (·.1 != goneKey) ++ x.spawned.zip ((List.range x.spawned.length).map (16 + ·))
        let q := (s.spawnq.get [] x.unit).filter fun r => r.block == blk
        let s := s.writeHeader base slot id x named q
        let s := named.foldl (fun (s : State) (e : Nat × Nat) => match s.thread? e.1 with
          | some th => (s.writeArea base slot id e.2 e.1 x th).writePhys (slotAddr base slot (vArea e.2)) th.vBytes id
          | none => s) s
        let s := s.writeRegion base slot id x
        let s := s.mapBlockThreads blk fun th => th.stopFor true
        let s := { s with
          spawnq := s.spawnq.set [] x.unit ((s.spawnq.get [] x.unit).filter fun r => r.block != blk)
          coreBars := s.coreBars.map fun (e : Nat × Barrier) => (e.1, { e.2 with late := e.2.late.filter fun t => !ts.contains t }) }
        let s := s.parkSubs blk x
        let s := s.mapBlock blk fun y => { y with phase := .saved, savedSpawn := q, prey := none }
        .next (s.rename blk (named.map fun (e : Nat × Nat) => (e.1, 20000 + 128 * blk + e.2)))
      | none => .refused .notEnabled

/-! ## Tile blocks (R200, R372) -/

/-- The save of a tile victim, once every thread of it has met its checkpoint. -/
def execTileBlockSave (blk : Nat) (s : State) : Out :=
  match s.block? blk with
  | none => .refused .notEnabled
  | some x =>
    let named : List (Nat × Nat) := (x.thr.zip (List.range x.thr.length)).filter (·.1 != goneKey)
    let ts := named.flatMap fun (e : Nat × Nat) => [e.1, e.1 + 1]
    let met := ts.all fun t => match s.thread? t with | some th => th.saved | none => false
    if !x.tile || x.phase != .saving || !met || !ts.all s.saveQuiet then .refused .notEnabled
    else if (s.pubKeys blk).any fun k => match s.subs.get none k with | some y => !y.batch.isEmpty | none => false then
      .next ((s.sendAll (s.pubKeys blk)).1)
    else if !s.sentApplied blk then .refused .notEnabled
    else if (s.saveMeet blk x ts).isSome then .next ((s.saveMeet blk x ts).getD s)
    else
      match x.slot with
      | some slot =>
        let base := x.slotBase
        let id := identity x.vi x.ctx
        let s := s.dropAllTakes ts
        let s := s.writeHeader base slot id x (named.flatMap fun (e : Nat × Nat) => [(e.1, 2 * e.2), (e.1 + 1, 2 * e.2 + 1)]) []
        let s := ts.foldl State.imageStreams s
        let s := s.writeRegion base slot id x
        let s := s.mapBlockThreads blk fun th => th.stopFor false
        let s := { s with coreBars := s.coreBars.map fun (e : Nat × Barrier) => (e.1, { e.2 with late := e.2.late.filter fun t => !ts.contains t }) }
        -- the semaphores of a tile core go with its thread (R374)
        let s := named.foldl (fun (s : State) (e : Nat × Nat) =>
          let sems := (List.range 16).map fun n => s.sem (semKey (coreOf e.1) n)
          let s := s.writeWordsAt (slotAddr base slot (areaStart (2 * e.2 + 1) + 8 * imageLength)) (sems.map Sem.word) id
          (List.range 16).foldl (fun s n => s.setSem (semKey (coreOf e.1) n) { freshSem with takes := (s.sem (semKey (coreOf e.1) n)).takes }) s) s
        let s := s.parkSubs blk x
        let s := s.mapBlock blk fun y => { y with phase := .saved, prey := none }
        .next (s.rename blk (named.flatMap fun (e : Nat × Nat) =>
          [(e.1, 20064 + 128 * blk + 2 * e.2), (e.1 + 1, 20065 + 128 * blk + 2 * e.2)]))
      | none => .refused .notEnabled

/-! ## Restore (R371, R372, R375) -/

/-- A block whose image has been spoilt ends as KILLED; the manual names no XCAUSE, so XCAUSE and XVAL are free (R375). -/
def State.badImage (s : State) (blk : Nat) (x : Block) : State :=
  (s.log 0x0433 0xA000 (x.vi * 4096 + x.ctx) (BitVec.ofNat 64 x.card) (BitVec.ofNat 64 x.ord)).killBlock blk (s.free 0x1C000005) (s.free 0x1C000006)

/-- v-registers as the image holds them. -/
def vFrom (nv : Nat) (bs : List Byte) : Tbl W32 :=
  (List.range (32 * nv)).foldl (fun m i => Tbl.set 0 m i (BitVec.ofNat 32 (ofBytes ((bs.drop (4 * i)).take 4)))) []

/-- One thread of a SIMT block as it starts again. -/
def Thread.wake (th : Thread) (sched : Nat) (v : Tbl W32) (now : Nat) : Thread :=
  { th.acquireAll now with saved := false, sched := sched, v := v, ckpt := none }

/-- A tile thread's registers and rows come back: what was not saved is zero, and the window follows its allocation. -/
def State.readTiles (s : State) (img slot m t base rows : Nat) : State :=
  match s.thread? (t + 1) with
  | none => s
  | some th =>
    let (mask, n) := match th.ckpt with
      | some k => (k.2.1, k.2.2)
      | none => (0, 0)
    let treg : Tbl Byte := (lanesOf mask).foldl (fun b r =>
      ((s.readPhys (slotAddr img slot (tArea m + 4096 * r)) 4096).zip (List.range 4096)).foldl (fun b e => Tbl.set 0 b (r * 4096 + e.2) e.1) b) []
    let lo := th.wbase + base - th.abase
    let hi := th.wlim + base - th.abase
    let arr := s.arrayAt t
    let s := if rows = 0 then s else (List.range (hi + 1 - lo)).foldl (fun s r =>
      if r < n then
        let bs := s.readPhys (slotAddr img slot (rowArea m + 2048 * r)) 2048
        (List.range 512).foldl (fun s c => s.setAcc arr (lo + r) c (ofBytes ((bs.drop (4 * c)).take 4))) s
      else (List.range 512).foldl (fun s c => s.setAcc arr (lo + r) c 0) s) s
    s.mapThread (t + 1) fun th =>
      { th with
        treg := treg
        abase := if rows = 0 then 1 else base, alim := if rows = 0 then 0 else base + rows - 1
        wbase := if rows = 0 then th.wbase else lo, wlim := if rows = 0 then th.wlim else hi
        ckptTime := s.time.toNat }

/-- The lease that a restored tile thread held is requested again, for those who held it (R200); one that others of them still hold jointly
is its own again. -/
def State.askLease (s : State) (x : Block) (t : Nat) : State :=
  match s.thread? (t + 1) with
  | none => s
  | some th =>
    if th.leaseBack.isEmpty then s
    else
      let ms := th.leaseBack.filterMap fun i => match x.thr[i]? with
        | some a => if a = goneKey then none else some (a + 1)
        | none => none
      if (s.arraysOf ms).any fun a => (s.group a).holder.any ms.contains then
        ((s.arraysOf ms).foldl (fun s a => s.setGroup a { s.group a with holder := ms }) s).mapThread (t + 1) fun th =>
          { th with leaseBack := [], leaseLeft := 0 }
      else (s.arraysOf ms).foldl (fun s a => s.setGroup a { s.group a with queue := (s.group a).queue ++ [(ms, th.leaseLeft)] }) s

/-- Whether the check word of an image covers its header as it stands (R375). -/
def State.headerOk (s : State) (base slot : Nat) : Bool := (s.wordsAt (slotAddr base slot 0) 1).headD 0 == s.checkWord base slot

/-- Semaphore n of a tile core as the image of thread m holds it. -/
def State.semFrom (s : State) (base slot m n : Nat) : Nat × Nat :=
  let w := ((s.wordsAt (slotAddr base slot (areaStart (2 * m + 1) + 8 * (imageLength + n))) 1).headD 0).toNat
  (bitsOf w 0 8, bitsOf w 8 8)

/-- The restore of a saved block, when it is the block that the dispatcher places next. -/
def execBlockRestore (blk : Nat) (s : State) : Out :=
  match s.block? blk with
  | none => .refused .notEnabled
  | some x =>
    match s.nextPlaced x.tile with
    | none => .refused .notEnabled
    | some (card, _, r) =>
      if x.phase != .saved || (s.nextBlock_ card).map (·.1) != some blk then .refused .notEnabled
      else
        match s.rawDesc x.vi x.ctx, x.slot with
        | (s, .ok d), some slot =>
          let base := d.saveBase
          if !s.headerOk base slot then .next (s.badImage blk x)
          else
            let shift : Int := (r.spBase : Int) - x.spBase
            -- saved number, area, new number
            let places : List (Nat × Nat × Nat) :=
              if x.tile then
                ((x.thr.filter (· != goneKey)).zip r.slots).map fun e => (e.1, (e.1 - (20064 + 128 * blk)) / 2, e.2)
              else (x.areas.zip r.slots).map fun e => (e.1, e.1 - (20000 + 128 * blk), e.2)
            -- the entries of threads that have exited go to the core of the first that remains
            let us := if x.tile then places.map (fun p => (coreOf p.2.2, p.2.1)) ++
                (((List.range 4).filter fun i => !places.any (·.2.1 == i)).flatMap fun i => (places.take 1).map fun p => (coreOf p.2.2, i))
              else [(r.unit, 0)]
            match s.unparkSubs blk us shift with
            | none => .refused .notEnabled
            | some s =>
              let s := s.rename blk (if x.tile then places.flatMap fun p => [(p.1, p.2.2), (p.1 + 1, p.2.2 + 1)] else places.map fun p => (p.1, p.2.2))
              let s := if !x.tile && s.emptyCore r.unit then s.resetSems r.unit else s
              let old := x
              let head := s.wordsAt (slotAddr base slot 0) 512
              let s := s.mapBlock blk fun y =>
                { y with phase := .resident, unit := r.unit, spBase := r.spBase, accBase := r.accBase, placedAt := s.clock, slot := none,
                         savedSpawn := [] }
              -- the block and its threads as the image holds them (R375)
              let s := s.mapBlock blk fun y => { y.fromHeader head with savedSpawn := [] }
              let x := (s.block? blk).getD x
              let kept := x.thr.filterMap fun t => if t = goneKey then none else s.thread? (t + 1)
              let s := places.foldl (fun (s : State) p =>
                let back (s : State) (t a : Nat) : State :=
                  -- PRIV and XVEC are read from the descriptor (R425, log entry 55)
                  let ws := s.wordsAt (slotAddr base slot (areaStart a)) 1024
                  let s := s.mapThread t fun th =>
                    let y := (th.fromImage x ws).leaseFrom p.2.1 (kept.any fun k => k.leaseBack.contains p.2.1) (head.getD (leaseStart + p.2.1) 0)
                    { y with priv := d.priv, trap := { y.trap with vec := d.xvec }, rdv := rdvFrom (head.getD (rdvStart + a) 0) }
                  (List.range 6).foldl (fun s q => s.mapStream (streamKey t q) fun z =>
                    z.fromImage fun i => ws.getD (streamStart + 25 * q + i) 0) s
                if x.tile then back (back s p.2.2 (2 * p.2.1)) (p.2.2 + 1) (2 * p.2.1 + 1) else back s p.2.2 p.2.1) s
              -- the region comes back to its new place
              let bs := s.readPhys (slotAddr base slot (regionArea x.tile)) x.spSize
              let s := s.writeRun (identity x.vi x.ctx) true (x.spSize + 1) ((bs.zip (List.range x.spSize)).map fun e => (regionPlace x e.2, e.1))
              let s := places.foldl (fun s p =>
                let now := s.clock
                if x.tile then
                  let s := (s.readTiles base slot p.2.1 p.2.2 r.accBase x.accRows).askLease x p.2.2
                  let s := (List.range 16).foldl (fun s n =>
                    let z := s.semFrom base slot p.2.1 n
                    s.setSem (semKey (coreOf p.2.2) n) { s.sem (semKey (coreOf p.2.2) n) with value := z.1, ceil := z.2 }) s
                  [p.2.2, p.2.2 + 1].foldl (fun s t => s.mapThread t fun th => th.wake 0 [] now) s
                else
                  let v := vFrom x.nv (s.readPhys (slotAddr base slot (vArea p.2.1)) (128 * x.nv))
                  s.mapThread p.2.2 fun th =>
                    { th.wake (p.2.2 % 64 / 16) v now with
                      takes := th.takes.map fun k => { k with sem := semKey (coreOf p.2.2) (k.sem % 16) } }) s
              -- streams go on against the new region; queued spawns go ahead of those in the new core's queue (R394)
              let s := places.foldl (fun s p =>
                [p.2.2, p.2.2 + 1].foldl (fun s t =>
                  if !x.tile && t != p.2.2 then s
                  else (List.range 6).foldl (fun s q => s.mapStream (streamKey t q) fun z =>
                    { z with
                      ident := z.ident.map fun i => { i with spBase := r.spBase, array := arrayOf x t }
                      run := z.run.map fun l => { l with ident := { l.ident with spBase := r.spBase, array := arrayOf x t } } }) s) s) s
              let q : List SpawnReq := (old.fromHeader head).savedSpawn.map fun (q : SpawnReq) =>
                { q with parent := ((places.find? (·.1 == q.parent)).map (·.2.2)).getD q.parent }
              let s := if x.tile then s else { s with spawnq := s.spawnq.set [] r.unit (q ++ s.spawnq.get [] r.unit) }
              .next ((s.joinBars blk false).giveNotices card blk)
        | (s, _), _ => .next (s.badImage blk x)

/-! ## Updates (R449, R450) -/

/-- Writes an entry's bytes for a subscriber: at its core, or in its image. -/
def State.applyEntry (s : State) (key : Nat) (x : SubEntry) (m : BatchMsg) : State :=
  match s.block? x.block with
  | none => s
  | some b =>
    let os := ((List.range 128).filter fun i => m.entry.mask.getLsbD i).map fun i => (x.base + 128 * m.entry.line + i, m.entry.bytes.get 0 i)
    if b.phase = .saved then
      match b.slot with
      | some slot =>
        s.writeRun (identity b.vi b.ctx) true (os.length + 1)
          (os.map fun e => (placeOf (slotAddr b.slotBase slot (regionArea b.tile + (e.1 - b.spBase))), e.2))
      | none => s
    else
      let u := key / 16
      let ps := os.map fun e => (if u < 64 then Place.core u e.1 else .group (groupOf u) e.1, e.2)
      s.writeRun (identity b.vi b.ctx) true (ps.length + 1) ps

/-- An entry of the same pair of cores, or the acknowledgement of one, that left before entry m or its acknowledgement and has not arrived: what rides
one circuit arrives in the order in which it became ready (R439). -/
def BatchMsg.before (e m : BatchMsg) : Bool :=
  !e.lost && e.src == m.src && e.dst == m.dst && e.acked.isSome == m.acked.isSome

/-- Entry n arrives and is applied, or, once it is, its acknowledgement arrives at the publisher. An entry out of sequence breaks the
subscription (R439, R449, R451). -/
def execBatchEntryApply (n : Nat) (s : State) : Out :=
  match s.batches[n]? with
  | none => .refused .notEnabled
  | some m =>
    let key := m.dst * 16 + m.dstEntry
    if m.lost || (s.batches.take n).any (·.before m) then .refused .notEnabled
    else
      let gone := { s with batches := s.batches.eraseIdx n }
      match m.acked with
      | some t => if s.heldBack t then .refused .notEnabled else .next gone
      | none =>
        if s.heldBack m.sent || s.accessAhead m.src m.dst m.at_ then .refused .notEnabled
        else match s.subs.get none key with
          | none => .next gone
          | some x =>
            if x.broken || x.ended then .next (gone.endSub key)
            else if m.copy then .next ((gone.applyEntry key x m).endSub key)
            else if m.seq != x.seqIn then .next (gone.breakSub key)
            else
              let s := { s with batches := s.batches.set n { m with acked := some s.time } }
              .next (((s.applyEntry key x m).mapSub key fun x => { x with seqIn := x.seqIn + 1 }).endSub key)

end Sys2Proof.Machine
end

