-- ==== Sys2Proof/Machine/Jobs.lean ====
section
/-! DEFINITION. What happens to a job between its release and its end: periodic releases, the three exceptions and their policies, and
its completion (R359-R361, R376-R384). -/

namespace Sys2Proof.Machine

/-! ## Releases (R359, R360) -/

/-- A store to the release page of interface v. -/
def execCardDoorbell (v : Nat) (x : W64) (s : State) : Out := .next (s.writeReg (.vi v) (0x40000 + 0x1000 * v) 8 x)

/-- A write of a card's word 0. -/
def execCardArm (who : Party) (off : Nat) (x : W64) (s : State) : Out := .next (s.writeReg who off 8 x)

/-- An instant of an armed card has come, with VALID set: a release at that instant. -/
def execPeriodicRelease (card : Nat) (s : State) : Out :=
  match s.instant card with
  | none => .refused .notEnabled
  | some i => .next (s.releaseInstant card i)

/-! ## Pre-emption requests that fall away (R382) -/

/-- A request to a block is withdrawn: it stays on its unit, its threads that had saved go on, and a lease given up is asked for
again. -/
def State.withdraw (s : State) (b : Nat) (x : Block) : State :=
  let now := s.time.toNat
  let back := x.launched.filter fun t => match s.thread? t with | some th => th.saved | none => false
  let s := s.setBlock b { x with phase := .resident, slot := none, prey := none }
  let s := if x.tile then (x.thr.filter back.contains).foldl (fun s t => s.askLease x t) s else s
  back.foldl (fun s t => s.mapThread t fun th => { th with saved := false, ckpt := none, ckptTime := now }) s

/-- A job drops to level 11: the requests made for its blocks fall where it no longer outranks the victim. -/
def State.demoteJob (s : State) (card : Nat) : State :=
  let s := s.mapJob card fun j => { j with level := 11 }
  (s.blocks.filterMap fun e => match e.2 with
    | some b => if b.phase = .saving && b.prey = some card then some (e.1, b) else none
    | none => none).foldl (fun s e =>
      match s.job? e.2.card with
      | some v => if 11 < v.level then s else s.withdraw e.1 e.2
      | none => s) s

/-! ## Exceptions (R376-R382) -/

/-- The policy that governs a cause. -/
def Job.policy (j : Job) (code : Nat) : Nat := if code = 0x30 then j.missPol else j.overPol

/-- The flag of a cause in the outcome word, and that it has been raised. -/
def Job.flag (j : Job) (code : Nat) : Job :=
  if code = 0x30 then { j with miss := true, missRaised := true }
  else if code = 0x31 then { j with overran := true, budgetRaised := true }
  else { j with overran := true }

/-- An exception of a job: its flag, its entry and its policy. `t` is the thread that a CHECKPOINT_OVERDUE names. -/
def State.raise (s : State) (card code : Nat) (t : Option Nat) : State :=
  match s.job? card with
  | none => s
  | some j =>
    let s := (s.mapJob card fun j => j.flag code).logException card code
    match j.policy code with
    | 0 => match t with
      | some t => s.postAsync t code (BitVec.ofNat 64 card) 0
      | none => s.notify card code
    | 1 => s.stopJob card code true
    | _ => s.demoteJob card

/-- The job's deadline has passed without being noticed yet (R376). -/
def State.missDue (s : State) (j : Job) : Bool :=
  j.deadline != 0 && !j.missRaised && j.relT.toNat + j.deadline.toNat < s.time.toNat

/-- The budget clock has reached the budget (R377). -/
def Job.budgetDue (j : Job) : Bool := j.budget != 0 && !j.budgetRaised && j.budget.toNat ≤ j.spent

/-- A missed deadline comes before an overrun that is due with it. -/
def execDeadlineMiss (card : Nat) (s : State) : Out :=
  match s.job? card with
  | none => .refused .notEnabled
  | some j => if s.missDue j then .next (s.raise card 0x30 none) else .refused .notEnabled

/-- An overrun of the budget; both aborting, the missed deadline gives the outcome (R382). -/
def execBudgetTime (card : Nat) (s : State) : Out :=
  match s.job? card with
  | none => .refused .notEnabled
  | some j =>
    if !j.budgetDue || (s.missDue j && j.missPol == 1 && j.overPol == 1) then .refused .notEnabled
    else .next (s.raise card 0x31 none)

/-- The checkpoint timers of tile threads: one that reaches its card's bound owes a report and starts again from zero (R378). -/
def State.passTimers (s : State) : State :=
  let now := s.time.toNat
  s.mapThreads fun _ th =>
    if th.kind != .xs || th.saved then th
    else match (s.block? th.block).bind fun b => s.job? b.card with
      | none => th
      | some j =>
        let n := (now - th.ckptTime) / j.ckptBound
        { th with overdue := th.overdue + n, ckptTime := th.ckptTime + n * j.ckptBound }

/-- A report that the checkpoint timer of the XS t owes (R378); in trap mode it is held (R231). -/
def execCheckpointOverdue (t : Nat) (s : State) : Out :=
  match s.thread? t with
  | none => .refused .notEnabled
  | some th =>
    match (s.block? th.block).bind fun b => if b.phase = .saved then none else some b.card with
    | none => .refused .notEnabled
    | some card =>
      match s.job? card with
      | none => .refused .notEnabled
      | some _ =>
        if th.overdue = 0 || th.inTrap.isSome then .refused .notEnabled
        else .next ((s.mapThread t fun th => { th with overdue := th.overdue - 1 }).raise card 0x33 (some t))

/-! ## Completion (R34, R383) -/

/-- A job whose walker is done, whose blocks have ended and whose launches have written their records completes. A miss that the
dispatcher has not noticed by then is noticed now, and so is an overrun of the budget. -/
def execJobCompletion (card : Nat) (s : State) : Out :=
  match s.job? card with
  | none => .refused .notEnabled
  | some j =>
    if !j.walked || !(s.blocksOf card).isEmpty || j.launches != 0 then .refused .notEnabled
    else
      let late := s.missDue j
      let spentOut := j.budgetDue
      let s := if late then s.logException card 0x30 else s
      let s := if spentOut then s.logException card 0x31 else s
      .next (s.completeJob card { j with miss := j.miss || late, overran := j.overran || spentOut })

/-! ## Device time (R377, R472, R473) -/

/-- The job has a block on a unit, saves and restores apart: its budget clock runs. A tile block runs on until every thread of it has
met its CKPT (R372). -/
def State.clockRuns (s : State) (card : Nat) : Bool :=
  (s.blocksOf card).any fun e => e.2.phase == .resident ||
    (e.2.phase == .saving && e.2.tile && e.2.launched.any fun t => match s.thread? t with | some th => !th.saved | none => false)

/-- Every unit advances its heartbeat counter but those that have failed: which those are is open (R509). -/
def State.beat (s : State) : State :=
  { s with beats := restartableUnits.foldl (fun t e => if (s.free (0x1C400000 + e)).getLsbD 0 then t else Tbl.set 0 t e s.time) s.beats }

/-- `ns` nanoseconds of the reference pass: device time advances at its trimmed rate, budget clocks with it, and every core counts its
cycles at the rate of its rail (R17, R201, R377, R473). -/
def State.tick (s : State) (ns : Nat) : State :=
  let ppb := ((s.cfgAt 0xA0008).setWidth 32 : W32).toInt
  let frac := s.timeFrac + (ns * (1000000000 + ppb).toNat)
  let whole := frac / 1000000000
  let running := s.jobs.filterMap fun e => if e.2.isSome && s.clockRuns e.1 then some e.1 else none
  let s := running.foldl (fun s c => s.mapJob c fun j => { j with spent := j.spent + whole }) s
  let s := (List.range 128).foldl (fun s u =>
    if (s.cluster (clusterOf u)).halted then s
    else
      let old := s.cycle.get 0 u
      let new := old + ns * s.coreRate u
      (({ s with cycle := s.cycle.set 0 u new } : State).event u 0x00 none (new / 10 - old / 10)).countStalls u (new / 10 - old / 10)) s
  let s := (({ s with time := s.time + BitVec.ofNat 64 whole, timeFrac := frac % 1000000000 } : State).beat.passInstants).passTimers
  -- a window's edge comes before a request of its nanosecond (R478)
  if s.edge < s.time.toNat / 10000 then { s with agenda := .event .weirWindowEdge :: s.agenda } else s

end Sys2Proof.Machine
end

