-- ==== Sys2Proof/Machine/Contain.lean ====
section
/-! DEFINITION. What the slices and their island do by themselves: containment of errors, scrubs, gating, carving and injection, sensor
streams, and the translation controls (R284-R298, R385, R414-R417, R531, R532). -/

namespace Sys2Proof.Machine

/-! ## Containment (R294-R298) -/

/-- Contexts of an interface that hold a job, a card in use or grace state. -/
def State.contextsOf (s : State) (v : Nat) : List Nat :=
  let jobs := s.jobs.filterMap fun e => match e.2 with
    | some j => if j.vi = v then some j.ctx else none
    | none => none
  let cards := (List.range 1024).filterMap fun n =>
    let w := cardWord s n 0
    if bitsOf w.toNat 58 4 = v && (w.getLsbD 62 || w.getLsbD 63) then some (bitsOf w.toNat 46 12) else none
  let others := s.ctxs.filterMap fun e => if e.1 / 4096 = v then some (e.1 % 4096) else none
  (jobs ++ cards ++ others).eraseDups

/-- Every context of an interface is terminated: the dispatcher does it (R297, R536). -/
def State.killInterface (s : State) (v : Nat) (val : W64) : State :=
  (s.contextsOf v).foldl (fun s c => s.killContext v c 0xA000 0x2A 0x2A val) s

/-- A machine check of a hart: the RISC-V hardware-error exception (log entry 13). -/
def State.machineCheck (s : State) (h : Nat) (pa : Nat) : State :=
  let x := s.hart h
  s.setHart h
    { x with mepc := x.pc, mcause := 19, mtval := BitVec.ofNat 64 pa, mpp := x.mode, mpv := x.guest, mpie := x.mie,
             mie := false, mode := 3, guest := false, pc := x.mtvec &&& ~~~3#64, wait := .run }

/-- The harts that run an interface's guest partition. -/
def State.guestHarts (s : State) (v : Nat) : List Nat :=
  (List.range 24).filter fun h => (s.hart h).guest && bitsOf (s.cfgAt (hcpOff h 0)).toNat 12 4 == v

/-- The engine numbers of R509. -/
def engineNumbers : List Nat :=
  (List.range 64).map (0x1000 + ·) ++ (List.range 16).map (0x2000 + 4 * ·) ++ (List.range 48).map (0x6000 + ·) ++ [0x7000, 0x7001, 0x8000]

/-- Every partition stops and the island restarts every engine (R298). -/
def State.stopPartitions (s : State) : State := engineNumbers.foldl State.startRestart { s with boot := .stopped }

/-- XVAL of the error: the physical address, with bit 63 for a dirty cache line (R294). -/
def Ue.val (u : Ue) : W64 := BitVec.ofNat 64 (u.pa + if u.inL1 then 2 ^ 63 else 0)

/-- The contexts that an error charges are terminated: step 2 of R295. -/
def State.chargeOwner (s : State) (u : Ue) : State :=
  match u.owner with
  | some id =>
    let v := id.toNat / 4096
    let c := id.toNat % 4096
    if c = 0xFFF then s.stopPartitions
    else if c = 0xFFE then ((s.guestHarts v).foldl (fun s h => s.machineCheck h u.pa) s).killInterface v u.val
    else s.killContext v c 0xA000 0x2A 0x2A u.val
  | none =>
    match u.slot with
    | none => s
    | some key =>
      if s.hyperOwns key none then s.stopPartitions
      else ((List.range 16).filter fun v => (s.allocWays (key / 131072) v).getLsbD (key % 16)).foldl
        (fun s v => s.killInterface v u.val) s

/-- The first error that has come to a step of its containment, and its place. -/
def State.ueAt (s : State) (stage : Nat) : Option (Nat × Ue) :=
  match s.ue.findIdx? (·.stage == stage) with
  | some i => (s.ue[i]?).map fun u => (i, u)
  | none => none

/-- An error goes on to a step, or its containment is over. -/
def State.ueNext (s : State) (i : Nat) (stage : Option Nat) : State :=
  match stage with
  | some n => { s with ue := s.ue.modify i fun u => { u with stage := n } }
  | none => { s with ue := s.ue.eraseIdx i }

/-- Termination of the owner's context, or of every affected one. A carved line is only poisoned (R294). -/
def execCtxKill (s : State) : Out :=
  match s.ueAt 0 with
  | none => .refused .notEnabled
  | some (i, u) => .next ((s.ueNext i (if u.slot.isSome then some 1 else none)).chargeOwner u)

/-- The frame enters the retirement table (R296, R297). -/
def execPageRetire (s : State) : Out :=
  match s.ueAt 1 with
  | none => .refused .notEnabled
  | some (i, u) =>
    let frame := u.pa / 65536 * 65536
    let n := s.retired.length
    let ctx := u.owner.elim 0xFFFF (·.toNat)
    let s := s.ueNext i (if u.slot.isSome then some 2 else none)
    if n < 4096 then .next { s.log 0x0412 0 ctx (BitVec.ofNat 64 frame) (BitVec.ofNat 64 n) with retired := s.retired ++ [frame] }
    else .next ((s.log 0x0412 0 ctx (BitVec.ofNat 64 frame) 0xFFFF).log 0x0414 0 ctx (BitVec.ofNat 64 frame) 0)

/-- The way is quarantined: written down, emptied, gated (R295). -/
def execWayQuar (s : State) : Out :=
  match s.ueAt 2 with
  | none => .refused .notEnabled
  | some (i, u) =>
    let s := s.ueNext i none
    let key := u.slot.getD 0
    let slice := key / 131072
    let w := key % 16
    if (s.quarWays slice).getLsbD w then .next s
    else
      let s := s.emptyWay slice w
      let r := mslOff slice 0
      let s := s.setCfg r (s.cfgAt r ||| BitVec.ofNat 64 (2 ^ (32 + w) + 2 ^ (16 + w)))
      .next (s.log 0x0413 (0x3000 + slice) 0xFFFF (BitVec.ofNat 64 slice) (BitVec.ofNat 64 w))

/-- The code word that an error in a register names. -/
def regOf (f : RegFile) (own n r : Nat) : ErrLoc :=
  match f with
  | .v => .reg (.v own r)
  | .s => .reg (.s own r)
  | .t => .tseg own (64 * r + n % 64)
  | .h => .reg (.h own n r)
  | .k => .reg (.k own r)
  | .status => .status own r

/-- A dirty line of a cache in front of the Mere is lost (R294, R297, R298): it is poisoned, its owner is charged and its page retired. The
slice and set that MERE_UE reports are those of its home, the way is the one that holds it, or is open. -/
def State.loseDirty (s : State) (line : Nat) (owner : W16) : State :=
  let pa := line * 128
  let kill : Ue := { pa := pa, slot := none, owner := some owner, inL1 := true, stage := 0 }
  if 0x100000000000 ≤ line then s.loseCarved (line - 0x100000000000) owner true
  else
    let way := (s.findWay pa).getD ((s.free 0x1C000001).toNat % 16)
    let s := s.logAs (owner.toNat % 4096 == 0xFFF) 0x0410 (0x3000 + sliceOf pa) owner.toNat (BitVec.ofNat 64 pa)
      (slotArg (wayKey (sliceOf pa) (setOf pa) way))
    { s with poison := s.poison.set false line true, ue := s.ue ++ [kill, { kill with stage := 1 }] }

/-- A corrected error is counted, and reported at most once per unit and millisecond (R292). The manual gives the report no code and no
arguments: they are free (log entry 46). -/
def State.correct (s : State) (source : Nat) : State :=
  let x := s.corrected.get { count := 0, last := none } source
  let due : Bool := match x.last with
    | some t => 1000000 ≤ (s.time - t).toNat
    | none => true
  let s := if due then s.log ((s.free 0x1C000002).toNat % 65536) source 0xFFFF (s.free 0x1C000003) (s.free 0x1C000004) else s
  { s with corrected := s.corrected.insert source { count := x.count + 1, last := if due then some s.time else x.last } }

/-- A fatal event of the island that the manual gives no code (R493): the loss of every lane of a gutter, a self-check that fails. -/
def State.fatalEntry (s : State) : State :=
  s.logAs true ((s.free 0x1C000040).toNat % 65536) 0 0xFFFF (s.openArg 0) (s.openArg 1)

/-- Storage comes to an error (R292-R298; log entry 46). -/
def State.upset (s : State) (u : Upset) : State :=
  match u with
  | .register f own n r => { s with regErr := regOf f own n r :: s.regErr }
  | .accumulator a row seg => { s with regErr := .acc a (32 * row + seg % 32) :: s.regErr }
  | .scratchpad u a => { s with regErr := .core u (a / 4) :: s.regErr }
  | .groupScratchpad g a => { s with regErr := .group g (a / 64) :: s.regErr }
  | .buffer b line =>
    match s.block? b with
    | some x =>
      if x.cont && x.sbuf.any (fun e => e.line.line == some line) then
        s.loseBlock b (fun x => !x.committed) 0x2A (BitVec.ofNat 64 (2 ^ 63 + line * 128))
      else s
    | none => s
  | .dirtyLine core line =>
    match s.l1.get none (l1Key core line) with
    | none => s
    | some x =>
      if x.dirty = 0 then s
      else ({ s with l1 := s.l1.erase (l1Key core line) } : State).loseDirty line x.owner
  | .hartLine h line =>
    -- the line may hold bytes of several owners, each of whom is charged
    match ((s.hl2.get [] h).filter fun e => e.line == line).map (·.owner) with
    | [] => s
    | o :: os =>
      let s := ({ s with hl2 := s.hl2.set [] h ((s.hl2.get [] h).filter fun e => e.line != line) } : State).loseDirty line o
      { s with ue := s.ue ++ (os.eraseDups.filter (· != o)).map fun id => { pa := line * 128, slot := none, owner := some id, inL1 := true, stage := 0 } }
  | .mereLine line unreadable =>
    if (s.findWay (128 * line)).isSome then
      { s with latent := s.latent.set 0 line (latentOf true (latentOwn (s.latent.get 0 line) || unreadable)) } else s
  | .carvedLine line =>
    match s.carvedOwner.get none (line - 0x100000000000) with
    | some id =>
      if !s.stillCarved ((line - 0x100000000000) * 128) then s else s.loseCarved (line - 0x100000000000) id false
    | none => s
  | .dram line => if line < 0x60000000 then { s with latent := s.latent.set 0 line 3 } else s
  | .corrected source => s.correct source
  | .island => s.fatalEntry

/-! ## Scrubs and refresh (R292, R385) -/

/-- The patrol scrub reads the line of a slot. -/
def execMerePatrolScrub (slot : Nat) (s : State) : Out :=
  match s.mere.get none slot with
  | none => .next s
  | some l => .next (s.readCode (slotPa slot l))

/-- The patrol scrub reads a line of LPDDR6: an error there retires the page. -/
def execDramPatrolScrub (line : Nat) (s : State) : Out :=
  if s.latent.get 0 line = 3 && (s.findWay (128 * line)).isNone then
    .next { s with ue := s.ue ++ [{ pa := 128 * line, slot := none, owner := none, stage := 1 }] }
  else .next s

/-- A refresh of a bank delays accesses and changes nothing (R385). -/
def execLpddr6Refresh (_ch _bank : Nat) (s : State) : Out := .next s

/-! ## Gating, carving, injection (R288-R291, R531, R532) -/

def execGateWayRequest (who : Party) (slice : Nat) (x : W64) (s : State) : Out := .next (s.writeReg who (mslOff slice 0) 8 x)

def execUngateWay (who : Party) (slice : Nat) (x : W64) (s : State) : Out := .next (s.writeReg who (mslOff slice 0) 8 x)

def execGatingDone (slice : Nat) (s : State) : Out :=
  if (s.cfgAt (mslOff slice 8)).getLsbD 16 then .next (s.endGating slice) else .refused .notEnabled

def execMereCarve (who : Party) (x : W64) (s : State) : Out := .next (s.writeReg who 0x200 8 x)

def execMereInj (who : Party) (x : W64) (s : State) : Out := .next (s.writeReg who 0x220 8 x)

def execMereInjection (s : State) : Out := if (s.cfgAt 0x220).getLsbD 63 then .next s.inject else .refused .notEnabled

/-! ## Sensor streams (R287) -/

/-- The SENSOR ways of an interface that a slice can use. -/
def State.sensorIn (s : State) (slice v : Nat) : List Nat :=
  waysOf (s.sensorWays slice v &&& s.enWays slice &&& ~~~(s.gateWays slice) &&& ~~~(s.quarWays slice) &&& ~~~s.carveWays)

/-- The way of a line of stream n: one that holds it, the lowest empty one, or the one of the stream's own oldest line in the set. -/
def State.sensorWay (s : State) (v n pa : Nat) : Option Nat :=
  let ws := s.sensorIn (sliceOf pa) v
  let at_ (w : Nat) : Option Line := s.mere.get none (wayKey (sliceOf pa) (setOf pa) w)
  match ws.find? fun w => (at_ w).any fun l => l.tag == tagOf pa with
  | some w => some w
  | none => match ws.find? fun w => (at_ w).isNone with
    | some w => some w
    | none => (ws.filter fun w => (at_ w).any fun l => l.stream == some (64 * v + n)).foldl (fun (b : Option Nat) w => match b with
      | none => some w
      | some c => if ((at_ w).map (·.age)).getD 0 < ((at_ c).map (·.age)).getD 0 then some w else some c) none

/-- Bytes of a stream land in a line, locked and dirty. The line leaves any other way that holds it; where the stream may take no way they
go to LPDDR6, as a store without an eligible way does (R286; log entry 46). -/
def State.sensorLine (s : State) (v n pa : Nat) (bs : List Byte) : State :=
  let id := identity v ((s.free 0x1B000010).toNat % 4096)
  match s.sensorWay v n pa with
  | none => s.writeHome ((placesOf pa bs.length).zip bs) id false
  | some w =>
    let key := wayKey (sliceOf pa) (setOf pa) w
    let s := match s.findWay pa with
      | some u => if u = w then s else s.dropLine (wayKey (sliceOf pa) (setOf pa) u)
      | none => s
    let s := match s.mere.get none key with
      | some l => if l.tag == tagOf pa then s else s.dropLine key
      | none => s
    let old : Option Line := s.mere.get none key
    let s := { s with mere := s.mere.insert key (some
      { tag := tagOf pa, dirty := old.any fun (l : Line) => l.dirty, lock := true, owner := (old.map fun (l : Line) => l.owner).getD id,
        stream := (old.bind fun (l : Line) => l.stream).or (some (64 * v + n)), age := (old.map fun (l : Line) => l.age).getD s.clock }) }
    (s.writeHome ((placesOf pa bs.length).zip bs) id false).clearPoison (placesOf pa bs.length)

/-- Bytes of a stream land, line by line. -/
def State.sensorBytes (s : State) (v n : Nat) : Nat → Nat → List Byte → State
  | 0, _, _ => s
  | _, _, [] => s
  | fuel + 1, pa, bs =>
    let k := 128 - pa % 128
    (s.sensorLine v n pa (bs.take k)).sensorBytes v n fuel (pa + k) (bs.drop k)

/-- A CSI-2 or Ethernet stream lands data of its interface. -/
def execSensorStreamWrite (v : Ingest) (pa : Nat) (bytes : List Byte) (s : State) : Out :=
  if dramTop < pa + bytes.length then .fault (.noStorage pa) else .next (s.sensorBytes v.vi v.stream (bytes.length + 1) pa bytes)

/-! ## Translation controls (R414, R416, R417) -/

/-- A write of XLT_INV with its KIND. -/
def State.xltWrite (s : State) (who : Party) (v kind : Nat) (x : W64) : State :=
  s.writeReg who (xltOff v 0) 8 ((x &&& ~~~3#64) ||| BitVec.ofNat 64 kind)

def execXltInvVa (who : Party) (v : Nat) (x : W64) (s : State) : Out := .next (s.xltWrite who v 0 x)

def execXltInvCtx (who : Party) (v : Nat) (x : W64) (s : State) : Out := .next (s.xltWrite who v 1 x)

def execXltInvVi (who : Party) (v : Nat) (x : W64) (s : State) : Out := .next (s.xltWrite who v 2 x)

def execXltHinv (who : Party) (v : Nat) (x : W64) (s : State) : Out := .next (s.writeReg who (xltOff v 8) 8 (x &&& ~~~0x100#64))

def execXltHinvAll (who : Party) (v : Nat) (x : W64) (s : State) : Out := .next (s.writeReg who (xltOff v 8) 8 (x ||| 0x100#64))

/-- A request completes once every access translated through what it removed has performed. -/
def execXltInvDone (v : Nat) (hinv : Bool) (s : State) : Out :=
  match (if hinv then s.hxlt else s.xlt).get none v with
  | none => .refused .notEnabled
  | some c =>
    if s.inFlight v c then .refused .notEnabled
    else if hinv then .next { s with hxlt := s.hxlt.erase v }
    else if !s.staleReds.all s.redReleased then .refused .notEnabled
    else match s.metered s.staleReds with
      | (s, true) => .next { s.settle with xlt := s.settle.xlt.erase v }
      | (s, false) => .next s

def execSplReq (who : Party) (v : Nat) (x : W64) (s : State) : Out := .next (s.writeReg who (xltOff v 0x18) 8 x)

def execSplinterDone (v : Nat) (s : State) : Out :=
  match s.spl.get none v with
  | none => .refused .notEnabled
  | some p => .next (s.endSplit v p)

end Sys2Proof.Machine
end

