-- ==== Sys2Proof/Machine/Power.lean ====
section
/-! DEFINITION. Device time and weir windows, rails, droop, brown-out and heat, and the restart of engines (R299, R384, R472-R489,
R509-R512). -/

namespace Sys2Proof.Machine

/-- The cores of a power cluster. -/
def clusterCores (c : Nat) : List Nat := if c < 64 then [c] else if c < 80 then (List.range 4).map fun m => 64 + 4 * (c - 64) + m else []

def State.mapCluster (s : State) (c : Nat) (f : Cluster → Cluster) : State := s.setCluster c (f (s.cluster c))

/-! ## Device time and windows (R472-R478) -/

def execDtStep (who : Party) (x : W64) (s : State) : Out := .next (s.writeReg who 0xA0010 8 x)

def execDtRate (who : Party) (x : W64) (s : State) : Out := .next (s.writeReg who 0xA0008 8 x)

/-- A window begins: every regulator refills its credit. -/
def execWeirWindowEdge (s : State) : Out :=
  let n := s.time.toNat / 10000
  if n ≤ s.edge then .refused .notEnabled else .next (s.windowEdge n)

/-! ## Rails (R481-R484) -/

/-- A rail switch completes; each switch is an event of every core of the cluster. -/
def execRailSwitch (c : Nat) (s : State) : Out :=
  if 96 ≤ c || s.railWanted c == (s.cluster c).high then .refused .notEnabled
  else
    let high := s.railWanted c
    let s := s.mapCluster c fun x => { x with high := high }
    .next ((clusterCores c).foldl (fun s u => s.event u 0x08 none 1) s)

/-- A late transition replays a cycle: the work is done once, with the result it has without droop. More than 64 replays in a
microsecond make or extend a droop hold. -/
def execDroopReplay (c : Nat) (s : State) : Out :=
  if 96 ≤ c then .refused .notEnabled
  else
    let now := s.time
    let x := s.cluster c
    let rs := now :: x.replays.filter fun t => (now - t).toNat < 1000
    let many := 64 < rs.length
    let s := (s.setCfg (pwrOff c) (s.cfgAt (pwrOff c) + 0x100000000)).mapCluster c fun x =>
      { x with replays := rs, droopHold := if many then some (now + 10000) else x.droopHold }
    let s := (clusterCores c).foldl (fun s u => s.event u 0x07 none 1) s
    .next (if many && x.droopHold.isNone then s.log 0x0470 (0xC000 + c) 0xFFFF (BitVec.ofNat 64 c) (s.openArg 0) else s)

/-- A droop hold ends 10 microseconds after the last replay that kept the count high. -/
def execDroopHoldEnd (c : Nat) (s : State) : Out :=
  match (s.cluster c).droopHold with
  | none => .refused .notEnabled
  | some e => if s.time < e then .refused .notEnabled else .next (s.mapCluster c fun x => { x with droopHold := none })

/-! ## Brown-out (R299, R484, R509) -/

/-- Dirty lines of a slice pair are lost, carved ones included, and its lines become invalid. -/
def State.losePair (s : State) (p : Nat) : State :=
  let here (k : Nat) : Bool := k / 131072 / 2 == p
  let s := (s.mere.filter fun e => here e.1).foldl (fun s e => match e.2 with
    | none => s
    | some l =>
      let pa := slotPa e.1 l
      let s := s.clearResv (some (pa / 128))
      let s := if l.dirty then s.loseLine pa e.1 (some l.owner) else s
      { s with mere := s.mere.erase e.1, latent := s.latent.set 0 (pa / 128) 0 }) s
  (s.carvedOwner.filter fun e => e.1 % 32 / 2 == p).foldl (fun s e => match e.2 with
    | none => s
    | some id => s.loseCarved e.1 id false) s

/-- The unit of a SIMT or tile cluster, as engines are numbered. -/
def clusterEngine (c : Nat) : Nat := if c < 64 then 0x1000 + c else 0x2000 + 4 * (c - 64)

/-- A supply too low halts a cluster: its engines restart; a slice pair loses its lines. -/
def execBrownout (c : Nat) (s : State) : Out :=
  if 96 ≤ c then .refused .notEnabled
  else
    let s := s.setCfg (pwrOff c) (s.cfgAt (pwrOff c) ||| 0x80)
    let s := s.log 0x0471 (0xC000 + c) 0xFFFF (BitVec.ofNat 64 c) (s.openArg 0)
    if c < 80 then .next ((s.mapCluster c fun x => { x with halted := true }).startRestart (clusterEngine c))
    else .next (s.losePair (c - 80))

/-! ## Heat (R485-R489) -/

/-- A diode's reading in sixteenths of a degree. -/
def degrees (temps : List (W16 × W16)) (n : Nat) : Int × Int :=
  let t := temps.getD n (0, 0)
  (t.1.toInt, t.2.toInt)

/-- ABS, VERT, LAT and TRIP of a pair, as bits 0 to 3. -/
def pairFlags (temps : List (W16 × W16)) (n : Nat) : Nat :=
  let (a, b) := degrees temps n
  let lat := (List.range 96).any fun m => pairNeighbours n m && 320 < (a - (degrees temps m).1).natAbs
  (if 1760 < a || 1760 < b then 1 else 0) + (if 240 < (a - b).natAbs then 2 else 0) + (if lat then 4 else 0) +
    (if 2000 ≤ a || 2000 ≤ b then 8 else 0)

/-- A pair within every limit by 5 degrees or 5 K (R487). -/
def pairCool (temps : List (W16 × W16)) (n : Nat) : Bool :=
  let (a, b) := degrees temps n
  a ≤ 1680 && b ≤ 1680 && (a - b).natAbs ≤ 160 &&
    (List.range 96).all fun m => !pairNeighbours n m || (a - (degrees temps m).1).natAbs ≤ 240

/-- A pair's register and hold after a read. -/
def State.readPair (s : State) (temps : List (W16 × W16)) (n : Nat) : State :=
  let f := pairFlags temps n
  let t := temps.getD n (0, 0)
  let s := s.setCfg (0xD0000 + 8 * n) (BitVec.ofNat 64 (f * 2 ^ 32 + t.2.toNat * 65536 + t.1.toNat))
  let h := s.pairHold.get 0 n
  if f % 8 != 0 then
    let s := if h = 0 then s.log 0x0472 (0xB000 + n) 0xFFFF (BitVec.ofNat 64 n) (BitVec.ofNat 64 f) else s
    { s with pairHold := s.pairHold.set 0 n 1 }
  else if h = 0 then s
  else { s with pairHold := s.pairHold.set 0 n (if !pairCool temps n then 1 else if h = 1 then 2 else 0) }

/-- Blocks on a unit, those being saved there included. -/
def State.blocksOn (s : State) (e : Nat) : List (Nat × Block) := s.blocks.filterMap fun b => match b.2 with
  | some x =>
    let on := if e < 0x2000 then !x.tile && 0x1000 + x.unit == e
      else x.tile && (0x2000 + 4 * x.unit == e || (x.span && (e - 0x2000) / 16 == x.unit / 4 && e < 0x2040))
    if on && (x.phase == .resident || x.phase == .saving) then some (b.1, x) else none
  | none => none

/-- Jobs with a block on a unit end with ENGINE_RESTART (R384, R511). -/
def State.endJobsOn (s : State) (e : Nat) : State := ((s.blocksOn e).map (·.2.card)).eraseDups.foldl (fun s c => s.stopJob c 0x36 false) s

/-- A launch of the unit ends with status 0x36, and its pusher takes ENGINE_RESTART. -/
def State.loseLaunch (s : State) (k : Nat) (l : Launch) : State :=
  let s := if isHartStream k || (s.stream k).orphan then s else s.postTo (k / 8) cEngineRestart (BitVec.ofNat 64 l.engine)
  s.endLaunch k l 0x36 l.mark

/-- The launches that a unit had started end (R510). -/
def State.loseLaunches (s : State) (e : Nat) : State :=
  (s.streams.filterMap fun x => match x.2.run with
    | some l => if l.engine = e then some (x.1, l) else none
    | none => none).foldl (fun s x => s.loseLaunch x.1 x.2) s

/-- A die trips: its clusters and its pipeline halt, and with course 1 its harts. -/
def State.tripDie (s : State) (d n : Nat) (harts : Bool) : State :=
  let mine := (List.range 96).filter fun c => clusterWest c == (d == 1)
  let s := s.logAs true 0x0473 (0xB000 + n) 0xFFFF (s.openArg 0) (s.openArg 1)
  let s := mine.foldl (fun s c => s.mapCluster c fun x => { x with halted := true }) s
  let s := ((mine.filter (· < 80)).foldl (fun s c => s.endJobsOn (clusterEngine c)) s).loseLaunches (0x7000 + d)
  let t := s.tripped.set 0 d 1
  { s with tripped := if harts then t.set 0 (2 + d) 1 else t }

/-- The halted units of a die restart (R488). -/
def State.untripDie (s : State) (d : Nat) : State :=
  let mine := (List.range 96).filter fun c => clusterWest c == (d == 1)
  let s := { s with tripped := (s.tripped.set 0 d 0).set 0 (2 + d) 0 }
  let s := (mine.filter (80 ≤ ·)).foldl (fun s c => s.mapCluster c fun x => { x with halted := false }) s
  ((mine.filter (· < 80)).foldl (fun s c => s.startRestart (clusterEngine c)) s).startRestart (0x7000 + d)

/-- What a read says of a die. -/
def State.readDie (s : State) (temps : List (W16 × W16)) (d : Nat) : State :=
  let ns := (List.range 48).map (48 * d + ·)
  match ns.find? fun n => 8 ≤ pairFlags temps n with
  | some n => s.tripDie d n (((List.range 4).map (48 * d + ·)).any fun n => 8 ≤ pairFlags temps n)
  | none =>
    let k := s.tripped.get 0 d
    if k = 0 then s
    else if !ns.all fun n => (degrees temps n).1 < 1600 && (degrees temps n).2 < 1600 then { s with tripped := s.tripped.set 0 d 1 }
    else if k = 1 then { s with tripped := s.tripped.set 0 d 2 }
    else s.untripDie d

/-- The island reads every pair: compute and cache diode of each. -/
def execThermalRead (temps : List (W16 × W16)) (s : State) : Out :=
  if temps.length != 96 then .refused .notEnabled
  else .next ([0, 1].foldl (fun s d => s.readDie temps d) ((List.range 96).foldl (fun s n => s.readPair temps n) s))

/-! ## Restarts (R509-R512) -/

/-- A unit's heartbeat has stood still for a millisecond. -/
def execWatchdog (e : Nat) (s : State) : Out :=
  if restartable e && 1000000 ≤ (s.time - s.beats.get 0 e).toNat then .next ((s.log 0x0481 e 0xFFFF (s.openArg 0) (s.openArg 1)).startRestart e) else .refused .notEnabled

def execIslRestart (who : Party) (x : W64) (s : State) : Out := .next (s.writeReg who 0xFF000 8 x)

/-- The cores of a unit. -/
def engineCores (e : Nat) : List Nat :=
  if 0x1000 ≤ e && e < 0x1040 then [e - 0x1000]
  else if 0x2000 ≤ e && e < 0x2040 then (List.range 4).map fun m => 64 + (e - 0x2000) + m else []

/-- A request that has left a unit performs; its reply is discarded. Which have left is open (R510, log entry 23). -/
def State.performSent (s : State) (a : Nat × Nat) : State :=
  match s.pend? a.1 a.2 with
  | none => s
  | some (th, p) =>
    if !p.mem_ || p.done || !p.rides || p.lostAs == 1 || !s.mayPerform a.1 p || !(s.free (2 ^ 61 + 2 ^ 32 * a.1 + a.2)).getLsbD 0 then s
    else match s.perform a.1 th p with
      | .ok s p _ => s.setPend a.1 { p with done := true }
      | _ => s

/-- The requests that the threads of some cores have had accepted perform, each thread's in program order. -/
def State.performAccepted (s : State) (cores : List Nat) : State :=
  (s.threads.flatMap fun e => match e.2 with
    | some th => if cores.contains (coreOf e.1) then th.pend.map fun p => (e.1, p.id) else []
    | none => []).foldl State.performSent s

/-- Step 1: nothing goes in or out, launches under way and jobs end; what the unit has sent goes on (step 2). -/
def State.isolate (s : State) (e : Nat) : State :=
  (((s.log 0x0480 e 0xFFFF (s.openArg 0) (s.openArg 1)).performAccepted (engineCores e)).loseLaunches e).endJobsOn e

/-- Step 3 for one core: its queues, registers, L1, TLBs, semaphores and barriers are cleared (R456, R510). -/
def State.resetCore (s : State) (u : Nat) : State :=
  let mine (k : Nat) : Bool := k < 40000 && coreOf (k / 8) == u
  let s := (s.streams.filter fun x => mine x.1).foldl (fun s x =>
    let s := x.2.buf.foldl (fun s w => s.discardWord x.1 w) s
    if x.2.run.isSome then s.mapStream x.1 fun y => { y with buf := [], stack := [], orphan := true }
    else s.setStream x.1 emptyStream) s
  { s with
    l1 := s.l1.filter fun x => x.1 / 2 ^ 46 != u
    tlb := s.tlb.filter fun x => !(x.where_ == u || (256 ≤ x.where_ && x.where_ < 20000 && coreOf (x.where_ - 256) == u))
    hcache := s.hcache.filter fun x => x.core != u
    sems := s.sems.filter fun x => x.1 / 16 != u
    coreBars := s.coreBars.filter fun x => x.1 / 8 != u
    spawnq := s.spawnq.erase u
    ridgeWaits := s.ridgeWaits.filter fun e => e.ms.all fun m => coreOf m != u
    cycle := s.cycle.erase u
    lastData := s.lastData.filter fun x => x.1 / 8 != u
    cfg := s.cfg.filter fun x => !((evOff u 0 ≤ x.1 && x.1 < evOff u 0x80) || (qpaceOff u 0 ≤ x.1 && x.1 < qpaceOff u 8)) }

/-- Step 3: the unit's state is cleared. -/
def State.resetUnit (s : State) (e : Nat) : State :=
  let s := (engineCores e).foldl State.resetCore s
  let s := { s with tlb := s.tlb.filter (·.where_ != 20000 + engineTlb e) }
  if e < 0x2000 then
    let n := e - 0x1000
    { s with scratch := s.scratch.filter fun x => x.1 / 262144 != n }
  else if e < 0x2040 then
    let g := (e - 0x2000) / 4
    { s.setGroup g freshGroup with
      gscratch := s.gscratch.filter fun x => x.1 / 8388608 != g
      acc := s.acc.filter fun x => x.1 / 131072 != g }
  else s

/-- Step 5: the unit is there again. -/
def State.readmit (s : State) (e : Nat) : State :=
  let s := { s with restarts := s.restarts.erase e, asked := s.asked.filter (· != e), beats := s.beats.set 0 e s.time }
  if e < 0x2040 then
    let c := if e < 0x2000 then e - 0x1000 else 64 + (e - 0x2000) / 4
    s.mapCluster c fun x => { x with halted := s.tripped.get 0 (if clusterWest c then 1 else 0) != 0 }
  else s

/-- The next step of a restart. -/
def execEngineRestart (e : Nat) (s : State) : Out :=
  match s.restarts.get none e with
  | none => .refused .notEnabled
  | some n =>
    let on (s : State) : State := { s with restarts := s.restarts.insert e (some (n + 1)) }
    match n with
    | 0 => .next (on (s.isolate e))
    | 1 => .next (on ((engineCores e).foldl State.l1Flush s))
    | 2 => .next (on (s.resetUnit e))
    | 3 => .next (on s)
    | _ => .next (s.readmit e)

end Sys2Proof.Machine
end

