-- ==== Sys2Proof/Machine/Harts.lean ====
section
/-! DEFINITION. The application cores as the manual gives them: their six instructions, the exception they can raise, their waits, and
their accesses to memory (R19, R23, R284, R294, R494-R502). What else a hart executes is the RISC-V base, which the manual does not
describe. -/

namespace Sys2Proof.Machine

/-! ## Identity and registers -/

def portNum : HPort → Nat
  | .q0 => 0
  | .q1 => 1
  | .q4 => 4
  | .q5 => 5

def pushBits : PushW → Nat
  | .w16 => 16
  | .w32 => 32
  | .w64 => 64

/-- A hart that is enabled, started and not halted (R22, R488, R507). -/
def State.hartOn (s : State) (h : Nat) : Bool :=
  h < 24 && s.boot == .up && s.inv.units.getLsbD (32 + h) && s.tripped.get 0 (if h < 12 then 2 else 3) == 0 && (s.hart h).wait != .inReset

def Hart.reg (x : Hart) (r : Nat) : W64 := if r = 0 then 0 else x.x.get 0 r
def Hart.setReg (x : Hart) (r : Nat) (v : W64) : Hart := if r = 0 then x else { x with x := x.x.set 0 r v }

/-- A hart that executes in M or HS mode (R495). -/
def Hart.hyper (x : Hart) : Bool := x.mode != 0 && !x.guest

def State.hcpVi (s : State) (h : Nat) : Nat := bitsOf (s.cfgAt (hcpOff h 0)).toNat 12 4
def State.hcpCtx (s : State) (h : Nat) : Nat := bitsOf (s.cfgAt (hcpOff h 0)).toNat 0 12

/-- The owner identity of a hart's accesses (R283, R494). -/
def State.hartIdent (s : State) (h : Nat) : W16 := identity (s.hcpVi h) (if (s.hart h).guest then 0xFFE else 0xFFF)

/-- Who a hart is to the configuration space (R23, R504). -/
def State.hartParty (s : State) (h : Nat) : Party := if (s.hart h).hyper then .hyper else .vi (s.hcpVi h)

def State.mapHart (s : State) (h : Nat) (f : Hart → Hart) : State := s.setHart h (f (s.hart h))

/-! ## The L2 of an application core (R25, R256, R284, R298; log entry 13) -/

/-- Dirty lines that an L2 may hold: 2 MiB of 128 bytes. -/
def l2Capacity : Nat := 16384

/-- The dirty lines of hart h's L2, the oldest first. -/
def State.l2 (s : State) (h : Nat) : List L2Line := s.hl2.get [] h

/-- The oldest dirty line reaches its home: the hart's stores arrive there in its order, as a device-scope party's do (R256, R259). -/
def State.l2Oldest (s : State) (h : Nat) : State :=
  match s.l2 h with
  | [] => s
  | e :: l =>
    ({ s with hl2 := s.hl2.set [] h l } : State).writeHome
      (((List.range 128).filter e.mask.getLsbD).map fun i => (.mem (e.line * 128 + i), e.bytes.get 0 i)) e.owner true

/-- Every dirty line of a hart reaches its home: FENCE rw,rw, and a push or a release by the hart. -/
def State.l2Down (s : State) (h : Nat) : State := (s.l2 h).foldl (fun s _ => s.l2Oldest h) s

/-- What the other harts hold of a line is written back first: among themselves the harts are coherent (R256). -/
def State.l2Others (s : State) (h line : Nat) : State :=
  (List.range 24).foldl (fun s k => if k != h && (s.l2 k).any (fun e => e.line == line) then s.l2Down k else s) s

/-- The newest byte that a hart's L2 holds. -/
def State.l2Byte (s : State) (h pa : Nat) : Option Byte :=
  ((s.l2 h).reverse.find? fun e => e.line == pa / 128 && e.mask.getLsbD (pa % 128)).map fun e => e.bytes.get 0 (pa % 128)

/-- Bytes of one line enter a hart's L2 with the identity of the partition it is in; they join the newest entry where it is of their line
and owner. -/
def State.l2Write (s0 : State) (h pa : Nat) (bs : List Byte) : State :=
  let id := s0.hartIdent h
  let s := s0.l2Others h (pa / 128)
  let s := if (s.l2 h).length < l2Capacity then s else s.l2Oldest h
  let put (e : L2Line) : L2Line :=
    (bs.zip (List.range bs.length)).foldl (fun e x =>
      { e with bytes := Tbl.set 0 e.bytes (pa % 128 + x.2) x.1, mask := e.mask ||| (1#128 <<< (pa % 128 + x.2)) }) e
  let new : L2Line := put { line := pa / 128, bytes := [], mask := 0, owner := id }
  let l := match (s.l2 h).getLast? with
    | some e => if e.line = pa / 128 && e.owner = id then (s.l2 h).dropLast ++ [put e] else s.l2 h ++ [new]
    | none => [new]
  (({ s with hl2 := s.hl2.set [] h l } : State)).clearResv (some (pa / 128))

/-! ## Exceptions (R496; log entry 13) -/

/-- Entry into a trap of the RISC-V privileged architecture: to supervisor mode where medeleg delegates the cause, else to machine mode. -/
def Hart.trapTo (x : Hart) (deleg : Bool) (pc cause val : W64) : Hart :=
  if deleg then
    { x with sepc := pc, scause := cause, stval := val, spp := x.mode, spv := x.guest, spie := x.sie, sie := false, mode := 1, guest := false,
             pc := x.stvec &&& ~~~3#64, wait := .run }
  else
    { x with mepc := pc, mcause := cause, mtval := val, mpp := x.mode, mpv := x.guest, mpie := x.mie, mie := false, mode := 3, guest := false,
             pc := x.mtvec &&& ~~~3#64, wait := .run }

/-- The illegal-instruction exception: cause 2, the word in mtval or stval, no other effect. -/
def Hart.illegal (x : Hart) (w : W32) : Hart := x.trapTo (x.mode != 3 && x.medeleg.getLsbD 2) x.pc 2 (w.setWidth 64)

/-! ## The custom instructions -/

/-- A hart acts: it raises the exception where the port does not permit the instruction, and waits where it is told to. -/
def lzWord (i : Instr) (s : State) (f : Nat → Hart → Out) : Out :=
  match s.cur with
  | .hart h =>
    if !s.hartOn h then .refused .notActing
    else
      let x := s.hart h
      let ctl := s.cfgAt (hcpOff h 0)
      if !ctl.getLsbD 63 || (x.mode = 0 && !ctl.getLsbD 62) then .next (s.setHart h (x.illegal ((encode32 i).getD 0)))
      else f h x
  | _ => .refused .notActing

/-- The next instruction. -/
def Hart.go (x : Hart) : Hart := { x with pc := x.pc + 4, wait := .run }

/-- A stall that an interrupt can end. -/
def State.hartWait (s : State) (h : Nat) (w : HartWait) : Out := .next { s.mapHart h fun x => { x with wait := w } with held := true }

/-- LZ.PUSH (R497). -/
def execLzPush (w : PushW) (q : HPort) (rs1 : BitVec 5) (s : State) : Out :=
  lzWord (.lzPush w q rs1) s fun h x =>
    let k := hartStream h (portNum q)
    let y := s.stream k
    let ws := wordsOf (pushBits w) (x.reg rs1.toNat)
    if (!y.halted && 32 < y.buf.length + ws.length) || 65535 < y.outstanding + (ws.filter isLaunchWord).length then s.hartWait h .push
    else
      let id : Ident := { vi := s.hcpVi h, ctx := s.hcpCtx h, card := none, block := 0, who := h, spBase := 0, spSize := 0, array := 0,
                          span := false, win := (1, 0) }
      .next (((s.l2Down h).pushWords k (some id) ws none []).setHart h x.go)

/-- LZ.POP (R498). -/
def execLzPop (q : HPort) (rd : BitVec 5) (s : State) : Out :=
  lzWord (.lzPop q rd) s fun h x =>
    let k := hartStream h (portNum q)
    match (s.stream k).popRecord with
    | some (r, y) => .next ((s.setStream k y).setHart h (x.go.setReg rd.toNat r))
    | none => .next (s.setHart h (x.go.setReg rd.toNat 0xFF00000000000000))

/-- LZ.FENCE (R499). -/
def execLzFence (mask : BitVec 6) (s : State) : Out :=
  lzWord (.lzFence mask) s fun h x =>
    let qs := if mask = 0 then [0, 1, 4, 5] else [0, 1, 4, 5].filter mask.getLsbD
    if qs.all fun q => (s.stream (hartStream h q)).outstanding == 0 then .next (s.setHart h x.go) else s.hartWait h .fence

/-- LZ.SUBMIT (R501). -/
def execLzSubmit (arm : Bool) (rs1 rd : BitVec 5) (s : State) : Out :=
  lzWord (.lzSubmit arm rs1 rd) s fun h x =>
    let v := x.reg rs1.toNat
    let n := v.toNat
    if 1024 ≤ n || bitsOf (cardWord s n 0).toNat 58 4 != s.hcpVi h then .next (s.setHart h (x.go.setReg rd.toNat 4))
    else
      let s := s.l2Down h
      let (s, r) := s.release n s.time
      let s := if arm then (s.setCfg (cardOff n 0) (cardWord s n 0 ||| 0x8000000000000000)).arm n false else s
      let st : Nat := match r with
        | .started => 0
        | .pending => 1
        | .dropped => 2
        | .refused k => 3 + 256 * k
      .next (s.setHart h (x.go.setReg rd.toNat (BitVec.ofNat 64 st)))

/-- LZ.TIME (R502). -/
def execLzTime (rd : BitVec 5) (s : State) : Out :=
  lzWord (.lzTime rd) s fun h x => .next (s.setHart h (x.go.setReg rd.toNat s.time))

/-- What LZ.WAITQ finds (R500). -/
def execLzWaitq (q : HPort) (rs1 rd : BitVec 5) (s : State) : Out :=
  lzWord (.lzWaitq q rs1 rd) s fun h x =>
    let lim := x.reg rs1.toNat
    if !(s.stream (hartStream h (portNum q))).fifo.isEmpty then .next (s.setHart h (x.go.setReg rd.toNat 1))
    else if lim ≤ s.time then .next (s.setHart h (x.go.setReg rd.toNat 0))
    else s.hartWait h (.waitq q rd.toNat lim)

/-- A custom word that names no instruction (R496). -/
def execLzIllegalInstruction (w : W32) (s : State) : Out :=
  match s.cur with
  | .hart h => if s.hartOn h then .next (s.mapHart h fun x => x.illegal w) else .refused .notActing
  | _ => .refused .notActing

/-! ## What ends a wait (R497-R500) -/

/-- The limit of an LZ.WAITQ has come. -/
def execLzWaitqTimeLimit (h : Nat) (s : State) : Out :=
  let x := s.hart h
  match x.wait with
  | .waitq q rd lim =>
    if !s.hartOn h || s.time < lim || !(s.stream (hartStream h (portNum q))).fifo.isEmpty then .refused .notEnabled
    else .next (s.setHart h (x.go.setReg rd 0))
  | _ => .refused .notEnabled

/-- An interrupt of a hart that is pending, by its cause: the oldest message for the hart, of the supervisor file or of a guest file of its IMSIC
(R505), else one of a source that the manual does not describe (log entry 13). -/
def State.hartPending (s : State) (h : Nat) : Option W64 :=
  match s.intrs.find? (·.1 == h) with
  | some m => some (if m.2.1 = 0 then 0x8000000000000009 else 0x800000000000000C)
  | none => if (s.free 0x1B000021).getLsbD 0 then some (s.free 0x1B000020 ||| 0x8000000000000000) else none

/-- Interrupts to machine mode are enabled: below it always, in it by MIE (log entry 13). -/
def Hart.takes (x : Hart) : Bool := x.mode != 3 || x.mie

/-- An interrupt that is pending and enabled: LZ.WAITQ and WFI complete, LZ.PUSH and LZ.FENCE execute again after the trap. -/
def execHartInterrupt (h : Nat) (s : State) : Out :=
  let x := s.hart h
  match if s.hartOn h && x.takes then s.hartPending h else none with
  | none => .refused .notEnabled
  | some cause =>
    let y := match x.wait with
      | .waitq q rd _ => x.go.setReg rd (if (s.stream (hartStream h (portNum q))).fifo.isEmpty then 0 else 1)
      | .wfi => x.go
      | _ => x
    let sent : List (Nat × Nat × Nat) := match s.intrs.findIdx? (·.1 == h) with
      | some i => s.intrs.eraseIdx i
      | none => s.intrs
    .next ({ s with intrs := sent }.setHart h (y.trapTo false y.pc cause 0))

/-! ## Accesses (R23, R284, R294) -/

/-- Bytes of one line at a physical address as hart h reads them, or what they meet. -/
def State.hartBytes (s : State) (h pa n : Nat) : State × List Byte × Meet :=
  let s := s.l2Others h (pa / 128)
  match s.readHome (placesOf pa n) (s.hartIdent h) true with
  | (s, bs, .data) => (s, (bs.zip (List.range n)).map fun e => (s.l2Byte h (pa + e.2)).getD e.1, .data)
  | (s, bs, .dram) => ({ s with ue := s.ue ++ [{ pa := pa / 128 * 128, slot := none, owner := none, stage := 1 }] }, bs, .dram)
  | r => r

/-- What a hart's read of a physical address takes: data, or a machine check. -/
def State.hartRead (s : State) (h pa n : Nat) : State × Option W64 :=
  match placeOf pa with
  | .dev o =>
    let (s, x) := s.readReg (s.hartParty h) o n
    (s, some x)
  | _ =>
    match s.hartBytes h pa n with
    | (s, bs, .data) => (s, some (BitVec.ofNat 64 (ofBytes bs)))
    | (s, _, _) => (s, none)

/-! ## Translation of a hart's own accesses (R399; log entry 51) -/

/-- What a hart's access asks of a leaf. -/
inductive HNeed where | r | w | x deriving DecidableEq, Repr

/-- Cause of a page fault, or of a guest page fault. -/
def HNeed.cause (n : HNeed) (guest : Bool) : Nat :=
  match n with
  | .x => if guest then 20 else 12
  | .r => if guest then 21 else 13
  | .w => if guest then 23 else 15

/-- How a translation ends: a physical address, a page fault, or a machine check at an address. -/
inductive HXl where
  | ok (pa : Nat)
  | fault (guest : Bool)
  | check (pa : Nat)
  deriving DecidableEq, Repr

/-- A leaf of Sv48 grants an access in user mode or supervisor mode; A must be set, and D for a store. -/
def svGrants (e : W64) (n : HNeed) (user : Bool) : Bool :=
  e.getLsbD 4 == user && e.getLsbD 6 &&
  (match n with
   | .r => e.getLsbD 1
   | .w => e.getLsbD 2 && e.getLsbD 7
   | .x => e.getLsbD 3)

/-- The walk of a Sv48 table from a node of level `l`; `node` gives the physical address of a table entry, which a guest's second stage
translates. -/
def State.svWalk (h : Nat) (stage : State → Nat → State × HXl) (n : HNeed) (user : Bool) (va : Nat) : Nat → Nat → Nat → State → State × HXl
  | 0, _, _, s => (s, .fault false)
  | fuel + 1, top, node, s =>
    let lo := 12 + 9 * fuel
    match stage s (node + 8 * bitsOf va lo top) with
    | (s, .ok pa) =>
      match s.hartRead h pa 8 with
      | (s, none) => (s, .check pa)
      | (s, some e) =>
        if !e.getLsbD 0 || (!e.getLsbD 1 && e.getLsbD 2) || e.extractLsb' 54 10 != 0 then (s, .fault false)
        else
          let addr := bitsOf e.toNat 10 44 * 4096
          if e.getLsbD 1 || e.getLsbD 3 then
            (s, if !svGrants e n user || addr % 2 ^ lo != 0 then .fault false else .ok (addr + va % 2 ^ lo))
          else s.svWalk h stage n user va fuel 9 addr
    | r => r

/-- Table root of an address-translation register whose mode is Sv48. -/
def svRoot (x : W64) : Option Nat := if x.extractLsb' 60 4 = 9 then some (bitsOf x.toNat 0 44 * 4096) else none

/-- The second stage of a guest's access: 50 bits through hgatp. -/
def State.gStage (h : Nat) (n : HNeed) (s : State) (gpa : Nat) : State × HXl :=
  match svRoot (s.hart h).hgatp with
  | none => (s, .ok gpa)
  | some root =>
    if 2 ^ 50 ≤ gpa then (s, .fault true)
    else match s.svWalk h (fun s pa => (s, .ok pa)) n true gpa 4 11 (root / 16384 * 16384) with
      | (s, .fault _) => (s, .fault true)
      | r => r

/-- Where an access of hart h falls: machine mode translates nothing, a guest goes through both stages. -/
def State.hartXl (s : State) (h : Nat) (n : HNeed) (va : W64) : State × HXl :=
  let x := s.hart h
  if x.mode = 3 then (s, .ok va.toNat)
  else
    let stage : State → Nat → State × HXl := if x.guest then State.gStage h .r else fun s pa => (s, .ok pa)
    let last (r : State × HXl) : State × HXl := match r with
      | (s, .ok pa) => if x.guest then State.gStage h n s pa else (s, .ok pa)
      | r => r
    match svRoot (if x.guest then x.vsatp else x.satp) with
    | none => last (s, .ok va.toNat)
    | some root =>
      if (va.setWidth 48 : BitVec 48).signExtend 64 != va then (s, .fault false)
      else last (s.svWalk h stage n (x.mode == 0) va.toNat 4 9 root)

/-- A page fault of a hart, or its machine check. -/
def State.hartFault (s : State) (h : Nat) (n : HNeed) (va : W64) (r : HXl) : State :=
  match r with
  | .ok _ => s
  | .check pa => s.machineCheck h pa
  | .fault guest =>
    let c := n.cause guest
    s.mapHart h fun x => x.trapTo (x.mode != 3 && x.medeleg.getLsbD c) x.pc (BitVec.ofNat 64 c) va

/-- Nothing exists at a physical address. -/
def nowhere (pa : Nat) : Bool := 2 ^ 52 ≤ pa || placeOf pa == .dev 0x1000000

/-- What a hart's load finds, one line after the other. -/
def State.hartLoad (s : State) (h : Nat) (va : W64) (n : Nat) (k : State → W64 → Out) : Out :=
  match s.hartXl h .r va with
  | (s, .ok pa) =>
    if nowhere pa then .fault (.noStorage pa)
    else
      let dev := match placeOf pa with | .dev _ => true | _ => false
      if dev then (match s.hartRead h pa n with | (s, x) => k s (x.getD 0))
      else if 8 < n then .refused .notEnabled
      else
        let m := Nat.min n (128 - pa % 128)
        match s.hartRead h pa m with
        | (s, none) => .next (s.machineCheck h pa)
        | (s, some x) =>
          if m = n then k s x
          else match s.hartXl h .r (va + BitVec.ofNat 64 m) with
            | (s, .ok pb) =>
              if nowhere pb then .fault (.noStorage pb)
              else match s.hartRead h pb (n - m) with
                | (s, none) => .next (s.machineCheck h pb)
                | (s, some y) => k s (BitVec.ofNat 64 (x.toNat + y.toNat * 2 ^ (8 * m)))
            | (s, r) => .next (s.hartFault h .r (va + BitVec.ofNat 64 m) r)
  | (s, r) => .next (s.hartFault h .r va r)

/-- Bytes of a hart's store, all in one line, at a physical address: memory behind its L2, the peer's window or a register. -/
def State.hartPut (s : State) (h pa : Nat) (bs : List Byte) : State :=
  match placeOf pa with
  | .mem _ => s.l2Write h pa bs
  | .dev o => (s.l2Down h).writeReg (s.hartParty h) o bs.length (BitVec.ofNat 64 (ofBytes bs))
  | _ => (s.l2Down h).writeHome ((placesOf pa bs.length).zip bs) (s.hartIdent h) true

/-- A hart's store, one line after the other. -/
def State.hartStore (s : State) (h : Nat) (va : W64) (bs : List Byte) : Out :=
  match s.hartXl h .w va with
  | (s, .ok pa) =>
    if nowhere pa then .fault (.noStorage pa)
    else
      let dev := match placeOf pa with | .dev _ => true | _ => false
      let m := if dev then bs.length else Nat.min bs.length (128 - pa % 128)
      if m = bs.length then .next (s.hartPut h pa bs)
      else match s.hartXl h .w (va + BitVec.ofNat 64 m) with
        | (s, .ok pb) => if nowhere pb then .fault (.noStorage pb) else .next ((s.hartPut h pa (bs.take m)).hartPut h pb (bs.drop m))
        | (s, r) => .next (s.hartFault h .w (va + BitVec.ofNat 64 m) r)
  | (s, r) => .next (s.hartFault h .w va r)

/-- A load, a store or a fence of a hart that runs, a write-back of its L2, or a write of what translates its accesses. A hart in WFI or in a
wait makes no access (R19). -/
def execApplicationCoreAccess (h : Nat) (acc : HartAcc) (s : State) : Out :=
  let runs := s.hartOn h && (s.hart h).wait == .run
  match acc with
  | .load va n rd =>
    if !runs || n = 0 then .refused .notEnabled
    else s.hartLoad h (BitVec.ofNat 64 va) n fun s x => .next (s.mapHart h fun y => y.setReg rd x)
  | .store va n x =>
    if !runs || n = 0 then .refused .notEnabled
    else s.hartStore h (BitVec.ofNat 64 va) (toBytes x.toNat n)
  | .fence => if runs then .next (s.l2Down h) else .refused .notEnabled
  | .writeback => if (s.l2 h).isEmpty then .refused .notEnabled else .next (s.l2Oldest h)
  | .translate i x =>
    -- a mode that is neither Bare nor Sv48 is not taken
    if !runs || (s.hart h).mode = 0 || ((s.hart h).guest && i != 1) || !(x.extractLsb' 60 4 = 0 || x.extractLsb' 60 4 = 9) then .refused .notEnabled
    else .next (s.mapHart h fun y => match i with
      | 0 => { y with satp := x }
      | 1 => { y with vsatp := x }
      | _ => { y with hgatp := x })

end Sys2Proof.Machine
end

