-- ==== Sys2Proof/Machine/Boot.lean ====
section
/-! DEFINITION. Boot, the fabric's tables, the interfaces' units, the log's flash, and register writes without a row of their own
(R4, R23, R436-R442, R452, R453, R493, R495, R503, R506-R508). -/

namespace Sys2Proof.Machine

/-! ## The fabric (R436-R442, R452, R453) -/

/-- The enabled cores, by number. -/
def State.coresOn (s : State) : List Nat :=
  (List.range 128).filter fun u => if u < 64 then s.inv.simt.getLsbD u else s.tileOn (u - 64)

/-- Device course index of the station of a core (R12, R20). -/
def stationOf (u : Nat) : Nat :=
  let c := if u < 64 then u else 64 + groupOf u
  (if clusterWest c then 12 else 0) + clusterCourse c - 1

/-- Position of a station on a gutter; the bridge counts as four positions (R436). -/
def gutterPos (west : Bool) (i : Nat) : Nat :=
  if west then (if i < 12 then 27 - i else 23 - i) else if i < 12 then i else i + 4

/-- Two reservations of one slot whose spans, from injection to ejection, overlap (R437). -/
def RafterEntry.meets (a b : RafterEntry) : Bool :=
  a.west == b.west && a.lane == b.lane && a.wave == b.wave &&
  gutterPos a.west a.inject ≤ gutterPos b.west b.eject && gutterPos b.west b.inject ≤ gutterPos a.west a.eject

/-- The gutters that lead from one core to another; either leads to a core of the same station (R15). -/
def gutterWays (a b : Nat) : List Bool :=
  if stationOf a < stationOf b then [false] else if stationOf b < stationOf a then [true] else [false, true]

/-- The slots of lanes in service in which the span of a pair still fits, first by wave and then by lane. -/
def State.slotsFor (s : State) (t : List RafterEntry) (ways : List Bool) (a b : Nat) : List RafterEntry :=
  let out := s.cfgAt 0xFC000 ||| s.dying
  (List.range 1024).flatMap fun wave => (List.range 32).flatMap fun lane => ways.filterMap fun west =>
    let e : RafterEntry := { west := west, lane := lane, wave := wave, score := a, dcore := b, inject := stationOf a, eject := stationOf b }
    if out.getLsbD (lane + if west then 32 else 0) || t.any e.meets then none else some e

/-- The ordered pairs of enabled cores in the order of their pair numbers. -/
def State.corePairs (s : State) : List (Nat × Nat) := s.coresOn.flatMap fun a => (s.coresOn.filter (· != a)).map fun b => (a, b)

/-- Stage 1: each pair has one slot on each gutter that leads from its source to its destination (R438). Which slot it is is open. The pairs come in
the order of their first positions: so a pair finds a slot, whatever slots the others took, unless more spans meet in one position than a gutter
has lanes and waves. -/
def State.rafterFirst (s : State) : List RafterEntry :=
  [false, true].foldl (fun t west =>
    let from_ (p : Nat × Nat) : Nat := gutterPos west (stationOf p.1)
    let ps := s.corePairs.filter fun p => (gutterWays p.1 p.2).contains west
    (sortBy (fun a b => decide (from_ a ≤ from_ b)) ps).foldl (fun t p =>
      let l := s.slotsFor t [west] p.1 p.2
      match l[Config.firstSlot s.clock (128 * p.1 + p.2) west % l.length]? with
      | some e => t ++ [e]
      | none => t) t) []

/-- Stage 2: the pairs in turn take the first slot in which their span fits, until no pair's fits anywhere (R438). -/
def State.rafterFill (s : State) : Nat → List RafterEntry → List RafterEntry
  | 0, t => t
  | fuel + 1, t =>
    let t2 := s.corePairs.foldl (fun t p => match s.slotsFor t (gutterWays p.1 p.2) p.1 p.2 with
      | e :: _ => t ++ [e]
      | [] => t) t
    if t2.length = t.length then t else s.rafterFill fuel t2

/-- The fewest slots that a pair holds (R442). -/
def State.minSlots (s : State) (t : List RafterEntry) : Nat :=
  match s.corePairs.map fun p => (t.filter fun e => e.score == p.1 && e.dcore == p.2).length with
  | [] => 0
  | n :: l => l.foldl Nat.min n

/-- The rafter table is compiled over the lanes in service and switches; GEN, MINSLOT and BUSY follow. No turn of stage 2 but the last leaves
the table as it was, so there are fewer turns than slots and stations. -/
def State.compileRafter (s : State) : State :=
  let table := s.rafterFill (2 * 32 * 1024 * 24) s.rafterFirst
  let gen := bitsOf (s.cfgAt 0xFC008).toNat 32 16
  -- the register holds the lanes out of service
  let s := s.setCfg 0xFC000 (s.cfgAt 0xFC000 ||| s.dying)
  { s.setCfg 0xFC008 (BitVec.ofNat 64 ((gen + 1) % 65536 * 2 ^ 32 + s.minSlots table % 65536 * 65536)) with
    rafter := table, pause := false, dying := 0 }

/-- A flit of a batch entry, or of its acknowledgement, that left before the pause and has not arrived. -/
def State.entryInTransit (s : State) (m : BatchMsg) : Bool := !m.lost && !s.heldBack (m.acked.getD m.sent)

/-- A request of an access, or its reply, that left before the pause and has not arrived. -/
def State.accessInTransit (s : State) (t : Nat) (th : Thread) (p : Pend) : Bool :=
  !p.weir &&
  if p.mem_ && !p.done then
    p.rides && p.lostAs != 1 && !s.heldBack p.sent && s.mayPerform t p && (p.remote || s.portReady t th p)
  else p.circ.isSome && p.lostAs == 0 && s.awaitsReply t p && !s.heldBack p.back && s.portReady t th p

/-- The accesses with a flit in transit. -/
def State.inTransit (s : State) : List (Nat × Nat) := s.threads.flatMap fun e => match e.2 with
  | some th => (th.pend.filter fun p => s.accessInTransit e.1 th p).map fun p => (e.1, p.id)
  | none => []

/-- The flits in transit have drained: a dead lane leaves FAB_LIVE, the compilation over the lanes that remain completes, and injection
resumes. -/
def execRafterRecompile (s : State) : Out :=
  if s.pause && s.boot != .stopped && !s.batches.any s.entryInTransit && s.inTransit.isEmpty then .next s.compileRafter
  else .refused .notEnabled

/-- The flit of an access that is lost: its reply where it has performed, else its request or its reply (R454). A subscription whose request is
lost is not made. -/
def State.loseAccess (s : State) (n : Nat) (a : Nat × Nat) : State :=
  match s.pend? a.1 a.2 with
  | none => s
  | some (_, p) =>
    let how := if p.done && p.mem_ then 2 else if (s.free (0x1C200000 + n)).getLsbD 0 then 1 else 2
    (if how = 1 then s.undoSub p else s).setPend a.1 { p with lostAs := how }

/-- What loses a flit: of a flit that is discarded at most one batch entry, acknowledgement, request or reply, of those in a dead lane any
(R452, R453). Which is open. -/
def State.loseFlits (s : State) (one : Bool) : State :=
  let n := s.batches.length
  let acs := s.inTransit
  let pick (i : Nat) : Bool :=
    if one then (s.free 0x1C000030).toNat % (n + acs.length + 1) == i else (s.free (0x1C100000 + i)).getLsbD 0
  let hit (e : BatchMsg × Nat) : BatchMsg := if pick e.2 && s.entryInTransit e.1 then { e.1 with lost := true } else e.1
  let s := { s with batches := (s.batches.zip (List.range n)).map hit }
  (acs.zip (List.range acs.length)).foldl (fun s e => if pick (n + e.2) then s.loseAccess e.2 e.1 else s) s

/-- The whole ring is in the flash (R493). -/
def State.persist (s : State) : State :=
  if s.silt.isEmpty then s
  else
    let l := s.silt.map fun e => { e with persisted := true }
    -- the flash keeps each entry at its place in the ring
    { s with silt := l, siltFlash := if l.length < 4096 then l else l.rotateLeft (s.siltCount % 4096) }

/-- A gutter without a lane: a fatal event, whose entry the manual names no code for; both dies halt, and the log is persisted (R452, R493). -/
def State.haltDies (s : State) : State :=
  let s := s.fatalEntry
  let s := (List.range 96).foldl (fun s c => s.mapCluster c fun x => { x with halted := true }) s
  { s.persist with boot := .stopped, tripped := ((s.tripped.set 0 0 1).set 0 1 1) }

/-- A station finds a lane dead: injection pauses, and the flits in that lane are lost. -/
def execDeadLane (west : Bool) (lane : Nat) (s : State) : Out :=
  if 32 ≤ lane then .refused .notEnabled
  else
    let b := lane + (if west then 32 else 0)
    let s := (s.setCfg 0xFC008 (s.cfgAt 0xFC008 ||| 1)).loseFlits false
    let s := { s with pause := true, pausedAt := if s.pause then s.pausedAt else s.time, dying := s.dying ||| (1#64 <<< b) }
    let dead := s.cfgAt 0xFC000 ||| s.dying
    .next (if (if west then dead.extractLsb' 32 32 else dead.extractLsb' 0 32) = BitVec.allOnes 32 then s.haltDies else s)

/-- A station checks the header of a flit. -/
def execGutterFlitArrival (st : Nat) (west : Bool) (lane errs : Nat) (s : State) : Out :=
  if 24 ≤ st || 32 ≤ lane then .refused .notEnabled
  else
    let x := s.cfgAt 0xFC010
    if errs = 0 then .next s
    else if errs = 1 then .next (s.setCfg 0xFC010 ((x &&& 0xFFFFFFFF00000000) ||| ((x + 1) &&& 0xFFFFFFFF)))
    else .next (((s.setCfg 0xFC010 (x + 0x100000000)).loseFlits true).log 0x0460 (0x4000 + st) 0xFFFF
      (BitVec.ofNat 64 (st * 256 + (if west then 32 else 0) + lane)) (s.openArg 0))

/-! ## Units and ports (R495, R503) -/

def execHcpCtl (who : Party) (hart : Nat) (x : W64) (s : State) : Out :=
  if 24 ≤ hart then .refused .notEnabled else .next (s.writeReg who (hcpOff hart 0) 8 x)

def execHcpSem (who : Party) (hart n : Nat) (x : W64) (s : State) : Out :=
  if 24 ≤ hart || 16 ≤ n then .refused .notEnabled else .next (s.writeReg who (hcpOff hart (0x40 + 8 * n)) 8 x)

/-- A write of VI_SIMT or of VI_TILE. -/
def execViSimt (who : Party) (v : Nat) (tile : Bool) (x : W64) (s : State) : Out :=
  if 16 ≤ v then .refused .notEnabled else .next (s.writeReg who (viOff v + if tile then 8 else 0) 8 x)

/-- The pending changes of an interface whose units have become empty take effect. -/
def execViUnitHandover (v : Nat) (s : State) : Out :=
  let now := s.handover.filter fun p => p.1 == v && !s.unitHolds p.2.1
  if now.isEmpty then .refused .notEnabled
  else
    let s := { s with handover := s.handover.filter fun p => !now.contains p }
    .next (now.foldl (fun s p =>
      if p.2.2 && (match s.unitOwner p.2.1 with | some w => w != v | none => false) then s else s.setUnit v p.2.1 p.2.2) s)

/-! ## The log's flash (R493) -/

/-- After a fatal event the ring is persisted. -/
def execSiltPersist (s : State) : Out :=
  if s.silt.any fun e => e.fatal && !e.persisted then .next s.persist else .refused .notEnabled

/-! ## Boot (R506-R508) -/

/-- The 32-bit field of an image's header at an offset: 0 the kind, 4 the version, 8 the payload's length. -/
def imageField (i : Image) (o : Nat) : Nat := ofBytes ((i.head.drop o).take 4)

/-- The header is laid out as R506 gives it: a kind from 1 to 4, the length of the payload that follows, and zeros. -/
def imageHeaderOk (i : Image) : Bool :=
  i.head.length == 64 && 1 ≤ imageField i 0 && imageField i 0 ≤ 4 && imageField i 8 == i.payload.length && (i.head.drop 12).all (· == 0)

/-- The 64-bit words of an image's payload. -/
def imageWords (i : Image) : List W64 :=
  (List.range (i.payload.length / 8)).map fun n => BitVec.ofNat 64 (ofBytes ((i.payload.drop (8 * n)).take 8))

/-- An image that is accepted. -/
def State.accepts (s : State) (i : Image) : Bool :=
  i.edOk && i.mlOk && imageHeaderOk i && s.inv.minVersion.get 0 (imageField i 0) ≤ imageField i 4

/-- The image of a kind, if the flash holds an acceptable one. -/
def State.image (s : State) (flash : List Image) (kind : Nat) : Option Image := (flash.find? fun i => imageField i 0 == kind).bind fun i =>
  if s.accepts i then some i else none

/-- The inventory record as its payload gives it: the three masks, the ways of the slices, the least versions of the kinds 1 to 4
(log entry 14). What it does not give stays. -/
def Inventory.load (x : Inventory) (p : List W64) : Inventory :=
  { x with
    simt := p.getD 0 x.simt, tile := p.getD 1 x.tile, units := p.getD 2 x.units &&& 0x00FFFFFFC000FFFF
    ways := (List.range 32).foldl (fun t i => match p[3 + i]? with | some w => t.set 0xFFFF i (w.setWidth 16) | none => t) x.ways
    minVersion := (List.range 4).foldl (fun t i => match p[35 + i]? with | some w => t.set 0 (1 + i) w.toNat | none => t) x.minVersion }

/-- The boot stops (R508): the log is persisted, the fault output asserted, and no die stays powered. -/
def State.bootFail (s : State) : State := { (s.log 0x0482 0 0xFFFF (s.openArg 0) (s.openArg 1)).persist with boot := .failed, gpio := true }

/-- The hart image at its place: the first word of the payload is its entry, the bytes after it follow from there (log entry 14). -/
def State.startImage (s : State) (i : Image) : State :=
  let entry := (imageWords i).headD 0
  let bs := i.payload.drop 8
  let s := s.setHomes ((placesOf entry.toNat bs.length).zip bs)
  s.setHart 0 { freshHart with pc := entry, wait := .run }

/-- Power-good: the island and device time start afresh (R472, R492, R507). -/
def State.powerGood (s : State) : State :=
  { s with time := 0, timeFrac := 0, edge := 0, beats := [], asked := [], gpio := false, silt := [], siltCount := 0, siltRead := 0 }

/-- Boot from power-good: the images of the flash, and whether the steps without an image succeed. -/
def execPowerGoodBoot (flash : List Image) (stepsOk : Bool) (s : State) : Out :=
  if s.boot != .off then .refused .notEnabled
  else
    let s := s.powerGood
    match s.image flash 3 with
    | none => .next s.bootFail
    | some inv =>
      let s := { s with inv := s.inv.load (imageWords inv) }
      match s.image flash 1, s.image flash 2, s.image flash 4 with
      | some _, some _, some i =>
        if !stepsOk then .next s.bootFail
        else
          let live := (imageWords inv).getD 39 (BitVec.allOnes 64)
          .next ({ (s.setCfg 0xFC000 (~~~live)).compileRafter with boot := .up }.startImage i)
      | _, _, _ => .next s.bootFail

/-- A recovery image after a failed boot: one that verifies lets the part boot again. -/
def execRecoveryImage (img : Image) (s : State) : Out :=
  if s.boot != .failed then .refused .notEnabled
  else .next (if s.accepts img then { s with boot := .off } else s)

/-! ## Other registers -/

/-- A write to a register that has no row of its own. -/
def execRegisterWrite (who : Party) (off : Nat) (x : W64) (s : State) : Out := .next (s.writeReg who off 8 x)

end Sys2Proof.Machine
end

