-- ==== Sys2Proof/Machine/LaneNet.lean ====
section
/-! DEFINITION. The lane network and MOVS (R145, R148-R154). -/

namespace Sys2Proof.Machine

/-- The threads that supply the lanes of the span, in member order: one warp, or every declared member of the sheaf, one that has exited
too (R148). -/
def spanOf (s : State) (c : Ctx0) : List Nat :=
  if c.scp = .sheaf then
    match (s.thread? c.t).bind fun th => s.block? th.block with
    | some b =>
      (b.thr.zip (List.range b.thr.length)).filterMap fun e =>
        if (b.sheaf c.sheaf).members.getLsbD e.2 then
          some (if e.1 = goneKey then goneLane e.2 else if c.t % 2 = 1 && isTile c.t then e.1 + 1 else e.1) else none
    | none => [c.t]
  else [c.t]

/-- Lanes of one thread in a span: 32, or the one of a sequencer. -/
def laneCount (c : Ctx0) : Nat := if isTile c.t then 1 else 32

/-- A value of lane L of the span. -/
def spanVal (c : Ctx0) (span : List Nat) (v : Opd) (L : Nat) : W64 := v (span.getD (L / laneCount c) c.t) (L % laneCount c)

/-- Position of a member's lane in the span. -/
def spanPos (c : Ctx0) (span : List Nat) (m l : Nat) : Nat := span.idxOf m * laneCount c + l

/-- The active lanes of the span, in lane order. -/
def spanActive (c : Ctx0) (span : List Nat) : List (Nat × Nat) :=
  span.flatMap fun m => (lanesOf (c.active m)).map fun l => (m, l)

/-- A scalar-like result that is written even with no lane active (R152, R153). -/
def deliverAlways (s : State) (c : Ctx0) (h : Hdr) (a w : Nat) (x : W64) : Res :=
  if 96 ≤ a && a < 112 then
    pushNow s c h (a - 96) w x []
  else .adv (deliver s c h 0 (sclWrites s c a x) [])

/-- MOVS (R145). The lane number b is taken as unsigned before its modulo, which the manual leaves open (DESIGN CHOICE, log entry 64). -/
def execMovs (h : Hdr) (w64 lo : Bool) (d a : BitVec 8) (b : Src) (s : State) : Out :=
  let w := wid w64
  let xs : List (Src × Nat) := if lo then [(.vec a, w)] else [(.vec a, w), (b, w)]
  issue 0x25 h ([.dst (.scl d) w, .src 34 (.vec a) w false] ++ (if lo then [] else [.src 44 b w false])) noExtra
    (fun c s =>
      withSrcs c s xs fun vs s' =>
        let span := spanOf s c
        let va := vs.getD 0 fun _ _ => 0
        match spanActive c span with
        | [] => .adv s'
        | (m, l) :: _ =>
          let src := if lo then spanPos c span m l
            else (uns w ((vs.getD 1 fun _ _ => 0) m l)) % (laneCount c * span.length)
          deliverDst s' c h (.scl d) w 0 (fun _ _ => spanVal c span va src) []) s

/-- The source lane of SHFL for a lane, where there is one (R150). -/
def shflSrc (mode : ShflMode) (seg span i b : Nat) : Option Nat :=
  let S := if seg = 0 then span else 2 ^ seg
  let base := if seg = 0 then 0 else i - i % S
  let pos := i - base
  let src : Option Nat := match mode with
    | .idx => some b
    | .up => if b ≤ pos then some (pos - b) else none
    | .dn => some (pos + b)
    | .bfly => some (pos ^^^ b)
  match src with
  | some x => if x < S && base + x < span then some (base + x) else none
  | none => none

/-- SHFL (R150). A scalar-like destination, which R68 permits, receives the value of the lowest active lane (log entry 49). -/
def execShfl (h : Hdr) (mode : ShflMode) (seg : BitVec 4) (w64 : Bool) (d : Dst) (a b : Src) (s : State) : Out :=
  let w := wid w64
  issue 0x70 h [.dst d w, .src 34 a w false, .src 44 b w true]
    (fun c _ => if seg != 0 && laneCount c * (spanOf s c).length < 2 ^ seg.toNat then
        some (if c.scp = .sheaf then 0x110 else 55) else none)
    (fun c s =>
      withSrcs c s [(a, w), (b, w)] fun vs s' =>
        let span := spanOf s c
        let va := vs.getD 0 fun _ _ => 0
        let vb := vs.getD 1 fun _ _ => 0
        deliverDst s' c h d w 0
          (fun m l =>
            let i := spanPos c span m l
            match shflSrc mode seg.toNat (laneCount c * span.length) i (uns w (vb m l)) with
            | some j => spanVal c span va j
            | none => va m l) []) s

/-- PERM (R151). A scalar-like destination, which R68 permits, receives the value of the lowest active lane (log entry 49). -/
def execPerm (h : Hdr) (mi : BitVec 4) (d : Dst) (a b : Src) (s : State) : Out :=
  issue 0x71 h [.dst d 32, .src 34 a 32 false, .src 44 b 32 false]
    (fun c _ =>
      if c.scp = .sheaf then (if (spanOf s c).length ≤ mi.toNat then some 0x110 else none)
      else if mi != 0 then some 52 else none)
    (fun c s =>
      withSrcs c s [(a, 32), (b, 32)] fun vs s' =>
        let span := spanOf s c
        let va := vs.getD 0 fun _ _ => 0
        let vb := vs.getD 1 fun _ _ => 0
        let table (x : Nat) : Nat := ((va (span.getD mi.toNat c.t) (x / 4)).toNat / 2 ^ (8 * (x % 4))) % 256
        deliverDst s' c h d 32 0
          (fun m l => BitVec.ofNat 64 (ofBytes ((List.range 4).map fun e =>
            let sel := ((vb m l).toNat / 2 ^ (8 * e)) % 256
            BitVec.ofNat 8 (if 128 ≤ sel then 0 else table (sel % 128))))) []) s

/-- The value of a VOTE over the active lanes (R152). -/
def voteVal (s : State) (c : Ctx0) (span : List Nat) (k : VoteKind) (v : Opd) : W64 :=
  let act := spanActive c span
  let holds (p : BitVec 3) (e : Nat × Nat) : Bool := hasLane (readPred s e.1 p.toNat) e.2
  let bit (b : Bool) : W64 := if b then 1 else 0
  match k with
  | .all p => bit (act.all (holds p))
  | .any p => bit (act.any (holds p))
  | .ballot p =>
    BitVec.ofNat 64 (if c.scp = .sheaf then
      (List.range span.length).foldl (fun n i => if act.any (fun e => e.1 == span.getD i c.t && holds p e) then n + 2 ^ i else n) 0
    else act.foldl (fun n e => if holds p e then n + 2 ^ e.2 else n) 0)
  | .uni _ _ => match act with
    | [] => 1
    | e :: _ => bit (act.all fun x => v x.1 x.2 == v e.1 e.2)

/-- VOTE (R152). The result that it pushes to a port is pushed at 64 bits, the width that the manual leaves open (DESIGN CHOICE, log entry 66). -/
def execVote (h : Hdr) (k : VoteKind) (d : PDst) (s : State) : Out :=
  let src : List (Src × Nat) := match k with
    | .uni w64 a => [(a, wid w64)]
    | _ => []
  let us : List Use := (match k with
    | .uni w64 a => [.src 34 a (wid w64) false]
    | _ => []) ++ (match d with
    | .pred _ => []
    | .scl d => [.dst (.scl d) 64])
  issue 0x72 h us noExtra
    (fun c s =>
      withSrcs c s src fun vs s' =>
        let x := voteVal s c (spanOf s c) k (vs.getD 0 fun _ _ => 0)
        match d with
        | .pred p => if c.idle then .adv s' else .adv (deliver s' c h 0 (predWrites c p.toNat fun _ _ => x != 0) [])
        | .scl d => deliverAlways s' c h d.toNat 64 x) s

def redIdentity (op : RedOp) (w : Nat) : W64 :=
  match op with
  | .add => 0
  | .smin => BitVec.ofNat 64 (2 ^ (w - 1) - 1)
  | .smax => BitVec.ofNat 64 (2 ^ (w - 1))
  | .umin => BitVec.ofNat 64 (2 ^ w - 1)
  | .umax => 0
  | .and => BitVec.ofNat 64 (2 ^ w - 1)
  | .or => 0
  | .xor => 0

/-- One step of XRED or XSCAN (R153). -/
def redStep (op : RedOp) (w : Nat) (x y : W64) : W64 :=
  match op with
  | .add => lowW w (x + y)
  | .smin => if sgn w y < sgn w x then y else x
  | .smax => if sgn w x < sgn w y then y else x
  | .umin => if uns w y < uns w x then y else x
  | .umax => if uns w x < uns w y then y else x
  | .and => x &&& y
  | .or => x ||| y
  | .xor => x ^^^ y

/-- The combination over the active lanes before position `upto` of the span. -/
def scanVal (c : Ctx0) (span : List Nat) (op : RedOp) (w : Nat) (v : Opd) (upto : Nat) : W64 :=
  (spanActive c span).foldl (fun x e => if spanPos c span e.1 e.2 < upto then redStep op w x (lowW w (v e.1 e.2)) else x)
    (redIdentity op w)

/-- The operations that read their operand as unsigned (R129, R153). -/
def redUns (op : RedOp) : Bool := op == .umin || op == .umax

/-- XRED (R153). -/
def execXred (h : Hdr) (op : RedOp) (w64 : Bool) (d : Dst) (a : Src) (s : State) : Out :=
  let w := wid w64
  issue 0x73 h [.dst d w, .src 34 a w (redUns op)] noExtra
    (fun c s =>
      withSrcs c s [(a, w)] fun vs s' =>
        let span := spanOf s c
        let x := scanVal c span op w (vs.getD 0 fun _ _ => 0) (laneCount c * span.length)
        match d with
        | .vec _ => deliverDst s' c h d w 0 (fun _ _ => x) []
        | .scl d => deliverAlways s' c h d.toNat w x) s

/-- XSCAN (R153). -/
def execXscan (h : Hdr) (op : RedOp) (w64 ex : Bool) (d : BitVec 8) (a : Src) (s : State) : Out :=
  let w := wid w64
  issue 0x74 h [.dst (.vec d) w, .src 34 a w (redUns op)] noExtra
    (fun c s =>
      withSrcs c s [(a, w)] fun vs s' =>
        let span := spanOf s c
        deliverDst s' c h (.vec d) w 0
          (fun m l => scanVal c span op w (vs.getD 0 fun _ _ => 0) (spanPos c span m l + (if ex then 0 else 1))) []) s

/-- XADD: the sums land with the counter, which is read as they land (R125, R154). -/
def execXadd (h : Hdr) (w64 : Bool) (d : BitVec 8) (a : Src) (cnt : BitVec 8) (s : State) : Out :=
  let w := wid w64
  issue 0x75 h [.dst (.vec d) w, .src 34 a w false, .sclsrc 44 (.scl cnt) w]
    (fun _ _ => if cnt = 0 || 96 ≤ cnt.toNat then some 44 else none)
    (fun c s =>
      withSrcs c s [(a, w)] fun vs s' =>
        if c.idle then .adv s'
        else
          let span := spanOf s c
          let v := vs.getD 0 fun _ _ => 0
          let ws := vecWrites s c d.toNat w fun m l => scanVal c span .add w v (spanPos c span m l)
          let total := scanVal c span .add w v (laneCount c * span.length)
          .adv (s'.push c.t { Pend.value 0 h.sig c.mem (ws ++ sclWrites s c cnt.toNat total) [] s.clock with op := .xadd w64 })) s

end Sys2Proof.Machine
end

