-- ==== Sys2Proof/Machine/Svc.lean ====
section
/-! DEFINITION. Service requests and replies, and checkpoints of tile threads (R61, R200, R221, R223, R395-R397). -/

namespace Sys2Proof.Machine

/-! ## SVC (R221, R395, R396) -/

/-- SVC: the request enters the ring, or waits in the core with its warp stopped. -/
def execSvc (h : Hdr) (code : W16) (s : State) : Out :=
  issue 0xAA h [] noExtra
    (fun c s =>
      if c.idle then .adv s
      else match s.thread? c.t with
        | none => .stall
        | some th =>
          let args := [8, 9, 10, 11].map fun r => readScl s c.t r (r - 8)
          match s.releaseAll c.mem with
          | none => .stall
          | some s =>
            .adv (if s.ringRoom th.vi then
                match s.thread? c.t with
                | some th => s.svcEnter c.t th code args
                | none => s
              else s.mapThread c.t fun th => { th with svc := .waiting code args })) s

/-- The resident thread of an interface whose request has waited longest: a request waits in its core. -/
def State.svcOldest (s : State) (v : Nat) : Option (Nat × Thread × W16 × List W64) :=
  s.threads.foldl (fun (b : Option (Nat × Thread × W16 × List W64)) e =>
    match e.2 with
    | none => b
    | some th =>
      match th.svc with
      | .waiting code args =>
        if th.vi != v || 20000 ≤ e.1 then b
        else match b with
          | some x => if th.lastIssue < x.2.1.lastIssue then some (e.1, th, code, args) else b
          | none => some (e.1, th, code, args)
      | _ => b) none

/-- A waiting request is written to the ring. -/
def execSvcRequestEnqueue (v : Nat) (s : State) : Out :=
  match s.svcOldest v with
  | none => .refused .notEnabled
  | some (t, th, code, args) => if s.ringRoom v then .next (s.svcEnter t th code args) else .refused .notEnabled

/-- A write of SVC_REPLY (R397). -/
def execSvcReply (who : Party) (v : Nat) (x : W64) (s : State) : Out := .next (s.writeReg who (svcOff v 0x18) 8 x)

/-! ## CKPT (R200, R223) -/

/-- The data and branch-outcome queues of a tile thread are empty. -/
def State.dqEmpty (s : State) (t : Nat) : Bool := (List.range 8).all fun q => (s.dq.get [] (dqKey t (8 + q))).isEmpty

/-- What the save of a tile thread waits for: everything issued before has landed, and the thread's q3 streams are done. -/
def State.ckptQuiet (s : State) (t : Nat) : Bool :=
  [asOf t, asOf t + 1].all fun m =>
    (s.pendsOf m).isEmpty && (let x := s.stream (streamKey m 3); x.buf.isEmpty && x.run.isNone)

/-- A sequencer that waits at its CKPT goes on to the next word. -/
def State.passCkpt (s : State) (t : Nat) (saved : Bool) : State :=
  (s.mapThread t fun th => { th.stepGang 1 with ckpt := if saved then th.ckpt else none, saved := saved }).countIssue t

/-- The lease of a tile thread that is saved: who holds it and what is left stay with the thread, to be requested again (R200,
R342). Of a joint lease the thread that leaves it last keeps them, with the threads that left before. -/
def State.saveLease (s : State) (t : Nat) : State :=
  match s.groups.find? fun e => e.2.holder.contains t with
  | none => s
  | some e =>
    let blk := (s.thread? t).elim 0 (·.block)
    let here := e.2.holder.filterMap fun m => (s.thread? m).map (·.index)
    let gone := s.threads.flatMap fun x => match x.2 with
      | some th => if th.block = blk && th.saved && th.kind = .xs then th.leaseBack else []
      | none => []
    let all := sortBy (fun a b => decide (a ≤ b)) (here ++ gone).eraseDups
    let s' := if gone.isEmpty then s else s.mapThreads fun _ th => if th.block = blk && th.saved then { th with leaseBack := [] } else th
    let s' := s'.mapThread t fun th => { th with leaseLeft := e.2.left, leaseBack := all }
    s'.quitLease t

/-- The live t-registers and window rows of one tile thread go to the image. -/
def State.writeTiles (s : State) (base slot : Nat) (id : W16) (m t : Nat) : State :=
  match s.thread? (t + 1) with
  | none => s
  | some th =>
    let (mask, rows) := match th.ckpt with
      | some k => (k.2.1, k.2.2)
      | none => (0, 0)
    let arr := s.arrayAt t
    let s := (lanesOf mask).foldl (fun s r =>
      s.writePhys (slotAddr base slot (tArea m + 4096 * r)) ((List.range 4096).map fun i => th.treg.get 0 (r * 4096 + i)) id) s
    (List.range rows).foldl (fun s r =>
      s.writePhys (slotAddr base slot (rowArea m + 2048 * r))
        ((List.range 512).flatMap fun c => toBytes (s.accAt arr (th.wbase + r) c) 4) id) s

/-- What the save of one tile thread writes: the areas of its sequencers, its live t-registers and window rows (R200, R372, R374). -/
def State.saveThread (s : State) (t : Nat) : State :=
  match s.thread? (asOf t), s.thread? (asOf t + 1) with
  | some a, some x =>
    match s.block? x.block with
    | none => s
    | some b =>
      match b.slot with
      | some n =>
        let id := identity b.vi b.ctx
        ((s.writeArea b.slotBase n id (2 * x.index) (asOf t) b a).writeArea b.slotBase n id (2 * x.index + 1) (asOf t + 1) b x).writeTiles b.slotBase n id x.index (asOf t)
      | none => s
  | _, _ => s

/-- The XS restarts its timer (R378). -/
def State.restartTimer (s : State) (t : Nat) : State :=
  s.mapThread t fun th => if th.kind = .xs then { th with ckptTime := s.time.toNat } else th

/-- CKPT (R223). -/
def execCkpt (h : Hdr) (id : BitVec 8) (rows : BitVec 9) (a : Src) (s : State) : Out :=
  issue 0xAC h [.sclsrc 34 a 32]
    (fun _ th => if th.kind = .as then
        (if rows != 0 then some 50 else match a with
          | .lit x => if x = 0 then none else some 34
          | _ => some 32)
      else none)
    (fun c s =>
      withSrcs c s [(a, 32)] fun vs s' =>
        if c.idle then .adv s'
        -- the XS takes the trap of a halted AS here (R391)
        else if s'.asHalted c.t then .stallQ
        else match s'.thread? c.t with
          | none => .stall
          | some th =>
            if th.kind = .xs && th.wlim + 1 - th.wbase < rows.toNat then
              .trap cAccWindow (BitVec.ofNat 64 (th.wlim + 1 - th.wbase)) none
            else
              let pending := match s'.block? th.block with
                | some b => b.phase == .saving
                | none => false
              let mask : W32 := ((vs.getD 0 fun _ _ => 0) c.t 0).setWidth 32
              let own := some (id, mask, rows.toNat)
              if !pending then .adv ((s'.mapThread c.t fun th => { th with ckpt := none }).restartTimer c.t)
              else match s'.thread? (pairOf c.t) with
                | none => .waitWith fun s => s.mapThread c.t fun th => { th with ckpt := own }
                | some y =>
                  match if y.inTrap.isSome || y.susp.isSome then none else y.ckpt with
                  | none => .waitWith fun s => s.mapThread c.t fun th => { th with ckpt := own }
                  | some k =>
                    if k.1 != id || !s'.dqEmpty c.t then
                      .adv ((s'.mapThread c.t fun th => { th with ckpt := none }).passCkpt (pairOf c.t) false)
                    else if !s'.ckptQuiet c.t then .waitWith fun s => s.mapThread c.t fun th => { th with ckpt := own }
                    else
                      -- both stand at their next word as their areas are written
                      let s' := s'.mapThread c.t fun th => { th.stepGang c.gang with ckpt := own, saved := true }
                      let s' := (s'.passCkpt (pairOf c.t) true).restartTimer (asOf c.t + 1)
                      .moved ((s'.saveLease (asOf c.t + 1)).saveThread c.t)) s

end Sys2Proof.Machine
end

