-- ==== Sys2Proof/Machine/Dispatch.lean ====
section
/-! DEFINITION. One arm per instruction, engine word, LZ instruction and step: each calls its meaning. -/

namespace Sys2Proof.Machine

def exec (i : Instr) (s : State) : Host.Outcome State Fault Refusal :=
  match i with
  | .nop h n => Sys2Proof.Machine.execNop h n s
  | .iadd h f d a b => Sys2Proof.Machine.execIadd h f d a b s
  | .isub h f d a b => Sys2Proof.Machine.execIsub h f d a b s
  | .imul h f d a b => Sys2Proof.Machine.execImul h f d a b s
  | .imulhi h f d a b => Sys2Proof.Machine.execImulhi h f d a b s
  | .imad h f d a b c => Sys2Proof.Machine.execImad h f d a b c s
  | .imin h f d a b => Sys2Proof.Machine.execImin h f d a b s
  | .imax h f d a b => Sys2Proof.Machine.execImax h f d a b s
  | .iabs h f d a => Sys2Proof.Machine.execIabs h f d a s
  | .and h w64 inv d a b => Sys2Proof.Machine.execAnd h w64 inv d a b s
  | .or h w64 inv d a b => Sys2Proof.Machine.execOr h w64 inv d a b s
  | .xor h w64 inv d a b => Sys2Proof.Machine.execXor h w64 inv d a b s
  | .shl h w64 rot d a b => Sys2Proof.Machine.execShl h w64 rot d a b s
  | .shr h w64 arith d a b => Sys2Proof.Machine.execShr h w64 arith d a b s
  | .bfx h w64 sgn d a b c => Sys2Proof.Machine.execBfx h w64 sgn d a b c s
  | .bfi h w64 d a b c => Sys2Proof.Machine.execBfi h w64 d a b c s
  | .popc h w64 d a => Sys2Proof.Machine.execPopc h w64 d a s
  | .clz h w64 d a => Sys2Proof.Machine.execClz h w64 d a s
  | .ctz h w64 d a => Sys2Proof.Machine.execCtz h w64 d a s
  | .brev h w64 d a => Sys2Proof.Machine.execBrev h w64 d a s
  | .clmul h w64 hi d a b => Sys2Proof.Machine.execClmul h w64 hi d a b s
  | .icmp h c u w64 k p a b => Sys2Proof.Machine.execIcmp h c u w64 k p a b s
  | .sel h w64 d a b neg p => Sys2Proof.Machine.execSel h w64 d a b neg p s
  | .plop h p pa pb lut => Sys2Proof.Machine.execPlop h p pa pb lut s
  | .mov h w64 d a => Sys2Proof.Machine.execMov h w64 d a s
  | .movl h d lit => Sys2Proof.Machine.execMovl h d lit s
  | .movs h w64 lo d a b => Sys2Proof.Machine.execMovs h w64 lo d a b s
  | .lea h sc d a b => Sys2Proof.Machine.execLea h sc d a b s
  | .hinfo h k d a => Sys2Proof.Machine.execHinfo h k d a s
  | .fadd h rm d a b => Sys2Proof.Machine.execFadd h rm d a b s
  | .fsub h rm d a b => Sys2Proof.Machine.execFsub h rm d a b s
  | .fmul h rm d a b => Sys2Proof.Machine.execFmul h rm d a b s
  | .ffma h rm d a b c => Sys2Proof.Machine.execFfma h rm d a b c s
  | .fmin h d a b => Sys2Proof.Machine.execFmin h d a b s
  | .fmax h d a b => Sys2Proof.Machine.execFmax h d a b s
  | .fsgn h op d a b => Sys2Proof.Machine.execFsgn h op d a b s
  | .fcmp h c k p a b => Sys2Proof.Machine.execFcmp h c k p a b s
  | .fclass h t hi d a => Sys2Proof.Machine.execFclass h t hi d a s
  | .hadd2 h bf dyn d a b => Sys2Proof.Machine.execHadd2 h bf dyn d a b s
  | .hmul2 h bf dyn d a b => Sys2Proof.Machine.execHmul2 h bf dyn d a b s
  | .hfma2 h bf dyn d a b c => Sys2Proof.Machine.execHfma2 h bf dyn d a b c s
  | .hmin2 h bf d a b => Sys2Proof.Machine.execHmin2 h bf d a b s
  | .hmax2 h bf d a b => Sys2Proof.Machine.execHmax2 h bf d a b s
  | .rcp h d a => Sys2Proof.Machine.execRcp h d a s
  | .rsq h d a => Sys2Proof.Machine.execRsq h d a s
  | .sqrt h d a => Sys2Proof.Machine.execSqrt h d a s
  | .exp2 h d a => Sys2Proof.Machine.execExp2 h d a s
  | .log2 h d a => Sys2Proof.Machine.execLog2 h d a s
  | .sin h d a => Sys2Proof.Machine.execSin h d a s
  | .cos h d a => Sys2Proof.Machine.execCos h d a s
  | .dot2 h bf rz d a b c => Sys2Proof.Machine.execDot2 h bf rz d a b c s
  | .dot4 h fa fb d a b c => Sys2Proof.Machine.execDot4 h fa fb d a b c s
  | .cvtf h pk hi dst src rm d a b => Sys2Proof.Machine.execCvtf h pk hi dst src rm d a b s
  | .cvtfi h hi ity fty rm d a => Sys2Proof.Machine.execCvtfi h hi ity fty rm d a s
  | .cvtif h ity fty rm d a => Sys2Proof.Machine.execCvtif h ity fty rm d a s
  | .cvt8 h unpk byte nosat t rm d a b => Sys2Proof.Machine.execCvt8 h unpk byte nosat t rm d a b s
  | .cvt4 h unpk nib rm d a b => Sys2Proof.Machine.execCvt4 h unpk nib rm d a b s
  | .cvtw h unpk t nosat rm d a b => Sys2Proof.Machine.execCvtw h unpk t nosat rm d a b s
  | .rseed h a => Sys2Proof.Machine.execRseed h a s
  | .rnext h j f d => Sys2Proof.Machine.execRnext h j f d s
  | .shfl h mode seg w64 d a b => Sys2Proof.Machine.execShfl h mode seg w64 d a b s
  | .perm h m d a b => Sys2Proof.Machine.execPerm h m d a b s
  | .vote h k d => Sys2Proof.Machine.execVote h k d s
  | .xred h op w64 d a => Sys2Proof.Machine.execXred h op w64 d a s
  | .xscan h op w64 ex d a => Sys2Proof.Machine.execXscan h op w64 ex d a s
  | .xadd h w64 d a cnt => Sys2Proof.Machine.execXadd h w64 d a cnt s
  | .ld h sx d m => Sys2Proof.Machine.execLd h sx d m s
  | .st h d m => Sys2Proof.Machine.execSt h d m s
  | .ldpoll h sx d m => Sys2Proof.Machine.execLdpoll h sx d m s
  | .pref h mere hd off => Sys2Proof.Machine.execPref h mere hd off s
  | .cctl h inv sys hd off => Sys2Proof.Machine.execCctl h inv sys hd off s
  | .commit h => Sys2Proof.Machine.execCommit h s
  | .ldsp h sx d m => Sys2Proof.Machine.execLdsp h sx d m s
  | .stsp h d m => Sys2Proof.Machine.execStsp h d m s
  | .atom h op g m => Sys2Proof.Machine.execAtom h op g m s
  | .ldres h d m => Sys2Proof.Machine.execLdres h d m s
  | .stcond h d m => Sys2Proof.Machine.execStcond h d m s
  | .red h op g m => Sys2Proof.Machine.execRed h op g m s
  | .redflush h => Sys2Proof.Machine.execRedflush h s
  | .cfence h k ms mask => Sys2Proof.Machine.execCfence h k ms mask s
  | .bra h fn off => Sys2Proof.Machine.execBra h fn off s
  | .brx h fn a => Sys2Proof.Machine.execBrx h fn a s
  | .call h l off => Sys2Proof.Machine.execCall h l off s
  | .ret h a => Sys2Proof.Machine.execRet h a s
  | .loop h n a => Sys2Proof.Machine.execLoop h n a s
  | .regang h mask => Sys2Proof.Machine.execRegang h mask s
  | .elect h p w k => Sys2Proof.Machine.execElect h p w k s
  | .yield h off => Sys2Proof.Machine.execYield h off s
  | .yieldC h w off => Sys2Proof.Machine.execYieldC h w off s
  | .spawn h p off => Sys2Proof.Machine.execSpawn h p off s
  | .spawnW h p off => Sys2Proof.Machine.execSpawnW h p off s
  | .exit h => Sys2Proof.Machine.execExit h s
  | .svc h code => Sys2Proof.Machine.execSvc h code s
  | .setpl h a => Sys2Proof.Machine.execSetpl h a s
  | .ckpt h id rows a => Sys2Proof.Machine.execCkpt h id rows a s
  | .setsh h clear n => Sys2Proof.Machine.execSetsh h clear n s
  | .trap h code => Sys2Proof.Machine.execTrap h code s
  | .brq h n off => Sys2Proof.Machine.execBrq h n off s
  | .barSync h k n => Sys2Proof.Machine.execBarSync h k n s
  | .barArv h k n => Sys2Proof.Machine.execBarArv h k n s
  | .barWt h k n => Sys2Proof.Machine.execBarWt h k n s
  | .sempPost h k n => Sys2Proof.Machine.execSempPost h k n s
  | .sempInit h k v ceil => Sys2Proof.Machine.execSempInit h k v ceil s
  | .semwWait h k n => Sys2Proof.Machine.execSemwWait h k n s
  | .semwTry h p k n => Sys2Proof.Machine.execSemwTry h p k n s
  | .semwRd h d k => Sys2Proof.Machine.execSemwRd h d k s
  | .rsectEnter h => Sys2Proof.Machine.execRsectEnter h s
  | .rsectExit h => Sys2Proof.Machine.execRsectExit h s
  | .gpstart h d => Sys2Proof.Machine.execGpstart h d s
  | .gpwait h t => Sys2Proof.Machine.execGpwait h t s
  | .gptest h p t => Sys2Proof.Machine.execGptest h p t s
  | .dfree h len hd off => Sys2Proof.Machine.execDfree h len hd off s
  | .subPub h d hd off => Sys2Proof.Machine.execSubPub h d hd off s
  | .subSub h d hd off => Sys2Proof.Machine.execSubSub h d hd off s
  | .unsub h all e => Sys2Proof.Machine.execUnsub h all e s
  | .subflush h all e => Sys2Proof.Machine.execSubflush h all e s
  | .tld h str t m => Sys2Proof.Machine.execTld h str t m s
  | .tst h str t m => Sys2Proof.Machine.execTst h str t m s
  | .tzero h t => Sys2Proof.Machine.execTzero h t s
  | .tshapeImm h v => Sys2Proof.Machine.execTshapeImm h v s
  | .tshapeReg h a => Sys2Proof.Machine.execTshapeReg h a s
  | .tadd h f d a b => Sys2Proof.Machine.execTadd h f d a b s
  | .tsub h f d a b => Sys2Proof.Machine.execTsub h f d a b s
  | .tmul h f d a b => Sys2Proof.Machine.execTmul h f d a b s
  | .tfma h f d a b c => Sys2Proof.Machine.execTfma h f d a b c s
  | .tmin h d a b => Sys2Proof.Machine.execTmin h d a b s
  | .tmax h d a b => Sys2Proof.Machine.execTmax h d a b s
  | .tun h op f d a => Sys2Proof.Machine.execTun h op f d a s
  | .tcmp h c u d a b => Sys2Proof.Machine.execTcmp h c u d a b s
  | .tsel h d a b m => Sys2Proof.Machine.execTsel h d a b m s
  | .tred h op axis f d a => Sys2Proof.Machine.execTred h op axis f d a s
  | .tbc h axis d a => Sys2Proof.Machine.execTbc h axis d a s
  | .ttr h d a => Sys2Proof.Machine.execTtr h d a s
  | .tcvt h src nosat rm d a => Sys2Proof.Machine.execTcvt h src nosat rm d a s
  | .accrd h nosat clr f d row col => Sys2Proof.Machine.execAccrd h nosat clr f d row col s
  | .accwr h add t row col => Sys2Proof.Machine.execAccwr h add t row col s
  | .accwin h split base lim => Sys2Proof.Machine.execAccwin h split base lim s
  | .lease h n => Sys2Proof.Machine.execLease h n s
  | .unlease h => Sys2Proof.Machine.execUnlease h s
  | .xret h => Sys2Proof.Machine.execXret h s
  | .killBlk h => Sys2Proof.Machine.execKillBlk h s
  | .killCtx h => Sys2Proof.Machine.execKillCtx h s
  | .srd h d reg => Sys2Proof.Machine.execSrd h d reg s
  | .swr h reg a => Sys2Proof.Machine.execSwr h reg a s
  | .tlbinvVa h leaf a b => Sys2Proof.Machine.execTlbinvVa h leaf a b s
  | .tlbinvCtx h b => Sys2Proof.Machine.execTlbinvCtx h b s
  | .tlbinvVi h => Sys2Proof.Machine.execTlbinvVi h s
  | .hinv h all n ctx => Sys2Proof.Machine.execHinv h all n ctx s
  | .lit v => Sys2Proof.Machine.execLit v s
  | .litx v => Sys2Proof.Machine.execLitx v s
  | .dup => Sys2Proof.Machine.execDup s
  | .drop => Sys2Proof.Machine.execDrop s
  | .swap => Sys2Proof.Machine.execSwap s
  | .stackOver => Sys2Proof.Machine.execOver s
  | .add => Sys2Proof.Machine.execAdd s
  | .mul => Sys2Proof.Machine.execMul s
  | .clr => Sys2Proof.Machine.execClr s
  | .engineNop => Sys2Proof.Machine.execEngineNop s
  | .engineWord w => Sys2Proof.Machine.execEngineWord w s
  | .copy1d r => Sys2Proof.Machine.execCopy1d r s
  | .copy2d r => Sys2Proof.Machine.execCopy2d r s
  | .copy3d r => Sys2Proof.Machine.execCopy3d r s
  | .gather r sc i64 => Sys2Proof.Machine.execGather r sc i64 s
  | .scatter r sc i64 => Sys2Proof.Machine.execScatter r sc i64 s
  | .fill r w => Sys2Proof.Machine.execFill r w s
  | .sempost r k => Sys2Proof.Machine.execSempost r k s
  | .semwait r k => Sys2Proof.Machine.execSemwait r k s
  | .note => Sys2Proof.Machine.execNote s
  | .mma r x4 z => Sys2Proof.Machine.execMma r x4 z s
  | .mmas r q x4 z => Sys2Proof.Machine.execMmas r q x4 z s
  | .mmax r x4 z => Sys2Proof.Machine.execMmax r x4 z s
  | .accz r x4 => Sys2Proof.Machine.execAccz r x4 s
  | .accdrain r nosat x4 clr => Sys2Proof.Machine.execAccdrain r nosat x4 clr s
  | .accload r x4 add => Sys2Proof.Machine.execAccload r x4 add s
  | .bvhset r => Sys2Proof.Machine.execBvhset r s
  | .rayhit r => Sys2Proof.Machine.execRayhit r s
  | .rayrad r => Sys2Proof.Machine.execRayrad r s
  | .rayknn r => Sys2Proof.Machine.execRayknn r s
  | .vremap r => Sys2Proof.Machine.execVremap r s
  | .vpyr r => Sys2Proof.Machine.execVpyr r s
  | .vstereo r win7 dmax => Sys2Proof.Machine.execVstereo r win7 dmax s
  | .vflow r b16 => Sys2Proof.Machine.execVflow r b16 s
  | .vchain r => Sys2Proof.Machine.execVchain r s
  | .stwr r fua b => Sys2Proof.Machine.execStwr r fua b s
  | .strd r b => Sys2Proof.Machine.execStrd r b s
  | .sflush r b => Sys2Proof.Machine.execSflush r b s
  | .illegalOpcode op h => Sys2Proof.Machine.execIllegalOpcode op h s
  | .lzPush w q rs1 => Sys2Proof.Machine.execLzPush w q rs1 s
  | .lzPop q rd => Sys2Proof.Machine.execLzPop q rd s
  | .lzFence mask => Sys2Proof.Machine.execLzFence mask s
  | .lzSubmit arm rs1 rd => Sys2Proof.Machine.execLzSubmit arm rs1 rd s
  | .lzTime rd => Sys2Proof.Machine.execLzTime rd s
  | .lzWaitq q rs1 rd => Sys2Proof.Machine.execLzWaitq q rs1 rd s
  | .lzIllegalInstruction w => Sys2Proof.Machine.execLzIllegalInstruction w s
  | .scopedRendezvous t => Sys2Proof.Machine.execScopedRendezvous t s
  | .resultLanding t id => Sys2Proof.Machine.execResultLanding t id s
  | .storeAck t id => Sys2Proof.Machine.execStoreAck t id s
  | .asyncTrapEntry t => Sys2Proof.Machine.execAsyncTrapEntry t s
  | .warpExitComplete t => Sys2Proof.Machine.execWarpExitComplete t s
  | .streamRotation t => Sys2Proof.Machine.execStreamRotation t s
  | .spawnQueuePlace core => Sys2Proof.Machine.execSpawnQueuePlace core s
  | .leaseGrant g => Sys2Proof.Machine.execLeaseGrant g s
  | .semTakeServed k => Sys2Proof.Machine.execSemTakeServed k s
  | .barrierRelease k own n => Sys2Proof.Machine.execBarrierRelease k own n s
  | .graceSlotComplete ctx slot => Sys2Proof.Machine.execGraceSlotComplete ctx slot s
  | .launchCompletion k rep => Sys2Proof.Machine.execLaunchCompletion k rep s
  | .storageTimeout k => Sys2Proof.Machine.execStorageTimeout k s
  | .cardDoorbell v x => Sys2Proof.Machine.execCardDoorbell v x s
  | .cardArm who off x => Sys2Proof.Machine.execCardArm who off x s
  | .periodicRelease card => Sys2Proof.Machine.execPeriodicRelease card s
  | .jobCompletion card => Sys2Proof.Machine.execJobCompletion card s
  | .blockPlacement tile => Sys2Proof.Machine.execBlockPlacement tile s
  | .simtBlockSave blk => Sys2Proof.Machine.execSimtBlockSave blk s
  | .tileBlockSave blk => Sys2Proof.Machine.execTileBlockSave blk s
  | .blockRestore blk => Sys2Proof.Machine.execBlockRestore blk s
  | .deadlineMiss card => Sys2Proof.Machine.execDeadlineMiss card s
  | .budgetTime card => Sys2Proof.Machine.execBudgetTime card s
  | .checkpointOverdue t => Sys2Proof.Machine.execCheckpointOverdue t s
  | .dtStep who x => Sys2Proof.Machine.execDtStep who x s
  | .dtRate who x => Sys2Proof.Machine.execDtRate who x s
  | .railSwitch c => Sys2Proof.Machine.execRailSwitch c s
  | .droopReplay c => Sys2Proof.Machine.execDroopReplay c s
  | .droopHoldEnd c => Sys2Proof.Machine.execDroopHoldEnd c s
  | .brownout c => Sys2Proof.Machine.execBrownout c s
  | .thermalRead temps => Sys2Proof.Machine.execThermalRead temps s
  | .watchdog e => Sys2Proof.Machine.execWatchdog e s
  | .islRestart who x => Sys2Proof.Machine.execIslRestart who x s
  | .engineRestart e => Sys2Proof.Machine.execEngineRestart e s
  | .gateWayRequest who slice x => Sys2Proof.Machine.execGateWayRequest who slice x s
  | .ungateWay who slice x => Sys2Proof.Machine.execUngateWay who slice x s
  | .gatingDone slice => Sys2Proof.Machine.execGatingDone slice s
  | .mereCarve who x => Sys2Proof.Machine.execMereCarve who x s
  | .mereInj who x => Sys2Proof.Machine.execMereInj who x s
  | .merePatrolScrub slot => Sys2Proof.Machine.execMerePatrolScrub slot s
  | .dramPatrolScrub line => Sys2Proof.Machine.execDramPatrolScrub line s
  | .lpddr6Refresh ch bank => Sys2Proof.Machine.execLpddr6Refresh ch bank s
  | .sensorStreamWrite v pa bytes => Sys2Proof.Machine.execSensorStreamWrite v pa bytes s
  | .walkReread t => Sys2Proof.Machine.execWalkReread t s
  | .migrationStall t => Sys2Proof.Machine.execMigrationStall t s
  | .xltInvVa who v x => Sys2Proof.Machine.execXltInvVa who v x s
  | .xltInvCtx who v x => Sys2Proof.Machine.execXltInvCtx who v x s
  | .xltInvVi who v x => Sys2Proof.Machine.execXltInvVi who v x s
  | .xltHinv who v x => Sys2Proof.Machine.execXltHinv who v x s
  | .xltHinvAll who v x => Sys2Proof.Machine.execXltHinvAll who v x s
  | .xltInvDone v hinv => Sys2Proof.Machine.execXltInvDone v hinv s
  | .splReq who v x => Sys2Proof.Machine.execSplReq who v x s
  | .splinterDone v => Sys2Proof.Machine.execSplinterDone v s
  | .svcRequestEnqueue v => Sys2Proof.Machine.execSvcRequestEnqueue v s
  | .svcReply who v x => Sys2Proof.Machine.execSvcReply who v x s
  | .remoteAccess t id => Sys2Proof.Machine.execRemoteAccess t id s
  | .gutterFlitArrival st west lane errs => Sys2Proof.Machine.execGutterFlitArrival st west lane errs s
  | .packetLost t id => Sys2Proof.Machine.execPacketLost t id s
  | .deadLane west lane => Sys2Proof.Machine.execDeadLane west lane s
  | .batchIdleFlush core e => Sys2Proof.Machine.execBatchIdleFlush core e s
  | .batchEntryApply n => Sys2Proof.Machine.execBatchEntryApply n s
  | .subAckTimeout core e peer => Sys2Proof.Machine.execSubAckTimeout core e peer s
  | .hcpCtl who hart x => Sys2Proof.Machine.execHcpCtl who hart x s
  | .hcpSem who hart n x => Sys2Proof.Machine.execHcpSem who hart n x s
  | .viSimt who v tile x => Sys2Proof.Machine.execViSimt who v tile x s
  | .viUnitHandover v => Sys2Proof.Machine.execViUnitHandover v s
  | .powerGoodBoot flash stepsOk => Sys2Proof.Machine.execPowerGoodBoot flash stepsOk s
  | .recoveryImage img => Sys2Proof.Machine.execRecoveryImage img s
  | .registerWrite who off x => Sys2Proof.Machine.execRegisterWrite who off x s
  | .lzWaitqTimeLimit hart => Sys2Proof.Machine.execLzWaitqTimeLimit hart s
  | .hartInterrupt hart => Sys2Proof.Machine.execHartInterrupt hart s
  | .qpaceGapElapsed u port => Sys2Proof.Machine.execQpaceGapElapsed u port s
  | .applicationCoreAccess hart acc => Sys2Proof.Machine.execApplicationCoreAccess hart acc s
  | .weirWindowEdge => Sys2Proof.Machine.execWeirWindowEdge s
  | .ctxKill => Sys2Proof.Machine.execCtxKill s
  | .pageRetire => Sys2Proof.Machine.execPageRetire s
  | .wayQuar => Sys2Proof.Machine.execWayQuar s
  | .mereInjection => Sys2Proof.Machine.execMereInjection s
  | .rafterRecompile => Sys2Proof.Machine.execRafterRecompile s
  | .siltPersist => Sys2Proof.Machine.execSiltPersist s

end Sys2Proof.Machine
end

