-- ==== Sys2Proof/Machine/Fetch.lean ====
section
/-! DEFINITION. What one step does besides the meaning of an instruction: which gang of which warp issues, the fetch of its word, the
word at the head of a stream, the word at a hart's PC, and the entries of the schedule that are no instruction
(R38, R53, R128, R237, R306, R404, R407, R410; log entry 2). -/

namespace Sys2Proof.Machine

/-! ## Fetch (R399-R408) -/

/-- What a fetch gives. -/
inductive Fetched where
  /-- an instruction, in the state in which it runs -/
  | instr (i : Instr) (s : State)
  /-- the fetch itself ends the step -/
  | done (o : Out)

/-- The lanes and the PC of a gang that stands to issue: of one that waits at a rendezvous, those that wait. -/
def Thread.standing (th : Thread) (g : BitVec 8) : W32 × Addr :=
  let sl := th.slice (((slicesOf g).head?).getD 0)
  let run := th.run &&& gangLanes g
  match th.inTrap with
  | some x => (lane1 (if th.kind = .simt then th.handlerLane else 0), x.pc)
  | none =>
    if run != 0 then (run, sl.pc)
    else (th.held &&& gangLanes g, match sl.at_ with | some a => a.pc | none => sl.pc)

/-- The slice that fetches, as a fault of the fetch names it (R404). -/
def Thread.fetchCtx (th : Thread) (t : Nat) (g : BitVec 8) : Ctx0 :=
  let (lanes, pc) := th.standing g
  { t := t, gang := g, scp := .lane, mem := [t], pc := pc, act := [(t, lanes)], sheaf := 0, trapm := th.inTrap.isSome }

/-- The word at a PC: its translation asks X of the leaf (R404). -/
def State.fetchWord (s : State) (t : Nat) (th : Thread) (pc : Addr) : State × Except Res W64 :=
  match s.translate (walkerOf t th) pc.toNat .x false with
  | (s, .ok pa _) =>
    match s.fetchLine t th pa with
    | (s, false) => (s, .error .stall)
    | (s, true) =>
      let s := s.mapThread t fun x => if x.lines.isEmpty then x else { x with lines := [] }
      match s.readHome (placesOf pa 8) th.ident true with
      | (s, bs, .data) =>
        (s, .ok (BitVec.ofNat 64 (ofBytes (((placesOf pa 8).zip bs).map (s.ownByte (coreOf t))))))
      | (s, _, m) => (s, .error (.lost s m pa))
  | (s, .fault c v) => (s, .error (.trapAt s c v none))
  | (s, .mig e l) => (s, .error (.migrating s e l pc.toNat none))
  | (s, .err m pa) => (s, .error (.lost s m pa))

/-- Whether a gang is one that may issue: a gang on a stream that does not wait (R38), the handler of a trap, or a warp of which every
slice waits. -/
def Thread.mayIssue (th : Thread) (g : BitVec 8) : Bool :=
  th.inTrap.isSome || th.streams.any (fun x => x.gang == g && !th.idleGang g) || (th.run == 0 && th.rdv.isSome && g == th.liveSlices)

/-- The target with bits above 51 that a gang's fetch meets (R209). -/
def Thread.wildAt (th : Thread) (g : BitVec 8) : Option W64 :=
  match th.inTrap with
  | some x => x.wild
  | none => (th.wild.find? fun e => e.1 &&& th.pathLanes g != 0).map (·.2)

/-- Its fetch has met it. -/
def Thread.dropWild (th : Thread) (g : BitVec 8) : Thread := { th with wild := th.wild.filter fun e => e.1 &&& th.pathLanes g == 0 }

/-- The next instruction of a gang of thread t; the constant buffer is copied first (R128). -/
def State.fetchThread (s : State) (t : Nat) (g : BitVec 8) : Fetched :=
  match s.thread? t with
  | none => .done (.next s)
  | some th =>
    if !th.mayIssue g || s.blocked t th || th.migHeld g || s.coreClosed (coreOf t) then .done (.next { s with held := true })
    else
      let s := { s with cur := .thread t g }
      let c := th.fetchCtx t g
      if th.ccopy && th.inTrap.isNone then
        match s.copyConst t th th.cbase with
        | (s', .ok th') => .done (.next (s'.setThread t th'))
        | (s', .held) => .done (.next { s' with held := true })
        | (s', .fault code v) => .done (finish c false s (.trapAt s' code v none))
        | (s', .mig e l va) => .done (finish c false s (.migrating s' e l va none))
        | (s', .err m pa) => .done (finish c false s (.lost s' m pa))
      else
        match th.wildAt g with
        | some x => .done (finish c false (s.setThread t (th.dropWild g)) (.trap cPageFault x none))
        | none =>
        match s.fetchWord t th c.pc with
        | (s', .error .stall) => .done (.next { s' with held := true })
        | (_, .error r) => .done (finish c false s r)
        | (s, .ok w) =>
          let j := (th.streams.findIdx? fun x => x.gang == g).elim th.turn (· + 1)
          let s := s.mapThread t fun th => { th with turn := j }
          match decode64 w with
          | .ok i => .instr i s
          | .error b => .done (issueBad b.op.toNat b.h b.reg b.bit s)

/-- The word at the head of a stream (R306); no front end is powered before the boot's end (R507). -/
def State.fetchStream (s : State) (k : Nat) : Fetched :=
  match if s.boot == .up then (s.stream k).buf else [] with
  | [] => .done (.next s)
  | w :: _ => .instr (decode16 w.1) { s with cur := .stream k }

/-- WFI, of which R19 speaks, in the encoding of the RISC-V base (log entry 13). -/
abbrev wfiWord : W32 := 0x10500073

/-- FENCE rw,rw and wider, of which R256 speaks, in the encoding of the RISC-V base (log entry 13). -/
def isFence (w : W32) : Bool := w.extractLsb' 0 7 = 0x0F && w.extractLsb' 12 3 = 0 && w.extractLsb' 20 2 = 3 && w.extractLsb' 24 2 = 3

/-- The word at a hart's PC. A hart that waits in an LZ instruction stands at it. -/
def State.fetchHart (s : State) (h : Nat) : Fetched :=
  let x := s.hart h
  if !s.hartOn h || x.wait == .wfi then .done (.next { s with held := true })
  else
    match s.hartXl h .x x.pc with
    | (s, .ok pa) =>
      if nowhere pa then .done (.fault (.noStorage pa))
      else match s.hartRead h pa 4 with
        | (s, none) => .done (.next (s.machineCheck h pa))
        | (s, some w) =>
          match decode32 (w.setWidth 32) with
          | some i => .instr i { s with cur := .hart h }
          | none =>
            if w.setWidth 32 = wfiWord then .done (.next (s.mapHart h fun x => { x with wait := .wfi }))
            else if isFence (w.setWidth 32) then .done (.next ((s.l2Down h).mapHart h Hart.go))
            else .done (.refused .riscvBase)
    | (s, r) => .done (.next (s.hartFault h .x x.pc r))

/-! ## Which gang issues (R38, R53) -/

/-- Runs what a fetch gave. -/
def Fetched.run (ex : Instr → State → Out) : Fetched → Out
  | .instr i s => ex i s
  | .done o => o

/-- A gang issues its next word; one that is held leaves its stream where it stood. -/
def State.issueGang (ex : Instr → State → Out) (s : State) (t : Nat) (g : BitVec 8) : Out :=
  match (s.fetchThread t g).run ex with
  | .next s' =>
    if s'.held then .next (s'.mapThread t fun th => { th with turn := ((s.thread? t).map (·.turn)).getD th.turn }) else .next s'
  | o => o

/-- The gangs of a warp in the order in which they may issue: the streams after the one it last issued from. -/
def Thread.gangOrder (th : Thread) : List (BitVec 8) :=
  match th.inTrap with
  | some x => [x.gang]
  | none =>
    let gs := th.streams.map (·.gang)
    if gs.all th.idleGang then (if th.rdv.isSome then [th.liveSlices] else [])
    else
      let j := th.turn % gs.length
      (gs.drop j ++ gs.take j).filter fun g => !th.idleGang g

/-- Threads in the order of their last issue, the least recent first. -/
def insertByIssue (e : Nat × Thread) : List (Nat × Thread) → List (Nat × Thread)
  | [] => [e]
  | x :: l => if e.2.lastIssue ≤ x.2.lastIssue then e :: x :: l else x :: insertByIssue e l

/-- The threads that a scheduler issues from: of a SIMT core, its 16 slots; of a tile core, one sequencer. -/
def schedThreads (core sched : Nat) : List Nat :=
  if core < 64 then (List.range 16).map fun w => core * 64 + sched * 16 + w else [4096 + 2 * (core - 64) + sched]

/-- What a scheduler may issue, in order of preference. -/
def State.candidates (s : State) (core sched : Nat) : List (Nat × BitVec 8) :=
  let ts := (schedThreads core sched).filterMap fun t => (s.thread? t).map fun th => (t, th)
  (ts.foldr insertByIssue []).flatMap fun e => e.2.gangOrder.map fun g => (e.1, g)

/-- A warp whose turn comes and that is held is not ready: no YIELD waits for it (R218). -/
def State.notReady (s : State) (t : Nat) : State :=
  s.mapThreads fun _ x => if x.yields.isEmpty then x else { x with yields := x.yields.map fun y => (y.1, y.2.filter (· != t)) }

/-- The first candidate that is not held issues. -/
def State.issueFirst (ex : Instr → State → Out) (s : State) : List (Nat × BitVec 8) → Out
  | [] => .next s
  | (t, g) :: l =>
    match s.issueGang ex t g with
    | .next s' => if s'.held then State.issueFirst ex (({ s' with held := false } : State).notReady t) l else .next s'
    | o => o

/-- Offers the candidates before gang g of thread t their turn: each of them is held, so that its turn comes. -/
def State.offer (ex : Instr → State → Out) (s : State) (t : Nat) (g : BitVec 8) : List (Nat × BitVec 8) → Option State
  | [] => none
  | (t', g') :: l =>
    if t' = t && g' == g then some s
    else match s.issueGang ex t' g' with
      | .next s' => if s'.held then State.offer ex (({ s' with held := false } : State).notReady t') t g l else none
      | _ => none

/-- The last member of the scope at which thread t waits has arrived: its word issues now (R46). -/
def State.scopeReady (s : State) (t : Nat) : Bool :=
  match s.thread? t with
  | none => false
  | some th =>
    match th.rdv with
    | none => false
    | some r =>
      match s.scopeSet t th r.scp with
      | none => false
      | some (ms, _) => ms.all fun m => s.hasArrived m r

/-- The scheduler of a thread. -/
def State.schedOf (s : State) (t : Nat) : Nat × Nat :=
  if isTile t then (coreOf t, t % 2) else (coreOf t, (s.thread? t).elim 0 (·.sched))

/-- The state an event leaves; one that cannot happen, or that stops, leaves the state as it is. -/
def Out.orElse (o : Out) (s : State) : State := match o with | .next s' => s' | _ => s

/-- What is due on a thread before a word of it can issue: a rotation (R38), an asynchronous cause (R232), and of a walk that waits the
entry's reading again, or its stall (R407). -/
def State.threadDue (s : State) (t : Nat) : State :=
  match s.thread? t with
  | none => s
  | some th =>
    let s := if th.rotate && th.inTrap.isNone then (s.setThread t th.rotateStreams).eventOf t 0x0B (if th.park.isEmpty then 0 else 1) else s
    let s := if th.walkM.isEmpty then s else
      let s := (execWalkReread t s).orElse s
      (execMigrationStall t s).orElse s
    if th.async.isEmpty then s else (execAsyncTrapEntry t s).orElse s

/-- What is due on the threads of a scheduler comes before its next issue, so that no path waits for it (R52). -/
def State.dueFirst (s : State) (core sched : Nat) : State := (schedThreads core sched).foldl State.threadDue s

/-- A named gang issues where its scheduler comes to it: every ready warp that issued less recently, and every stream before its own, is held
(R38, R53). A word whose scope has arrived issues at once (R46). -/
def State.issueNamed (ex : Instr → State → Out) (s : State) (t : Nat) (g : BitVec 8) : Out :=
  let s := s.dueFirst (s.schedOf t).1 (s.schedOf t).2
  if s.scopeReady t then s.issueGang ex t g
  else match s.offer ex t g (s.candidates (s.schedOf t).1 (s.schedOf t).2) with
    | some s' => s'.issueGang ex t g
    | none => .next s

/-! ## Which stream is served (R306) -/

/-- Key of a front end among those that have served. -/
def State.frontKey (s : State) (k : Nat) : Nat := (s.frontStreams k).headD k

/-- The word at the head of stream k is dequeued; unless it is held, the stream has had its turn. -/
def State.serveStream (ex : Instr → State → Out) (s : State) (k : Nat) : Out :=
  match (s.fetchStream k).run ex with
  | .next s' => .next (if s'.held then s' else { s' with served := s'.served.set 0 (s.frontKey k) (k + 1) })
  | o => o

/-- Streams of the front end of k that hold a word, in the order of their turns. -/
def State.turns (s : State) (k : Nat) : List Nat :=
  afterLast (s.served.get 0 (s.frontKey k)) ((s.frontStreams k).filter fun j => !(s.stream j).buf.isEmpty)

/-- The first stream whose next word can proceed is served. -/
def State.serveFirst (ex : Instr → State → Out) (s : State) : List Nat → Out
  | [] => .next s
  | k :: l =>
    match s.serveStream ex k with
    | .next s' => if s'.held then State.serveFirst ex { s' with held := false } l else .next s'
    | o => o

/-- Stream k is served if the words of the streams whose turn comes first cannot proceed. -/
def State.serveNamed (ex : Instr → State → Out) (s : State) (k : Nat) : List Nat → Out
  | [] => .next s
  | j :: l =>
    if j = k then s.serveStream ex k
    else match s.serveStream ex j with
      | .next s' => if s'.held then State.serveNamed ex { s' with held := false } k l else .next s
      | _ => .next s

/-! ## One entry of the schedule -/

/-- Entry n of the fixed round: every scheduler and sequencer issues, every front end serves (R52, R53, R306). -/
def roundEntry (n : Nat) : Activity :=
  let i := n % 1296
  if i < 256 then .issue (i / 4) (i % 4)
  else if i < 384 then .issue (64 + (i - 256) / 2) (i % 2)
  else if i < 768 then .serve (streamKey (64 * ((i - 384) / 6)) ((i - 384) % 6))
  else if i < 1152 then .serve (streamKey (4096 + 2 * ((i - 768) / 6)) ((i - 768) % 6))
  else .serve (hartStream ((i - 1152) / 6) ((i - 1152) % 6))

/-- An entry of the schedule that cannot happen in this state is passed over. -/
def orPass (s : State) : Out → Out
  | .refused .notEnabled => .next s
  | .refused .notActing => .next s
  | o => o

/-- Another hart starts at an address, with its number in a0 (R507, the SBI hart-state services). -/
def State.startHart (s : State) (h : Nat) (pc : W64) : State :=
  if h < 24 && s.boot == .up && s.inv.units.getLsbD (32 + h) && (s.hart h).wait == .inReset then
    s.setHart h ({ freshHart with mode := 1, pc := pc, wait := .run }.setReg 10 (BitVec.ofNat 64 h))
  else s

/-- What one entry of the schedule does; `ex` executes an instruction. -/
def State.act (ex : Instr → State → Out) (a : Activity) (s : State) : Out :=
  match a with
  | .issue core sched =>
    let s := s.dueFirst core sched
    s.issueFirst ex (s.candidates core sched)
  | .issueAt t g => s.issueNamed ex t g
  | .front k => s.serveNamed ex k (s.turns k)
  | .serve k => s.serveFirst ex (s.turns k)
  | .hart h => (s.fetchHart h).run ex
  | .event i => orPass s (ex i s)
  | .tick ns => .next (s.tick ns)
  | .evict core line => .next (s.l1Drop core line)
  | .drop n => .next { s with tlb := s.tlb.eraseIdx n }
  | .dropHandle n => .next { s with hcache := s.hcache.eraseIdx n }
  | .startHart h pc => .next (s.startHart h pc)
  | .upset u => .next (s.upset u)

/-- The entry that comes next, and the state in which it acts: one of the agenda, else one of the schedule, in which an entry of the fixed round
comes after some number of others. -/
def State.begin_ (s : State) : Activity × State :=
  let s1 := { s with clock := s.clock + 1, cur := .idle, held := false }
  match s.agenda with
  | a :: l => (a, { s1 with agenda := l })
  | [] =>
    if s.spare = 0 then (roundEntry s.round, { s1 with spare := Config.gap s.round, round := s.round + 1 })
    else (Config.schedule s.clock, { s1 with spare := s.spare - 1 })

/-! ## A word placed where the next step fetches it -/

/-- The stream that accepts an engine word: of hart 0 where a hart has such a port, else of a core. -/
def streamFor (i : Instr) : Nat :=
  match ([0, 1, 4, 5].find? fun q => i.acceptedBy q) with
  | some q => hartStream 0 q
  | none => if i.acceptedBy 2 then streamKey 0 2 else if i.acceptedBy 3 then streamKey 4096 3 else hartStream 0 0

/-- A block of one warp or one tile thread. -/
def lonelyBlock (tile : Bool) (t : Nat) : Block :=
  { card := 0, vi := 0, ctx := 0, tile := tile, unit := 0, ord := 0, idx := [], phase := .resident, thr := [t], spawned := [], spawnCount := 0,
    nv := 128, k := [], sheaves := [], spBase := 0, spSize := 0, cont := false, idem := false, sbuf := [], committed := false, bars := [],
    cbar := 0, jbar := 0, accBase := 0, accRows := 0, span := false, relaunches := 0, placedAt := 0, slot := none, savedSpawn := [],
    prey := none }

/-- A resident warp or tile thread about to fetch a Lerzil word from address 0, which a held leaf maps to physical address 0. -/
def State.withLerzilWord (s : State) (w : Nat) : State :=
  let simt := profileOk .simt (w % 256)
  let th (k : TKind) := startThread k 0 0 0 0 0 false 128 0
  let t := if simt then 0 else 4097
  let s := if simt then s.setThread 0 (th .simt) else (s.setThread 4096 (th .as)).setThread 4097 (th .xs)
  { (s.setBlock 0 (lonelyBlock (!simt) (if simt then 0 else 4096))).setHomes ((placesOf 0 8).zip (bytesOf 8 w)) with
    boot := .up
    tlb := { where_ := if simt then 0 else 256 + t, vi := 0, ctx := 0, level := 3, va := 0, entry := 0x73 } :: s.tlb
    agenda := .issueAt t (if simt then 0xFF else 1) :: s.agenda }

/-- An engine word at the head of a stream that accepts it. -/
def State.withEngineWord (s : State) (w : Nat) : State :=
  let k := streamFor (decode16 (BitVec.ofNat 16 w))
  { s.mapStream k fun x => { x with buf := (BitVec.ofNat 16 w, none, []) :: x.buf } with
    boot := .up, agenda := .front k :: s.agenda }

/-- A word at the PC of hart 0, which runs. -/
def State.withHartWord (s : State) (w : Nat) : State :=
  { (s.mapHart 0 fun x => { x with wait := .run }).setHomes ((placesOf (s.hart 0).pc.toNat 4).zip (bytesOf 4 w)) with
    boot := .up, agenda := .hart 0 :: s.agenda }

end Sys2Proof.Machine
end

