-- ==== Sys2Proof/Machine/Step.lean ====
section
/-! DEFINITION. One step of the part, and a word placed where the next step fetches it. -/

namespace Sys2Proof.Machine

/-- One step: the next entry of the schedule acts (log entry 2). -/
def step (s : State) : Host.Outcome State Fault Refusal := s.begin_.2.act exec s.begin_.1

/-- `s` with an instruction of `nbits` bits where the next step fetches it: an engine word of 16 bits at the head of a stream, an LZ word
of 32 at the PC of hart 0, a Lerzil word of 64 at the PC of a resident warp or tile thread (log entry 16). -/
def State.withFetchWord (s : State) (nbits w : Nat) : State :=
  if nbits = 16 then s.withEngineWord w else if nbits = 32 then s.withHartWord w else s.withLerzilWord w

end Sys2Proof.Machine
end

