-- ==== Sys2Proof/Machine/Checks.lean ====
section
/-! DEFINITION. The checks of every Lerzil word in one table: its opcode, header, the status register it names, its operand uses and
its further checks (R66-R84). Claims about issue are stated over this table; a law shows that every meaning uses its row. -/

namespace Sys2Proof.Machine

/-- What is checked of a Lerzil word before its own effect (R81). -/
structure Checks where
  op : Nat
  h : Hdr
  /-- the status register it names (R84) -/
  reg : Option Nat
  us : List Use
  extra : Ctx0 → Thread → Option Nat

/-- A row that names no status register. -/
def row (op : Nat) (h : Hdr) (us : List Use) (extra : Ctx0 → Thread → Option Nat) : Option Checks :=
  some { op := op, h := h, reg := none, us := us, extra := extra }

/-- A row of F-3S with one source. -/
def row1 (op : Nat) (h : Hdr) (d : Dst) (w : Nat) (a : Src) : Option Checks :=
  row op h [.dst d w, .src 34 a w false] (noMix d [a])

/-- A row of F-3S with two sources. -/
def row2 (op : Nat) (h : Hdr) (d : Dst) (w : Nat) (u : Bool) (a b : Src) : Option Checks :=
  row op h [.dst d w, .src 34 a w u, .src 44 b w u] (noMix d [a, b])

/-- A row of F-3S with three sources. -/
def row3 (op : Nat) (h : Hdr) (d : Dst) (w : Nat) (u : Bool) (a b c : Src) : Option Checks :=
  row op h [.dst d w, .src 34 a w u, .src 44 b w u, .src 54 c w u] (noMix d [a, b, c])

/-- A row of an FP32 operation of two sources. -/
def rowF (op : Nat) (h : Hdr) (dyn : Bool) (d : Dst) (a b : Src) : Option Checks :=
  row op h [.dst d 32, .src 34 a 32 false, .src 44 b 32 false] (andThen (dynStoch dyn) (noMix d [a, b]))

/-- A row of a packed 16-bit operation. -/
def rowH (op : Nat) (h : Hdr) (dyn : Bool) (d : Dst) (xs : List Src) : Option Checks :=
  row op h (Use.dst d 32 :: (xs.zip [34, 44, 54]).map fun e => Use.src e.2 e.1 32 false) (andThen (dynStoch dyn) (noMix d xs))

/-- A row of a load. -/
def rowLd (op : Nat) (h : Hdr) (sx : Bool) (d : Dst) (m : MArg) : Option Checks :=
  row op h [.dst d (regWidth (sizeBytes m.sz)), .src 42 m.off 32 false] (andThen (offMix d m.off) (sxBad sx (sizeBytes m.sz) d))

/-- A row of a store. -/
def rowSt (op : Nat) (h : Hdr) (d : Dst) (m : MArg) : Option Checks :=
  row op h [.data d (regWidth (sizeBytes m.sz)), .src 42 m.off 32 false] noExtra

/-- A row of a tile instruction that computes. -/
def rowT (op : Nat) (h : Hdr) (d : BitVec 8) (us : List Use) (extra : Ctx0 → Thread → Option Nat) (xs : List Src) : Option Checks :=
  row op h (.tile 24 d :: us) (andThen extra (litBad xs))

/-- A row of an element-wise tile instruction. -/
def rowTs (op : Nat) (h : Hdr) (d : BitVec 8) (extra : Ctx0 → Thread → Option Nat) (xs : List Src) : Option Checks :=
  rowT op h d ((xs.zip [34, 44, 54]).map fun e => .tsrc e.2 e.1) extra xs

/-- The further check of BRX and RET (R209). -/
def branchBad (a : Src) : Ctx0 → Thread → Option Nat := fun c th =>
  if wideScope th.kind c.scp && (effSrc th.kind a).isVec then some 32 else none

/-- The checks of a Lerzil word; engine words, LZ words and steps have none. -/
def Instr.checks (i : Instr) (s : State) : Option Checks :=
  match i with
  | .nop h _ => row 0x00 h [] noExtra
  | .iadd h f d a b => row2 0x01 h d (AddForm_width f) (f == .us) a b
  | .isub h f d a b => row2 0x02 h d (AddForm_width f) (f == .us) a b
  | .imul h f d a b => row2 0x03 h d (AddForm_width f) (f == .us) a b
  | .imulhi h f d a b => row2 0x04 h d (CmpForm_width f) (CmpForm_uns f) a b
  | .imad h f d a b c => row3 0x05 h d (AddForm_width f) (f == .us) a b c
  | .imin h f d a b => row2 0x06 h d (CmpForm_width f) (CmpForm_uns f) a b
  | .imax h f d a b => row2 0x07 h d (CmpForm_width f) (CmpForm_uns f) a b
  | .iabs h f d a => row1 0x08 h d (match f with | .w32 => 32 | .ss => 32 | _ => 64) a
  | .and h w64 _ d a b => row2 0x10 h d (wid w64) false a b
  | .or h w64 _ d a b => row2 0x11 h d (wid w64) false a b
  | .xor h w64 _ d a b => row2 0x12 h d (wid w64) false a b
  | .shl h w64 _ d a b => row2 0x13 h d (wid w64) false a b
  | .shr h w64 _ d a b => row2 0x14 h d (wid w64) false a b
  | .bfx h w64 _ d a b c => row3 0x15 h d (wid w64) false a b c
  | .bfi h w64 d a b c => row3 0x16 h d (wid w64) false a b c
  | .popc h w64 d a => row1 0x17 h d (wid w64) a
  | .clz h w64 d a => row1 0x18 h d (wid w64) a
  | .ctz h w64 d a => row1 0x19 h d (wid w64) a
  | .brev h w64 d a => row1 0x1A h d (wid w64) a
  | .clmul h w64 _ d a b => row2 0x1B h d (wid w64) false a b
  | .icmp h _ u w64 _ _ a b => row 0x20 h [.src 34 a (wid w64) u, .src 44 b (wid w64) u] noExtra
  | .sel h w64 d a b _ _ => row2 0x21 h d (wid w64) false a b
  | .plop h _ _ _ _ => row 0x22 h [] noExtra
  | .mov h w64 d a => row1 0x23 h d (wid w64) a
  | .movl h d _ => row 0x24 h [.dst d 32] noExtra
  | .movs h w64 lo d a b =>
    row 0x25 h ([.dst (.scl d) (wid w64), .src 34 (.vec a) (wid w64) false] ++ (if lo then [] else [.src 44 b (wid w64) false])) noExtra
  | .lea h _ d a b => row 0x26 h [.dst d 64, .src 34 a 64 false, .src 44 b 32 false] (noMix d [a, b])
  | .hinfo h _ d a => row 0x27 h [.dst d 64, .src 34 a 32 false] (noMix d [a])
  | .fadd h rm d a b => rowF 0x40 h (rm == .dyn) d a b
  | .fsub h rm d a b => rowF 0x41 h (rm == .dyn) d a b
  | .fmul h rm d a b => rowF 0x42 h (rm == .dyn) d a b
  | .ffma h rm d a b c => row 0x43 h [.dst d 32, .src 34 a 32 false, .src 44 b 32 false, .src 54 c 32 false]
      (andThen (dynStoch (rm == .dyn)) (noMix d [a, b, c]))
  | .fmin h d a b => rowF 0x44 h false d a b
  | .fmax h d a b => rowF 0x45 h false d a b
  | .fsgn h _ d a b => row2 0x46 h d 32 false a b
  | .fcmp h _ _ _ a b => row 0x47 h [.src 34 a 32 false, .src 44 b 32 false] noExtra
  | .fclass h _ _ d a => row1 0x48 h d 32 a
  | .hadd2 h _ dyn d a b => rowH 0x50 h dyn d [a, b]
  | .hmul2 h _ dyn d a b => rowH 0x51 h dyn d [a, b]
  | .hfma2 h _ dyn d a b c => rowH 0x52 h dyn d [a, b, c]
  | .hmin2 h _ d a b => rowH 0x53 h false d [a, b]
  | .hmax2 h _ d a b => rowH 0x54 h false d [a, b]
  | .rcp h d a => row1 0x58 h d 32 a
  | .rsq h d a => row1 0x59 h d 32 a
  | .sqrt h d a => row1 0x5A h d 32 a
  | .exp2 h d a => row1 0x5B h d 32 a
  | .log2 h d a => row1 0x5C h d 32 a
  | .sin h d a => row1 0x5D h d 32 a
  | .cos h d a => row1 0x5E h d 32 a
  | .dot2 h _ _ d a b c => row3 0x60 h d 32 false a b c
  | .dot4 h fa fb d a b c => row 0x61 h [.dst d 32, .fp8 34 a (narrowOf fa), .fp8 44 b (narrowOf fb), .src 54 c 32 false] (noMix d [a, b, c])
  | .cvtf h pk _ _ _ _ d a b => row 0x64 h ([.dst d 32, .src 34 a 32 false] ++ (if pk then [.src 44 b 32 false] else []))
      (noMix d ((if pk then [(a, 32), (b, 32)] else [(a, 32)] : List (Src × Nat)).map (·.1)))
  | .cvtfi h _ ity _ rm d a => row 0x65 h [.dst d (intWidth ity), .src 34 a 32 false] (andThen (dynStoch (rm == .dyn)) (noMix d [a]))
  | .cvtif h ity _ rm d a => row 0x66 h [.dst d 32, .src 34 a (intWidth ity) (ity == .ui32 || ity == .ui64)]
      (andThen (dynStoch (rm == .dyn)) (noMix d [a]))
  | .cvt8 h unpk _ _ t _ d a b => if unpk then row 0x67 h [.dst d 32, .fp8 34 a (narrowOf t)] (noMix d [a]) else row2 0x67 h d 32 false a b
  | .cvt4 h unpk _ _ d a b => if unpk then row 0x68 h [.dst d 32, .fp8 34 a .f4] (noMix d [a]) else row2 0x68 h d 32 false a b
  | .cvtw h unpk _ _ rm d a b =>
    if unpk then row 0x69 h [.dst d 32, .src 34 a 32 false, .src 44 b 32 false] (andThen (dynStoch (rm == .dyn)) (noMix d [a, b]))
    else row2 0x69 h d 32 false a b
  | .rseed h a => row 0x6C h [.src 34 a 32 false] noExtra
  | .rnext h j _ d => row 0x6D h [.dst d 32] (fun _ th =>
      if th.kind = .simt then (if j != 0 then some 54 else if d.dk then some 23 else none) else if !d.dk then some 23 else none)
  | .shfl h _ seg w64 d a b => row 0x70 h [.dst d (wid w64), .src 34 a (wid w64) false, .src 44 b (wid w64) true]
      (fun c _ => if seg != 0 && laneCount c * (spanOf s c).length < 2 ^ seg.toNat then
        some (if c.scp = .sheaf then 0x110 else 55) else none)
  | .perm h mi d a b => row 0x71 h [.dst d 32, .src 34 a 32 false, .src 44 b 32 false]
      (fun c _ => if c.scp = .sheaf then (if (spanOf s c).length ≤ mi.toNat then some 0x110 else none)
        else if mi != 0 then some 52 else none)
  | .vote h k d => row 0x72 h ((match k with
      | .uni w64 a => [.src 34 a (wid w64) false]
      | _ => []) ++ (match d with
      | .pred _ => []
      | .scl d => [.dst (.scl d) 64])) noExtra
  | .xred h op w64 d a => row 0x73 h [.dst d (wid w64), .src 34 a (wid w64) (redUns op)] noExtra
  | .xscan h op w64 _ d a => row 0x74 h [.dst (.vec d) (wid w64), .src 34 a (wid w64) (redUns op)] noExtra
  | .xadd h w64 d a cnt => row 0x75 h [.dst (.vec d) (wid w64), .src 34 a (wid w64) false, .sclsrc 44 (.scl cnt) (wid w64)]
      (fun _ _ => if cnt = 0 || 96 ≤ cnt.toNat then some 44 else none)
  | .ld h sx d m => rowLd 0x80 h sx d m
  | .st h d m => rowSt 0x81 h d m
  | .ldpoll h sx d m => rowLd 0x82 h sx d m
  | .pref h _ _ off => row 0x83 h [.src 42 off 32 false] noExtra
  | .cctl h _ _ _ off => row 0x84 h [.src 42 off 32 false] noExtra
  | .commit h => row 0x85 h [] noExtra
  | .ldsp h sx d m => rowLd 0x86 h sx d m
  | .stsp h d m => rowSt 0x87 h d m
  | .atom h op g m => row 0x90 h (groupUses g op (sizeBytes m.sz) m.off) (groupBad g m.off)
  | .ldres h d m => row 0x91 h [.dst d (regWidth (sizeBytes m.sz)), .src 42 m.off 32 false] (offMix d m.off)
  | .stcond h d m => rowSt 0x92 h d m
  | .red h op g m => row 0x93 h (groupUses g op (sizeBytes m.sz) m.off) (groupBad g m.off)
  | .redflush h => row 0x94 h [] noExtra
  | .cfence h _ _ _ => row 0x95 h [] noExtra
  | .bra h fn _ => row 0xA0 h [] (fun c th => if th.kind != .simt then (if fn != 0 then some 24 else none)
      else if c.scp != .lane && 2 ≤ fn.toNat then some 24 else none)
  | .brx h _ a => row 0xA1 h [.src 34 a 64 false] (branchBad a)
  | .call h l _ => row 0xA2 h [] (fun c th =>
      match l with
      | .pair m =>
        if th.kind != .simt || c.scp = .block then some 31
        else if 128 ≤ m.toNat then some 24
        else badVec c th 24 (2 * m.toNat) 64
      | .scl i => if i = 0 then some 24 else if th.kind = .simt && c.scp = .lane then some 24 else none)
  | .ret h a => row 0xA3 h [.src 34 a 64 false] (branchBad a)
  | .loop h _ a => row 0xA4 h [.sclsrc 34 a 32] (negLit 34 a)
  | .regang h _ => row 0xA5 h [] noExtra
  | .elect h _ _ _ => row 0xA6 h [] noExtra
  | .yield h _ => row 0xA7 h [] noExtra
  | .yieldC h _ _ => row 0xA7 h [] noExtra
  | .spawn h _ _ => row 0xA8 h [] noExtra
  | .spawnW h _ _ => row 0xA8 h [] noExtra
  | .exit h => row 0xA9 h [] noExtra
  | .svc h _ => row 0xAA h [] noExtra
  | .setpl h a => row 0xAB h [.src 34 a 64 false] noExtra
  | .ckpt h _ rows a => row 0xAC h [.sclsrc 34 a 32] (fun _ th => if th.kind = .as then
      (if rows != 0 then some 50 else match a with
        | .lit x => if x = 0 then none else some 34
        | _ => some 32)
      else none)
  | .setsh h _ _ => row 0xAD h [] noExtra
  | .trap h _ => row 0xAE h [] noExtra
  | .brq h _ _ => row 0xAF h [] noExtra
  | .barSync h _ _ => row 0xB0 h [] noExtra
  | .barArv h _ _ => row 0xB0 h [] noExtra
  | .barWt h _ _ => row 0xB0 h [] noExtra
  | .sempPost h _ _ => row 0xB1 h [] noExtra
  | .sempInit h _ _ _ => row 0xB1 h [] noExtra
  | .semwWait h _ _ => row 0xB2 h [] noExtra
  | .semwTry h _ _ _ => row 0xB2 h [] noExtra
  | .semwRd h d _ => row 0xB2 h [.dst (.scl d) 64] noExtra
  | .rsectEnter h => row 0xB3 h [] noExtra
  | .rsectExit h => row 0xB3 h [] noExtra
  | .gpstart h d => row 0xB4 h [.dst (.scl d) 64] noExtra
  | .gpwait h t => row 0xB5 h [.sclsrc 34 t 64] noExtra
  | .gptest h _ t => row 0xB6 h [.sclsrc 34 t 64] noExtra
  | .dfree h len _ off => row 0xB7 h [.src 24 (.scl len) 64 false, .src 42 off 32 false] noExtra
  | .subPub h d _ off => row 0xB8 h [.sclsrc 42 off 32] (fun _ _ => if d.toNat % 2 != 0 || d.toNat < 2 || 62 < d.toNat then some 24 else none)
  | .subSub h d _ off => row 0xB8 h [.sclsrc 42 off 32] (fun _ _ => if d.toNat % 2 != 0 || d.toNat < 2 || 62 < d.toNat then some 24 else none)
  | .unsub h _ _ => row 0xB9 h [] noExtra
  | .subflush h _ _ => row 0xBA h [] noExtra
  | .tld h str t m => row 0xC0 h [.tile 24 t, .sclsrc 42 m.off 32]
      (fun _ th => if str && tyBits th.tTy = 4 && th.tCols % 2 = 1 then some 0x112 else none)
  | .tst h str t m => row 0xC1 h [.tile 24 t, .sclsrc 42 m.off 32]
      (fun _ th => if str && tyBits th.tTy = 4 && th.tCols % 2 = 1 then some 0x112 else none)
  | .tzero h t => row 0xC2 h [.tile 24 t] noExtra
  | .tshapeImm h v => row 0xC3 h [] (fun _ _ => if shapeOk v then none else some 0x108)
  | .tshapeReg h a => row 0xC3 h [.sclsrc 34 a 64] noExtra
  | .tadd h f d a b => rowTs 0xC4 h d (fieldBad f) [a, b]
  | .tsub h f d a b => rowTs 0xC5 h d (fieldBad f) [a, b]
  | .tmul h f d a b => rowTs 0xC6 h d (fieldBad f) [a, b]
  | .tfma h f d a b c => rowTs 0xC7 h d (fieldBad f) [a, b, c]
  | .tmin h d a b => rowTs 0xC8 h d noExtra [a, b]
  | .tmax h d a b => rowTs 0xC9 h d noExtra [a, b]
  | .tun h op f d a => rowTs 0xCA h d (andThen (fun _ th =>
      if (TUnOp.fn op).isSome && (tyInt th.tTy || (th.tTy == 0 && f != 0)) then some 0x112 else none) (fieldBad f)) [a]
  | .tcmp h c u d a b => rowTs 0xCB h d (fun _ th => if (if tyInt th.tTy then c == .un || c == .ord else u) then some 0x112 else none) [a, b]
  | .tsel h d a b m => rowT 0xCC h d [.tsrc 34 a, .tsrc 44 b, .tile 54 m] noExtra [a, b]
  | .tred h _ _ f d a =>
    match d with
    | .vec d => rowT 0xCD h d [.tsrc 34 a] (fun _ th =>
        if tyInt th.tTy && f != 0 then some 0x112 else if f = 2 && !tyInt th.tTy && th.rm == .stoch then some 0x101 else none) [a]
    | .scl d => row 0xCD h [.dst (.scl d) 64, .tsrc 34 a] (fun _ th =>
        if tyInt th.tTy && f != 0 then some 0x112 else if f = 2 && !tyInt th.tTy && th.rm == .stoch then some 0x101 else none)
  | .tbc h _ d a => rowT 0xCE h d [.tsrc 34 a] noExtra [a]
  | .ttr h d a => rowT 0xCF h d [.tile 34 a] noExtra []
  | .tcvt h src nosat rm d a => rowT 0xD0 h d [.tcvt 34 a (TTy.code src)] (fun _ th =>
      let narrows : Bool := !tyInt (TTy.code src) && !tyInt th.tTy && th.tTy != 0
      if TTy.code src = th.tTy || 4096 < tyBytes (TTy.code src) th.tCount || (nosat && (th.tTy ≤ 2 || th.tTy = 5)) || (rm = .mode .stoch && !narrows) then
        some 0x112
      else if rm = .dyn && th.rm = .stoch && !narrows then some 0x101 else none) []
  | .accrd h _ _ _ d r c => row 0xD1 h [.tile 24 d, .sclsrc 34 r 32, .sclsrc 44 c 32] noExtra
  | .accwr h _ t r c => row 0xD2 h [.tile 24 t, .sclsrc 34 r 32, .sclsrc 44 c 32] noExtra
  | .accwin h split base lim => row 0xD3 h []
      (fun c _ => if split && (c.scp == .lane || c.scp == .warp) then some 58 else if lim < base then some 42 else none)
  | .lease h n => row 0xD4 h [] (fun _ _ => if 64 < n.toNat then some 42 else none)
  | .unlease h => row 0xD5 h [] noExtra
  | .xret h => row 0xE0 h [] noExtra
  | .killBlk h => row 0xE1 h [] noExtra
  | .killCtx h => row 0xE1 h [] noExtra
  | .srd h d reg => some (.mk 0xE2 h (some reg.toNat) [.dst (.scl d) 64]
      (fun _ th => if hasReg th.kind reg.toNat then none else some 42))
  | .swr h reg a => some (.mk 0xE3 h (some reg.toNat) [.sclsrc 34 a 64]
      (fun _ th => if !hasReg th.kind reg.toNat || !writableReg reg.toNat then some 42
        else match a with | .vec _ => some 32 | _ => none))
  | .tlbinvVa h _ a b => row 0xE4 h [.sclsrc 34 a 64, .sclsrc 44 b 64] noExtra
  | .tlbinvCtx h b => row 0xE4 h [.sclsrc 44 b 64] noExtra
  | .tlbinvVi h => row 0xE4 h [] noExtra
  | .hinv h _ _ ctx => row 0xE5 h ((match ctx with | some b => [(b, 64)] | none => [] : List (Src × Nat)).map fun e => .sclsrc 34 e.1 e.2) noExtra
  | .illegalOpcode op h => row op.toNat h [] noExtra
  | _ => none

end Sys2Proof.Machine
end

