-- ==== Sys2Proof/Machine/Claims.lean ====
section
/-! DEFINITION. The words in which the claims are stated: when a Lerzil word is ready to take effect, what a value instruction
computes, and what a frame leaves alone. Integer results are given here in the arithmetic of bit vectors, apart from the meanings. -/

namespace Sys2Proof.Machine

/-! ## A word that is ready -/

/-- A word whose checks pass and that nothing holds back: who executes it, whether it has only just come to its rendezvous, the
state in which it waits if its own effect makes it wait, and the state in which its own effect begins. -/
structure Ready where
  c : Ctx0
  fresh : Bool
  s0 : State
  s1 : State
  deriving DecidableEq, Repr

/-- The party that acts stands at the word `i`, no WAIT, window, yield, rendezvous or suspension holds it, and every check of R81 passes. -/
def ready (i : Instr) (s : State) : Option Ready :=
  match Instr.checks i s with
  | none => none
  | some k =>
    match plan k.op k.h k.reg k.us k.extra s with
    | .run c fresh s0 s1 => some { c := c, fresh := fresh, s0 := s0, s1 := s1 }
    | .out _ => none

/-- An effect can be completed: no wait counter of a member would pass 63 (R78), and no loop action at LEND would overflow a split
table (R212). -/
def settles (c : Ctx0) (t : State) : Bool := !t.overCount c.mem && (c.trapm || (t.loopOver c.t c.gang).isNone)

/-- The same of a word that has moved its slices itself. -/
def settlesMoved (c : Ctx0) (t : State) : Bool := !t.overCount c.mem

/-- The word takes its effect, which leaves the state `t`, and its slices go on to their next words. -/
def Finishes (i : Instr) (s : State) (p : Ready) (t : State) : Prop :=
  settles p.c t = true → exec i s = .next (completed p.c p.s0 t)

/-- The same of a word that moves its slices itself. -/
def FinishesMoved (i : Instr) (s : State) (p : Ready) (t : State) : Prop :=
  settlesMoved p.c t = true → exec i s = .next (completedMoved p.c p.s0 t)

/-! ## Ready at lane scope -/

/-- The issue of a path at lane scope: its gang, its PC, and the running lanes in which the guard holds (R42, R66). -/
def laneCtx (h : Hdr) (s : State) (t : Nat) (th : Thread) (g : BitVec 8) : Ctx0 :=
  { t := t, gang := g, scp := h.scp, mem := [t], pc := (th.slice (((slicesOf g).head?).getD 0)).pc,
    act := [(t, th.run &&& gangLanes g &&& s.guardOf t th h.pr)], sheaf := 0, trapm := false }

/-- Nothing holds path g of thread t back from a word of lane scope: it acts, it is not suspended, saved, halted or in trap mode, it has
not yielded, it has no leader window, and the counters of the WAIT field are zero. -/
def laneFree (h : Hdr) (s : State) (t : Nat) (th : Thread) (g : BitVec 8) : Bool :=
  s.cur == .thread t g && s.thread? t == some th && !s.blocked t th && th.inTrap.isNone && !wideScope th.kind h.scp &&
    !s.yielding t th g && (th.window g).isNone && th.waitOk h.wait

/-! ## Value instructions -/

/-- A value instruction: its header, destination and width, its latency (0: variable), its sources with their widths, and the value and
flags that each lane's sources give. -/
structure Val where
  h : Hdr
  d : Dst
  w : Nat
  lat : Nat
  xs : List (Src × Nat)
  f : Thread → List W64 → W64 × BitVec 5

/-- Reads the low 32 bits of operand n. -/
def opnd32 (vs : List W64) (n : Nat) : W32 := (vs.getD n 0).setWidth 32
def opnd64 (vs : List W64) (n : Nat) : W64 := vs.getD n 0

/-- A 32-bit or a 64-bit function of two operands. -/
def two (w64 : Bool) (f : W32 → W32 → W32) (g : W64 → W64 → W64) : Thread → List W64 → W64 × BitVec 5 := fun _ vs =>
  (if w64 then g (opnd64 vs 0) (opnd64 vs 1) else (f (opnd32 vs 0) (opnd32 vs 1)).setWidth 64, 0)

/-- Clamps an integer into the signed or the unsigned 32-bit range. -/
def sat32 (f : AddForm) (x : Int) : W32 :=
  BitVec.ofInt 32 (if f = .us then max 0 (min x (2 ^ 32 - 1)) else max (-(2 ^ 31)) (min x (2 ^ 31 - 1)))

/-- A sum, difference or product (R132): it wraps, or with `.ss` and `.us` clamps the exact result. -/
def addLike (f : AddForm) (g32 : W32 → W32 → W32) (g64 : W64 → W64 → W64) (g : Int → Int → Int) : Thread → List W64 → W64 × BitVec 5 :=
  fun _ vs =>
    (match f with
     | .w32 => (g32 (opnd32 vs 0) (opnd32 vs 1)).setWidth 64
     | .w64 => g64 (opnd64 vs 0) (opnd64 vs 1)
     | .ss => (sat32 f (g (opnd32 vs 0).toInt (opnd32 vs 1).toInt)).setWidth 64
     | .us => (sat32 f (g (opnd32 vs 0).toNat (opnd32 vs 1).toNat)).setWidth 64, 0)

/-- The high half of the product of two w-bit words (R133). -/
def highHalf (f : CmpForm) (vs : List W64) : W64 :=
  match f with
  | .s32 => ((((opnd32 vs 0).signExtend 64 * (opnd32 vs 1).signExtend 64).extractLsb' 32 32).setWidth 64)
  | .u32 => ((((opnd32 vs 0).setWidth 64 * (opnd32 vs 1).setWidth 64).extractLsb' 32 32).setWidth 64)
  | .s64 => ((opnd64 vs 0).signExtend 128 * (opnd64 vs 1).signExtend 128).extractLsb' 64 64
  | .u64 => ((opnd64 vs 0).setWidth 128 * (opnd64 vs 1).setWidth 128).extractLsb' 64 64

/-- Whether operand 0 is less than operand 1 as IMIN and IMAX compare (R133). -/
def lessBy (f : CmpForm) (vs : List W64) (i j : Nat) : Bool :=
  match f with
  | .s32 => (opnd32 vs i).slt (opnd32 vs j)
  | .u32 => (opnd32 vs i).ult (opnd32 vs j)
  | .s64 => (opnd64 vs i).slt (opnd64 vs j)
  | .u64 => (opnd64 vs i).ult (opnd64 vs j)

/-- One of the two operands, in its width. -/
def oneOf (f : CmpForm) (vs : List W64) (i : Nat) : W64 :=
  match f with
  | .s32 => (opnd32 vs i).setWidth 64
  | .u32 => (opnd32 vs i).setWidth 64
  | _ => opnd64 vs i

/-- The integer instructions that give a value, with their results (R132-R139, R143, R144, R146). -/
def Instr.intValue (i : Instr) : Option Val :=
  match i with
  | .iadd h f d a b => some { h := h, d := d, w := AddForm_width f, lat := 4, xs := [(a, AddForm_width f), (b, AddForm_width f)],
                              f := addLike f (· + ·) (· + ·) (· + ·) }
  | .isub h f d a b => some { h := h, d := d, w := AddForm_width f, lat := 4, xs := [(a, AddForm_width f), (b, AddForm_width f)],
                              f := addLike f (· - ·) (· - ·) (· - ·) }
  | .imul h f d a b => some { h := h, d := d, w := AddForm_width f, lat := 4, xs := [(a, AddForm_width f), (b, AddForm_width f)],
                              f := addLike f (· * ·) (· * ·) (· * ·) }
  | .imad h f d a b c =>
    some { h := h, d := d, w := AddForm_width f, lat := 4, xs := [(a, AddForm_width f), (b, AddForm_width f), (c, AddForm_width f)],
           f := fun _ vs =>
             (match f with
              | .w32 => (opnd32 vs 0 * opnd32 vs 1 + opnd32 vs 2).setWidth 64
              | .w64 => opnd64 vs 0 * opnd64 vs 1 + opnd64 vs 2
              | .ss => (sat32 f ((opnd32 vs 0).toInt * (opnd32 vs 1).toInt + (opnd32 vs 2).toInt)).setWidth 64
              | .us => (sat32 f ((opnd32 vs 0).toNat * (opnd32 vs 1).toNat + (opnd32 vs 2).toNat)).setWidth 64, 0) }
  | .imulhi h f d a b => some { h := h, d := d, w := CmpForm_width f, lat := 4, xs := [(a, CmpForm_width f), (b, CmpForm_width f)],
                                f := fun _ vs => (highHalf f vs, 0) }
  | .imin h f d a b => some { h := h, d := d, w := CmpForm_width f, lat := 4, xs := [(a, CmpForm_width f), (b, CmpForm_width f)],
                              f := fun _ vs => (if lessBy f vs 0 1 then oneOf f vs 0 else oneOf f vs 1, 0) }
  | .imax h f d a b => some { h := h, d := d, w := CmpForm_width f, lat := 4, xs := [(a, CmpForm_width f), (b, CmpForm_width f)],
                              f := fun _ vs => (if lessBy f vs 1 0 then oneOf f vs 0 else oneOf f vs 1, 0) }
  | .iabs h f d a =>
    let w := match f with | .w32 => 32 | .ss => 32 | _ => 64
    some { h := h, d := d, w := w, lat := 4, xs := [(a, w)],
           f := fun _ vs =>
             let m32 : W32 := if (opnd32 vs 0).slt 0 then -(opnd32 vs 0) else opnd32 vs 0
             let m64 : W64 := if (opnd64 vs 0).slt 0 then -(opnd64 vs 0) else opnd64 vs 0
             (match f with
              | .w32 => m32.setWidth 64
              | .w64 => m64
              | .ss => if m32 = 0x80000000 then 0x7FFFFFFF else m32.setWidth 64
              | .ss64 => if m64 = 0x8000000000000000 then 0x7FFFFFFFFFFFFFFF else m64, 0) }
  | .and h w64 inv d a b => some { h := h, d := d, w := wid w64, lat := 4, xs := [(a, wid w64), (b, wid w64)],
                                   f := two w64 (fun x y => x &&& if inv then ~~~y else y) (fun x y => x &&& if inv then ~~~y else y) }
  | .or h w64 inv d a b => some { h := h, d := d, w := wid w64, lat := 4, xs := [(a, wid w64), (b, wid w64)],
                                  f := two w64 (fun x y => x ||| if inv then ~~~y else y) (fun x y => x ||| if inv then ~~~y else y) }
  | .xor h w64 inv d a b => some { h := h, d := d, w := wid w64, lat := 4, xs := [(a, wid w64), (b, wid w64)],
                                   f := two w64 (fun x y => x ^^^ if inv then ~~~y else y) (fun x y => x ^^^ if inv then ~~~y else y) }
  | .shl h w64 rot d a b =>
    some { h := h, d := d, w := wid w64, lat := 4, xs := [(a, wid w64), (b, wid w64)],
           f := two w64 (fun x y => if rot then x.rotateLeft (y.toNat % 32) else x <<< (y.toNat % 32))
             (fun x y => if rot then x.rotateLeft (y.toNat % 64) else x <<< (y.toNat % 64)) }
  | .shr h w64 arith d a b =>
    some { h := h, d := d, w := wid w64, lat := 4, xs := [(a, wid w64), (b, wid w64)],
           f := two w64 (fun x y => if arith then x.sshiftRight (y.toNat % 32) else x >>> (y.toNat % 32))
             (fun x y => if arith then x.sshiftRight (y.toNat % 64) else x >>> (y.toNat % 64)) }
  | .bfx h w64 sg d a b c => some { h := h, d := d, w := wid w64, lat := 4, xs := [(a, wid w64), (b, wid w64), (c, wid w64)],
                                    f := fun _ vs => (bfxVal (wid w64) sg (at0 vs) (at1 vs) (at2 vs), 0) }
  | .bfi h w64 d a b c => some { h := h, d := d, w := wid w64, lat := 4, xs := [(a, wid w64), (b, wid w64), (c, wid w64)],
                                 f := fun _ vs => (bfiVal (wid w64) (at0 vs) (at1 vs) (at2 vs), 0) }
  | .popc h w64 d a => some { h := h, d := d, w := wid w64, lat := 4, xs := [(a, wid w64)],
                              f := fun _ vs => (BitVec.ofNat 64 ((List.range (wid w64)).countP (opnd64 vs 0).getLsbD), 0) }
  | .clz h w64 d a => some { h := h, d := d, w := wid w64, lat := 4, xs := [(a, wid w64)],
                             f := fun _ vs => (BitVec.ofNat 64 (clzVal (wid w64) (at0 vs)), 0) }
  | .ctz h w64 d a => some { h := h, d := d, w := wid w64, lat := 4, xs := [(a, wid w64)],
                             f := fun _ vs => (BitVec.ofNat 64 (ctzVal (wid w64) (at0 vs)), 0) }
  | .brev h w64 d a => some { h := h, d := d, w := wid w64, lat := 4, xs := [(a, wid w64)],
                              f := fun _ vs => (brevVal (wid w64) (at0 vs), 0) }
  | .clmul h w64 hi d a b => some { h := h, d := d, w := wid w64, lat := 6, xs := [(a, wid w64), (b, wid w64)],
                                    f := fun _ vs => (lowW (wid w64) ((clmulVal (wid w64) (at0 vs) (at1 vs) >>>
                                      (if hi then wid w64 else 0)).setWidth 64), 0) }
  | .mov h w64 d a => some { h := h, d := d, w := wid w64, lat := 4, xs := [(a, wid w64)], f := fun _ vs => (opnd64 vs 0, 0) }
  | .movl h d lit => some { h := h, d := d, w := 32, lat := 4, xs := [], f := fun _ _ => (lit.setWidth 64, 0) }
  | .lea h sc d a b => some { h := h, d := d, w := 64, lat := 4, xs := [(a, 64), (b, 32)],
                              f := fun _ vs => (opnd64 vs 0 + ((opnd32 vs 1).signExtend 64 <<< sc.toNat), 0) }
  | _ => none

/-- The floating-point instructions that give a value of their sources alone (R160-R172). -/
def Instr.floatValue (i : Instr) : Option Val :=
  let fp2 (h : Hdr) (d : Dst) (a b : Src) (f : Thread → Nat → Nat → Nat × BitVec 5) : Option Val :=
    some { h := h, d := d, w := 32, lat := 6, xs := [(a, 32), (b, 32)],
           f := fun th vs => (w32 (f th (litOr a litF32 (at0 vs)) (litOr b litF32 (at1 vs))).1,
                              (f th (litOr a litF32 (at0 vs)) (litOr b litF32 (at1 vs))).2) }
  let halves (h : Hdr) (bf : Bool) (d : Dst) (xs : List Src) (f : FF → Thread → List Nat → Nat × BitVec 5) : Option Val :=
    let F := if bf then bf16 else f16
    some { h := h, d := d, w := 32, lat := 6, xs := xs.map fun x => (x, 32),
           f := fun th vs =>
             let ns := (xs.zip vs).map fun e => litOr e.1 (litPacked F 2 16) e.2
             let lo := f F th (ns.map (elem 16 0))
             let hi := f F th (ns.map (elem 16 1))
             (w32 (hi.1 % 65536 * 65536 + lo.1 % 65536), lo.2 ||| hi.2) }
  let fn (k : Nat) (h : Hdr) (d : Dst) (a : Src) : Option Val :=
    some { h := h, d := d, w := 32, lat := 0, xs := [(a, 32)],
           f := fun th vs => (w32 (special k th.ftz (litOr a litF32 (at0 vs))).1, (special k th.ftz (litOr a litF32 (at0 vs))).2) }
  match i with
  | .fadd h rm d a b => fp2 h d a b fun th x y => f32.add th.ftz (rm2 th rm) x y
  | .fsub h rm d a b => fp2 h d a b fun th x y => f32.sub th.ftz (rm2 th rm) x y
  | .fmul h rm d a b => fp2 h d a b fun th x y => f32.mul th.ftz (rm2 th rm) x y
  | .fmin h d a b => fp2 h d a b fun th x y => f32.minmax th.ftz false x y
  | .fmax h d a b => fp2 h d a b fun th x y => f32.minmax th.ftz true x y
  | .ffma h rm d a b c =>
    some { h := h, d := d, w := 32, lat := 6, xs := [(a, 32), (b, 32), (c, 32)],
           f := fun th vs =>
             let r := f32.fma th.ftz (rm2 th rm) (litOr a litF32 (at0 vs)) (litOr b litF32 (at1 vs)) (litOr c litF32 (at2 vs))
             (w32 r.1, r.2) }
  | .fsgn h op d a b => some { h := h, d := d, w := 32, lat := 0, xs := [(a, 32), (b, 32)],
                               f := fun _ vs => (w32 (fsgnVal op (litOr a litF32 (at0 vs)) (litOr b litF32 (at1 vs))), 0) }
  | .fclass h t hi d a =>
    some { h := h, d := d, w := 32, lat := 0, xs := [(a, 32)],
           f := fun _ vs =>
             let x := match t with
               | .f32 => litOr a litF32 (at0 vs)
               | _ => elem 16 (if hi then 1 else 0) (litOr a (litPacked (fTy t) 2 16) (at0 vs))
             (w32 ((fTy t).classify x), 0) }
  | .hadd2 h bf dyn d a b => halves h bf d [a, b] fun F th l => F.add th.ftz (hrm th dyn) (n0 l) (n1 l)
  | .hmul2 h bf dyn d a b => halves h bf d [a, b] fun F th l => F.mul th.ftz (hrm th dyn) (n0 l) (n1 l)
  | .hfma2 h bf dyn d a b c => halves h bf d [a, b, c] fun F th l => F.fma th.ftz (hrm th dyn) (n0 l) (n1 l) (n2 l)
  | .hmin2 h bf d a b => halves h bf d [a, b] fun F th l => F.minmax th.ftz false (n0 l) (n1 l)
  | .hmax2 h bf d a b => halves h bf d [a, b] fun F th l => F.minmax th.ftz true (n0 l) (n1 l)
  | .rcp h d a => fn 0 h d a
  | .rsq h d a => fn 1 h d a
  | .sqrt h d a => fn 2 h d a
  | .exp2 h d a => fn 3 h d a
  | .log2 h d a => fn 4 h d a
  | .sin h d a => fn 5 h d a
  | .cos h d a => fn 6 h d a
  | .dot2 h bf rz d a b c =>
    some { h := h, d := d, w := 32, lat := 8, xs := [(a, 32), (b, 32), (c, 32)],
           f := fun th vs =>
             let F := if bf then bf16 else f16
             let x := litOr a (litPacked F 2 16) (at0 vs)
             let y := litOr b (litPacked F 2 16) (at1 vs)
             let r := dot F F th.ftz (if rz then .rtz else .rne) ((List.range 2).map fun e => (elem 16 e x, elem 16 e y))
               (litOr c litF32 (at2 vs))
             (w32 r.1, r.2) }
  | .dot4 h fa fb d a b c =>
    some { h := h, d := d, w := 32, lat := 8, xs := [(a, 32), (b, 32), (c, 32)],
           f := fun th vs =>
             let x := litOr a (litPacked (f8 fa) 4 8) (at0 vs)
             let y := litOr b (litPacked (f8 fb) 4 8) (at1 vs)
             let r := dot (f8 fa) (f8 fb) th.ftz .rne ((List.range 4).map fun e => (elem 8 e x, elem 8 e y)) (litOr c litF32 (at2 vs))
             (w32 r.1, r.2) }
  | .cvtfi h hi ity fty rm d a =>
    some { h := h, d := d, w := intWidth ity, lat := 0, xs := [(a, 32)],
           f := fun th vs =>
             let x := if fty = .f32 then litOr a litF32 (at0 vs)
               else elem 16 (if hi then 1 else 0) (litOr a (litPacked (fTy fty) 2 16) (at0 vs))
             let r := floatToInt (fTy fty) th.ftz (rm3 th rm) ity x
             (wrapTo (intWidth ity) r.1, r.2) }
  | .cvtif h ity fty rm d a =>
    some { h := h, d := d, w := 32, lat := 0, xs := [(a, intWidth ity)],
           f := fun th vs =>
             let v : Int := if ity == .ui32 || ity == .ui64 then uns (intWidth ity) (at0 vs) else sgn (intWidth ity) (at0 vs)
             (w32 (intToFloat (fTy fty) (rm3 th rm) v).1, (intToFloat (fTy fty) (rm3 th rm) v).2) }
  | .cvt8 h true byte _ t _ d a _ =>
    some { h := h, d := d, w := 32, lat := 0, xs := [(a, 32)],
           f := fun _ vs =>
             let r := widen (f8 t) (elem 8 byte.toNat (litOr a (litPacked (f8 t) 4 8) (at0 vs)))
             (w32 r.1, r.2) }
  | .cvt4 h true nib _ d a _ =>
    some { h := h, d := d, w := 32, lat := 0, xs := [(a, 32)],
           f := fun _ vs =>
             let r := widen e2m1 (elem 4 nib.toNat (litOr a (litPacked e2m1 8 4) (at0 vs)))
             (w32 r.1, r.2) }
  | .cvtw h true t _ rm d a b =>
    some { h := h, d := d, w := 32, lat := 0, xs := [(a, 32), (b, 32)],
           f := fun th vs =>
             let wd := if t = .f4 then 4 else 8
             let r := widenScaled (fNarrow t) th.ftz (rm3 th rm) (elem wd 0 (uns 32 (at0 vs)))
               (uns 32 (at1 vs) % 256)
             (w32 r.1, r.2) }
  | _ => none

/-- The value instructions. -/
def Instr.value (i : Instr) : Option Val :=
  match Instr.intValue i with
  | some k => some k
  | none => Instr.floatValue i

/-- The kind of the sequencer that issues. -/
def Ready.kind (p : Ready) : TKind := match p.s1.thread? p.c.t with | some th => th.kind | none => .simt

/-- The destination is a register, not a port. -/
def isRegDst (k : TKind) (d : Dst) : Bool :=
  match effDst k d with
  | .vec _ => true
  | .scl a => a.toNat < 96

/-- What lane l of member m gets. -/
def Val.lane (k : Val) (p : Ready) (vs : List Opd) (m l : Nat) : W64 × BitVec 5 :=
  match p.s1.thread? m with
  | none => (0, 0)
  | some th => k.f th (vs.map fun v => v m l)

/-- The register writes of a result: lane by lane for a vector register; for a scalar-like one the value of the lowest active lane
(R46, R130). -/
def regWrites (s : State) (c : Ctx0) (kd : TKind) (d : Dst) (w : Nat) (f : Opd) : List Wr :=
  match effDst kd d with
  | .vec a => vecWrites s c a.toNat w f
  | .scl a => sclWrites s c a.toNat (uniform c f)

/-- The flags that each member of a conversion ORs into its FFLAGS: those of its active lanes, or where a scalar-like destination takes one
lane's value, that lane's in each member with an active lane (R107, R173). -/
def dstFlags (c : Ctx0) (kd : TKind) (d : Dst) (f : Nat → Nat → BitVec 5) : List (Nat × BitVec 5) :=
  (match effDst kd d with
   | .vec _ => memberFlags c f
   | .scl _ => match c.leader with
     | some (m, l) => (c.mem.filter fun x => c.active x != 0).map fun x => (x, f m l)
     | none => []).filter (·.2 != 0)

/-- Where a result computed in `s2` goes (R75, R88, R130, R265): to its register, at its latency; to a port, in flight where the latency is
variable, else at once, which waits for room and, at q0-q5, for the release of the earlier stores. A push to the full queue of a halted AS takes
the trap of that AS (R391). -/
def Delivers (i : Instr) (s : State) (p : Ready) (h : Hdr) (d : Dst) (w lat : Nat) (f : Opd) (fl : List (Nat × BitVec 5)) (s2 : State) :
    Prop :=
  (isRegDst p.kind d = true → Finishes i s p (deliver s2 p.c h lat (regWrites s2 p.c p.kind d w f) fl)) ∧
  (∀ a, effDst p.kind d = .scl a → 96 ≤ a.toNat → a.toNat < 112 →
    let q := a.toNat - 96
    (lat = 0 → (6 ≤ q && s2.asHalted p.c.t && !portRoom s2 p.c.t q w) = false →
      Finishes i s p (pushLater s2 p.c h q w (uniform p.c f) fl)) ∧
    (lat = 0 → (6 ≤ q && s2.asHalted p.c.t && !portRoom s2 p.c.t q w) = true → p.s0.asHalted p.c.t = true →
      exec i s = .next (p.s0.takeAsTrap p.c)) ∧
    (lat ≠ 0 → ∀ s3, portRoom s2 p.c.t q w = true → (if q < 6 then s2.releaseAll p.c.mem else some s2) = some s3 →
      Finishes i s p (fl.foldl (fun s e => s.orFlagsFixed e.1 lat e.2) (pushPort s3 p.c q w (uniform p.c f) h.sig))) ∧
    (lat ≠ 0 → q < 6 → portRoom s2 p.c.t q w = false ∨ s2.releaseAll p.c.mem = none → exec i s = .next { p.s0 with held := !p.fresh }))

/-- An engine word leaves its stream in the state `t`: what waited for words of q3 to leave takes effect (R199, R355). -/
def Dequeues (i : Instr) (s t : State) : Prop := exec i s = .next t.passRidge

/-- The word waits where it stands: nothing of its effect happens. -/
def Waits (i : Instr) (s : State) (p : Ready) : Prop := exec i s = .next { p.s0 with held := !p.fresh }

/-- The state that a value instruction's result leaves, its sources read in `s2`. -/
def Val.result (k : Val) (p : Ready) (vs : List Opd) (s2 : State) : State :=
  deliver s2 p.c k.h (latOf p.kind k.xs k.lat) (regWrites s2 p.c p.kind k.d k.w fun m l => (k.lane p vs m l).1)
    (memberFlags p.c fun m l => (k.lane p vs m l).2)

end Sys2Proof.Machine
end

