-- ==== Sys2Proof/Safety.lean ====
section
/-! DEFINITION. What counts as a safe run, and the invariants that the statements speak of. -/

namespace Sys2Proof

/-- The run of `n` steps from `s` comes to no fault and no refusal. -/
def SafeFor (n : Nat) (s : Machine.State) : Prop := ∃ s', core.run n s = .next s'

/-- Everything of the state that is a finite table of bytes is in canonical form: equal storage is equal data. -/
def Machine.State.bytesWf (s : Machine.State) : Bool :=
  Machine.Memory.wf s.mem && Machine.Memory.wf s.peer && Machine.Memory.wf s.carved && Machine.Memory.wf s.scratch && Machine.Memory.wf s.gscratch && Machine.Memory.wf s.nvme

end Sys2Proof
end

