-- ==== Sys2Proof/WellFormed.lean ====
section
/-! DEFINITION. Which instructions have a word: the conditions on operands that the encodings of R65-R87 and of the instructions'
own rules place beside the types of Syntax.lean. Scopes are no part of it: a word with a scope its opcode does not permit decodes,
and is refused at issue (R81). -/

namespace Sys2Proof

/-- A guard may not negate p0 (R66). -/
def Hdr.wf (h : Hdr) : Bool := !(h.pr.neg && h.pr.idx == 0)

/-- A guard that is also the result: p1-p7, not negated (R250, R272, R275). -/
def Hdr.resultGuard (h : Hdr) : Bool := !h.pr.neg && h.pr.idx != 0

/-- An instruction without a guard (R81). -/
def Hdr.unguarded (h : Hdr) : Bool := !h.pr.neg && h.pr.idx == 0

/-- A field the instruction does not use (R70). -/
def Src.isNone (a : Src) : Bool := a == .vec 0

/-- SEM of a load or a store: 0 or 1 (R243). -/
def MArg.oneWay (m : MArg) : Bool := m.sem != .both

/-- A load that extends has at most 4 bytes a lane (R243). -/
def MArg.extends_ (m : MArg) (sx : Bool) : Bool := !(sx && (m.sz == .b64 || m.sz == .b128))

/-- An atomic has 4 or 8 bytes (R270). -/
def MArg.atomic (m : MArg) : Bool := m.sz == .b32 || m.sz == .b64

/-- A reservation is of device or system scope (R274). -/
def MArg.wide (m : MArg) : Bool := m.ms == .device || m.ms == .system

/-- The data group of an atomic: a scalar group starts at s0 to s60 (R271). -/
def AGrp.wf (g : AGrp) : Bool := !(g.scl && 16 ≤ g.n.toNat)

/-- A target lies at a multiple of 8 bytes (R208). -/
def offWf (off : W32) : Bool := off.extractLsb' 0 3 == 0

/-- A scalar pair that names an even register from s2 to s62 (R187, R444). -/
def evenWf (a : BitVec 8) : Bool := a.toNat % 2 == 0 && 2 ≤ a.toNat && a.toNat ≤ 62

/-- Barrier n of a kind exists (R463). -/
def BarKind.wf (k : BarKind) (n : BitVec 4) : Bool :=
  match k with
  | .blk => true
  | .cor => n.toNat < 8
  | .job => n.toNat < 4

/-- The memory fields of a tile load or store (R187). -/
def tileWf (str : Bool) (m : MArg) : Bool :=
  m.sz == .b8 && (!str || (match m.off with | .scl a => evenWf a | _ => false))

/-- The conditions of each instruction. -/
def Instr.wf : Instr → Bool
  | .sel h _ _ _ _ neg p => h.wf && !(neg && p == 0)
  | .movs h _ lo _ _ b => h.wf && (!lo || b.isNone)
  | .fclass h t hi _ _ => h.wf && !(hi && t == .f32)
  | .cvtf h pk hi dst src rm _ _ b =>
    h.wf && !(dst == .f32 && rm != .mode .rne) && dst != src && !(hi && src == .f32) &&
      (if pk then src == .f32 else b.isNone)
  | .cvtfi h hi _ fty rm _ _ => h.wf && rm != .mode .stoch && !(hi && fty == .f32)
  | .cvtif h _ _ rm _ _ => h.wf && rm != .mode .stoch
  | .cvt8 h unpk _ nosat _ rm _ _ b => h.wf && (!unpk || (b.isNone && rm == .mode .rne && !nosat))
  | .cvt4 h unpk _ rm _ _ b => h.wf && (!unpk || (b.isNone && rm == .mode .rne))
  | .cvtw h unpk t nosat rm _ _ _ => h.wf && !(unpk && rm == .mode .stoch) && !(nosat && (t == .f4 || unpk))
  | .shfl h _ seg _ _ _ _ => h.wf && seg.toNat ≤ 9
  | .perm h m _ _ _ => h.wf && (h.scp != .warp || m == 0)
  | .vote h k d =>
    h.wf && (match k, d with
      | .ballot _, .pred _ => false
      | _, _ => true)
  | .xadd h _ _ _ cnt => h.wf && cnt != 0 && cnt.toNat < 96
  | .ld h sx _ m | .ldsp h sx _ m => h.wf && m.oneWay && m.extends_ sx
  | .ldpoll h sx _ m => h.resultGuard && m.oneWay && m.extends_ sx
  | .st h _ m | .stsp h _ m => h.wf && m.oneWay
  | .atom h op g m =>
    h.wf && g.wf && m.atomic && !(op == .fadd && m.sz == .b64) && (op != .bfadd || h.resultGuard)
  | .red h op g m =>
    h.wf && op != .xchg && op != .cas && op != .bfadd && g.wf && m.oneWay && m.atomic && !(op == .fadd && m.sz == .b64)
  | .ldres h _ m => h.wf && m.oneWay && m.wide && m.atomic
  | .stcond h _ m => h.resultGuard && m.oneWay && m.wide && m.atomic
  | .cfence h _ _ mask => h.wf && mask != 0
  | .bra h fn off => h.wf && (h.scp == .lane || fn.toNat ≤ 1) && offWf off
  | .brx h fn _ => h.wf && (h.scp == .lane || fn == 0)
  | .call h l off =>
    h.wf && offWf off && (match l with | .pair _ => h.scp != .block | .scl s => s != 0)
  | .yield h off | .yieldC h _ off | .spawn h _ off | .spawnW h _ off | .brq h _ off => h.wf && offWf off
  | .loop h _ a | .tshapeReg h a | .swr h _ a => h.wf && !a.isVec
  | .regang h _ | .rsectEnter h | .rsectExit h | .gpstart h _ | .gpwait h _ | .gptest h _ _ => h.unguarded
  | .barSync h k n | .barArv h k n | .barWt h k n => h.unguarded && k.wf n
  | .elect h _ w k => h.wf && (w.isNone == (k == 0))
  | .ckpt h _ rows _ => h.wf && rows.toNat ≤ 256
  | .sempPost h _ n | .semwWait h _ n | .semwTry h _ _ n => h.wf && n != 0
  | .sempInit h _ v ceil => h.wf && v.toNat ≤ ceil.toNat && ceil != 0
  | .unsub h all e | .subflush h all e => h.wf && (!all || e == 0)
  | .subPub h d _ _ | .subSub h d _ _ => h.wf && evenWf d
  | .tld h str _ m | .tst h str _ m => h.wf && tileWf str m
  | .tadd h f _ _ _ | .tsub h f _ _ _ | .tmul h f _ _ _ | .tfma h f _ _ _ _ | .tun h _ f _ _ => h.wf && f != 3
  | .tred h op ax f d a =>
    h.wf && f != 3 && (op == .add || f == 0) && (!(d.dk && ax != .all)) && a.isVec
  | .tbc h ax _ a => h.wf && (ax == .all || a.isVec)
  | .accrd h _ _ f _ row col => h.wf && f != 3 && !row.isVec && !col.isVec
  | .accwr h _ _ row col => h.wf && !row.isVec && !col.isVec
  | .accwin h split base lim =>
    h.wf && base.toNat ≤ lim.toNat && !(split && (h.scp == .lane || h.scp == .warp))
  | .lease h n => h.wf && n.toNat ≤ 64
  | .hinv h all n _ => h.wf && (!all || n == 0)
  | .nop h _ | .iadd h _ _ _ _ | .isub h _ _ _ _ | .imul h _ _ _ _ | .imulhi h _ _ _ _ | .imad h _ _ _ _ _
  | .imin h _ _ _ _ | .imax h _ _ _ _ | .iabs h _ _ _ | .and h _ _ _ _ _ | .or h _ _ _ _ _ | .xor h _ _ _ _ _
  | .shl h _ _ _ _ _ | .shr h _ _ _ _ _ | .bfx h _ _ _ _ _ _ | .bfi h _ _ _ _ _ | .popc h _ _ _ | .clz h _ _ _
  | .ctz h _ _ _ | .brev h _ _ _ | .clmul h _ _ _ _ _ | .icmp h _ _ _ _ _ _ _ | .plop h _ _ _ _ | .mov h _ _ _
  | .movl h _ _ | .lea h _ _ _ _ | .hinfo h _ _ _ | .fadd h _ _ _ _ | .fsub h _ _ _ _ | .fmul h _ _ _ _
  | .ffma h _ _ _ _ _ | .fmin h _ _ _ | .fmax h _ _ _ | .fsgn h _ _ _ _ | .fcmp h _ _ _ _ _ | .hadd2 h _ _ _ _ _
  | .hmul2 h _ _ _ _ _ | .hfma2 h _ _ _ _ _ _ | .hmin2 h _ _ _ _ | .hmax2 h _ _ _ _ | .rcp h _ _ | .rsq h _ _
  | .sqrt h _ _ | .exp2 h _ _ | .log2 h _ _ | .sin h _ _ | .cos h _ _ | .dot2 h _ _ _ _ _ _ | .dot4 h _ _ _ _ _ _
  | .rseed h _ | .rnext h _ _ _ | .xred h _ _ _ _ | .xscan h _ _ _ _ _ | .pref h _ _ _ | .cctl h _ _ _ _ | .commit h
  | .redflush h | .ret h _ | .exit h | .svc h _ | .setpl h _ | .setsh h _ _ | .trap h _ | .semwRd h _ _ | .dfree h _ _ _
  | .tzero h _ | .tshapeImm h _ | .tmin h _ _ _ | .tmax h _ _ _ | .tcmp h _ _ _ _ _ | .tsel h _ _ _ _ | .ttr h _ _
  | .tcvt h _ _ _ _ _ | .unlease h | .xret h | .killBlk h | .killCtx h | .srd h _ _ | .tlbinvVa h _ _ _
  | .tlbinvCtx h _ | .tlbinvVi h => h.wf
  | .illegalOpcode op _ => (opRow op.toNat).isNone
  | .engineWord w => decode16 w == .engineWord w
  | .lzFence mask => mask &&& 0x0C == 0
  | .lzIllegalInstruction w => decode32 w == some (.lzIllegalInstruction w)
  | .thermalRead temps => temps.length == 96
  | .lit _ | .litx _ | .dup | .drop | .swap | .stackOver | .add | .mul | .clr | .engineNop | .copy1d _ | .copy2d _ | .copy3d _
  | .gather _ _ _ | .scatter _ _ _ | .fill _ _ | .sempost _ _ | .semwait _ _ | .note | .mma _ _ _ | .mmas _ _ _ _
  | .mmax _ _ _ | .accz _ _ | .accdrain _ _ _ _ | .accload _ _ _ | .bvhset _ | .rayhit _ | .rayrad _ | .rayknn _
  | .vremap _ | .vpyr _ | .vstereo _ _ _ | .vflow _ _ | .vchain _ | .stwr _ _ _ | .strd _ _ | .sflush _ _
  | .lzPush _ _ _ | .lzPop _ _ | .lzSubmit _ _ _ | .lzTime _ | .lzWaitq _ _ _ | .scopedRendezvous _
  | .resultLanding _ _ | .storeAck _ _ | .asyncTrapEntry _ | .warpExitComplete _ | .streamRotation _
  | .spawnQueuePlace _ | .leaseGrant _ | .semTakeServed _ | .barrierRelease _ _ _ | .graceSlotComplete _ _
  | .launchCompletion _ _ | .storageTimeout _ | .cardDoorbell _ _ | .cardArm _ _ _ | .periodicRelease _
  | .jobCompletion _ | .blockPlacement _ | .simtBlockSave _ | .tileBlockSave _ | .blockRestore _ | .deadlineMiss _
  | .budgetTime _ | .checkpointOverdue _ | .dtStep _ _ | .dtRate _ _ | .railSwitch _ | .droopReplay _
  | .droopHoldEnd _ | .brownout _ | .watchdog _ | .islRestart _ _ | .engineRestart _ | .gateWayRequest _ _ _
  | .ungateWay _ _ _ | .gatingDone _ | .mereCarve _ _ | .mereInj _ _ | .merePatrolScrub _ | .dramPatrolScrub _
  | .lpddr6Refresh _ _ | .sensorStreamWrite _ _ _ | .walkReread _ | .migrationStall _ | .xltInvVa _ _ _
  | .xltInvCtx _ _ _ | .xltInvVi _ _ _ | .xltHinv _ _ _ | .xltHinvAll _ _ _ | .xltInvDone _ _ | .splReq _ _ _
  | .splinterDone _ | .svcRequestEnqueue _ | .svcReply _ _ _ | .remoteAccess _ _ | .gutterFlitArrival _ _ _ _
  | .packetLost _ _ | .deadLane _ _ | .batchIdleFlush _ _ | .batchEntryApply _ | .subAckTimeout _ _ _ | .hcpCtl _ _ _
  | .hcpSem _ _ _ _ | .viSimt _ _ _ _ | .viUnitHandover _ | .powerGoodBoot _ _ | .recoveryImage _
  | .registerWrite _ _ _ | .lzWaitqTimeLimit _ | .hartInterrupt _ | .qpaceGapElapsed _ _ | .applicationCoreAccess _ _
  | .weirWindowEdge | .ctxKill | .pageRetire | .wayQuar | .mereInjection | .rafterRecompile | .siltPersist => true

/-- Whether a Lerzil word: it has the common header, and its bytes are eight. -/
def Instr.isLerzil (i : Instr) : Bool := (encode64 i).isSome

end Sys2Proof
end

