-- ==== Sys2Proof/Certificates/Slice0/Obligations.lean ====
section
/-! DEFINITION. The statements for the provers. Each docstring names the rules of the manual that the statement formalises, or the log
entry on which a choice of the model rests. -/

open Sys2Proof Sys2Proof.Machine

/-! ## Issue -/

/-- R42, R78, R81: at lane scope a word that nothing holds back (no yield, no leader window, no counter of its WAIT field) and whose checks
all pass takes its effect, in the lanes that run and in which its guard holds. R293: unless a register that it reads, or writes in some lanes
only, holds an error: then its block is lost with UE_REGISTER and the register's number. -/
def Obligations.LaneIssueRuns : Prop :=
  ∀ (i : Instr) (k : Checks) (s : State) (t : Nat) (th : Thread) (g : BitVec 8),
    Instr.checks i s = some k → laneFree k.h s t th g = true →
    let c := laneCtx k.h s t th g
    let s1 := (s.setThread t (th.dropYields g)).waitAcquire t k.h.wait
    gate k.op k.h.scp k.reg k.us k.extra true c s = none →
    (s1.regHit k.op k.reg c k.us = none → ready i s = some { c := c, fresh := false, s0 := s, s1 := s1.writeOver k.op k.reg c k.us }) ∧
    (∀ l, s1.regHit k.op k.reg c k.us = some l → exec i s = .next (s.loseBlock th.block Block.again 0x29 (BitVec.ofNat 64 l.number)))

/-- R81 at lane scope: the checks come in the order of the manual's table, and the first that fails is the trap that the word takes,
with the XVAL of R233; nothing of the word's own effect happens. -/
def Claim.CheckOrder : Prop :=
  ∀ (i : Instr) (k : Checks) (s : State) (t : Nat) (th : Thread) (g : BitVec 8),
    Instr.checks i s = some k → laneFree k.h s t th g = true →
    (opRow k.op = none →
      exec i s = .next (s.trapWord (laneCtx k.h s t th g) cIllegalOpcode (BitVec.ofNat 64 (k.op * 256)) none false)) ∧
    (∀ r, opRow k.op = some r → profileOk th.kind k.op = false →
      exec i s = .next (s.trapWord (laneCtx k.h s t th g) cIllegalOpcode (BitVec.ofNat 64 (k.op * 256 + 1)) none false)) ∧
    (∀ r, opRow k.op = some r → profileOk th.kind k.op = true → (privOp k.op || k.reg.any privReg) = true → th.priv = false →
      exec i s = .next (s.trapWord (laneCtx k.h s t th g) cPrivilege (BitVec.ofNat 64 (k.reg.getD 0 * 256 + k.op)) none false)) ∧
    (∀ r, opRow k.op = some r → profileOk th.kind k.op = true → ((privOp k.op || k.reg.any privReg) = false ∨ th.priv = true) →
      r.scopes.contains k.h.scp = false →
      exec i s = .next (s.trapWord (laneCtx k.h s t th g) cIllegalScope (BitVec.ofNat 64 k.h.scp.bits.toNat) none false)) ∧
    (∀ r b, opRow k.op = some r → profileOk th.kind k.op = true → ((privOp k.op || k.reg.any privReg) = false ∨ th.priv = true) →
      r.scopes.contains k.h.scp = true → checkUses k.us k.extra (laneCtx k.h s t th g) s = some b →
      exec i s = .next (s.trapWord (laneCtx k.h s t th g) cIllegalOperand (BitVec.ofNat 64 b) none false))

/-- R78, R391: while a counter that the WAIT field names is not zero, the word does not issue: the path stays where it is and nothing else
changes. An XS whose own push waits for room that its halted AS will not make takes the trap of that AS instead. -/
def Claim.WaitHolds : Prop :=
  ∀ (i : Instr) (k : Checks) (s : State) (t : Nat) (th : Thread) (g : BitVec 8),
    Instr.checks i s = some k → s.cur = .thread t g → s.thread? t = some th → s.blocked t th = false → th.inTrap = none →
    wideScope th.kind k.h.scp = false → s.yielding t th g = false → th.window g = none → th.waitOk k.h.wait = false →
    (s.stuckPush t = false → exec i s = .next { s with held := true }) ∧
    (s.stuckPush t = true → ∃ c : Ctx0, c.t = t ∧ c.pc = (th.slice (((slicesOf g).head?).getD 0)).pc ∧ exec i s = .next (s.takeAsTrap c))

/-- R81: an opcode that no row of the table assigns raises ILLEGAL_OPCODE with sub-code 0, XVAL<15:8> holding the opcode. -/
def Claim.UnassignedOpcodeTraps : Prop :=
  ∀ (op : BitVec 8) (h : Hdr) (s : State) (t : Nat) (th : Thread) (g : BitVec 8),
    opRow op.toNat = none → laneFree h s t th g = true →
    exec (.illegalOpcode op h) s =
      .next (s.trapWord (laneCtx h s t th g) cIllegalOpcode (BitVec.ofNat 64 (op.toNat * 256)) none false)

/-- Together: what a word that fails a check of R81 does. -/
def Obligations.FailedChecks : Prop := Claim.CheckOrder ∧ Claim.UnassignedOpcodeTraps

/-- The words of R544 that have no effect where no lane of their scope is active. -/
def idleWord (i : Instr) : Bool :=
  (Instr.value i).isSome ||
  match i with
  | .icmp .. | .fcmp .. | .sel .. | .plop .. | .movs .. | .hinfo .. | .cvtf .. | .cvt8 .. | .cvt4 .. | .cvtw .. | .rseed .. | .rnext ..
  | .shfl .. | .perm .. | .xscan .. | .xadd .. | .ld .. | .st .. | .ldpoll .. | .pref .. | .cctl .. | .commit .. | .ldsp .. | .stsp ..
  | .atom .. | .ldres .. | .stcond .. | .red .. | .redflush .. | .cfence .. | .loop .. | .elect .. | .spawn .. | .spawnW .. | .svc ..
  | .setpl .. | .ckpt .. | .setsh .. | .trap .. | .sempPost .. | .sempInit .. | .semwWait .. | .semwTry .. | .semwRd .. | .gpstart ..
  | .gpwait .. | .gptest .. | .dfree .. | .subPub .. | .subSub .. | .unsub .. | .subflush .. | .tshapeImm .. | .tshapeReg .. | .accwin ..
  | .lease .. | .unlease .. | .xret .. | .killBlk .. | .killCtx .. | .srd .. | .swr .. | .tlbinvVa .. | .tlbinvCtx .. | .tlbinvVi ..
  | .hinv .. => true
  | _ => false

/-- R544: with no lane of its scope active such a word writes no destination and has no other effect; it pops no port and waits for
nothing but its WAIT field. A LOOP at the end of a loop body traps all the same (R214). -/
def Claim.NoLaneActive : Prop :=
  ∀ (i : Instr) (s : State) (p : Ready), idleWord i = true → ready i s = some p → p.c.idle = true →
    (∀ h n a, i = .loop h n a → loopEnd p.s1 p.c = none) → Finishes i s p p.s1

/-- Together: the words that have no effect: held back by their WAIT field, or with no lane active. -/
def Obligations.WordsWithoutEffect : Prop := Claim.WaitHolds ∧ Claim.NoLaneActive

/-! ## Value instructions -/

/-- R132-R139, R143, R144, R146 with R127-R130: an integer instruction writes, in every active lane, the result that the manual's
arithmetic gives for that lane's sources, in the width of the form; a scalar-like destination takes the lowest active lane's. -/
def Obligations.IntegerResults : Prop :=
  ∀ (i : Instr) (s : State) (p : Ready) (k : Val) (vs : List Opd) (s2 : State),
    Instr.intValue i = some k → ready i s = some p → fetchSrcs p.c p.s1 k.xs = .ok vs s2 → p.c.idle = false →
    isRegDst p.kind k.d = true → Finishes i s p (k.result p vs s2)

/-- R158-R172: a floating-point instruction of one result writes its value in every active lane and ORs the flags that those lanes raise
into FFLAGS (R107). The functions themselves are the model's. -/
def Obligations.FloatResults : Prop :=
  ∀ (i : Instr) (s : State) (p : Ready) (k : Val) (vs : List Opd) (s2 : State),
    Instr.floatValue i = some k → ready i s = some p → fetchSrcs p.c p.s1 k.xs = .ok vs s2 → p.c.idle = false →
    isRegDst p.kind k.d = true → Finishes i s p (k.result p vs s2)

/-- R75, R88, R130, R265, R301: a value of fixed latency whose destination is a port goes to its queue once the queue has room and, for
q0-q5, once the earlier stores are released; with no room in q0-q5 it waits. One of variable latency is in flight with its port, and is pushed
as it lands (that such pushes to one port come in issue order is the model's choice: log entry 48). -/
def Obligations.PortResults : Prop :=
  ∀ (i : Instr) (s s3 : State) (p : Ready) (k : Val) (vs : List Opd) (s2 : State) (a : BitVec 8),
    Instr.value i = some k → ready i s = some p → fetchSrcs p.c p.s1 k.xs = .ok vs s2 → p.c.idle = false →
    effDst p.kind k.d = .scl a → 96 ≤ a.toNat → a.toNat < 112 →
    let q := a.toNat - 96
    let x := uniform p.c fun m l => (k.lane p vs m l).1
    let fl := memberFlags p.c fun m l => (k.lane p vs m l).2
    (latOf p.kind k.xs k.lat = 0 → Finishes i s p (s2.push p.c.t
      { Pend.value 0 k.h.sig p.c.mem [] fl s2.clock with port := some q, got := [(lowW k.w x).toNat], sz := k.w / 8 })) ∧
    (latOf p.kind k.xs k.lat ≠ 0 →
      (portRoom s2 p.c.t q k.w = true → (if q < 6 then s2.releaseAll p.c.mem else some s2) = some s3 →
        Finishes i s p (fl.foldl (fun s e => s.orFlagsFixed e.1 (latOf p.kind k.xs k.lat) e.2) (pushPort s3 p.c q k.w x k.h.sig))) ∧
      (portRoom s2 p.c.t q k.w = false → q < 6 → exec i s = .next { p.s0 with held := !p.fresh }))

/-- R76, R127-R130: a result of fixed latency in a vector register is what every active lane of every arrived member reads: the low 32
bits in the register named, and the high 32 bits of a 64-bit value in the one after it. The members are resident, each once. -/
def Claim.VectorResultReads : Prop :=
  ∀ (s : State) (c : Ctx0) (h : Hdr) (lat a w m l j : Nat) (f : Opd) (fl : List (Nat × BitVec 5)) (th : Thread),
    lat ≠ 0 → c.mem.Nodup → (∀ x ∈ c.mem, (s.thread? x).isSome = true) →
    (∀ y, s.thread? m = some y → Tbl.wf 0 y.v = true) → m ∈ c.mem → l < 32 → hasLane (c.active m) l = true →
    j < regsOf w → (deliver s c h lat (vecWrites s c a w f) fl).thread? m = some th →
    th.vreg (vindex s c m a + j) l = (f m l).extractLsb' (32 * j) 32

/-- R46, R67, R72, R76: a fixed-latency scalar result is what every arrived member's s-register holds afterwards; s0 discards it and reads
zero. -/
def Claim.ScalarResultReads : Prop :=
  ∀ (s : State) (c : Ctx0) (h : Hdr) (lat a m : Nat) (x : W64) (fl : List (Nat × BitVec 5)) (th : Thread),
    lat ≠ 0 → a < 64 → c.mem.Nodup → m ∈ c.mem → (∀ y, s.thread? m = some y → Tbl.wf 0 y.s = true) → (deliver s c h lat (sclWrites s c a x) fl).thread? m = some th →
    th.sreg a = if a = 0 then 0 else x

/-- Together: what the registers of the active lanes and of the arrived members read after a result of fixed latency. -/
def Obligations.RegisterReads : Prop := Claim.VectorResultReads ∧ Claim.ScalarResultReads

/-- All of a thread but its registers v, s and p is as before, apart from its control state (slices, running lanes, loop membership,
streams, issue counts, yields, windows, rendezvous, translation attempt), the bookkeeping of results in flight, the wait counters, the
acquire points, the reply slot that a pop empties, and FFLAGS with the flags in flight: so every t-register, special register, trap register, generator, accumulator
window, reservation and reduction entry. -/
def KeptBut (th th' : Thread) : Prop :=
  { th' with
    v := th.v, s := th.s, p := th.p, haz := th.haz, pend := th.pend, nextId := th.nextId, wc := th.wc, fflags := th.fflags
    ffHaz := th.ffHaz
    slices := th.slices, run := th.run, held := th.held, m0 := th.m0, m1 := th.m1, streams := th.streams, park := th.park
    inTrap := th.inTrap, issues := th.issues, pos := th.pos, lastIssue := th.lastIssue, rotate := th.rotate, yields := th.yields
    yieldC := th.yieldC, windows := th.windows, walkM := th.walkM, turn := th.turn, rdv := th.rdv, acq := th.acq, cover := th.cover
    reply := th.reply } = th

/-- Whether a register destination names vector register r of member m. -/
def namesVec (s : State) (p : Ready) (k : Val) (m r : Nat) : Prop :=
  ∃ a j, effDst p.kind k.d = .vec a ∧ m ∈ p.c.mem ∧ j < regsOf k.w ∧ r = vindex s p.c m a.toNat + j

/-- The frame of every value instruction with a register destination: memory and every queue, table and device of the part are as they
were once the sources were read (a port source takes one record or entry off its queue, R75); of the blocks only h- and k-registers may
change, and only where the destination is one; of a thread every register is as before but the destination register, in the active lanes;
its predicates and all of `KeptBut` are as before; FFLAGS changes only by the flags that the result raises (R107, R130, R157). -/
def Obligations.ValueFrame : Prop :=
  ∀ (i : Instr) (s t : State) (p : Ready) (k : Val) (vs : List Opd) (s2 : State),
    Instr.value i = some k → ready i s = some p → fetchSrcs p.c p.s1 k.xs = .ok vs s2 → p.c.idle = false →
    isRegDst p.kind k.d = true → settles p.c (k.result p vs s2) = true → exec i s = .next t →
    { t with threads := [], blocks := [], cfg := [] } = { s2 with threads := [], blocks := [], cfg := [] } ∧
    (∀ q, t.homeByte q = s.homeByte q) ∧
    (∀ b x, s.block? b = some x → ∃ x', t.block? b = some x' ∧ { x' with k := x.k, sheaves := x.sheaves } = x) ∧
    ((∀ a, effDst p.kind k.d = .scl a → a.toNat < 64) → t.blocks = s.blocks) ∧
    ∀ m th, s.thread? m = some th → ∃ th', t.thread? m = some th' ∧ KeptBut th th' ∧
      (∀ r l, l < 32 → ¬(namesVec p.s1 p k m r ∧ hasLane (p.c.active m) l = true) → th'.vreg r l = th.vreg r l) ∧
      (∀ r, ¬(m ∈ p.c.mem ∧ ∃ a, effDst p.kind k.d = .scl a ∧ a.toNat = r) → th'.sreg r = th.sreg r) ∧
      (∀ r, th'.pred r = th.pred r) ∧
      ((∀ x l, (k.lane p vs x l).2 = 0) → th'.fflags = th.fflags)

/-- What completing an instruction leaves (R38, R46, R53, R77, R212): nothing changes but the control state of threads (slices, running
lanes, loop membership, streams, issue counts, yields, windows, the translation attempt) and the event counters of the configuration
space; no general register, predicate, special register, byte of memory or queue. -/
def Obligations.CompletionFrame : Prop :=
  ∀ (c : Ctx0) (s0 s : State),
    { completed c s0 s with threads := [], cfg := [] } = { s with threads := [], cfg := [] } ∧
    (∀ o, (∀ u k, k < 8 → o ≠ evOff u (0x40 + 8 * k)) → (completed c s0 s).cfgAt o = s.cfgAt o) ∧
    ∀ (m : Nat) (th : Thread), s.thread? m = some th →
      ∃ th', (completed c s0 s).thread? m = some th' ∧
        { th' with slices := th.slices, run := th.run, held := th.held, m0 := th.m0, m1 := th.m1, streams := th.streams, park := th.park,
                   inTrap := th.inTrap, issues := th.issues, pos := th.pos, lastIssue := th.lastIssue, rotate := th.rotate,
                   yields := th.yields, walkM := th.walkM, turn := th.turn, rdv := th.rdv } = th

/-! ## Predicates, selection, conversions, generators -/

/-- A comparison of two words of the width given (R140). -/
def compares (c : ICond) (u w64 : Bool) (x y : W64) : Bool :=
  let lt : Bool := if w64 then (if u then x.ult y else x.slt y)
    else (if u then (x.setWidth 32).ult (y.setWidth 32) else (x.setWidth 32).slt (y.setWidth 32))
  let eq : Bool := if w64 then x == y else x.setWidth 32 == y.setWidth 32
  match c with
  | .eq => eq
  | .ne => !eq
  | .lt => lt
  | .le => lt || eq
  | .gt => !(lt || eq)
  | .ge => !lt

/-- R140, R142, R163: ICMP, FCMP and PLOP write their predicate in every active lane: ICMP the integer comparison and FCMP the
floating-point one, combined with the old value as the form says, FCMP with its flags; PLOP the table entry that its two predicates
select. The destination p0 discards the write (R67). -/
def Claim.PredicateResults : Prop :=
  (∀ (h : Hdr) (c : ICond) (u w64 : Bool) (k : Comb) (pr : BitVec 3) (a b : Src) (s s2 : State) (p : Ready) (va vb : Opd),
    ready (.icmp h c u w64 k pr a b) s = some p → fetchSrcs p.c p.s1 [(a, wid w64), (b, wid w64)] = .ok [va, vb] s2 →
    p.c.idle = false → (∀ x ∈ p.c.mem, (p.s1.thread? x).isSome = true) →
    Finishes (.icmp h c u w64 k pr a b) s p (deliver s2 p.c h (latOf p.kind [(a, wid w64), (b, wid w64)] 4)
      (predWrites p.c pr.toNat fun m l =>
        let old := hasLane (readPred p.s1 m pr.toNat) l
        let new := compares c u w64 (va m l) (vb m l)
        match k with
        | .write => new
        | .and => old && new
        | .or => old || new) [])) ∧
  (∀ (h : Hdr) (c : FCond) (k : Comb) (pr : BitVec 3) (a b : Src) (s s2 : State) (p : Ready) (va vb : Opd),
    ready (.fcmp h c k pr a b) s = some p → fetchSrcs p.c p.s1 [(a, 32), (b, 32)] = .ok [va, vb] s2 → p.c.idle = false →
    (∀ x ∈ p.c.mem, (p.s1.thread? x).isSome = true) →
    let r (m l : Nat) : Bool × BitVec 5 :=
      f32.compare ((p.s1.thread? m).any (·.ftz)) c (litOr a litF32 (va m l)) (litOr b litF32 (vb m l))
    Finishes (.fcmp h c k pr a b) s p (deliver s2 p.c h (latOf p.kind [(a, 32), (b, 32)] 6)
      (predWrites p.c pr.toNat fun m l => combine k (hasLane (readPred p.s1 m pr.toNat) l) (r m l).1)
      (memberFlags p.c fun m l => (r m l).2))) ∧
  (∀ (h : Hdr) (pd pa pb : BitVec 3) (lut : BitVec 4) (s : State) (p : Ready),
    ready (.plop h pd pa pb lut) s = some p → p.c.idle = false →
    Finishes (.plop h pd pa pb lut) s p (deliver p.s1 p.c h 4
      (predWrites p.c pd.toNat fun m l =>
        match hasLane (readPred p.s1 m pa.toNat) l, hasLane (readPred p.s1 m pb.toNat) l with
        | false, false => lut.getLsbD 0
        | false, true => lut.getLsbD 1
        | true, false => lut.getLsbD 2
        | true, true => lut.getLsbD 3) []))

/-- R141, R68: SEL writes in every active lane its first source where the predicate, or its negation, holds and its second elsewhere. -/
def Claim.SelectResult : Prop :=
  ∀ (h : Hdr) (w64 neg : Bool) (pr : BitVec 3) (d : Dst) (a b : Src) (s s2 : State) (p : Ready) (va vb : Opd),
    ready (.sel h w64 d a b neg pr) s = some p → fetchSrcs p.c p.s1 [(a, wid w64), (b, wid w64)] = .ok [va, vb] s2 →
    p.c.idle = false → isRegDst p.kind d = true →
    Finishes (.sel h w64 d a b neg pr) s p (deliver s2 p.c h (latOf p.kind [(a, wid w64), (b, wid w64)] 4)
      (regWrites s2 p.c p.kind d (wid w64) fun m l =>
        if hasLane (readPred p.s1 m pr.toNat) l != neg then va m l else vb m l) [])

/-- Together: the instructions that write or read a predicate lane by lane. -/
def Obligations.PredicateAndSelectResults : Prop := Claim.PredicateResults ∧ Claim.SelectResult

/-- The lanes in which a conversion converts: every active lane, or the lowest one for a scalar-like destination (R173). -/
def convLanes (p : Ready) (d : Dst) : List (Nat × Nat) :=
  match effDst p.kind d with
  | .vec _ => p.c.act.flatMap fun e => (lanesOf e.2).map fun l => (e.1, l)
  | .scl _ => p.c.leader.toList

/-- The generator of a lane after n steps (R117). -/
def stepped (n : Thread → Nat) (s : State) (e : Nat × Nat) : State :=
  s.mapThread e.1 fun th =>
    match (genSeq (n th) (th.genAt (genIndex th e.2))).getLast? with
    | some x => th.setGen (genIndex th e.2) x
    | none => th

/-- What a conversion leaves: the generators stepped in each lane that converts, once per element rounded stochastically, and the result
delivered with a variable latency (R117, R168-R173). -/
def converted (h : Hdr) (d : Dst) (n : Thread → Nat) (f : Thread → List W64 → List W32 → W64 × BitVec 5) (p : Ready) (vs : List Opd)
    (s2 : State) : State :=
  let g (m l : Nat) : W64 × BitVec 5 :=
    match p.s1.thread? m with
    | none => (0, 0)
    | some th => f th (vs.map fun v => v m l) (genSeq (n th) (th.genAt (genIndex th l)))
  let s3 := (convLanes p d).foldl (stepped n) s2
  deliver s3 p.c h 0 (regWrites s3 p.c p.kind d 32 fun m l => (g m l).1) (dstFlags p.c p.kind d fun m l => (g m l).2)

/-- R117, R168, R170-R173: CVTF and the packing forms of CVT8, CVT4 and CVTW convert in every active lane, with the rounding that the
field or FMODE selects, step a lane's generator once for each element rounded stochastically, and write CVTF's value or packed pair, or the
code in its byte or nibble of the second source. -/
def Claim.ConversionResults : Prop :=
  (∀ (h : Hdr) (pk hi : Bool) (dst src : FTy) (rm : Rm3) (d : Dst) (a b : Src) (s s2 : State) (p : Ready) (vs : List Opd),
    ready (.cvtf h pk hi dst src rm d a b) s = some p →
    fetchSrcs p.c p.s1 (if pk then [(a, 32), (b, 32)] else [(a, 32)]) = .ok vs s2 → p.c.idle = false → isRegDst p.kind d = true →
    let one (th : Thread) (x : Nat) (g : W32) : Nat × BitVec 5 :=
      cvtFloat (fTy src) (fTy dst) th.ftz (if dst = .f32 then .rne else rm3 th rm) g x
    let arg (x : Src) (v : W64) : Nat :=
      if src = .f32 then litOr x litF32 v else elem 16 (if hi then 1 else 0) (litOr x (litPacked (fTy src) 2 16) v)
    Finishes (.cvtf h pk hi dst src rm d a b) s p
      (converted h d (fun th => if dst = .f32 then 0 else stochCount rm (if pk then 2 else 1) th) (fun th l gs =>
        let lo := one th (arg a (at0 l)) (gs.getD 0 0)
        let up := one th (arg b (at1 l)) (gs.getD 1 0)
        if pk then (w32 (up.1 * 65536 + lo.1), lo.2 ||| up.2) else (w32 lo.1, lo.2)) p vs s2)) ∧
  (∀ (h : Hdr) (byte : BitVec 2) (nosat : Bool) (t : F8) (rm : Rm3) (d : Dst) (a b : Src) (s s2 : State) (p : Ready) (vs : List Opd),
    ready (.cvt8 h false byte nosat t rm d a b) s = some p → fetchSrcs p.c p.s1 [(a, 32), (b, 32)] = .ok vs s2 → p.c.idle = false →
    isRegDst p.kind d = true →
    Finishes (.cvt8 h false byte nosat t rm d a b) s p (converted h d (stochCount rm 1) (fun th l gs =>
      let r := toNarrow f32 (f8 t) (rm3 th rm) (gs.getD 0 0) nosat (f32.flush th.ftz (litOr a litF32 (at0 l))) 0
      (w32 (setElem 8 byte.toNat (uns 32 (at1 l)) r.1), r.2)) p vs s2)) ∧
  (∀ (h : Hdr) (nib : BitVec 3) (rm : Rm3) (d : Dst) (a b : Src) (s s2 : State) (p : Ready) (vs : List Opd),
    ready (.cvt4 h false nib rm d a b) s = some p → fetchSrcs p.c p.s1 [(a, 32), (b, 32)] = .ok vs s2 → p.c.idle = false →
    isRegDst p.kind d = true →
    Finishes (.cvt4 h false nib rm d a b) s p (converted h d (stochCount rm 1) (fun th l gs =>
      let r := toNarrow f32 e2m1 (rm3 th rm) (gs.getD 0 0) false (f32.flush th.ftz (litOr a litF32 (at0 l))) 0
      (w32 (setElem 4 nib.toNat (uns 32 (at1 l)) r.1), r.2)) p vs s2)) ∧
  (∀ (h : Hdr) (t : FNarrow) (nosat : Bool) (rm : Rm3) (d : Dst) (a b : Src) (s s2 : State) (p : Ready) (vs : List Opd),
    ready (.cvtw h false t nosat rm d a b) s = some p → fetchSrcs p.c p.s1 [(a, 32), (b, 32)] = .ok vs s2 → p.c.idle = false →
    isRegDst p.kind d = true →
    Finishes (.cvtw h false t nosat rm d a b) s p (converted h d (stochCount rm 1) (fun th l gs =>
      let r := narrowScaled (fNarrow t) th.ftz (rm3 th rm) (gs.getD 0 0) nosat (litOr a litF32 (at0 l)) (uns 32 (at1 l) % 256)
      (w32 r.1, r.2)) p vs s2))

/-- R117, R174, R175: RSEED gives each active lane's generator the state `a XOR (lane * 0x9E3779B9)`, or all 32 of a sequencer, 1 where
that is zero; RNEXT steps the generator and writes its new state, or its upper 24 bits as a fraction in FP32. -/
def Claim.GeneratorResults : Prop :=
  (∀ (h : Hdr) (a : Src) (s s2 : State) (p : Ready) (v : Opd) (th : Thread),
    ready (.rseed h a) s = some p → fetchSrcs p.c p.s1 [(a, 32)] = .ok [v] s2 → p.c.idle = false → s2.thread? p.c.t = some th →
    let seed (l : Nat) (x : W64) : W32 :=
      let y := x.setWidth 32 ^^^ BitVec.ofNat 32 (l * 0x9E3779B9)
      if y = 0 then 1 else y
    Finishes (.rseed h a) s p (s2.setThread p.c.t
      (if th.kind = .simt then (lanesOf (p.c.active p.c.t)).foldl (fun th l => th.setGen l (seed l (v p.c.t l))) th
       else (List.range 32).foldl (fun th j => th.setGen j (seed j (v p.c.t 0))) th))) ∧
  (∀ (h : Hdr) (j : BitVec 5) (f : Bool) (d : Dst) (s : State) (p : Ready) (th : Thread),
    ready (.rnext h j f d) s = some p → p.c.idle = false → p.s1.thread? p.c.t = some th → isRegDst th.kind d = true →
    let idx (l : Nat) : Nat := if th.kind = .simt then l else j.toNat
    let s3 := (lanesOf (p.c.active p.c.t)).foldl
      (fun s l => s.mapThread p.c.t fun th => th.setGen (idx l) (genNext (th.genAt (idx l)))) p.s1
    Finishes (.rnext h j f d) s p (deliver s3 p.c h 0 (regWrites s3 p.c th.kind d 32 fun _ l =>
      let x := genNext (th.genAt (idx l))
      if f then w32 (f32.round .rne 0 .ieee false { neg := false, m := x.toNat / 256, e := -24 }).1 else x.setWidth 64) []))

/-- Together: the conversions that step generators, and the generators themselves. -/
def Obligations.ConversionAndGeneratorResults : Prop := Claim.ConversionResults ∧ Claim.GeneratorResults

/-! ## The lane network (R145, R148-R154) -/

/-- R145, R148, R150-R153: a word of the lane network reads its sources in every lane of the span (one warp, or the members of the sheaf in
order) and writes, with a variable latency: MOVS the value of the lowest active lane or of the lane its second source names; SHFL the value
of the lane that mode and segment select, or the lane's own where there is none; PERM four bytes picked from the table of 128 that one
member's lanes form, 0 for a selector of 128 or more; XRED the combination over the active lanes; XSCAN the combination over the active
lanes before it, or up to it. -/
def Claim.LaneNetworkResults : Prop :=
  (∀ (h : Hdr) (w64 lo : Bool) (d a : BitVec 8) (b : Src) (s s2 : State) (p : Ready) (vs : List Opd) (m l : Nat) (rest : List (Nat × Nat)),
    ready (.movs h w64 lo d a b) s = some p →
    fetchSrcs p.c p.s1 (if lo then [(.vec a, wid w64)] else [(.vec a, wid w64), (b, wid w64)]) = .ok vs s2 → p.c.idle = false →
    d.toNat < 96 → spanActive p.c (spanOf p.s1 p.c) = (m, l) :: rest →
    Finishes (.movs h w64 lo d a b) s p (deliver s2 p.c h 0 (sclWrites s2 p.c d.toNat
      (spanVal p.c (spanOf p.s1 p.c) (vs.getD 0 fun _ _ => 0)
        (if lo then spanPos p.c (spanOf p.s1 p.c) m l
         else uns (wid w64) ((vs.getD 1 fun _ _ => 0) m l) % (laneCount p.c * (spanOf p.s1 p.c).length)))) [])) ∧
  (∀ (h : Hdr) (mode : ShflMode) (seg : BitVec 4) (w64 : Bool) (d : Dst) (a b : Src) (s s2 : State) (p : Ready) (va vb : Opd),
    ready (.shfl h mode seg w64 d a b) s = some p → fetchSrcs p.c p.s1 [(a, wid w64), (b, wid w64)] = .ok [va, vb] s2 → p.c.idle = false →
    isRegDst p.kind d = true →
    Finishes (.shfl h mode seg w64 d a b) s p (deliver s2 p.c h 0 (regWrites s2 p.c p.kind d (wid w64) fun m l =>
      match shflSrc mode seg.toNat (laneCount p.c * (spanOf p.s1 p.c).length) (spanPos p.c (spanOf p.s1 p.c) m l) (uns (wid w64) (vb m l)) with
      | some j => spanVal p.c (spanOf p.s1 p.c) va j
      | none => va m l) [])) ∧
  (∀ (h : Hdr) (mi : BitVec 4) (d : Dst) (a b : Src) (s s2 : State) (p : Ready) (va vb : Opd),
    ready (.perm h mi d a b) s = some p → fetchSrcs p.c p.s1 [(a, 32), (b, 32)] = .ok [va, vb] s2 → p.c.idle = false →
    isRegDst p.kind d = true →
    let table (x : Nat) : Nat := (va ((spanOf p.s1 p.c).getD mi.toNat p.c.t) (x / 4)).toNat / 2 ^ (8 * (x % 4)) % 256
    Finishes (.perm h mi d a b) s p (deliver s2 p.c h 0 (regWrites s2 p.c p.kind d 32 fun m l =>
      BitVec.ofNat 64 (ofBytes ((List.range 4).map fun e =>
        let sel := (vb m l).toNat / 2 ^ (8 * e) % 256
        BitVec.ofNat 8 (if 128 ≤ sel then 0 else table (sel % 128))))) [])) ∧
  (∀ (h : Hdr) (op : RedOp) (w64 : Bool) (d : Dst) (a : Src) (s s2 : State) (p : Ready) (v : Opd),
    ready (.xred h op w64 d a) s = some p → fetchSrcs p.c p.s1 [(a, wid w64)] = .ok [v] s2 → isRegDst .simt d = true →
    let x := scanVal p.c (spanOf p.s1 p.c) op (wid w64) v (laneCount p.c * (spanOf p.s1 p.c).length)
    (∀ r, d = .scl r → Finishes (.xred h op w64 d a) s p (deliver s2 p.c h 0 (sclWrites s2 p.c r.toNat x) [])) ∧
    (∀ r, d = .vec r → p.kind ≠ .as → p.c.idle = false →
      Finishes (.xred h op w64 d a) s p (deliver s2 p.c h 0 (vecWrites s2 p.c r.toNat (wid w64) fun _ _ => x) []))) ∧
  (∀ (h : Hdr) (op : RedOp) (w64 ex : Bool) (d : BitVec 8) (a : Src) (s s2 : State) (p : Ready) (v : Opd),
    ready (.xscan h op w64 ex d a) s = some p → fetchSrcs p.c p.s1 [(a, wid w64)] = .ok [v] s2 → p.c.idle = false →
    p.kind ≠ .as →
    Finishes (.xscan h op w64 ex d a) s p (deliver s2 p.c h 0 (vecWrites s2 p.c d.toNat (wid w64) fun m l =>
      scanVal p.c (spanOf p.s1 p.c) op (wid w64) v (spanPos p.c (spanOf p.s1 p.c) m l + (if ex then 0 else 1))) []))

/-- R152, R153, R544: VOTE gives whether all, or any, of the active lanes hold the predicate, the mask of those that do, or whether the
active lanes' values are equal; its scalar-like form is written even with no lane active, and then reads 1, 0, 0 and 1. -/
def Claim.VoteResult : Prop :=
  (∀ (h : Hdr) (k : VoteKind) (d : BitVec 8) (s s2 : State) (p : Ready) (vs : List Opd),
    ready (.vote h k (.scl d)) s = some p → fetchSrcs p.c p.s1 (match k with | .uni w64 a => [(a, wid w64)] | _ => []) = .ok vs s2 →
    d.toNat < 96 →
    Finishes (.vote h k (.scl d)) s p (deliver s2 p.c h 0
      (sclWrites s2 p.c d.toNat (voteVal p.s1 p.c (spanOf p.s1 p.c) k (vs.getD 0 fun _ _ => 0))) [])) ∧
  (∀ (h : Hdr) (k : VoteKind) (pr : BitVec 3) (s s2 : State) (p : Ready) (vs : List Opd),
    ready (.vote h k (.pred pr)) s = some p → fetchSrcs p.c p.s1 (match k with | .uni w64 a => [(a, wid w64)] | _ => []) = .ok vs s2 →
    p.c.idle = false →
    Finishes (.vote h k (.pred pr)) s p (deliver s2 p.c h 0
      (predWrites p.c pr.toNat fun _ _ => voteVal p.s1 p.c (spanOf p.s1 p.c) k (vs.getD 0 fun _ _ => 0) != 0) [])) ∧
  (∀ (s : State) (c : Ctx0) (span : List Nat) (v : Opd) (pr : BitVec 3) (w64 : Bool) (a : Src),
    spanActive c span = [] →
    voteVal s c span (.all pr) v = 1 ∧ voteVal s c span (.any pr) v = 0 ∧ voteVal s c span (.ballot pr) v = 0 ∧
      voteVal s c span (.uni w64 a) v = 1)

/-- R125, R153, R154: XADD puts in flight, for every active lane, the sum of the active lanes before it, and for the counter register the
sum of all of them; both are added to what the counter holds when they land. -/
def Claim.XaddResult : Prop :=
  ∀ (h : Hdr) (w64 : Bool) (d : BitVec 8) (a : Src) (cnt : BitVec 8) (s s2 : State) (p : Ready) (v : Opd),
    ready (.xadd h w64 d a cnt) s = some p → fetchSrcs p.c p.s1 [(a, wid w64)] = .ok [v] s2 → p.c.idle = false →
    Finishes (.xadd h w64 d a cnt) s p (s2.push p.c.t
      { Pend.value 0 h.sig p.c.mem
          (vecWrites p.s1 p.c d.toNat (wid w64) (fun m l =>
              scanVal p.c (spanOf p.s1 p.c) .add (wid w64) v (spanPos p.c (spanOf p.s1 p.c) m l)) ++
            sclWrites p.s1 p.c cnt.toNat
              (scanVal p.c (spanOf p.s1 p.c) .add (wid w64) v (laneCount p.c * (spanOf p.s1 p.c).length))) [] p.s1.clock with
        op := .xadd w64 })

/-- Together: the instructions that combine lanes. -/
def Obligations.LaneNetwork : Prop := Claim.LaneNetworkResults ∧ Claim.VoteResult ∧ Claim.XaddResult

/-! ## Memory -/

/-- The sources that a memory word reads, in operand order (R238, R243, R271). -/
def memSrcs (k : TKind) (i : Instr) : List (Src × Nat) :=
  match i with
  | .ld _ _ _ m => [(m.off, offWidth k m.off)]
  | .ldsp _ _ _ m => [(m.off, offWidth k m.off)]
  | .ldpoll _ _ _ m => [(m.off, offWidth k m.off)]
  | .ldres _ _ m => [(m.off, offWidth k m.off)]
  | .st _ d m => dataSrcs k d (sizeBytes m.sz) ++ [(m.off, offWidth k m.off)]
  | .stsp _ d m => dataSrcs k d (sizeBytes m.sz) ++ [(m.off, offWidth k m.off)]
  | .stcond _ d m => dataSrcs k d (sizeBytes m.sz) ++ [(m.off, offWidth k m.off)]
  | .atom _ _ g m => groupReads k g (sizeBytes m.sz) ++ [(m.off, offWidth k m.off)]
  | .red _ _ g m => groupReads k g (sizeBytes m.sz) ++ [(m.off, offWidth k m.off)]
  | .cctl _ _ _ _ off => [(off, offWidth k off)]
  | _ => []

/-- The accesses that a memory word makes: the operation and handle that are checked, the bytes of each, and for every access its lane, its
offset in the handle's window and the bytes it stores (R239, R245, R246, R271, R274, R275): one for each active lane, or the leader's
alone where every operand that could differ is scalar-like. -/
def memAccesses (k : TKind) (c : Ctx0) (vs : List Opd) (i : Instr) : Option (MOp × Nat × Nat × List (Nat × W64 × List Byte)) :=
  let off : Opd := vs.getLastD fun _ _ => 0
  let at_ (lanes : List (Nat × Nat)) (data : Nat → Nat → List Byte) : List (Nat × W64 × List Byte) :=
    lanes.map fun e => (32 * e.1 + e.2, off e.1 e.2, data e.1 e.2)
  let load (op : MOp) (m : MArg) := some (op, m.hd.toNat, sizeBytes m.sz, at_ (accLanes c (isVecSrc k m.off)) fun _ _ => [])
  let store (op : MOp) (d : Dst) (m : MArg) :=
    some (op, m.hd.toNat, sizeBytes m.sz, at_ (accLanes c (isVecSrc k m.off || isVecDst k d)) (datum (sizeBytes m.sz) vs))
  let a (n m l : Nat) : List Byte := toBytes ((vs.getD 0 fun _ _ => 0) m l).toNat n
  let b (n m l : Nat) : List Byte := toBytes ((vs.getD 1 fun _ _ => 0) m l).toNat n
  match i with
  | .ld _ _ _ m => load .ld m
  | .ldsp _ _ _ m => load .ldsp m
  | .ldpoll _ _ _ m => load .poll m
  | .ldres _ _ m => some (.ldres, m.hd.toNat, sizeBytes m.sz, at_ (accLanes c false) fun _ _ => [])
  | .st _ d m => store .st d m
  | .stsp _ d m => store .stsp d m
  | .stcond _ _ m => some (.stcond, m.hd.toNat, sizeBytes m.sz, at_ (accLanes c false) (datum (sizeBytes m.sz) vs))
  | .atom _ _ g m => some (.atom, m.hd.toNat, sizeBytes m.sz,
      at_ (accLanes c (isVecDst k (groupDst g))) fun x l => a (sizeBytes m.sz) x l ++ b (sizeBytes m.sz) x l)
  | .red _ _ g m => some (.red, m.hd.toNat, sizeBytes m.sz, at_ (accLanes c (isVecDst k (groupDst g))) (a (sizeBytes m.sz)))
  | .cctl _ _ _ hd off => some (.cctl, hd.toNat, 1, at_ (accLanes c (isVecSrc k off)) fun _ _ => [])
  | _ => none

/-- The access in flight that a memory word leaves once it has passed its checks: what it will read, write and demote, its scope, class and
semantics, and the counter that its landing lowers (R69, R78, R243-R252, R270-R275). -/
def memPending (k : TKind) (c : Ctx0) (s : State) (he : HEntry) (ps : List Piece) (i : Instr) : Option Pend :=
  let load (h : Hdr) (sx poll : Bool) (d : Dst) (m : MArg) : Option Pend :=
    some { memPend s c h (.load sx poll) (sizeBytes m.sz) m (m.sem == .acqrel) false (!isVecSrc k m.off) he ps
             (loadWrs s c k d (sizeBytes m.sz) ++ (if poll then predWrites c h.pr.idx.toNat fun _ _ => true else [])) with
           port := portOf k d, demote := if poll then memberLanes s c else [] }
  match i with
  | .ld h sx d m => load h sx false d m
  | .ldsp h sx d m => load h sx false d m
  | .ldpoll h sx d m => load h sx true d m
  | .ldres h d m => some (memPend s c h .reserve (sizeBytes m.sz) m (m.sem == .acqrel) false true he ps
      (loadWrs s (leaderOnly c) k d (sizeBytes m.sz)))
  | .st h d m => some (memPend s c h .store (sizeBytes m.sz) m false (m.sem == .acqrel) (!(isVecSrc k m.off || isVecDst k d)) he ps [])
  | .stsp h d m => some (memPend s c h .store (sizeBytes m.sz) m false (m.sem == .acqrel) (!(isVecSrc k m.off || isVecDst k d)) he ps [])
  | .stcond h _ m => some
      { memPend s c h (.cond (match c.leader with | some (x, _) => x | none => c.t)) (sizeBytes m.sz) m false (m.sem == .acqrel) true he ps
          (predWrites c h.pr.idx.toNat fun _ _ => false) with demote := match c.leader with | some e => [e] | none => [] }
  | .atom h op g m => some
      { memPend s c h (.atom op true) (sizeBytes m.sz) m (m.sem != .plain) (m.sem == .both) (!isVecDst k (groupDst g)) he ps
          (loadWrs s c k (groupDst g) (sizeBytes m.sz) ++ (if op = .bfadd then predWrites c h.pr.idx.toNat fun _ _ => true else [])) with
        demote := if op = .cas then lowLane c else [] }
  | .cctl h inv sys hd off => some { memPend s c h (.cctl inv sys) 1 (plainArg hd off) false false false he ps [] with remote := false }
  | _ => none

/-- The words that count the passes which bank conflicts add (R249). -/
def countsPasses : MOp → Bool
  | .ld => true
  | .ldsp => true
  | .poll => true
  | .st => true
  | .stsp => true
  | .atom => true
  | _ => false

/-- R78, R239, R242-R248, R250, R252, R264, R270-R276: LD, LDSP, LDPOLL, LDRES, ST, STSP, STCOND, ATOM and CCTL, once every access has passed
its checks, put the access in flight with the places and the bytes that those checks computed; all but CCTL note what a fence asks of them,
and the loads, the stores and ATOM count the passes that their bank conflicts add (R249). -/
def Obligations.MemoryIssue : Prop :=
  ∀ (i : Instr) (s s2 s3 : State) (p : Ready) (vs : List Opd) (mop : MOp) (hd n : Nat) (accs : List (Nat × W64 × List Byte)) (he : HEntry)
    (ps : List Piece) (q : Pend),
    ready i s = some p → fetchSrcs p.c p.s1 (memSrcs p.kind i) = .ok vs s2 → p.c.idle = false →
    memAccesses p.kind p.c vs i = some (mop, hd, n, accs) → s2.checkAccess p.c.t p.c.gang mop hd n accs = (s3, .ok (he, ps)) →
    memPending p.kind p.c s3 he ps i = some q →
    Finishes i s p (if countsPasses mop then (s3.pushMem p.c.t q).eventOf p.c.t 3 (conflicts (coreOf p.c.t) ps)
      else if mop = .cctl then s3.push p.c.t q else s3.pushMem p.c.t q)

/-- R241, R242: the same words, and RED, where an access fails a check: no access is made and no register changes; the word traps with the
cause and the XVAL of the first check that fails, at its own address, and names the slice of the lane whose access failed (R227). -/
def Claim.AccessFaultTraps : Prop :=
  ∀ (i : Instr) (s s2 s3 : State) (p : Ready) (vs : List Opd) (mop : MOp) (hd n : Nat) (accs : List (Nat × W64 × List Byte)) (code : Nat)
    (val : W64) (sl : Option Nat),
    ready i s = some p → fetchSrcs p.c p.s1 (memSrcs p.kind i) = .ok vs s2 → p.c.idle = false →
    memAccesses p.kind p.c vs i = some (mop, hd, n, accs) →
    s2.checkAccess p.c.t p.c.gang mop hd n accs = (s3, .error (.trapAt s3 code val sl)) →
    exec i s = .next ((p.s0.keepWalk s3).trapWord p.c code val sl false)

/-- R241: the checks of one access in their order, for a valid handle entry. The permission of the handle comes first, then its length,
then the alignment; in the scratchpad spaces the block's own region ends the window (R240); a scratchpad access that passes falls at the
window's address in the block's region, a remote one at that address of the core named, byte after byte. -/
def Claim.AccessChecks : Prop :=
  ∀ (s : State) (w : Walker) (b : Block) (core n : Nat) (h : HEntry) (op : MOp) (off : W64),
    (h.grants op = false → s.locate w b core h op n off = (s, .fault cPermission (h.base + off))) ∧
    (h.grants op = true → h.len.toNat < off.toNat + n → s.locate w b core h op n off = (s, .fault cBounds off)) ∧
    (h.grants op = true → off.toNat + n ≤ h.len.toNat → (h.base + off).toNat % n ≠ 0 →
      s.locate w b core h op n off = (s, .fault cMisaligned (h.base + off))) ∧
    (h.grants op = true → off.toNat + n ≤ h.len.toNat → (h.base + off).toNat % n = 0 →
      (h.space = 1 → (h.base + off).toNat + n ≤ b.spSize →
        s.locate w b core h op n off =
          (s, .ok ((List.range n).map fun i => .core core (b.spBase + (h.base + off).toNat + i)) 0 (h.base + off).toNat)) ∧
      (h.space = 2 → (h.base + off).toNat + n ≤ b.spSize →
        s.locate w b core h op n off =
          (s, .ok ((List.range n).map fun i => .group (groupOf core) (b.spBase + (h.base + off).toNat + i)) 0 (h.base + off).toNat)) ∧
      (h.space = 3 → h.core < 64 →
        s.locate w b core h op n off =
          (s, .ok ((List.range n).map fun i => .core h.core ((h.base + off).toNat + i)) 0 (h.base + off).toNat)))

/-- Together: the checks of an access and the traps that they give. -/
def Obligations.AccessFaults : Prop := Claim.AccessFaultTraps ∧ Claim.AccessChecks

/-- R254, R270, R277, R278: RED adds one contribution for each access to the sub-buffer of the warp whose lane makes it, in lane order; it
defines no landing event. A sub-buffer that its contributions enter and that holds four entries already is applied first, once the stores before its `.rel` entries are
performed and the weirs let its lines pass; a RED of device or system scope in a contained block first waits for its stores in flight
and drains the block's buffer. Until then it waits. -/
def Claim.RedBuffers : Prop :=
  ∀ (h : Hdr) (op : AOp) (g : AGrp) (m : MArg) (s s2 s3 : State) (p : Ready) (vs : List Opd) (mop : MOp) (hd n : Nat)
    (accs : List (Nat × W64 × List Byte)) (he : HEntry) (ps : List Piece),
    ready (.red h op g m) s = some p → fetchSrcs p.c p.s1 (memSrcs p.kind (.red h op g m)) = .ok vs s2 → p.c.idle = false →
    memAccesses p.kind p.c vs (.red h op g m) = some (mop, hd, n, accs) →
    s2.checkAccess p.c.t p.c.gang mop hd n accs = (s3, .ok (he, ps)) →
    let perLane := isVecDst p.kind (groupDst g)
    let takes := if perLane then p.c.mem.filter fun t => ps.any fun q => q.lane / 32 == t else [p.c.t]
    let full := takes.filter fun t => match s3.thread? t with | some th => 4 ≤ th.redEntries | none => false
    let commits : Bool := (m.ms == .device || m.ms == .system || ps.any (·.pol == 4)) &&
      (match (s3.thread? p.c.t).bind fun th => s3.block? th.block with | some b => b.cont | none => false)
    let busy : Bool := p.c.mem.any fun t => (s3.pendsOf t).any fun q => q.op.writes && !q.done
    (((commits && busy) || !full.all s3.redReleased) = true → exec (.red h op g m) s = .next { p.s0 with held := !p.fresh }) ∧
    (((commits && busy) || !full.all s3.redReleased) = false →
      (∀ w, s3.redReady full = (w, false) →
        exec (.red h op g m) s = .next (({ p.s0 with held := !p.fresh } : State).keepMeter w full)) ∧
      (∀ s4, s3.redReady full = (s4, true) →
        let s5 := s4.spillReds full
        let s6 := if commits then (match s5.thread? p.c.t with | some th => s5.drain th.block | none => s5) else s5
        Finishes (.red h op g m) s p (s6.addReds perLane p.c n op m ps)))

/-- R147: HINFO writes, for each active lane, the length, the attributes or the base of the handle entry that its source names. -/
def Claim.HandleInfo : Prop :=
  ∀ (h : Hdr) (k : HKind) (d : Dst) (a : Src) (s s2 s3 : State) (p : Ready) (v : Opd) (th : Thread) (xs : List (Nat × W64)),
    ready (.hinfo h k d a) s = some p → fetchSrcs p.c p.s1 [(a, 32)] = .ok [v] s2 → p.c.idle = false → isRegDst p.kind d = true →
    s2.thread? p.c.t = some th → s2.hinfos p.c.t th k (accLanes p.c true) v = (s3, .ok xs) → s3.thread? p.c.t = some th →
    Finishes (.hinfo h k d a) s p (deliver s3 p.c h 0
      (regWrites s3 p.c p.kind d 64 fun m l => ((xs.find? fun e => e.1 == 32 * m + l).map (·.2)).getD 0) [])

/-- R78, R247, R251, R254, R255, R264, R281: PREF puts in flight the fetch of the lines at the addresses that its
operands give, through a valid handle of a space that has lines, through any other handle of none, and traps in neither case. COMMIT of a contained
block, CFENCE (for each arrived warp alone) and REDFLUSH put in flight what they order, CFENCE without a counter; in a block that is not
contained COMMIT has no effect and no landing event. -/
def Claim.FencesAndPrefetch : Prop :=
  (∀ (h : Hdr) (mere : Bool) (hd : BitVec 8) (off : Src) (s s2 : State) (p : Ready) (v : Opd) (th : Thread) (b : Block),
    ready (.pref h mere hd off) s = some p → fetchSrcs p.c p.s1 [(off, offWidth p.kind off)] = .ok [v] s2 → p.c.idle = false →
    s2.thread? p.c.t = some th → s2.block? th.block = some b →
    let lines (he : HEntry) : Bool := spaceOk th.kind .pref he.space && he.space != 6 && !(1 ≤ he.space && he.space ≤ 3)
    let done (x : State × List Piece) : Prop := Finishes (.pref h mere hd off) s p
      (x.1.push p.c.t { Pend.value 0 h.sig p.c.mem [] [] x.1.clock with op := .pref mere, ps := x.2, done := false })
    (∀ s3 he, s2.handle (coreOf p.c.t) th.vi th.ctx hd.toNat = (s3, .ok he) → lines he = true →
      done ((accLanes p.c (isVecSrc p.kind off)).foldl (fun x e =>
        ((x.1.prefetchLane p.c.t th b he mere (v e.1 e.2)).1, x.2 ++ (x.1.prefetchLane p.c.t th b he mere (v e.1 e.2)).2)) (s3, []))) ∧
    (∀ s3 he, s2.handle (coreOf p.c.t) th.vi th.ctx hd.toNat = (s3, .ok he) → lines he = false → done (s3, [])) ∧
    (∀ s3 r, s2.handle (coreOf p.c.t) th.vi th.ctx hd.toNat = (s3, r) → (∀ he, r ≠ .ok he) → done (s3, []))) ∧
  (∀ (h : Hdr) (s : State) (p : Ready) (th : Thread) (b : Block),
    ready (.commit h) s = some p → p.c.idle = false → p.s1.thread? p.c.t = some th → p.s1.block? th.block = some b →
    (b.cont = true → Finishes (.commit h) s p
      (p.s1.push p.c.t { Pend.value 0 h.sig p.c.mem [] [] p.s1.clock with op := .commit, done := false })) ∧
    (b.cont = false → Finishes (.commit h) s p p.s1)) ∧
  (∀ (h : Hdr) (k : FenceKind) (ms : MScope) (mask : W16) (s : State) (p : Ready),
    ready (.cfence h k ms mask) s = some p → p.c.idle = false →
    Finishes (.cfence h k ms mask) s p (p.c.mem.foldl (fun s m => s.fenceOf m k ms mask) p.s1)) ∧
  (∀ (h : Hdr) (s : State) (p : Ready),
    ready (.redflush h) s = some p → p.c.idle = false →
    Finishes (.redflush h) s p
      (p.s1.push p.c.t { Pend.value 0 h.sig p.c.mem [] [] p.s1.clock with op := .flush, ms := .device, done := false }))

/-- Together: the memory words that are neither a load nor a store. -/
def Obligations.ReductionsAndFences : Prop := Claim.RedBuffers ∧ Claim.HandleInfo ∧ Claim.FencesAndPrefetch

/-! ## Control -/

/-- R85, R217, R544: NOP n takes n positions and has no other effect. -/
def Claim.NopResult : Prop :=
  ∀ (h : Hdr) (n : W16) (s : State) (p : Ready), ready (.nop h n) s = some p →
    Finishes (.nop h n) s p (p.c.mem.foldl (fun s m => s.mapThread m fun th => { th with pos := th.pos + n.toNat }) p.s1)

/-- The transfer that a branch makes (R208-R210, R390): the lanes that go and where, and the rejoin PC it names. At lane scope the active
lanes go; at a wider scope every running lane goes if the scope's predicate is true, or none (R208). -/
def branchMove (i : Instr) (s : State) (c : Ctx0) (v : Opd) : Option ((Nat → W32) × (Nat → Addr) × Option Addr) :=
  let wide (all : Bool) : Nat → W32 := fun m => if wideTaken s c all then runLanes s c m else 0
  let named (n : BitVec 8) : Option Addr := if n = 0 then none else some (c.pc + BitVec.ofNat 52 (8 * n.toNat))
  match i with
  | .bra _ fn off =>
    let goal := c.pc + off.signExtend 52
    if wideWord s c then some (wide (fn == 1), fun _ => goal, none)
    else some (c.active, fun _ => goal,
      if fn = 0 then some (if 0 < off.toInt then goal else c.pc + 8) else named fn)
  | .brx _ fn _ =>
    if wideWord s c then some (wide false, fun _ => (v c.t 0).setWidth 52, none)
    else some (c.active, fun l => (v c.t l).setWidth 52, named fn)
  | .ret _ _ =>
    if wideWord s c then some (wide false, fun _ => (v c.t 0).setWidth 52, none)
    else some (c.active, fun l => (v c.t l).setWidth 52, none)
  | _ => none

/-- The register source of a branch. -/
def branchSrcs (i : Instr) : List (Src × Nat) :=
  match i with
  | .brx _ _ a => [(a, 64)]
  | .ret _ a => [(a, 64)]
  | _ => []

/-- The lanes that BRX or RET sends to a target with bits above 51, each with its target: their next fetch raises PAGE_FAULT (R209). -/
def farTargets (i : Instr) (c : Ctx0) (wide : Bool) (act : Nat → W32) (v : Opd) (t : State) : State :=
  let far (m : Nat) : List (W32 × W64) := wildLanes (act m) fun l => if wide then v c.t 0 else v c.t l
  match i with
  | .bra .. => t
  | _ => c.mem.foldl (fun s m => s.mapThread m fun th =>
      if c.trapm then { th with inTrap := th.inTrap.map fun x => { x with wild := ((far m).head?).map (·.2) } }
      else { th with wild := far m ++ th.wild }) t

/-- R36, R37, R65, R207-R209: BRA, BRX and RET move the lanes that go to their targets, and the other running lanes to PC + 8; a target of
BRX or RET with bits above 51 is noted with its lanes, whose next fetch faults; a split table and spill area that are full raise
DIVERGENCE_DEPTH with the slice in XVAL and nothing moves. -/
def Claim.BranchMoves : Prop :=
  ∀ (i : Instr) (s s2 : State) (p : Ready) (vs : List Opd) (act : Nat → W32) (dest : Nat → Addr) (rejoin : Option Addr),
    ready i s = some p → loopEnd p.s1 p.c = none → fetchSrcs p.c p.s1 (branchSrcs i) = .ok vs s2 →
    badTarget p.c (vs.getD 0 fun _ _ => 0) = none → branchMove i p.s1 p.c (vs.getD 0 fun _ _ => 0) = some (act, dest, rejoin) →
    (∀ t, transferAll s2 p.c act dest rejoin = .moved t →
      FinishesMoved i s p (farTargets i p.c (wideWord p.s1 p.c) act (vs.getD 0 fun _ _ => 0) t)) ∧
    (∀ n, transferAll s2 p.c act dest rejoin = .trap cDivergenceDepth (BitVec.ofNat 64 n) (some n) →
      exec i s = .next (p.s0.trapWord p.c cDivergenceDepth (BitVec.ofNat 64 n) (some n) false))

/-- R209, R227: BRX and RET trap, and do not move, where an active lane's target is not a multiple of 8: MISALIGNED, with the target in XVAL
and the slice of that lane. -/
def Claim.BranchTargetTraps : Prop :=
  ∀ (i : Instr) (s s2 : State) (p : Ready) (vs : List Opd) (sl : Option Nat) (val : W64),
    (∃ h fn a, i = .brx h fn a ∨ i = .ret h a) → ready i s = some p → loopEnd p.s1 p.c = none →
    fetchSrcs p.c p.s1 (branchSrcs i) = .ok vs s2 → badTarget p.c (vs.getD 0 fun _ _ => 0) = some (val, sl) →
    exec i s = .next (p.s0.trapWord p.c cMisaligned val sl false) ∧ val.toNat % 8 ≠ 0

/-- R214: a control transfer at the last word of an active loop level raises LOOP_END_BRANCH with the level in XVAL. -/
def Claim.LoopEndTraps : Prop :=
  ∀ (i : Instr) (s : State) (p : Ready) (code : Nat) (val : W64) (sl : Option Nat),
    (∃ h, (∃ fn off, i = .bra h fn off) ∨ (∃ fn a, i = .brx h fn a) ∨ (∃ l off, i = .call h l off) ∨ (∃ a, i = .ret h a) ∨
      (∃ n a, i = .loop h n a) ∨ (∃ off, i = .yield h off) ∨ (∃ w off, i = .yieldC h w off) ∨ (∃ n off, i = .brq h n off)) →
    ready i s = some p → loopEnd p.s1 p.c = some (.trap code val sl) →
    code = cLoopEndBranch ∧ exec i s = .next (p.s0.trapWord p.c code val sl false)

/-- R40: the step of the LFSR, and the choice it makes. -/
def Claim.LfsrStep : Prop :=
  ∀ (x : W16),
    let bit : Bool := x.getLsbD 0 ^^ x.getLsbD 2 ^^ x.getLsbD 3 ^^ x.getLsbD 5
    lfsrStep x = ((x >>> 1) ||| (if bit then 0x8000 else 0), bit)

/-- R40, R41: at a transfer of a warp the LFSR steps exactly once where the running lanes of the gang go to more than one place, and else
not at all; a sequencer's does not step. -/
def Claim.DivergenceStepsLfsr : Prop :=
  ∀ (th th' : Thread) (g : BitVec 8) (act : W32) (dest : Nat → Addr) (fall : Addr) (rejoin : Option Addr),
    th.transfer g act dest fall rejoin = .ok th' →
    th'.lfsr = if th.diverges g act dest fall = true ∧ th.kind = .simt then (lfsrStep th.lfsr).1 else th.lfsr

/-- Together: the LFSR of a warp. -/
def Obligations.LfsrSteps : Prop := Claim.LfsrStep ∧ Claim.DivergenceStepsLfsr

/-- R210: CALL writes the address of the next word into its link registers, in every active lane or once for the scope, and moves to its
target; the rejoin PC is the next word. A call that its scope's predicate turns down writes no link. -/
def Claim.CallMoves : Prop :=
  ∀ (h : Hdr) (l : Link) (off : W32) (s t : State) (p : Ready),
    ready (.call h l off) s = some p → loopEnd p.s1 p.c = none →
    let act (m : Nat) : W32 :=
      if wideWord p.s1 p.c then (if wideTaken p.s1 p.c false then runLanes p.s1 p.c m else 0) else p.c.active m
    let c' : Ctx0 := { p.c with act := p.c.mem.map fun m => (m, act m) }
    let linked : State := if c'.idle then p.s1 else deliver p.s1 c' h 4 (match l with
      | .pair m => vecWrites p.s1 c' (2 * m.toNat) 64 fun _ _ => (p.c.pc + 8).setWidth 64
      | .scl i => sclWrites p.s1 c' i.toNat ((p.c.pc + 8).setWidth 64)) []
    transferAll linked p.c act (fun _ => p.c.pc + off.signExtend 52) (some (p.c.pc + 8)) = .moved t →
    FinishesMoved (.call h l off) s p t

/-- R390: BRQ pops the branch-outcome queue and branches where the popped value is non-zero, or with `.n` where it is zero. -/
def Claim.BrqMoves : Prop :=
  ∀ (h : Hdr) (n : Bool) (off : W32) (s s2 t : State) (p : Ready) (th : Thread) (x : W64),
    ready (.brq h n off) s = some p → loopEnd p.s1 p.c = none → p.c.idle = false → p.s1.thread? p.c.t = some th →
    popPort p.s1 p.c.t (if th.kind = .xs then 14 else 15) = .got x s2 →
    transferAll (p.s1.shareAcq p.c s2) p.c (fun m => if (x != 0) != n then p.c.active m else 0) (fun _ => p.c.pc + off.signExtend 52) none = .moved t →
    FinishesMoved (.brq h n off) s p t

/-- R60, R218: YIELD and YIELD.C move the active lanes to the target, where they wait: YIELD for the other warps of the scheduler that may be
ready (`State.rivals`), YIELD.C, at warp scope with its whole warp, for its counter. A counter that is zero already, and a warp alone on its
scheduler, wait for nothing. -/
def Claim.YieldMoves : Prop :=
  (∀ (h : Hdr) (off : W32) (s t : State) (p : Ready),
    ready (.yield h off) s = some p → loopEnd p.s1 p.c = none → p.c.idle = false →
    transferAll p.s1 p.c p.c.active (fun _ => p.c.pc + off.signExtend 52) (some (p.c.pc + off.signExtend 52)) = .moved t →
    FinishesMoved (.yield h off) s p (t.mapThread p.c.t fun th =>
      if (t.rivals p.c.t th).isEmpty then th
      else { th with yields := (p.c.active p.c.t, t.rivals p.c.t th) :: th.yields })) ∧
  (∀ (h : Hdr) (w : Fin 6) (off : W32) (s t : State) (p : Ready),
    ready (.yieldC h w off) s = some p → loopEnd p.s1 p.c = none → p.c.idle = false →
    transferAll p.s1 p.c p.c.active (fun _ => p.c.pc + off.signExtend 52) (some (p.c.pc + off.signExtend 52)) = .moved t →
    FinishesMoved (.yieldC h w off) s p (t.mapThread p.c.t fun th =>
      if th.counter w = 0 then th
      else { th with yieldC := (if wideWord t p.c then BitVec.allOnes 32 else p.c.active p.c.t, w) :: th.yieldC }))

/-- Together: the control transfers. -/
def Obligations.ControlTransfers : Prop := Claim.BranchMoves ∧ Claim.BranchTargetTraps ∧ Claim.LoopEndTraps ∧ Claim.CallMoves ∧ Claim.BrqMoves ∧ Claim.YieldMoves

/-- R211: LOOP opens a level in every issuing slice with the count of its source, or skips the body where the count is zero; where a slice
can open no level it raises ILLEGAL_OPERAND with XVAL 0x102, names the first such slice, and nothing changes. -/
def Claim.LoopOpens : Prop :=
  ∀ (h : Hdr) (n : W16) (a : Src) (s s2 : State) (p : Ready) (v : Opd) (th : Thread),
    ready (.loop h n a) s = some p → loopEnd p.s1 p.c = none → fetchSrcs p.c p.s1 [(a, 32)] = .ok [v] s2 → p.c.idle = false →
    s2.thread? p.c.t = some th →
    let opened := (slicesOf p.c.gang).foldl (fun (x : Except Nat Thread) i => x.bind fun th =>
      if th.runOf i = 0 then .ok th
      else match th.openLoop i p.c.pc (p.c.pc + BitVec.ofNat 52 (8 * (n.toNat + 1))) ((v p.c.t 0).setWidth 32) (p.c.active p.c.t) with
        | some th => .ok th
        | none => .error i) (.ok th)
    (∀ th', opened = .ok th' →
      FinishesMoved (.loop h n a) s p (s2.setThread p.c.t ((th'.settleAll p.c.gang).regroup p.c.gang []))) ∧
    (∀ i, opened = .error i → exec (.loop h n a) s = .next (p.s0.trapWord p.c cIllegalOperand 0x102 (some i) false))

/-- R48, R59, R216, R217: REGANG makes the issuing slices of its mask wait for the others of the mask, and those that are complete go on as
one gang; ELECT writes true in the lowest active lane of the lowest member and false in every other active lane, and with a counter opens a
window of k instructions in each member. -/
def Claim.RegangAndElect : Prop :=
  (∀ (h : Hdr) (mask : BitVec 8) (s : State) (p : Ready) (th : Thread),
    ready (.regang h mask) s = some p → p.s1.thread? p.c.t = some th →
    let m := if mask = 0 then th.liveSlices else mask
    (th.regangConflict p.c.gang m p.c.pc = none →
      FinishesMoved (.regang h mask) s p (p.s1.setThread p.c.t
        (((((slicesOf p.c.gang).foldl (fun th i =>
          if th.runOf i = 0 then th
          else if hasSlice m i then th.reach i { pc := p.c.pc, mask := m, regang := true }
          else th.nextPc i) th).settleAll p.c.gang).regroupWaiting p.c.gang).joinRegangs))) ∧
    (∀ pc, th.regangConflict p.c.gang m p.c.pc = some pc →
      exec (.regang h mask) s = .next (p.s0.trapWord p.c cScopeMismatch (pc.setWidth 64) none false))) ∧
  (∀ (h : Hdr) (pr : BitVec 3) (w : Option (Fin 6)) (k : BitVec 8) (s : State) (p : Ready) (lm ll : Nat),
    ready (.elect h pr w k) s = some p → p.c.leader = some (lm, ll) →
    let s2 := deliver p.s1 p.c h 4 (predWrites p.c pr.toNat fun m l => m == lm && l == ll) []
    Finishes (.elect h pr w k) s p (match w with
      | none => s2
      | some i => p.c.mem.foldl (fun s m => s.mapThread m fun th =>
          let g := if m = p.c.t then p.c.gang else th.liveSlices
          { th.dropWindow g with windows :=
              { path := runLanes s p.c m, lane := (lowest (p.c.active m)).getD 32, left := k.toNat, wc := i, owner := lm } ::
                (th.dropWindow g).windows }) s2))

/-- R40, R55-R58, R219, R394: SPAWN with a lane active steps the LFSR once; the warp starts in the lowest free slot with room, or its
request joins the core's queue of 16, and the predicate is true; where the queue is full SPAWN makes nothing and its predicate is false,
and SPAWN.W waits. At depth 7 it raises SPAWN_DEPTH. -/
def Claim.SpawnResult : Prop :=
  ∀ (h : Hdr) (waits : Bool) (pr : BitVec 3) (off : W32) (s : State) (p : Ready) (th : Thread),
    let i : Instr := if waits then .spawnW h pr off else .spawn h pr off
    ready i s = some p → p.s1.thread? p.c.t = some th → p.c.idle = false →
    let core := coreOf p.c.t
    let q := p.s1.spawnq.get [] core
    let x := (lfsrStep th.lfsr).1
    let r := spawnReq th p.c.t (p.c.pc + off.signExtend 52) (lfsrStep x).1 h.sig
    let s1 := p.s1.setThread p.c.t { th with lfsr := x }
    let pred (b : Bool) (s : State) := deliver s p.c h 4 (predWrites p.c pr.toNat fun _ _ => b) []
    (7 ≤ th.depth → exec i s = .next (p.s0.trapWord p.c cSpawnDepth (BitVec.ofNat 64 th.depth) none false)) ∧
    (th.depth < 7 → (∀ t, q = [] → p.s1.freeSlot core th.nv = some t →
        Finishes i s p ((pred true (s1.countUp p.c.mem h.sig 1)).startSpawn t r)) ∧
      ((q ≠ [] ∨ p.s1.freeSlot core th.nv = none) → q.length < 16 →
        Finishes i s p { pred true (s1.countUp p.c.mem h.sig 1) with
          spawnq := (pred true (s1.countUp p.c.mem h.sig 1)).spawnq.set [] core (q ++ [r]) }) ∧
      (16 ≤ q.length → waits = false → Finishes i s p (pred false s1)) ∧
      (16 ≤ q.length → waits = true → exec i s = .next { p.s0 with held := !p.fresh }))

/-- R55: a spawned warp starts with its parent's s1-s6 and s8-s15, its depth in s7, every v-register zero, p1-p7 false, the parent's
FMODE, CBASE, XVEC and XSAVE, clear flags and counters, RSDEPTH 0, SHSEL none and REQ 2 (release), all its slices in one gang at the
target. -/
def Claim.SpawnStart : Prop :=
  ∀ (s : State) (par : Thread) (t u : Nat) (pc : Addr) (lfsr : W16) (wc : Option (Fin 6)) (b : Block) (th : Thread),
    s.block? par.block = some b → (s.startSpawn t (spawnReq par u pc lfsr wc)).thread? t = some th →
    (∀ i, 1 ≤ i → i ≤ 6 → th.sreg i = par.sreg i) ∧ (∀ i, 8 ≤ i → i ≤ 15 → th.sreg i = par.sreg i) ∧
    th.sreg 7 = BitVec.ofNat 64 (par.depth + 1) ∧ (∀ i, 16 ≤ i → th.sreg i = 0) ∧ (∀ r l, th.vreg r l = 0) ∧
    (∀ i, 1 ≤ i → th.pred i = 0) ∧ th.nv = b.nv ∧ th.lfsr = lfsr ∧ th.depth = par.depth + 1 ∧ th.fmode = par.fmode ∧ th.fflags = 0 ∧
    th.cbase = par.cbase ∧ th.cbuf = par.cbuf ∧ th.trap.vec = par.trap.vec ∧ th.trap.save = par.trap.save ∧
    (∀ i, th.counter i = 0) ∧ th.rsdepth = 0 ∧ th.resv = none ∧ th.shsel = none ∧ th.plreq = 2 ∧ th.red = [] ∧ th.reply = none ∧
    th.live = BitVec.allOnes 32 ∧ th.run = BitVec.allOnes 32 ∧ (∀ i, i < 8 → th.slice i = startSlice pc) ∧ th.streams.map (·.gang) = [0xFF]

/-- Together: spawned warps. -/
def Obligations.Spawning : Prop := Claim.SpawnResult ∧ Claim.SpawnStart

/-- R34, R182, R220, R391: EXIT ends its active lanes, which are live no more, and the lanes that are not active go on; with no live lane
left the thread is exiting and its rail request is released. With no lane active it has no effect. An EXIT of the XS waits until its results
in flight have landed, and takes the trap of a halted AS. -/
def Claim.ExitResult : Prop :=
  ∀ (h : Hdr) (s : State) (p : Ready) (th : Thread),
    ready (.exit h) s = some p → p.s1.thread? p.c.t = some th →
    (p.c.idle = true → Finishes (.exit h) s p p.s1) ∧
    (p.c.idle = false → (th.kind = .xs → p.s1.asHalted p.c.t = false ∧ th.pend = []) →
      let th' := th.exitLanes p.c.gang (p.c.active p.c.t)
      th'.live = th.live &&& ~~~p.c.active p.c.t ∧
      FinishesMoved (.exit h) s p (p.s1.setThread p.c.t (if th'.live = 0 then { th' with exiting := true, plreq := 2 } else th'))) ∧
    (p.c.idle = false → th.kind = .xs → p.s1.asHalted p.c.t = false → th.pend ≠ [] →
      exec (.exit h) s = .next { p.s0 with held := !p.fresh }) ∧
    (p.c.idle = false → th.kind = .xs → p.s1.asHalted p.c.t = true → p.s0.asHalted p.c.t = true →
      exec (.exit h) s = .next (p.s0.takeAsTrap p.c))

/-- R62-R64, R222, R224: SETPL takes the largest request of its active lanes, 0, 1 or 2, marks PLDIV where they differ, and gives both
sequencers of a tile thread the one request; a larger value traps. SETSH selects a sheaf of which the warp is a declared member, or none;
another number raises ILLEGAL_OPERAND and SHSEL stays. -/
def Claim.RequestsAndSelection : Prop :=
  (∀ (h : Hdr) (a : Src) (s s2 : State) (p : Ready) (v : Opd) (x : W64) (xs : List W64),
    ready (.setpl h a) s = some p → fetchSrcs p.c p.s1 [(a, 64)] = .ok [v] s2 →
    (lanesOf (p.c.active p.c.t)).map (fun l => v p.c.t l) = x :: xs →
    ((∀ y ∈ x :: xs, y.toNat < 3) →
      let s3 := s2.mapThread p.c.t fun th =>
        { th with plreq := (x :: xs).foldl (fun n y => max n y.toNat) 0, pldiv := th.pldiv || (x :: xs).any (· != x) }
      Finishes (.setpl h a) s p (if isTile p.c.t then
        s3.mapThread (pairOf p.c.t) fun th => { th with plreq := (x :: xs).foldl (fun n y => max n y.toNat) 0 } else s3)) ∧
    ((∃ y ∈ x :: xs, 3 ≤ y.toNat) → exec (.setpl h a) s = .next (p.s0.trapWord p.c cIllegalOperand 0x10D
      (((lanesOf (p.c.active p.c.t)).find? fun l => 3 ≤ (v p.c.t l).toNat).map (· / 4)) false))) ∧
  (∀ (h : Hdr) (none_ : Bool) (n : BitVec 4) (s : State) (p : Ready) (th : Thread),
    ready (.setsh h none_ n) s = some p → p.c.idle = false → p.s1.thread? p.c.t = some th →
    (none_ = true → Finishes (.setsh h none_ n) s p (p.s1.setThread p.c.t { th with shreg := 1#1 ++ n })) ∧
    (none_ = false → p.s1.sheafOk p.c.t th n.toNat = true →
      Finishes (.setsh h none_ n) s p (p.s1.setThread p.c.t { th with shreg := 0#1 ++ n })) ∧
    (none_ = false → p.s1.sheafOk p.c.t th n.toNat = false →
      exec (.setsh h none_ n) s = .next (p.s0.trapWord p.c cIllegalOperand 0x10F none false)))

/-- Together: loops, gangs, leaders and requests. -/
def Obligations.LoopsAndGangs : Prop := Claim.NopResult ∧ Claim.LoopOpens ∧ Claim.RegangAndElect ∧ Claim.RequestsAndSelection

/-- R61, R221, R395, R396: SVC, once the warp's earlier stores are released, enters a request with its code and s8-s11 in the ring of its
interface (`State.svcEnter`); where the ring has no room the request waits with its thread, which stops; while the stores cannot be
released the SVC itself waits. -/
def Claim.SvcResult : Prop :=
  ∀ (h : Hdr) (code : W16) (s : State) (p : Ready) (th : Thread),
    ready (.svc h code) s = some p → p.c.idle = false → p.s1.thread? p.c.t = some th →
    let args := [8, 9, 10, 11].map fun r => readScl p.s1 p.c.t r (r - 8)
    (∀ s2 th2, p.s1.releaseAll p.c.mem = some s2 → s2.thread? p.c.t = some th2 →
      Finishes (.svc h code) s p (if s2.ringRoom th.vi then s2.svcEnter p.c.t th2 code args
        else s2.mapThread p.c.t fun th => { th with svc := .waiting code args })) ∧
    (p.s1.releaseAll p.c.mem = none → exec (.svc h code) s = .next { p.s0 with held := !p.fresh })

/-- R200, R223, R378, R391: CKPT with no pre-emption pending passes at once, and an XS restarts its timer. With one pending a sequencer
waits at its CKPT, marked with its id, mask and rows, until the other stands at one as well; where the ids differ or a queue between the
two holds an entry both go on without a save; else, once everything issued before has landed and the thread's q3 streams are done, the
thread is saved and its timer restarts. Rows beyond the window raise ACC_WINDOW with the window's size, and an XS at CKPT takes the trap of a
halted AS. -/
def Claim.CkptCases : Prop :=
  ∀ (h : Hdr) (id : BitVec 8) (rows : BitVec 9) (a : Src) (s s2 : State) (p : Ready) (v : Opd) (th : Thread) (b : Block),
    ready (.ckpt h id rows a) s = some p → fetchSrcs p.c p.s1 [(a, 32)] = .ok [v] s2 → p.c.idle = false →
    s2.thread? p.c.t = some th → s2.block? th.block = some b →
    let i : Instr := .ckpt h id rows a
    let t := p.c.t
    let size := th.wlim + 1 - th.wbase
    let own := some (id, (v t 0).setWidth 32, rows.toNat)
    let waits : Prop := exec i s =
      .next (({ p.s0 with held := !p.fresh } : State).mapThread t fun x => { x with ckpt := own })
    (s2.asHalted t = true → p.s0.asHalted t = true → exec i s = .next (p.s0.takeAsTrap p.c)) ∧
    (s2.asHalted t = false →
      (th.kind = .xs → size < rows.toNat → exec i s = .next (p.s0.trapWord p.c cAccWindow (BitVec.ofNat 64 size) none false)) ∧
      ((th.kind = .xs → rows.toNat ≤ size) →
        (b.phase ≠ .saving → Finishes i s p ((s2.mapThread t fun x => { x with ckpt := none }).restartTimer t)) ∧
        (b.phase = .saving →
          ((∀ y, s2.thread? (pairOf t) = some y → y.inTrap.isSome = true ∨ y.susp.isSome = true ∨ y.ckpt = none) → waits) ∧
          (∀ y k, s2.thread? (pairOf t) = some y → y.inTrap = none → y.susp = none → y.ckpt = some k →
            (k.1 ≠ id ∨ s2.dqEmpty t = false →
              Finishes i s p ((s2.mapThread t fun x => { x with ckpt := none }).passCkpt (pairOf t) false)) ∧
            (k.1 = id → s2.dqEmpty t = true →
              (s2.ckptQuiet t = false → waits) ∧
              (s2.ckptQuiet t = true →
                let s3 := s2.mapThread t fun x => { x with ckpt := own, saved := true }
                let s4 := (s3.passCkpt (pairOf t) true).restartTimer (asOf t + 1)
                Finishes i s p ((s4.saveLease (asOf t + 1)).saveThread t)))))))

/-- Together: what ends or suspends a warp or a tile thread. -/
def Obligations.ExitsAndServices : Prop := Claim.ExitResult ∧ Claim.SvcResult ∧ Claim.CkptCases

/-! ## Traps -/

/-- R225, R229: TRAP takes the trap TRAP_INSTR with its code in XVAL and the next address in XPC; XRET leaves trap mode, and outside trap
mode it raises ILLEGAL_OPERAND with XVAL 0x113, in a privileged context as in any other. -/
def Obligations.TrapAndReturn : Prop :=
  (∀ (h : Hdr) (code : W16) (s : State) (p : Ready), ready (.trap h code) s = some p → p.c.idle = false →
    FinishesMoved (.trap h code) s p (p.s1.trapWord p.c cTrapInstr (code.setWidth 64) none true)) ∧
  (∀ (h : Hdr) (s : State) (p : Ready), ready (.xret h) s = some p → p.c.idle = false →
    (p.c.trapm = true → FinishesMoved (.xret h) s p (p.s1.trapReturn p.c.t)) ∧
    (p.c.trapm = false → exec (.xret h) s = .next (p.s0.trapWord p.c cIllegalOperand 0x113 none false)))

/-- R206, R227: what taking a trap leaves in a thread that has a handler and is not the AS of a tile thread: XCAUSE, XPC, XVAL, XSLICE and
XMASK as the trap gives them, XVEC and XSAVE as they were, every register, predicate, counter and result in flight as it was, the flags of the
fixed-latency results in FFLAGS; the handler starts at XVEC, the other members of the scope stop, both sequencers of each tile thread at
sheaf and block scope, and nothing else of the machine changes. -/
def Claim.TrapEntryWrites : Prop :=
  ∀ (s : State) (t : Nat) (i : TrapInfo) (th : Thread),
    s.thread? t = some th → th.inTrap = none → th.kind ≠ .as → th.trap.vec ≠ 0 → i.code < 256 → i.slice < 8 → i.lane < 32 →
    { s.trapEntry t i with threads := [] } = { s with threads := [] } ∧
    (∀ m, m ≠ t → m ∉ i.suspends → (s.trapEntry t i).thread? m = s.thread? m) ∧
    (∀ m y, m ≠ t → m ∈ i.suspends → (th.kind = .simt ∨ m ≠ pairOf t) → s.thread? m = some y →
      (s.trapEntry t i).thread? m = some { y with susp := some t, haz := [], ffHaz := [], fflags := y.allFlags }) ∧
    ∃ th', (s.trapEntry t i).thread? t = some th' ∧
      { th' with trap := th.trap, inTrap := th.inTrap, haz := th.haz, ffHaz := th.ffHaz, fflags := th.fflags, walkM := th.walkM } = th ∧
      th'.fflags = th.allFlags ∧
      th'.trap.cause.toNat = i.code + (if i.async then 512 else 0) + 1024 * i.scp.bits.toNat ∧
      th'.trap.pc = i.pc ∧ th'.trap.val = i.val ∧ th'.trap.slice.toNat = i.slice + 256 * i.lane ∧ th'.trap.mask = i.mask ∧
      th'.trap.vec = th.trap.vec ∧ th'.trap.save = th.trap.save ∧
      th'.inTrap.map (·.pc) = some th.trap.vec ∧ th'.handlerLane = i.lane

/-- R227, R229, R391, R392: leaving trap mode gives every thread back as it was but for where it stands: memory, tables, queues, registers,
predicates and trap registers are unchanged, the trap is over, no other member of its scope is suspended, and the AS of the thread is not
halted. -/
def Claim.TrapReturnFrame : Prop :=
  ∀ (s : State) (t : Nat) (th : Thread) (x : InTrap),
    s.thread? t = some th → th.inTrap = some x →
    { s.trapReturn t with threads := [] } = { s with threads := [] } ∧
    (∀ m, m ≠ t → m ∉ x.members → (s.trapReturn t).thread? m = s.thread? m) ∧
    ∀ m y, s.thread? m = some y → ∃ y', (s.trapReturn t).thread? m = some y' ∧
      { y' with slices := y.slices, run := y.run, held := y.held, m0 := y.m0, m1 := y.m1, streams := y.streams, park := y.park, rdv := y.rdv,
                turn := y.turn, inTrap := y.inTrap, susp := y.susp, asHalt := y.asHalt, wild := y.wild } = y ∧
      (m = t → y'.inTrap = none) ∧
      (m ≠ t → m ∈ x.members → y'.susp = none ∧ (m = pairOf t → isTile t = true → y'.asHalt = false))

/-- Together: what entering and leaving a trap keep. -/
def Obligations.TrapFrames : Prop := Claim.TrapEntryWrites ∧ Claim.TrapReturnFrame

/-! ## Barriers -/

/-- The mode, kind and number of a BAR. -/
def barParts (i : Instr) : Option (Nat × BarKind × Nat) :=
  match i with
  | .barSync _ k n => some (0, k, n.toNat)
  | .barArv _ k n => some (1, k, n.toNat)
  | .barWt _ k n => some (2, k, n.toNat)
  | _ => none

/-- The issuing word has brought member m to this barrier in this mode, and its arrival has been counted. -/
def standsAt (s : State) (k : BarKind) (n mode : Nat) (c : Ctx0) (m : Nat) : Prop :=
  ∃ w, s.atBar k n mode c.pc m = some w ∧ w.counted = true

/-- R434, R463-R465: BAR of the warps of a SIMT scope. `.arv` registers the arrival of every member once its earlier accesses have
performed, and waits until then; `.wt` goes on once the episode in which each member arrived is over, and waits until then; `.sync` waits for
the earlier accesses, arrives, and goes on once that episode is over. A member that joined late arrives for the next episode
(`State.episodeFor`). A member that the barrier does not have raises BARRIER_MEMBER, and a second `.arv` in an episode ILLEGAL_OPERAND. -/
def Claim.BarrierWarps : Prop :=
  ∀ (i : Instr) (s : State) (p : Ready) (mode n : Nat) (k : BarKind),
    barParts i = some (mode, k, n) → ready i s = some p →
    ((∃ m ∈ p.c.mem, p.s1.barMember k m n = false) →
      exec i s = .next (p.s0.trapWord p.c cBarrierMember (barVal k n) none false)) ∧
    (isTile p.c.t = false → (∀ m ∈ p.c.mem, p.s1.barMember k m n = true) →
      (mode = 1 → (∀ m ∈ p.c.mem, ∀ th, p.s1.thread? (partyKey m) = some th → th.hasArv k n (p.s1.episodeFor k n m) = false) →
        (p.s1.quiet p.c.mem = true → Finishes i s p (p.c.mem.foldl (fun s m => s.arrive k n m) p.s1)) ∧
        (p.s1.quiet p.c.mem = false → Waits i s p)) ∧
      (mode = 1 → (∃ m ∈ p.c.mem, p.s1.atBar k n 1 p.c.pc m = none ∧ ∃ th, p.s1.thread? (partyKey m) = some th ∧
          th.hasArv k n (p.s1.episodeFor k n m) = true) →
        exec i s = .next (p.s0.trapWord p.c cIllegalOperand 0x107 none false)) ∧
      (mode = 2 → (∀ m ∈ p.c.mem, p.s1.target_ k n m ≤ (p.s1.barrierOf k m n).episode) →
        Finishes i s p (p.c.mem.foldl (fun s m => s.afterBar k n m) p.s1)) ∧
      (mode = 2 → (∃ m ∈ p.c.mem, (p.s1.barrierOf k m n).episode < p.s1.target_ k n m) → Waits i s p) ∧
      (mode = 0 → (∀ m ∈ p.c.mem, ∃ w, p.s1.atBar k n 0 p.c.pc m = some w ∧ w.episode ≤ (p.s1.barrierOf k m n).episode) →
        Finishes i s p (p.c.mem.foldl (fun s m => s.afterBar k n m) p.s1)) ∧
      (mode = 0 → (∀ m ∈ p.c.mem, (p.s1.atBar k n 0 p.c.pc m).isSome = true) →
        (∃ m ∈ p.c.mem, ∃ w, p.s1.atBar k n 0 p.c.pc m = some w ∧ (p.s1.barrierOf k m n).episode < w.episode) → Waits i s p) ∧
      (mode = 0 → (∃ m ∈ p.c.mem, p.s1.atBar k n 0 p.c.pc m = none) → p.s1.quiet p.c.mem = false → Waits i s p) ∧
      (mode = 0 → (∃ m ∈ p.c.mem, p.s1.atBar k n 0 p.c.pc m = none) → p.s1.quiet p.c.mem = true →
        exec i s = .next (p.c.mem.foldl (fun s m =>
          (match s.thread? m with
           | some th => if th.hasArv k n (s.episodeFor k n m) then s else s.arrive k n m
           | none => s).setBarAt m
            { kind := k, n := n, mode := 0, pc := p.c.pc, episode := s.episodeFor k n m + 1, counted := true })
          { p.s0 with held := !p.fresh })))

/-- R463: a BAR of tile sequencers. A sequencer that comes to it stands there, and with its partner at the same BAR, and the accesses of both
performed, the tile thread arrives (`State.tileReach`). Once both have made that arrival `.arv` goes on, and `.sync` and `.wt` go on when
the episode is over and wait until then. Where the partner stands at another BAR, or has exited while the XS waits, the XS takes
SCOPE_MISMATCH; an AS whose XS has exited ends its block. -/
def Claim.BarrierSequencers : Prop :=
  ∀ (i : Instr) (s : State) (p : Ready) (mode n : Nat) (k : BarKind),
    barParts i = some (mode, k, n) → ready i s = some p → isTile p.c.t = true → (∀ m ∈ p.c.mem, p.s1.barMember k m n = true) →
    let other (m : Nat) : Bool := match (p.s1.thread? (pairOf m)).bind (·.barAt) with
      | some w => !w.counted && !(w.kind == k && w.n == n && w.mode == mode)
      | none => false
    let again (m : Nat) : Prop := p.s1.atBar k n 1 p.c.pc m = none ∧
      ∃ th, p.s1.thread? (partyKey m) = some th ∧ th.hasArv k n (p.s1.episodeFor k n m) = true
    (mode = 1 → (∃ m ∈ p.c.mem, again m) → exec i s = .next (p.s0.trapWord p.c cIllegalOperand 0x107 none false)) ∧
    ((∀ m ∈ p.c.mem, standsAt p.s1 k n mode p.c m) →
      (mode = 1 → Finishes i s p (p.c.mem.foldl (fun s m => s.mapThread m fun th => { th with barAt := none }) p.s1)) ∧
      (mode ≠ 1 → (∀ m ∈ p.c.mem, ∀ w, p.s1.atBar k n mode p.c.pc m = some w → w.episode ≤ (p.s1.barrierOf k m n).episode) →
        Finishes i s p (p.c.mem.foldl (fun s m => s.afterBar k n m) p.s1)) ∧
      (mode ≠ 1 → (∃ m ∈ p.c.mem, ∃ w, p.s1.atBar k n mode p.c.pc m = some w ∧ (p.s1.barrierOf k m n).episode < w.episode) →
        Waits i s p)) ∧
    ((mode = 1 → ∀ m ∈ p.c.mem, ¬again m) → (∃ m ∈ p.c.mem, ¬standsAt p.s1 k n mode p.c m) →
      (∀ m, p.c.mem.find? (fun m => otherGone p.s1 m) = some m → m % 2 = 1 →
        exec i s = .next (({ p.s0 with held := !p.fresh } : State).barMismatch p.c m)) ∧
      (∀ m th, p.c.mem.find? (fun m => otherGone p.s1 m) = some m → m % 2 ≠ 1 → p.s1.thread? m = some th →
        FinishesMoved i s p (p.s1.killBlock th.block (BitVec.ofNat 64 cScopeMismatch) (p.c.pc.setWidth 64))) ∧
      ((∀ m ∈ p.c.mem, otherGone p.s1 m = false) →
        (∀ m, p.c.mem.find? other = some m → exec i s = .next (({ p.s0 with held := !p.fresh } : State).barMismatch p.c m)) ∧
        ((∀ m ∈ p.c.mem, other m = false) →
          exec i s = .next (p.c.mem.foldl (fun s m =>
            match s.atBar k n mode p.c.pc m with
            | some w => if w.counted then s else s.tileReach k n mode p.c.pc m
            | none => s.tileReach k n mode p.c.pc m) { p.s0 with held := !p.fresh }))))

/-- The barrier that the event names, by its owner. -/
def barAt_ (s : State) (k : BarKind) (own n : Nat) : Barrier :=
  match k with
  | .blk => ((s.block? own).map fun b => b.bars.get freshBar n).getD freshBar
  | .cor => s.coreBars.get freshBar (own * 8 + n)
  | .job => s.jobBars.get freshBar (own * 4 + n)

/-- The threads whose buffered reductions a barrier applies (R278): those of its block, or of the blocks that pass the episode of a job
barrier. -/
def barRound (s : State) (k : BarKind) (own n : Nat) : List Nat :=
  match k with
  | .blk => s.barParties k own n
  | .cor => []
  | .job => ((s.jobMembers own n).filter fun e => !(barAt_ s k own n).late.contains e.1).flatMap fun e => s.parties e.2

/-- R263, R267, R278, R448, R464, R465: a barrier whose members have all arrived ends its episode. Where its threads hold buffered reductions
these are applied first, once they are released and the weirs let them pass, and what they write to published regions leaves; while a batch of its
blocks is not applied the episode does not end. The next episode has begun where a member that joined late has arrived in it. A barrier that a
saved block is a member of is not complete. -/
def Claim.BarrierReleases : Prop :=
  (∀ (k : BarKind) (own n : Nat) (s : State),
    let bar := barAt_ s k own n
    let over_ (u : State) : State := u.setBarrier k own n
      { episode := bar.episode + 1, late := []
        begun := u.threads.any fun e => match e.2 with
          | some th => barOwner k e.1 th == own && th.hasArv k n (bar.episode + 1)
          | none => false }
    s.barComplete k own n bar = true →
    ((∀ t ∈ barRound s k own n, s.holdsReds t = false) → s.unapplied (s.barBlocks k own n) = false →
      exec (.barrierRelease k own n) s = .next (over_ s)) ∧
    ((∃ t ∈ barRound s k own n, s.holdsReds t = true) →
      (∀ w, s.redReady (barRound s k own n) = (w, true) →
        let u := (s.barBlocks k own n).foldl (fun s b => s.flushClasses b 0xFFFF) (w.applyRound (barRound s k own n))
        exec (.barrierRelease k own n) s = .next (if u.unapplied (s.barBlocks k own n) then u else over_ u)) ∧
      ∀ w, s.redReady (barRound s k own n) = (w, false) → exec (.barrierRelease k own n) s = .next w)) ∧
  (∀ (s : State) (b n : Nat) (x : Block) (bar : Barrier), s.block? b = some x → x.phase = .saved →
    s.barComplete .blk b n bar = false ∧
    (x.jbar.getLsbD n = true → bar.late.contains b = false → s.barComplete .job x.vi n bar = false))

/-- Together: barriers. -/
def Obligations.Barriers : Prop := Claim.BarrierWarps ∧ Claim.BarrierSequencers ∧ Claim.BarrierReleases

/-! ## Semaphores -/

/-- R458, R459, R461, R462: SEMP waits for the earlier accesses of its party, of a tile thread those of both sequencers; then what its L1 holds is
written down, `.init` gives the semaphore its value and ceiling; `.post` adds to the value, or, where the sum passes the ceiling, leaves the
semaphore unchanged and raises SEM_CEILING, from which XRET resumes at the next word. A head take that the new value covers is served next. -/
def Claim.SemaphorePosts : Prop :=
  ∀ (h : Hdr) (k : BitVec 4) (n v ceil : BitVec 8) (s : State) (p : Ready),
    let key := semKey (coreOf p.c.t) k.toNat
    let rel := p.c.mem.foldl (fun s m => s.l1Flush (coreOf m)) p.s1
    let party := p.c.mem.flatMap fun m => if isTile m then [m, pairOf m] else [m]
    let x := rel.sem key
    p.c.idle = false →
    (ready (.sempPost h k n) s = some p →
      (p.s1.quiet party = false → Waits (.sempPost h k n) s p) ∧
      (p.s1.quiet party = true →
        (x.value + n.toNat ≤ x.ceil →
          Finishes (.sempPost h k n) s p ((rel.setSem key { x with value := x.value + n.toNat }).serveNext key)) ∧
        (x.ceil < x.value + n.toNat →
          FinishesMoved (.sempPost h k n) s p (rel.trapWord p.c cSemCeiling (k.setWidth 64) none true)))) ∧
    (ready (.sempInit h k v ceil) s = some p →
      (p.s1.quiet party = false → Waits (.sempInit h k v ceil) s p) ∧
      (p.s1.quiet party = true →
        Finishes (.sempInit h k v ceil) s p ((rel.setSem key { x with value := v.toNat, ceil := ceil.toNat }).serveNext key)))

/-- R457, R458, R460, R461: a take of SEMW that finds no take waiting and the value large enough lowers the value and acquires; else
`.wait` queues its take and waits, and once that take is served goes on and acquires, and `.try` writes false and demotes its path; `.rd`
gives the state word to its register or port; a count above the ceiling raises ILLEGAL_OPERAND with XVAL 0x10C. -/
def Claim.SemaphoreTakes : Prop :=
  ∀ (h : Hdr) (k : BitVec 4) (n : BitVec 8) (pd : BitVec 3) (d : BitVec 8) (s : State) (p : Ready) (th : Thread),
    let key := semKey (coreOf p.c.t) k.toNat
    let x := p.s1.sem key
    let party := p.c.mem.flatMap fun m => if isTile m then [m, pairOf m] else [m]
    let taken := party.foldl State.acquireAll (p.s1.setSem key { x with value := x.value - n.toNat })
    p.s1.thread? p.c.t = some th → p.c.idle = false →
    (ready (.semwWait h k n) s = some p → (∀ r ∈ th.takes, r.sem = key → r.lanes &&& pathLanes p.s1 p.c = 0) →
      (x.ceil < n.toNat → exec (.semwWait h k n) s = .next (p.s0.trapWord p.c cIllegalOperand 0x10C none false)) ∧
      (n.toNat ≤ x.ceil → x.takes = [] → n.toNat ≤ x.value → Finishes (.semwWait h k n) s p taken) ∧
      (n.toNat ≤ x.ceil → (x.takes ≠ [] ∨ x.value < n.toNat) →
        exec (.semwWait h k n) s =
          .next ({ p.s0 with held := !p.fresh }.waitTake key p.c.t n.toNat (pathLanes p.s1 p.c)))) ∧
    (ready (.semwWait h k n) s = some p →
      ∀ r, th.takes.find? (fun r => r.sem == key && r.lanes &&& pathLanes p.s1 p.c != 0) = some r →
        ((∃ t ∈ x.takes, t.ticket = r.ticket) → exec (.semwWait h k n) s = .next { p.s0 with held := !p.fresh }) ∧
        ((∀ t ∈ x.takes, t.ticket ≠ r.ticket) → Finishes (.semwWait h k n) s p
          (party.foldl State.acquireAll (p.s1.setThread p.c.t { th with takes := th.takes.filter (· != r) })))) ∧
    (ready (.semwTry h pd k n) s = some p →
      (x.ceil < n.toNat → exec (.semwTry h pd k n) s = .next (p.s0.trapWord p.c cIllegalOperand 0x10C none false)) ∧
      (n.toNat ≤ x.ceil → x.takes = [] → n.toNat ≤ x.value →
        Finishes (.semwTry h pd k n) s p (demotingPred taken p.c h pd true)) ∧
      (n.toNat ≤ x.ceil → (x.takes ≠ [] ∨ x.value < n.toNat) →
        Finishes (.semwTry h pd k n) s p (demotingPred p.s1 p.c h pd false))) ∧
    (ready (.semwRd h d k) s = some p →
      Delivers (.semwRd h d k) s p h (.scl d) 64 0
        (fun _ _ => BitVec.ofNat 64 ((if x.takes = [] then 0 else 65536) + x.ceil * 256 + x.value)) [] p.s1)

/-- R320, R458: a semaphore serves the take that began to wait first, once its value covers it, which lowers the value; the SEMWAIT of a
stream then leaves its stream. `State.serveNext` puts that before everything else that happens where the value covers the head take. -/
def Claim.SemaphoreServes : Prop :=
  ∀ (k : Nat) (s : State) (t : Take) (rest : List Take),
    (s.sem k).takes = t :: rest → t.n ≤ (s.sem k).value →
    let s2 := (s.setSem k { s.sem k with value := (s.sem k).value - t.n, takes := rest }).serveNext k
    s.serveNext k = { s with agenda := .event (.semTakeServed k) :: s.agenda } ∧
    (t.stream = false → exec (.semTakeServed k) s = .next s2) ∧
    (∀ w l, t.stream = true → (s2.stream t.who).buf = w :: l →
      Dequeues (.semTakeServed k) s
        ((s2.setStream t.who { (s2.stream t.who).pop l with waiting := none }).leaveWord t.who w 0 0 (w.1.getLsbD 4) false))

/-- Together: semaphores of the cores. -/
def Obligations.Semaphores : Prop := Claim.SemaphorePosts ∧ Claim.SemaphoreTakes ∧ Claim.SemaphoreServes

/-! ## Read sections and grace periods -/

/-- R466: RSECT.enter raises RSDEPTH and acquires, and at depth 15 raises RSECT_DEPTH; RSECT.exit waits for the earlier loads, lowers
RSDEPTH and, at zero, leaves the masks of the grace periods; at depth 0 it raises RSECT_DEPTH. -/
def Claim.ReadSections : Prop :=
  ∀ (h : Hdr) (s : State) (p : Ready) (th : Thread), p.s1.thread? p.c.t = some th →
    (ready (.rsectEnter h) s = some p →
      (th.rsdepth = 15 → exec (.rsectEnter h) s = .next (p.s0.trapWord p.c cRsectDepth 15 none false)) ∧
      (th.rsdepth ≠ 15 → Finishes (.rsectEnter h) s p
        ((p.s1.setThread p.c.t { th with rsdepth := th.rsdepth + 1 }).acquireAll p.c.t))) ∧
    (ready (.rsectExit h) s = some p →
      (th.rsdepth = 0 → exec (.rsectExit h) s = .next (p.s0.trapWord p.c cRsectDepth 0 none false)) ∧
      (th.rsdepth ≠ 0 → (p.s1.pendsOf p.c.t).any (·.op.reads) = false →
        Finishes (.rsectExit h) s p
          (let s2 := p.s1.setThread p.c.t { th with rsdepth := th.rsdepth - 1 }
           if th.rsdepth = 1 then s2.leaveGrace th else s2)) ∧
      (th.rsdepth ≠ 0 → (p.s1.pendsOf p.c.t).any (·.op.reads) = true →
        Waits (.rsectExit h) s p))

/-- R468: GPSTART waits for a free slot and for its party's accesses; then what its L1 holds is written down, a free slot opens with every
reader of the context but its own party in the mask, and the ticket of slot and generation goes to the destination. Which free slot it takes
is open (log entry 3), but it is slot 0 where all are free (R542). -/
def Claim.GraceStarts : Prop :=
  ∀ (h : Hdr) (d : BitVec 8) (s : State) (p : Ready) (th : Thread),
    ready (.gpstart h d) s = some p → p.c.idle = false → p.s1.thread? p.c.t = some th →
    let key := ctxKey th.vi th.ctx
    let x := p.s1.ctx key
    let s2 := p.c.mem.foldl (fun s m => s.l1Flush (coreOf m)) p.s1
    (x.freeSlots = [] ∨ p.s1.quiet (partySeqs p.c.mem) = false → Waits (.gpstart h d) s p) ∧
    (x.freeSlots ≠ [] → p.s1.quiet (partySeqs p.c.mem) = true →
      ∃ slot ∈ x.freeSlots, (x.freeSlots.length = 16 → slot = 0) ∧
        let g := x.grace.get freshGrace slot
        let own := p.c.mem.filterMap fun m => (s2.thread? m).map (·.uid)
        let g' : Grace := { open_ := true, gen := g.gen, mask := (s2.readers th.vi th.ctx).filter (!own.contains ·), entries := [],
                            opened := s2.clock }
        Delivers (.gpstart h d) s p h (.scl d) 64 0 (fun _ _ => BitVec.ofNat 64 (g.gen.toNat * 16 + slot)) []
          (s2.setCtx key { x with grace := Tbl.set freshGrace x.grace slot g' }))

/-- R257, R469: GPWAIT goes on and acquires once its ticket is complete, and waits until then; GPTEST writes whether it is, acquires where it
is, and demotes its path where it is not. -/
def Claim.GraceTickets : Prop :=
  ∀ (h : Hdr) (pd : BitVec 3) (a : Src) (s s2 : State) (p : Ready) (v : Opd) (th : Thread),
    fetchSrcs p.c p.s1 [(a, 64)] = .ok [v] s2 → p.c.idle = false → s2.thread? p.c.t = some th →
    let g := (s2.ctx (ctxKey th.vi th.ctx)).grace.get freshGrace ((v p.c.t 0).toNat % 16)
    let done : Prop := g.open_ = false ∨ g.gen.toNat ≠ (v p.c.t 0).toNat / 16
    (ready (.gpwait h a) s = some p →
      (done → Finishes (.gpwait h a) s p (p.c.mem.foldl State.acquireAll s2)) ∧
      (¬done → Waits (.gpwait h a) s p)) ∧
    (ready (.gptest h pd a) s = some p →
      (done → Finishes (.gptest h pd a) s p (demotingPred (p.c.mem.foldl State.acquireAll s2) p.c h pd true)) ∧
      (¬done → Finishes (.gptest h pd a) s p (demotingPred s2 p.c h pd false)))

/-- R265, R470: DFREE through a valid handle of a memory space checks every entry in its order, and attaches its entry words to the grace
period of the context that opened last, once the earlier stores are released; with none open it raises ILLEGAL_OPERAND with XVAL 0x109, and
past 256 attached entries, or while the stores are not released, it waits. A handle that is not valid, or of another space, raises
HANDLE_INVALID with its number. -/
def Claim.DeferredFree : Prop :=
  ∀ (h : Hdr) (len hd : BitVec 8) (off : Src) (s s2 s3 : State) (p : Ready) (n v : Opd) (th : Thread) (r : HandleRead),
    ready (.dfree h len hd off) s = some p → p.c.idle = false →
    fetchSrcs p.c p.s1 [(.scl len, 64), (off, offWidth (kindOf p.s1 p.c) off)] = .ok [n, v] s2 → s2.thread? p.c.t = some th →
    s2.handle (coreOf p.c.t) th.vi th.ctx hd.toNat = (s3, r) →
    let i : Instr := .dfree h len hd off
    let offs := (accLanes p.c (isVecSrc (kindOf p.s1 p.c) off)).map fun e => v e.1 e.2
    let key := ctxKey th.vi th.ctx
    let x := s3.ctx key
    let traps (code : Nat) (val : W64) : Prop := exec i s = .next ((p.s0.keepWalk s3).trapWord p.c code val none false)
    (r = .invalid ∨ (∃ he, r = .ok he ∧ he.space ≠ 0 ∧ he.space ≠ 4) → traps cHandleInvalid (BitVec.ofNat 64 hd.toNat)) ∧
    (∀ he, r = .ok he → (he.space = 0 ∨ he.space = 4) →
      (∀ code val, offs.findSome? (freeFault he (n p.c.t 0)) = some (code, val) → traps code val) ∧
      (offs.findSome? (freeFault he (n p.c.t 0)) = none →
        (x.newest = none → traps cIllegalOperand 0x109) ∧
        (∀ slot, x.newest = some slot →
          (256 < x.attached + offs.length ∨ s3.releaseAll p.c.mem = none → Waits i s p) ∧
          (∀ s4, x.attached + offs.length ≤ 256 → s3.releaseAll p.c.mem = some s4 →
            let y := s4.ctx key
            let g := y.grace.get freshGrace slot
            let g' : Grace := { g with entries := g.entries ++ offs.map (freeWord hd.toNat (n p.c.t 0)) }
            Finishes i s p (s4.setCtx key { y with grace := Tbl.set freshGrace y.grace slot g' })))))

/-- R467, R468, R471: an open slot whose mask is empty closes, its generation rises by one, and its entries join those that wait for the
context's FIFO. -/
def Claim.GraceCompletes : Prop :=
  ∀ (key slot : Nat) (s : State),
    let x := s.ctx key
    let g := x.grace.get freshGrace slot
    g.open_ = true → g.mask = [] →
    exec (.graceSlotComplete key slot) s = .next (s.setCtx key
      ({ x with grace := Tbl.set freshGrace x.grace slot { freshGrace with gen := g.gen + 1 }, wait := x.wait ++ g.entries } : Ctx).fill)

/-- Together: read sections and grace periods. -/
def Obligations.ReadSectionsAndGrace : Prop := Claim.ReadSections ∧ Claim.GraceStarts ∧ Claim.GraceTickets ∧ Claim.DeferredFree ∧ Claim.GraceCompletes

/-! ## Publications -/

/-- R444-R447: SUB checks its handle and its ranges, makes the entry and leaves its status word in flight to D, which with a subscription
waits for its copy; a handle that is not valid, or of a space that the form does not take, raises HANDLE_INVALID with its number. UNSUB and
SUBFLUSH send what the named publications hold and leave in flight the wait for it; an UNSUB leaves the entries that it names in place until it
lands. A single entry that is not the block's raises ILLEGAL_OPERAND with XVAL 0x105. -/
def Obligations.Publications : Prop :=
  (∀ (pub : Bool) (h : Hdr) (d hd : BitVec 8) (off : Src) (s s2 s3 : State) (p : Ready) (x y z : Opd) (th : Thread) (b : Block) (r : HandleRead),
    let i : Instr := if pub then .subPub h d hd off else .subSub h d hd off
    ready i s = some p → p.c.idle = false →
    fetchSrcs p.c p.s1 [(.scl d, 64), (.scl (d + 1), 64), (off, offWidth .xs off)] = .ok [x, y, z] s2 →
    s2.thread? p.c.t = some th → s2.block? th.block = some b → s2.handle (coreOf p.c.t) th.vi th.ctx hd.toNat = (s3, r) →
    (r = .invalid ∨ (∃ he, r = .ok he ∧ spaceOk th.kind (if pub then .pub else .sub) he.space = false) →
      exec i s = .next ((p.s0.keepWalk s3).trapWord p.c cHandleInvalid (BitVec.ofNat 64 hd.toNat) none false)) ∧
    ∀ he, r = .ok he → spaceOk th.kind (if pub then .pub else .sub) he.space = true →
    (∀ code val, subFault b he pub (x p.c.t 0) (y p.c.t 0) (z p.c.t 0) = some (code, val) →
      exec i s = .next ((p.s0.keepWalk s3).trapWord p.c code val none false)) ∧
    (subFault b he pub (x p.c.t 0) (y p.c.t 0) (z p.c.t 0) = none →
      let r := if pub then s3.makeSub (coreOf p.c.t) th.block (windowStart b he (z p.c.t 0)) (y p.c.t 0).toNat none
        else s3.makeSub (coreOf p.c.t) th.block (b.spBase + (x p.c.t 0).toNat) (y p.c.t 0).toNat (some (he.core, windowStart b he (z p.c.t 0)))
      Finishes i s p (r.1.push p.c.t
        { Pend.value 0 h.sig p.c.mem (sclWrites r.1 p.c d.toNat (BitVec.ofNat 64 r.2.1)) [] r.1.clock with
          op := (match r.2.2 with | some k => .subCopy k | none => .result), circ := (if pub then none else some he.core),
          sent := r.1.time, back := r.1.time }))) ∧
  (∀ (remove : Bool) (h : Hdr) (all : Bool) (e : BitVec 4) (s : State) (p : Ready) (th : Thread),
    let i : Instr := if remove then .unsub h all e else .subflush h all e
    ready i s = some p → p.c.idle = false → p.s1.thread? p.c.t = some th →
    let ks := p.s1.namedSubs (coreOf p.c.t) th.block all e.toNat
    (all = false → ks = [] → exec i s = .next (p.s0.trapWord p.c cIllegalOperand 0x105 none false)) ∧
    ((all = true ∨ ks ≠ []) →
      let r := p.s1.sendAll (ks.filter p.s1.isPub)
      let keys := if remove then r.2 ++ (ks.filter fun k => !r.1.isPub k).map fun k => (k, 0) else r.2
      Finishes i s p (r.1.push p.c.t { Pend.value 0 h.sig p.c.mem [] [] r.1.clock with op := .subWait keys remove })))

/-! ## Tile instructions -/

/-- A signed integer of w bits. -/
def signedOf (w x : Nat) : Int := if x % 2 ^ w < 2 ^ (w - 1) then (x % 2 ^ w : Nat) else ((x % 2 ^ w : Nat) : Int) - 2 ^ w

/-- An exact integer in w bits: it wraps, or with `.ss` clamps. -/
def wrapOrClamp (w : Nat) (f : BitVec 2) (x : Int) : Nat :=
  ((if f = 1 then max (-(2 ^ (w - 1))) (min x (2 ^ (w - 1) - 1)) else x) % 2 ^ w).toNat

/-- The element-wise tile instructions: destination, sources, and what one element gives (R110, R184, R191-R193). -/
def tileElement (i : Instr) : Option (Hdr × BitVec 8 × List Src × (Thread → List Nat → Nat × BitVec 5)) :=
  let arith (f : BitVec 2) (g : Int → Int → Int → Int) (k : FF → Bool → Rm → Nat → Nat → Nat → Nat × BitVec 5) (th : Thread)
      (vs : List Nat) : Nat × BitVec 5 :=
    let w := tyBits th.tTy
    if tyInt th.tTy then (wrapOrClamp w f (g (signedOf w (n0 vs)) (signedOf w (n1 vs)) (signedOf w (n2 vs))), 0)
    else narrowNan (tyFmt th.tTy) (k (tyFmt th.tTy) (fzOf th (tyFmt th.tTy)) (fieldRm th f) (n0 vs) (n1 vs) (n2 vs))
  let pick (mx : Bool) (th : Thread) (vs : List Nat) : Nat × BitVec 5 :=
    let w := tyBits th.tTy
    if tyInt th.tTy then
      (if mx then (if signedOf w (n1 vs) < signedOf w (n0 vs) then n0 vs else n1 vs)
       else if signedOf w (n1 vs) < signedOf w (n0 vs) then n1 vs else n0 vs, 0)
    else narrowNan (tyFmt th.tTy) ((tyFmt th.tTy).minmax (fzOf th (tyFmt th.tTy)) mx (n0 vs) (n1 vs))
  match i with
  | .tadd h f d a b => some (h, d, [a, b], arith f (fun x y _ => x + y) fun F z rm x y _ => F.add z rm x y)
  | .tsub h f d a b => some (h, d, [a, b], arith f (fun x y _ => x - y) fun F z rm x y _ => F.sub z rm x y)
  | .tmul h f d a b => some (h, d, [a, b], arith f (fun x y _ => x * y) fun F z rm x y _ => F.mul z rm x y)
  | .tfma h f d a b c => some (h, d, [a, b, c], arith f (fun x y z => x * y + z) fun F z rm x y w => F.fma z rm x y w)
  | .tmin h d a b => some (h, d, [a, b], pick false)
  | .tmax h d a b => some (h, d, [a, b], pick true)
  | .tun h op f d a => some (h, d, [a], tUn op f)
  | .tcmp h c u d a b => some (h, d, [a, b], fun th vs =>
      let w := tyBits th.tTy
      if tyInt th.tTy then
        let v (x : Nat) : Int := if u then (x : Int) else signedOf w x
        (if (match c with
             | .eq => decide (v (n0 vs) = v (n1 vs))
             | .ne => decide (v (n0 vs) ≠ v (n1 vs))
             | .lt => decide (v (n0 vs) < v (n1 vs))
             | .le => decide (v (n0 vs) ≤ v (n1 vs))
             | .gt => decide (v (n1 vs) < v (n0 vs))
             | _ => decide (v (n1 vs) ≤ v (n0 vs))) then 2 ^ w - 1 else 0, 0)
      else
        let r := (tyFmt th.tTy).compare (fzOf th (tyFmt th.tTy)) c (n0 vs) (n1 vs)
        (if r.1 then 2 ^ w - 1 else 0, r.2))
  | _ => none

/-- The other tile instructions that write a tile: what their elements become, given the sources' elements (R117, R188-R190, R194). -/
def tileRearranged (i : Instr) (th : Thread) (x y : Nat → Nat) : Option (Hdr × BitVec 8 × List Src × (List (Nat × Nat) × BitVec 5 × Thread)) :=
  let es (f : Nat → Nat) : List (Nat × Nat) := (List.range th.tCount).map fun e => (e, f e)
  match i with
  | .tsel h d a b m => some (h, d, [a, b], (es fun e => if th.tEl m.toNat th.tTy e = 0 then y e else x e), 0, th)
  | .tbc h axis d a => some (h, d, [a], (es fun e => match axis with
      | .row => x (e % th.tCols)
      | .col => x (e / th.tCols * th.tCols)
      | .all => x 0), 0, th)
  | .ttr h d a => some (h, d, [], (es fun e => th.tEl a.toNat th.tTy (e % th.tRows * th.tCols + e / th.tRows)), 0, th)
  | .tcvt h src nosat rm d a =>
    let r := if rm3 th rm = .stoch then stepGens th th.tCount 0 else (th, [])
    let one (e : Nat) := tCvtEl th (TTy.code src) th.tTy (rm3 th rm) (r.2.getD e 0) nosat (th.tEl a.toNat (TTy.code src) e)
    some (h, d, [], (es fun e => (one e).1), (List.range th.tCount).foldl (fun fl e => fl ||| (one e).2) 0, r.1)
  | .tred h op axis f (.vec d) a =>
    let red (l : List Nat) := tReduce op f th (l.map x)
    let rs : List (Nat × List Nat) := match axis with
      | .row => (List.range th.tRows).map fun r => (r * th.tCols, (List.range th.tCols).map fun c => r * th.tCols + c)
      | .col => (List.range th.tCols).map fun c => (c, (List.range th.tRows).map fun r => r * th.tCols + c)
      | .all => [(0, List.range th.tCount)]
    some (h, d, [a], rs.map (fun r => (r.1, (red r.2).1)), rs.foldl (fun fl r => fl ||| (red r.2).2) 0, th)
  | _ => none

/-- R181, R183, R191-R193: an element-wise tile instruction, once no tile result is in flight, writes element for element what its sources
give, over the rows and columns of SHAPE, and ORs the flags raised; while one is in flight it waits. -/
def Claim.TileElements : Prop :=
  ∀ (i : Instr) (h : Hdr) (d : BitVec 8) (xs : List Src) (f : Thread → List Nat → Nat × BitVec 5) (s s2 : State) (p : Ready)
    (vs : List Opd) (th : Thread),
    tileElement i = some (h, d, xs, f) → ready i s = some p →
    (p.s1.tileBusy p.c.mem = true → exec i s = .next { p.s0 with held := !p.fresh }) ∧
    (p.s1.tileBusy p.c.mem = false → fetchSrcs p.c p.s1 (xs.map fun x => (x, 32)) = .ok vs s2 → p.c.idle = false →
      s2.thread? p.c.t = some th →
      let r (e : Nat) := f th ((xs.zip vs).map fun o => tSrc th th.tTy o.1 (o.2 p.c.t 0) e)
      Finishes i s p (deliver (s2.setThread p.c.t th) p.c h 0
        [tWrite p.c.t th d.toNat th.tTy ((List.range th.tCount).map fun e => (e, (r e).1))]
        [(p.c.t, (List.range th.tCount).foldl (fun fl e => fl ||| (r e).2) 0)]))

/-- R117, R181, R188-R190, R194, R195: TSEL, TBC, TTR, TCVT and TRED into a tile write the elements that the rules pick, convert or reduce;
stochastic conversion steps the generators. -/
def Claim.TileRearrangements : Prop :=
  ∀ (i : Instr) (s s2 : State) (p : Ready) (vs : List Opd) (th th' : Thread) (h : Hdr) (d : BitVec 8) (xs : List Src)
    (es : List (Nat × Nat)) (fl : BitVec 5),
    let el (n e : Nat) : Nat := match xs.zip vs with
      | l => match l[n]? with | some o => tSrc th th.tTy o.1 (o.2 p.c.t 0) e | none => 0
    ready i s = some p → p.s1.tileBusy p.c.mem = false → fetchSrcs p.c p.s1 (xs.map fun x => (x, 32)) = .ok vs s2 → p.c.idle = false →
    s2.thread? p.c.t = some th → tileRearranged i th (el 0) (el 1) = some (h, d, xs, es, fl, th') →
    Finishes i s p (deliver (s2.setThread p.c.t th') p.c h 0 [tWrite p.c.t th d.toNat th.tTy es] [(p.c.t, fl)])

/-- Together: the tile instructions that compute. -/
def Obligations.TileResults : Prop := Claim.TileElements ∧ Claim.TileRearrangements

/-- R181, R185, R186, R195: TZERO clears all 4,096 bytes of its register; TRED into a scalar gives the reduction of the whole tile,
sign-extended, to its register or port; both wait while a tile result is in flight. TSHAPE writes SHAPE, and raises ILLEGAL_OPERAND with XVAL
0x108 where the register's value is no legal shape. -/
def Claim.TileZeroShapeReduce : Prop :=
  (∀ (h : Hdr) (t : BitVec 8) (s : State) (p : Ready), ready (.tzero h t) s = some p →
    (p.s1.tileBusy p.c.mem = true → Waits (.tzero h t) s p) ∧
    (p.s1.tileBusy p.c.mem = false → p.c.idle = false →
      Finishes (.tzero h t) s p (deliver p.s1 p.c h 0
        [{ loc := .t p.c.t t.toNat, mask := BitVec.allOnes 32, val := 0, lanes := [], bytes := (List.range 4096).map fun i => (i, 0) }] []))) ∧
  (∀ (h : Hdr) (op : TRedOp) (axis : TAxis) (f : BitVec 2) (d : BitVec 8) (a : Src) (s : State) (p : Ready) (th : Thread),
    ready (.tred h op axis f (.scl d) a) s = some p → p.s1.thread? p.c.t = some th →
    (p.s1.tileBusy p.c.mem = true → Waits (.tred h op axis f (.scl d) a) s p) ∧
    (p.s1.tileBusy p.c.mem = false → p.c.idle = false →
      let r := tReduce op f th ((List.range th.tCount).map fun e => tSrc th th.tTy a 0 e)
      Delivers (.tred h op axis f (.scl d) a) s p h (.scl d) 64 0 (fun _ _ => BitVec.ofInt 64 (signedOf (tyBits th.tTy) r.1))
        [(p.c.t, r.2)] p.s1)) ∧
  (∀ (h : Hdr) (v : W16) (s : State) (p : Ready) (th : Thread), ready (.tshapeImm h v) s = some p → p.c.idle = false →
    p.s1.thread? p.c.t = some th → Finishes (.tshapeImm h v) s p (p.s1.setThread p.c.t { th with shape := v })) ∧
  (∀ (h : Hdr) (a : Src) (s s2 : State) (p : Ready) (x : Opd) (th : Thread), ready (.tshapeReg h a) s = some p →
    fetchSrcs p.c p.s1 [(a, 64)] = .ok [x] s2 → p.c.idle = false → s2.thread? p.c.t = some th →
    ((x p.c.t 0).toNat < 65536 → shapeOk ((x p.c.t 0).setWidth 16) = true →
      Finishes (.tshapeReg h a) s p (s2.setThread p.c.t { th with shape := (x p.c.t 0).setWidth 16 })) ∧
    (65536 ≤ (x p.c.t 0).toNat ∨ shapeOk ((x p.c.t 0).setWidth 16) = false →
      exec (.tshapeReg h a) s = .next (p.s0.trapWord p.c cIllegalOperand 0x108 none false)))

/-- R177, R181, R187, R238, R241: TLD and TST access the whole tile, or with `.str` its rows one stride apart; once every access has passed its
checks and the base and stride are aligned, the transfer is in flight; where an access fails a check the word traps with the cause and the
XVAL of that check. While a tile result is in flight they wait. -/
def Claim.TileMemory : Prop :=
  ∀ (load : Bool) (h : Hdr) (str : Bool) (t : BitVec 8) (m : MArg) (s s2 s3 : State) (p : Ready) (vs : List Opd) (th : Thread) (he : HEntry)
    (ps : List Piece),
    let i : Instr := if load then .tld h str t m else .tst h str t m
    let second : Src := match m.off with | .scl a => .scl (a + 1) | x => x
    ready i s = some p →
    (p.s1.tileBusy p.c.mem = true → Waits i s p) ∧
    (p.s1.tileBusy p.c.mem = false →
    fetchSrcs p.c p.s1 ((m.off, offWidth .xs m.off) :: (if str then [(second, 64)] else [])) = .ok vs s2 → p.c.idle = false →
    s2.thread? p.c.t = some th →
    let off := (vs.getD 0 fun _ _ => 0) p.c.t 0
    let stride : W64 := if str then (vs.getD 1 fun _ _ => 0) p.c.t 0 else 0
    let parts := (th.tParts str off stride).1
    let n := (th.tParts str off stride).2
    let accs := parts.map fun e =>
      (e.1, e.2, if load then ([] : List Byte) else (List.range n).map fun i => th.treg.get 0 (t.toNat * 4096 + e.1 + i))
    (∀ code val sl, s2.checkAccess p.c.t p.c.gang (if load then .tld else .tst) m.hd.toNat n accs = (s3, .error (.trapAt s3 code val sl)) →
      exec i s = .next ((p.s0.keepWalk s3).trapWord p.c code val sl false)) ∧
    (s2.checkAccess p.c.t p.c.gang (if load then .tld else .tst) m.hd.toNat n accs = (s3, .ok (he, ps)) →
    (off.toNat % n ≠ 0 → exec i s = .next ((p.s0.keepWalk s3).trapWord p.c cMisaligned (he.base + off) none false)) ∧
    (off.toNat % n = 0 → stride.toNat % n ≠ 0 →
      exec i s = .next ((p.s0.keepWalk s3).trapWord p.c cMisaligned (he.base + off + stride) none false)) ∧
    (off.toNat % n = 0 → stride.toNat % n = 0 →
      Finishes i s p (s3.pushMem p.c.t (memPend s3 p.c h (if load then .tload else .tstore) n m (m.sem == .both || (m.sem == .acqrel && load))
        (m.sem == .both || (m.sem == .acqrel && !load)) false he ps
        (if load then [{ loc := .t p.c.t t.toNat, mask := BitVec.allOnes 32, val := 0, lanes := [], bytes := [] }] else []))))))

/-- Together: SHAPE, reductions into a scalar, and the memory transfers of tiles. -/
def Obligations.TileStateAndMemory : Prop := Claim.TileZeroShapeReduce ∧ Claim.TileMemory

/-- R196, R355: ACCWIN gives every member the window that it names, or with `.split` an equal part of it in member order: at once where no matrix
word waits in q3, else as soon as the matrix words accepted before it have left their streams, while a word accepted later sees the new window
from its start; a window beyond a member's allocation raises ACC_WINDOW with its first row beyond, counted from ABASE, and rows that do not
divide ILLEGAL_OPERAND with XVAL 0x111. -/
def Claim.AccumulatorWindows : Prop :=
  ∀ (h : Hdr) (split : Bool) (base lim : BitVec 8) (s : State) (p : Ready),
    ready (.accwin h split base lim) s = some p → p.c.idle = false →
    let n := p.c.mem.length
    let part (i : Nat) : Nat × Nat :=
      if split then (base.toNat + i * ((lim.toNat + 1 - base.toNat) / n), base.toNat + (i + 1) * ((lim.toNat + 1 - base.toNat) / n) - 1)
      else (base.toNat, lim.toNat)
    (split = true → (lim.toNat + 1 - base.toNat) % n ≠ 0 →
      exec (.accwin h split base lim) s = .next (p.s0.trapWord p.c cIllegalOperand 0x111 none false)) ∧
    ((split = true → (lim.toNat + 1 - base.toNat) % n = 0) →
      (∀ e ∈ p.c.mem.zip (List.range n), ∀ th, p.s1.thread? e.1 = some th → th.abase + (part e.2).2 ≤ th.alim) →
      Finishes (.accwin h split base lim) s p (p.s1.queueRidge ((p.c.mem.zip (List.range n)).filterMap fun e =>
        (p.s1.thread? e.1).map fun th => { ups := p.s1.ridgeUps [e.1] isMatrixWord, ms := [e.1],
                                           win := some (th.abase + (part e.2).1, th.abase + (part e.2).2) }))) ∧
    ((split = true → (lim.toNat + 1 - base.toNat) % n = 0) →
      (∀ e ∈ p.c.mem.zip (List.range n), ∀ th, p.s1.thread? e.1 = some th → th.abase + (part e.2).2 ≤ th.alim) →
      (∀ m ∈ p.c.mem, p.s1.ridgeUps [m] isMatrixWord = []) → p.s1.ridgeWaits = [] → p.c.mem.Nodup →
      (∀ m ∈ p.c.mem, (p.s1.thread? m).isSome = true) →
      Finishes (.accwin h split base lim) s p ((p.c.mem.zip (List.range n)).foldl (fun s e => s.mapThread e.1 fun th =>
        { th with wbase := th.abase + (part e.2).1, wlim := th.abase + (part e.2).2 }) p.s1)) ∧
    ((split = true → (lim.toNat + 1 - base.toNat) % n = 0) →
      (∃ e ∈ p.c.mem.zip (List.range n), ∃ th, p.s1.thread? e.1 = some th ∧ th.alim < th.abase + (part e.2).2) →
      ∃ e ∈ p.c.mem.zip (List.range n), ∃ th, p.s1.thread? e.1 = some th ∧ th.alim < th.abase + (part e.2).2 ∧
        exec (.accwin h split base lim) s = .next (p.s0.trapWord p.c cAccWindow
          (BitVec.ofNat 64 (max (th.abase + (part e.2).1) (th.alim + 1) - th.abase)) none false))

/-- R355: a window that waits becomes the thread's once the words it waits for have left; until then a word at a position behind them sees it
already, and one before them does not. -/
def Claim.WindowOrder : Prop :=
  ∀ (s : State) (t k : Nat) (ups : List (Nat × Nat)) (w : Nat × Nat) (th : Thread),
    s.ridgeWaits = [{ ups := ups, ms := [t], win := some w }] → s.thread? t = some th →
    ((∀ u ∈ ups, u.2 ≤ (s.stream u.1).taken) →
      s.passRidge = ({ s with ridgeWaits := [] } : State).setThread t { th with wbase := w.1, wlim := w.2 }) ∧
    ((∃ u ∈ ups, (s.stream u.1).taken < u.2) → s.passRidge = s) ∧
    (isTile t = true → asOf (k / 8) + 1 = t → ∀ pos,
      ((∀ u ∈ ups, u.1 = k → u.2 ≤ pos) → s.streamWindow k pos = w) ∧
      ((∃ u ∈ ups, u.1 = k ∧ pos < u.2) → s.streamWindow k pos = s.windowOf (k / 8)))

/-- The rows that an ACCRD or ACCWR of a member touches, and whether they lie in its window and columns (R197). -/
def accFits (th : Thread) (r q : Nat) : Prop := th.wbase + r + th.tRows - 1 ≤ th.wlim ∧ q + th.tCols - 1 ≤ 511

/-- What ACCRD does in member m (R183, R197, R198): it gives the accumulators from the row and column named on, converted to the element
type, in flight to its register, and with `.clr` clears them. -/
def accReads (h : Hdr) (nosat clr : Bool) (f : BitVec 2) (t : BitVec 8) (r q : Nat) (s : State) (m : Nat) (th : Thread) : State :=
  let arr := s.arrayAt m
  let at_ (e : Nat) : Nat × Nat := (th.wbase + r + e / th.tCols, q + e % th.tCols)
  let narrows := !tyInt th.tTy && th.tTy != 0
  let g := if narrows && fieldRm th f = .stoch then stepGens th th.tCount 0 else (th, [])
  let one (e : Nat) : Nat × BitVec 5 :=
    let x := s.accAt arr (at_ e).1 (at_ e).2
    if narrows then tConv th f32 (tyFmt th.tTy) (fieldRm th f) (g.2.getD e 0) nosat x else accOut th.tTy th.ftz nosat (fieldRm th f) x
  let s3 := s.setThread m g.1
  let s4 := if clr then (List.range th.tCount).foldl (fun s e => s.setAcc arr (at_ e).1 (at_ e).2 0) s3 else s3
  s4.push m (Pend.value 0 h.sig [m] [tWrite m th t.toNat th.tTy ((List.range th.tCount).map fun e => (e, (one e).1))]
    [(m, (List.range th.tCount).foldl (fun fl e => fl ||| (one e).2) 0)] s4.clock)

/-- What ACCWR does in member m (R100, R184, R197, R198): it puts the elements of its tile there, or with `.add` their sums. -/
def accPuts (h : Hdr) (add : Bool) (t : BitVec 8) (r q : Nat) (s : State) (m : Nat) (th : Thread) : State :=
  let arr := s.arrayAt m
  let at_ (e : Nat) : Nat × Nat := (th.wbase + r + e / th.tCols, q + e % th.tCols)
  let res := (List.range th.tCount).foldl (fun (a : State × BitVec 5) e =>
    let el := th.tEl t.toNat th.tTy e
    let x := accIn th.tTy (if th.tTy = 1 ∨ th.tTy = 2 then tFlush th (tyFmt th.tTy) el else el)
    let y := if add then accSum th.ftz th.tTy (a.1.accAt arr (at_ e).1 (at_ e).2) x.1 else (x.1, 0)
    (a.1.setAcc arr (at_ e).1 (at_ e).2 y.1, a.2 ||| x.2 ||| y.2)) (s, 0)
  res.1.push m (Pend.value 0 h.sig [m] [] [(m, res.2)] res.1.clock)

/-- R35, R183, R197, R198: ACCRD and ACCWR move the data of every member that has a lane active, in member order, as `accReads` and `accPuts`
say. They wait while a tile result is in flight and for launches accepted before that touch their rows; rows or columns outside a member's
window raise ACC_WINDOW with XVAL the row, and a `.nosat` or rounding field that an element type does not take ILLEGAL_OPERAND. -/
def Claim.AccumulatorAccess : Prop :=
  ∀ (i : Instr) (h : Hdr) (t : BitVec 8) (row col : Src) (s s2 : State) (p : Ready) (v w : Opd)
    (act : Nat → Nat → State → Nat → Thread → State) (bad : Thread → Bool),
    ((∃ nosat clr f, i = .accrd h nosat clr f t row col ∧ act = accReads h nosat clr f t ∧
        bad = fun th => (nosat && th.tTy != 3 && th.tTy != 4) || (f != 0 && (th.tTy == 0 || tyInt th.tTy))) ∨
      ∃ add, i = .accwr h add t row col ∧ act = accPuts h add t ∧ bad = fun _ => false) →
    ready i s = some p →
    ((∃ m ∈ p.c.mem, ∃ th, p.s1.thread? m = some th ∧ bad th = true) →
      exec i s = .next (p.s0.trapWord p.c cIllegalOperand 0x112 none false)) ∧
    ((∀ m ∈ p.c.mem, ∀ th, p.s1.thread? m = some th → bad th = false) →
      (p.s1.tileBusy p.c.mem = true → Waits i s p) ∧
      (p.s1.tileBusy p.c.mem = false → fetchSrcs p.c p.s1 [(row, 32), (col, 32)] = .ok [v, w] s2 → p.c.idle = false →
        let r := (v p.c.t 0).toNat
        let q := (w p.c.t 0).toNat
        let ths := (p.c.mem.filter fun m => p.c.active m != 0).filterMap fun m => (s2.thread? m).map fun th => (m, th)
        ((∃ e ∈ ths, ¬accFits e.2 r q) → exec i s = .next (p.s0.trapWord p.c cAccWindow (BitVec.ofNat 64 r) none false)) ∧
        ((∀ e ∈ ths, accFits e.2 r q) →
          ((∃ e ∈ ths, s2.ridgeTouches (s2.arrayAt e.1) (e.2.wbase + r) (e.2.wbase + r + e.2.tRows - 1) = true) → Waits i s p) ∧
          ((∀ e ∈ ths, s2.ridgeTouches (s2.arrayAt e.1) (e.2.wbase + r) (e.2.wbase + r + e.2.tRows - 1) = false) →
            Finishes i s p (ths.foldl (fun s e => act r q s e.1 e.2) s2)))))

/-- R199, R342: LEASE releases a lease that is held, queues the request on every array of its members and waits; it goes on once it is
granted. UNLEASE, once no launch word waits in q3, ends the members' leases. -/
def Claim.Leases : Prop :=
  (∀ (h : Hdr) (n : BitVec 7) (s : State) (p : Ready), ready (.lease h n) s = some p → p.c.idle = false →
    ((∀ m ∈ p.c.mem, ∀ th, p.s1.thread? m = some th → th.leaseWait = some 0) →
      Finishes (.lease h n) s p (p.c.mem.foldl (fun s m => s.mapThread m fun th => { th with leaseWait := none }) p.s1)) ∧
    ((∃ m ∈ p.c.mem, (p.s1.thread? m).isSome = true) → (∀ m ∈ p.c.mem, ∀ th, p.s1.thread? m = some th → th.leaseWait = none) →
      p.s1.unleasing p.c.mem = false →
      exec (.lease h n) s = .next
        (let k := if n = 0 then 64 else n.toNat
         let s2 := p.c.mem.foldl State.dropLease { p.s0 with held := !p.fresh }
         let s3 := (s2.arraysOf p.c.mem).foldl
           (fun s a => s.setGroup a { s.group a with queue := (s.group a).queue ++ [(p.c.mem, k)] }) s2
         p.c.mem.foldl (fun s m => s.mapThread m fun th => { th with leaseWait := some k }) s3)) ∧
    ((∃ m ∈ p.c.mem, ∃ th, p.s1.thread? m = some th ∧ th.leaseWait ≠ some 0) →
      (∃ m ∈ p.c.mem, ∃ th, p.s1.thread? m = some th ∧ th.leaseWait ≠ none) ∨ p.s1.unleasing p.c.mem = true →
      Waits (.lease h n) s p)) ∧
  (∀ (h : Hdr) (s : State) (p : Ready), ready (.unlease h) s = some p → p.c.idle = false →
    Finishes (.unlease h) s p (p.s1.queueRidge [{ ups := p.s1.ridgeUps p.c.mem isLaunchWord, ms := p.c.mem, win := none }]) ∧
    (p.s1.ridgeUps p.c.mem isLaunchWord = [] → p.s1.ridgeWaits = [] →
      Finishes (.unlease h) s p (p.c.mem.foldl (fun s m => if (s.leaseOf m).isSome then s.dropLease m else s) p.s1)))

/-- Together: the accumulators and their leases. -/
def Obligations.Accumulators : Prop := Claim.AccumulatorWindows ∧ Claim.WindowOrder ∧ Claim.AccumulatorAccess ∧ Claim.Leases

/-! ## Status registers, KILL and invalidation -/

/-- R108, R202-R206, R226: SRD of a register that its sequencer has gives the register's value to its destination; and PC, LFSR, FMODE, FFLAGS
with none of its flags in flight, CBASE, SHSEL, RSDEPTH, TIME, SHAPE, the accumulator window and the trap registers read as the manual lays
them out, zero-extended. -/
def Obligations.StatusReads : Prop :=
  (∀ (h : Hdr) (d reg : BitVec 8) (s : State) (p : Ready) (th : Thread),
    ready (.srd h d reg) s = some p → p.c.idle = false → p.s1.thread? p.c.t = some th →
    Delivers (.srd h d reg) s p h (.scl d) 64 4 (fun _ _ => p.s1.statusReg p.c th reg.toNat) [] p.s1) ∧
  ∀ (s : State) (c : Ctx0) (th : Thread),
    s.statusReg c th 0x00 = c.pc.setWidth 64 ∧ s.statusReg c th 0x01 = th.lfsr.setWidth 64 ∧
    s.statusReg c th 0x02 = th.fmode.setWidth 64 ∧ (th.flagsInFlight c.t = 0 → s.statusReg c th 0x03 = th.sureFlags.setWidth 64) ∧
    s.statusReg c th 0x04 = th.cbase.setWidth 64 ∧ s.statusReg c th 0x05 = th.shreg.setWidth 64 ∧ s.statusReg c th 0x07 = BitVec.ofNat 64 th.rsdepth ∧
    s.statusReg c th 0x0F = s.time ∧ s.statusReg c th 0x11 = th.shape.setWidth 64 ∧
    s.statusReg c th 0x12 = BitVec.ofNat 64 (th.alim * 256 + th.abase) ∧ s.statusReg c th 0x13 = BitVec.ofNat 64 th.wbase ∧
    s.statusReg c th 0x14 = BitVec.ofNat 64 th.wlim ∧ s.statusReg c th 0x20 = th.trap.cause ∧
    s.statusReg c th 0x21 = th.trap.pc.setWidth 64 ∧ s.statusReg c th 0x22 = th.trap.val ∧ s.statusReg c th 0x23 = th.trap.slice ∧
    s.statusReg c th 0x24 = th.trap.mask.setWidth 64 ∧ s.statusReg c th 0x25 = th.trap.vec.setWidth 64 ∧
    s.statusReg c th 0x26 = th.trap.save

/-- R108, R128, R202-R206, R226: SWR writes the register that it names, its reserved bits zero, and nothing else of the machine; a value that the
register cannot hold raises the fault that the register's layout names and writes nothing. CBASE also copies the constant window, traps where
the copy does and waits while an earlier attempt stalls. LFSR, FMODE, FFLAGS with no flag still to land, CBASE, SHSEL, SHAPE, XPC, XVAL,
XSLICE, XMASK, XVEC and XSAVE take their values as the manual lays them out. -/
def Obligations.StatusWrites : Prop :=
  (∀ (h : Hdr) (reg : BitVec 8) (a : Src) (s s2 : State) (p : Ready) (v : Opd) (th : Thread),
    ready (.swr h reg a) s = some p → fetchSrcs p.c p.s1 [(a, 64)] = .ok [v] s2 → p.c.idle = false → s2.thread? p.c.t = some th →
    (∀ th', s2.swrOf p.c th reg.toNat (v p.c.t 0) = .ok th' → Finishes (.swr h reg a) s p (s2.setThread p.c.t th')) ∧
    (∀ code val, s2.swrOf p.c th reg.toNat (v p.c.t 0) = .bad code val →
      exec (.swr h reg a) s = .next (p.s0.trapWord p.c code val none false)) ∧
    (∀ base s3 th', s2.swrOf p.c th reg.toNat (v p.c.t 0) = .copy base → th.migHeld p.c.gang = false →
      s2.copyConst p.c.t th base = (s3, .ok th') → Finishes (.swr h reg a) s p (s3.setThread p.c.t th')) ∧
    (∀ base s3 code val, s2.swrOf p.c th reg.toNat (v p.c.t 0) = .copy base → th.migHeld p.c.gang = false →
      s2.copyConst p.c.t th base = (s3, .fault code val) →
      exec (.swr h reg a) s = .next ((p.s0.keepWalk s3).trapWord p.c code val none false)) ∧
    (∀ base, s2.swrOf p.c th reg.toNat (v p.c.t 0) = .copy base → th.migHeld p.c.gang = true → Waits (.swr h reg a) s p)) ∧
  ∀ (s : State) (c : Ctx0) (th : Thread) (x : W64),
    s.swrOf c th 0x01 x = .ok { th with lfsr := if x.setWidth 16 = 0#16 then 0xACE1 else x.setWidth 16 } ∧
    ((x.extractLsb' 0 3).toNat < 6 → s.swrOf c th 0x02 x = .ok { th with fmode := x.setWidth 4 }) ∧
    (6 ≤ (x.extractLsb' 0 3).toNat → s.swrOf c th 0x02 x = .bad cIllegalOperand 0x108) ∧
    (th.ffHaz = [] → s.swrOf c th 0x03 x = .ok { th with fflags := x.setWidth 5 }) ∧
    (x.toNat % 4 ≠ 0 → s.swrOf c th 0x04 x = .bad cMisaligned x) ∧
    (x.toNat % 4 = 0 → s.swrOf c th 0x04 x = .copy (x.setWidth 52)) ∧
    (x.getLsbD 4 = true ∨ s.sheafOk c.t th (x.toNat % 16) = true → s.swrOf c th 0x05 x = .ok { th with shreg := x.setWidth 5 }) ∧
    (x.getLsbD 4 = false → s.sheafOk c.t th (x.toNat % 16) = false → s.swrOf c th 0x05 x = .bad cIllegalOperand 0x10F) ∧
    (shapeOk (x.setWidth 16) = true → s.swrOf c th 0x11 x = .ok { th with shape := x.setWidth 16 }) ∧
    (shapeOk (x.setWidth 16) = false → s.swrOf c th 0x11 x = .bad cIllegalOperand 0x108) ∧
    s.swrOf c th 0x22 x = .ok { th with trap := { th.trap with val := x } } ∧
    s.swrOf c th 0x24 x = .ok { th with trap := { th.trap with mask := x.setWidth 32 } } ∧
    (x.toNat % 8 = 0 → s.swrOf c th 0x25 x = .ok { th with trap := { th.trap with vec := x.setWidth 52 } }) ∧
    (x.toNat % 8 ≠ 0 → s.swrOf c th 0x25 x = .bad cMisaligned x) ∧
    s.swrOf c th 0x26 x = .ok { th with trap := { th.trap with save := x } } ∧
    (∃ th', s.swrOf c th 0x21 x = .ok th' ∧ th'.trap.pc.toNat = x.toNat % 2 ^ 52 / 8 * 8 ∧ { th' with trap := th.trap } = th) ∧
    (∃ th', s.swrOf c th 0x23 x = .ok th' ∧ th'.trap.slice = x &&& 0x1F07 ∧ { th' with trap := th.trap } = th)

/-- R230, R384: KILL.blk ends the issuing block without relaunch, and KILL.ctx the context, each with XCAUSE and XVAL as they stand; the
context's entry names the source core and the code of XCAUSE. -/
def Claim.Kills : Prop :=
  ∀ (h : Hdr) (s : State) (p : Ready) (th : Thread), p.s1.thread? p.c.t = some th → p.c.idle = false →
    (ready (.killBlk h) s = some p → FinishesMoved (.killBlk h) s p (p.s1.killBlock th.block th.trap.cause th.trap.val)) ∧
    (ready (.killCtx h) s = some p → FinishesMoved (.killCtx h) s p
      (p.s1.killContext th.vi th.ctx 0xA000 (BitVec.ofNat 64 (th.trap.cause.toNat % 256))
        th.trap.cause th.trap.val))

/-- The parts of an invalidation: its kind, whether it names a context beside the issuer's own, its opcode and header. -/
def invalParts (i : Instr) : Option (Nat × Hdr × Nat) :=
  match i with
  | .tlbinvVa h .. => some (0, h, 0xE4)
  | .tlbinvCtx h .. => some (1, h, 0xE4)
  | .tlbinvVi h => some (2, h, 0xE4)
  | .hinv h all .. => some (if all then 4 else 3, h, 0xE5)
  | _ => none

/-- R413-R415: TLBINV and HINV put their invalidation in flight with what they name; an address above bit 51 raises ILLEGAL_OPERAND with XVAL
34, a context above 4,093 with XVAL 0x10E, and without privilege the kind `.vi` and a context other than the issuer's raise PRIVILEGE. (Both
instructions are privileged outright too, which CheckOrder states: R81, R84.) -/
def Claim.Invalidations : Prop :=
  ∀ (i : Instr) (s s2 : State) (p : Ready) (th : Thread) (kind op : Nat) (h : Hdr) (vs : List Opd),
    invalParts i = some (kind, h, op) → ready i s = some p → p.c.idle = false → s2.thread? p.c.t = some th →
    let srcs : List (Src × Nat) := match i with
      | .tlbinvVa _ _ a b => [(a, 64), (b, 64)]
      | .tlbinvCtx _ b => [(b, 64)]
      | .hinv _ _ _ (some b) => [(b, 64)]
      | _ => []
    let x (n : Nat) : W64 := (vs.getD n fun _ _ => 0) p.c.t 0
    let ctx : Nat := match i with
      | .tlbinvVa .. => (x 1).toNat
      | .tlbinvCtx .. => (x 0).toNat
      | .hinv _ _ _ (some _) => (x 0).toNat
      | .hinv _ _ _ none => th.ctx
      | _ => 0
    let va : Nat := match i with
      | .tlbinvVa .. => (x 0).toNat / 65536 * 65536
      | .hinv _ _ n _ => n.toNat
      | _ => 0
    let leaf : Bool := match i with | .tlbinvVa _ leaf _ _ => leaf | _ => false
    fetchSrcs p.c p.s1 srcs = .ok vs s2 →
    let far : Prop := th.priv = false ∧ (kind = 2 ∨ ctx ≠ th.ctx)
    (kind = 0 → 2 ^ 52 ≤ (x 0).toNat → exec i s = .next (p.s0.trapWord p.c cIllegalOperand 34 none false)) ∧
    ((kind = 0 → (x 0).toNat < 2 ^ 52) →
    (ctx ≤ 4093 → ¬far → Finishes i s p
      (s2.push p.c.t { Pend.value 0 h.sig p.c.mem [] [] s2.clock with op := .inval kind ctx va leaf, done := false })) ∧
    (ctx ≤ 4093 → far → exec i s = .next (p.s0.trapWord p.c cPrivilege (BitVec.ofNat 64 op) none false)) ∧
    (4093 < ctx → exec i s = .next (p.s0.trapWord p.c cIllegalOperand 0x10E none false)))

/-- Together: the privileged words that end blocks and contexts or drop translations. -/
def Obligations.KillsAndInvalidations : Prop := Claim.Kills ∧ Claim.Invalidations

/-! ## The plain cases of synchronisation, tiles and privileged words -/

/-- The sources of the words below, with their widths. -/
def plainSrcs (i : Instr) (k : TKind) : List (Src × Nat) :=
  match i with
  | .ckpt _ _ _ a => [(a, 32)]
  | .gpwait _ a => [(a, 64)]
  | .gptest _ _ a => [(a, 64)]
  | .dfree _ len _ off => [(.scl len, 64), (off, offWidth k off)]
  | .subPub _ d _ off => [(.scl d, 64), (.scl (d + 1), 64), (off, offWidth .xs off)]
  | .subSub _ d _ off => [(.scl d, 64), (.scl (d + 1), 64), (off, offWidth .xs off)]
  | .tld _ false _ m => [(m.off, offWidth .xs m.off)]
  | .tst _ false _ m => [(m.off, offWidth .xs m.off)]
  | .tshapeReg _ a => [(a, 64)]
  | .accrd _ _ _ _ _ row col => [(row, 32), (col, 32)]
  | .accwr _ _ _ row col => [(row, 32), (col, 32)]
  | .tlbinvVa _ _ a b => [(a, 64), (b, 64)]
  | .tlbinvCtx _ b => [(b, 64)]
  | .hinv _ _ _ (some b) => [(b, 64)]
  | _ => []

/-- An effect on the condition that it is the plain case. -/
def onlyIf {α : Type} (b : Bool) (x : α) : Option α := if b then some x else none

/-- A SUB whose handle and ranges pass: its entry is made, and its status word is in flight. -/
def plainSub (pub : Bool) (h : Hdr) (d hd : BitVec 8) (c : Ctx0) (th : Thread) (s : State) (v : Nat → W64) : Option State :=
  match s.block? th.block, s.handle (coreOf c.t) th.vi th.ctx hd.toNat with
  | some b, (s, .ok he) =>
    let r := if pub then s.makeSub (coreOf c.t) th.block (windowStart b he (v 2)) (v 1).toNat none
      else s.makeSub (coreOf c.t) th.block (b.spBase + (v 0).toNat) (v 1).toNat (some (he.core, windowStart b he (v 2)))
    onlyIf (spaceOk th.kind (if pub then .pub else .sub) he.space && (subFault b he pub (v 0) (v 1) (v 2)).isNone)
      (r.1.push c.t { Pend.value 0 h.sig c.mem (sclWrites r.1 c d.toNat (BitVec.ofNat 64 r.2.1)) [] r.1.clock with
        op := (match r.2.2 with | some k => .subCopy k | none => .result), circ := (if pub then none else some he.core),
        sent := r.1.time, back := r.1.time })
  | _, _ => none

/-- UNSUB or SUBFLUSH of entries that the block has. -/
def plainUnsub (remove : Bool) (h : Hdr) (all : Bool) (e : BitVec 4) (c : Ctx0) (th : Thread) (s : State) : Option State :=
  let ks := s.namedSubs (coreOf c.t) th.block all e.toNat
  let r := s.sendAll (ks.filter s.isPub)
  let keys := if remove then r.2 ++ (ks.filter fun k => !r.1.isPub k).map fun k => (k, 0) else r.2
  onlyIf (all || !ks.isEmpty) (r.1.push c.t { Pend.value 0 h.sig c.mem [] [] r.1.clock with op := .subWait keys remove })

/-- A transfer of a whole tile at an aligned offset whose accesses pass their checks. -/
def plainTile (load : Bool) (h : Hdr) (t : BitVec 8) (m : MArg) (c : Ctx0) (th : Thread) (s : State) (off : W64) : Option State :=
  let q := th.tParts false off 0
  let accs := q.1.map fun e =>
    (e.1, e.2, if load then ([] : List Byte) else (List.range q.2).map fun i => th.treg.get 0 (t.toNat * 4096 + e.1 + i))
  match s.checkAccess c.t c.gang (if load then .tld else .tst) m.hd.toNat q.2 accs with
  | (s3, .ok (he, ps)) => onlyIf (off.toNat % q.2 == 0)
      (s3.pushMem c.t (memPend s3 c h (if load then .tload else .tstore) q.2 m (m.sem == .both || (m.sem == .acqrel && load))
        (m.sem == .both || (m.sem == .acqrel && !load)) false he ps
        (if load then [{ loc := .t c.t t.toNat, mask := BitVec.allOnes 32, val := 0, lanes := [], bytes := [] }] else [])))
  | _ => none

/-- What the words of exits, services, barriers, grace periods, publications, tile state, accumulators and invalidations do where nothing
holds them up and nothing traps: whether the word moves its slices itself, and the state it leaves. `s1` is the state in which its effect
begins, `s` the one after its sources `v` were read. -/
def plainEffect (i : Instr) (c : Ctx0) (s1 s : State) (th : Thread) (v : Nat → Opd) : Option (Bool × State) :=
  let x (n : Nat) : W64 := v n c.t 0
  let stay (o : Option State) : Option (Bool × State) := o.map fun s => (false, s)
  let bar (k : BarKind) (n : BitVec 4) (f : Nat → Bool) (g : State → Nat → State) : Option (Bool × State) :=
    stay (onlyIf (!isTile c.t && c.mem.all (s.barMember k · n.toNat) && c.mem.all f) (c.mem.foldl g s))
  let inval (h : Hdr) (kind ctx va : Nat) (leaf : Bool) : Option (Bool × State) :=
    stay (onlyIf (decide (ctx ≤ 4093) && th.priv)
      (s.push c.t { Pend.value 0 h.sig c.mem [] [] s.clock with op := .inval kind ctx va leaf, done := false }))
  let access (act : Nat → Nat → State → Nat → Thread → State) : Option (Bool × State) :=
    let r := (x 0).toNat
    let q := (x 1).toNat
    stay (onlyIf (!s1.tileBusy c.mem && decide (c.mem = [c.t]) &&
        decide (th.wbase + r + th.tRows - 1 ≤ th.wlim ∧ q + th.tCols - 1 ≤ 511) &&
        !s.ridgeTouches (s.arrayAt c.t) (th.wbase + r) (th.wbase + r + th.tRows - 1))
      (act r q s c.t th))
  match i with
  | .exit _ =>
    let th' := th.exitLanes c.gang (c.active c.t)
    (onlyIf (th.kind == .simt) (s.setThread c.t (if th'.live = 0 then { th' with exiting := true, plreq := 2 } else th'))).map fun s => (true, s)
  | .svc _ code => stay <|
    let args := [8, 9, 10, 11].map fun r => readScl s c.t r (r - 8)
    match s.releaseAll c.mem with
    | some s2 => (s2.thread? c.t).map fun th2 => if s2.ringRoom th.vi then s2.svcEnter c.t th2 code args
        else s2.mapThread c.t fun th => { th with svc := .waiting code args }
    | none => none
  | .ckpt _ _ rows _ =>
    match s.block? th.block with
    | some b => stay (onlyIf (!s.asHalted c.t && (th.kind != .xs || decide (rows.toNat ≤ th.wlim + 1 - th.wbase)) && b.phase != .saving)
        ((s.mapThread c.t fun y => { y with ckpt := none }).restartTimer c.t))
    | none => none
  | .barArv _ k n => if s.quiet c.mem then
      bar k n (fun m => (s.thread? (partyKey m)).all fun y => !y.hasArv k n.toNat (s.episodeFor k n.toNat m)) fun s m => s.arrive k n.toNat m
    else none
  | .barWt _ k n => bar k n (fun m => decide (s.target_ k n.toNat m ≤ (s.barrierOf k m n.toNat).episode)) fun s m => s.afterBar k n.toNat m
  | .barSync _ k n => bar k n (fun m => match s.atBar k n.toNat 0 c.pc m with
      | some w => decide (w.episode ≤ (s.barrierOf k m n.toNat).episode)
      | none => false) fun s m => s.afterBar k n.toNat m
  | .rsectEnter _ => stay (onlyIf (th.rsdepth != 15) ((s.setThread c.t { th with rsdepth := th.rsdepth + 1 }).acquireAll c.t))
  | .rsectExit _ => stay (onlyIf (decide (1 < th.rsdepth) && !(s.pendsOf c.t).any (·.op.reads)) (s.setThread c.t { th with rsdepth := th.rsdepth - 1 }))
  | .gpstart h d =>
    let key := ctxKey th.vi th.ctx
    let y := s.ctx key
    match y.freeSlots with
    | [slot] =>
      let s2 := c.mem.foldl (fun s m => s.l1Flush (coreOf m)) s
      let g := y.grace.get freshGrace slot
      let own := c.mem.filterMap fun m => (s2.thread? m).map (·.uid)
      let g' : Grace := { open_ := true, gen := g.gen, mask := (s2.readers th.vi th.ctx).filter (!own.contains ·), entries := [], opened := s2.clock }
      let s3 := s2.setCtx key { y with grace := Tbl.set freshGrace y.grace slot g' }
      stay (onlyIf (s.quiet (partySeqs c.mem) && isRegDst (kindOf s1 c) (.scl d))
        (deliver s3 c h 0 (regWrites s3 c (kindOf s1 c) (.scl d) 64 fun _ _ => BitVec.ofNat 64 (g.gen.toNat * 16 + slot)) []))
    | _ => none
  | .gpwait _ _ => stay (onlyIf (s.ticketDone th (x 0)) (c.mem.foldl State.acquireAll s))
  | .gptest h pd _ => stay (some (if s.ticketDone th (x 0) then demotingPred (c.mem.foldl State.acquireAll s) c h pd true
      else demotingPred s c h pd false))
  | .dfree _ _ hd off =>
    match s.handle (coreOf c.t) th.vi th.ctx hd.toNat with
    | (s3, .ok he) =>
      let offs := (accLanes c (isVecSrc (kindOf s1 c) off)).map fun e => v 1 e.1 e.2
      let key := ctxKey th.vi th.ctx
      match (s3.ctx key).newest, s3.releaseAll c.mem with
      | some slot, some s4 =>
        let y := s4.ctx key
        let g := y.grace.get freshGrace slot
        let g' : Grace := { g with entries := g.entries ++ offs.map (freeWord hd.toNat (x 0)) }
        stay (onlyIf (he.space == 0 && (offs.findSome? (freeFault he (x 0))).isNone && decide ((s3.ctx key).attached + offs.length ≤ 256))
          (s4.setCtx key { y with grace := Tbl.set freshGrace y.grace slot g' }))
      | _, _ => none
    | _ => none
  | .subPub h d hd _ => stay (plainSub true h d hd c th s x)
  | .subSub h d hd _ => stay (plainSub false h d hd c th s x)
  | .unsub h all e => stay (plainUnsub true h all e c th s)
  | .subflush h all e => stay (plainUnsub false h all e c th s)
  | .tld h false t m => if s1.tileBusy c.mem then none else stay (plainTile true h t m c th s (x 0))
  | .tst h false t m => if s1.tileBusy c.mem then none else stay (plainTile false h t m c th s (x 0))
  | .tzero h t => stay (onlyIf (!s1.tileBusy c.mem) (deliver s c h 0
      [{ loc := .t c.t t.toNat, mask := BitVec.allOnes 32, val := 0, lanes := [], bytes := (List.range 4096).map fun i => (i, 0) }] []))
  | .tshapeImm _ w => stay (some (s.setThread c.t { th with shape := w }))
  | .tshapeReg _ _ => stay (onlyIf (decide ((x 0).toNat < 65536) && shapeOk ((x 0).setWidth 16)) (s.setThread c.t { th with shape := (x 0).setWidth 16 }))
  | .accwin _ false base lim => stay (onlyIf (decide (c.mem = [c.t]) && decide (th.abase + lim.toNat ≤ th.alim) &&
      (s.ridgeUps [c.t] isMatrixWord).isEmpty && s.ridgeWaits.isEmpty)
      (s.setThread c.t { th with wbase := th.abase + base.toNat, wlim := th.abase + lim.toNat }))
  | .accrd h false clr 0 t _ _ => access (accReads h false clr 0 t)
  | .accwr h add t _ _ => access (accPuts h add t)
  | .lease _ _ => stay (onlyIf (decide (c.mem = [c.t]) && th.leaseWait == some 0) (s.setThread c.t { th with leaseWait := none }))
  | .unlease _ => stay (onlyIf ((s.ridgeUps c.mem isLaunchWord).isEmpty && s.ridgeWaits.isEmpty)
      (c.mem.foldl (fun s m => if (s.leaseOf m).isSome then s.dropLease m else s) s))
  | .killBlk _ => some (true, s.killBlock th.block th.trap.cause th.trap.val)
  | .killCtx _ => some (true, s.killContext th.vi th.ctx 0xA000 (BitVec.ofNat 64 (th.trap.cause.toNat % 256))
      th.trap.cause th.trap.val)
  | .tlbinvVa h leaf _ _ => if (x 0).toNat < 2 ^ 52 then inval h 0 (x 1).toNat ((x 0).toNat / 65536 * 65536) leaf else none
  | .tlbinvCtx h _ => inval h 1 (x 0).toNat 0 false
  | .tlbinvVi h => inval h 2 0 0 false
  | .hinv h all n none => inval h (if all then 4 else 3) th.ctx n.toNat false
  | .hinv h all n (some _) => inval h (if all then 4 else 3) (x 0).toNat n.toNat false
  | _ => none

/-- R34, R61, R180, R185-R187, R196-R200, R220-R223, R230, R413-R415, R444-R447, R463-R470: where no operand, table or earlier access holds it
up, each of EXIT, SVC, CKPT, the BARs, RSECT, GPSTART, GPWAIT, GPTEST, DFREE, SUB, UNSUB, SUBFLUSH, TLD, TST, TZERO, TSHAPE, ACCWIN, ACCRD,
ACCWR, LEASE, UNLEASE, KILL, TLBINV and HINV takes its effect (`plainEffect`) and goes on. -/
def Obligations.PlainCompletions : Prop :=
  ∀ (i : Instr) (s s2 t : State) (p : Ready) (th : Thread) (vs : List Opd) (moves : Bool),
    ready i s = some p → p.c.idle = false → fetchSrcs p.c p.s1 (plainSrcs i (kindOf p.s1 p.c)) = .ok vs s2 → s2.thread? p.c.t = some th →
    plainEffect i p.c p.s1 s2 th (fun n => vs.getD n fun _ _ => 0) = some (moves, t) →
    (moves = false → Finishes i s p t) ∧ (moves = true → FinishesMoved i s p t)

/-! ## Engine words -/

/-- Stream k acts on word w, the first of its buffer, and is not that of a saved block. -/
def atHead (s : State) (k : Nat) (w : W16 × Option (Fin 6) × List Nat) (rest : List (W16 × Option (Fin 6) × List Nat)) : Prop :=
  s.cur = .stream k ∧ (s.stream k).buf = w :: rest ∧ isSavedStream k = false

/-- What a stack word makes of the parameter stack, its newest entry first (R307); `none` where it has too few or too many. -/
def stackSpec (i : Instr) (st : List W64) : Option (List W64) :=
  let push (x : W64) : Option (List W64) := if st.length < 8 then some (x :: st) else none
  match i, st with
  | .lit v, _ => push (v.setWidth 64)
  | .litx v, t :: l => some ((t * 16384 + v.setWidth 64) :: l)
  | .dup, t :: _ => push t
  | .drop, _ :: l => some l
  | .swap, t :: n :: l => some (n :: t :: l)
  | .stackOver, _ :: n :: _ => push n
  | .add, t :: n :: l => some ((n + t) :: l)
  | .mul, t :: n :: l => some ((n * t) :: l)
  | .clr, _ => some []
  | .engineNop, _ => some st
  | _, _ => none

/-- R306, R307: a stack word acts on its stream's parameter stack as it is dequeued; one that finds too few entries, or a full stack, ends
with ENGINE_STACK. -/
def Claim.StackWords : Prop :=
  ∀ (i : Instr) (s : State) (k : Nat) (w : W16 × Option (Fin 6) × List Nat) (rest : List (W16 × Option (Fin 6) × List Nat)),
    [Instr.dup, .drop, .swap, .stackOver, .add, .mul, .clr, .engineNop].contains i ∨ (∃ v, i = .lit v) ∨ (∃ v, i = .litx v) →
    atHead s k w rest →
    (∀ st, stackSpec i (s.stream k).stack = some st →
      Dequeues i s ((s.setStream k { (s.stream k).pop rest with stack := st }).tidyStream k)) ∧
    (stackSpec i (s.stream k).stack = none →
      Dequeues i s ((s.setStream k ((s.stream k).pop rest)).leaveWord k w 0x20 0 false false))

/-- Of a launch word: how many parameters it takes, whether its engine serves it, and whether it asks for a record (R306-R308, R313). -/
def launchParts (i : Instr) : Option (Nat × Bool × Bool) :=
  match i with
  | .copy1d r => some (3, true, r)
  | .copy2d r => some (5, true, r)
  | .copy3d r => some (7, true, r)
  | .gather r _ _ => some (5, true, r)
  | .scatter r _ _ => some (5, true, r)
  | .fill r _ => some (3, true, r)
  | .sempost r _ => some (0, false, r)
  | .semwait r _ => some (0, false, r)
  | .note => some (1, false, true)
  | .mma r _ _ => some (5, true, r)
  | .mmas r _ _ _ => some (6, true, r)
  | .mmax r _ _ => some (7, true, r)
  | .accz r _ => some (1, true, r)
  | .accdrain r _ _ _ => some (4, true, r)
  | .accload r _ _ => some (4, true, r)
  | .bvhset r => some (1, true, r)
  | .rayhit r => some (4, true, r)
  | .rayrad r => some (4, true, r)
  | .rayknn r => some (4, true, r)
  | .vremap r => some (3, true, r)
  | .vpyr r => some (3, true, r)
  | .vstereo r _ _ => some (5, true, r)
  | .vflow r _ => some (4, true, r)
  | .vchain r => some (2, true, r)
  | .stwr r _ _ => some (3, true, r)
  | .strd r _ => some (3, true, r)
  | .sflush r _ => some (0, true, r)
  | _ => none

/-- The engine of a launch of one of the engines other than the matrix array. -/
def engineWork (i : Instr) : Option (Nat → Launch → Eng Nat) :=
  match i with
  | .copy1d _ => some copyEng
  | .copy2d _ => some copyEng
  | .copy3d _ => some copyEng
  | .gather .. => some gatherEng
  | .scatter .. => some gatherEng
  | .fill .. => some fillEng
  | .bvhset _ => some bvhsetEng
  | .rayhit _ => some rayhitEng
  | .rayrad _ => some rayradEng
  | .rayknn _ => some rayknnEng
  | .vremap _ => some (visionEng (remapEng true))
  | .vpyr _ => some (visionEng (pyrEng true))
  | .vstereo .. => some fun k l => visionEng (stereoEng true l.word.toNat) k l
  | .vflow .. => some fun k l => visionEng (flowEng true l.word.toNat) k l
  | .vchain _ => some chainEng
  | .stwr .. => some storageStart
  | .strd .. => some storageStart
  | .sflush .. => some storageStart
  | _ => none

/-- A matrix word with `.x4` (R358). -/
def isX4 (i : Instr) : Bool :=
  match i with
  | .mma _ x4 _ => x4
  | .mmas _ _ x4 _ => x4
  | .mmax _ x4 _ => x4
  | .accz _ x4 => x4
  | .accdrain _ _ x4 _ => x4
  | .accload _ x4 _ => x4
  | _ => false

/-- A matrix word with `.x4` for which something still runs on the arrays of its course. -/
def courseBusy (s : State) (k : Nat) (i : Instr) : Bool :=
  isX4 i && s.ridgeRuns.any fun e => e.2.rows.any fun q => q.1 / 4 == (s.stream k).who.array / 4

/-- Nothing holds a launch word back: no launch of its stream runs, its queue accepts it, its parameters are there, a slot of the return
FIFO is free if it wants one, its queue's pace allows it, and its engine serves, a vision pipeline the streams in turn (R87, R306-R308, R313, R315, R329, R358). -/
def launchFree (s : State) (k : Nat) (i : Instr) (n : Nat) (data wants : Bool) : Bool :=
  let x := s.stream k
  x.run.isNone && i.acceptedBy (portNo k) && n ≤ x.stack.length && (!wants || x.orphan || x.fifo.length + x.reserved < 8) &&
    (!data || (!s.paced k && !s.restarting (s.engineOf k) && !s.engineHalted (s.engineOf k) &&
      !(portNo k == 5 && (s.pipelineBusy (s.engineOf k) || !s.pipelineTurn k)))) && !courseBusy s k i

/-- A data launch is taken: its pipeline notes whose turn it was, and its queue's pace starts (R315, R329). -/
def taken (s : State) (k : Nat) : State :=
  (if portNo k = 5 then { s with served := s.served.set 0 (50000 + s.engineOf k) (k + 1) } else s).startPace k

/-- The word as the record and the engine see it. -/
def launchCode (i : Instr) (w : W16 × Option (Fin 6) × List Nat) : W16 × Option (Fin 6) × List Nat := ((encode16 i).getD w.1, w.2)

/-- R306-R308, R310, R313, R315: a launch word waits behind the launch before it, for its pace, its FIFO slot and its engine; one that its
queue does not accept ends with ENGINE_DECODE, and one without its parameters with ENGINE_STACK. -/
def Obligations.LaunchWaits : Prop :=
  ∀ (i : Instr) (s : State) (k n : Nat) (data wants : Bool) (w : W16 × Option (Fin 6) × List Nat)
    (rest : List (W16 × Option (Fin 6) × List Nat)),
    launchParts i = some (n, data, wants) → atHead s k w rest →
    let x := s.stream k
    (x.run.isSome = true ∨ courseBusy s k i = true → Dequeues i s { s with held := true }) ∧
    (x.run = none → courseBusy s k i = false → i.acceptedBy (portNo k) = false →
      Dequeues i s ((s.setStream k (x.pop rest)).leaveWord k (launchCode i w) 0x21 0 false false)) ∧
    (x.run = none → courseBusy s k i = false → i.acceptedBy (portNo k) = true → x.stack.length < n →
      Dequeues i s ((s.setStream k (x.pop rest)).leaveWord k (launchCode i w) 0x20 0 false false)) ∧
    (x.run = none → i.acceptedBy (portNo k) = true → n ≤ x.stack.length → launchFree s k i n data wants = false →
      Dequeues i s { s with held := true })

/-- R306, R308, R312: a launch of the copy, ray, vision and storage engines pops its parameters, is put under way with the identity of its
stream, and goes as far as its engine takes it at once. -/
def Claim.LaunchStarts : Prop :=
  ∀ (i : Instr) (s : State) (k n : Nat) (wants : Bool) (w : W16 × Option (Fin 6) × List Nat)
    (rest : List (W16 × Option (Fin 6) × List Nat)) (e : Nat → Launch → Eng Nat),
    launchParts i = some (n, true, wants) → engineWork i = some e → atHead s k w rest → launchFree s k i n true wants = true →
    let x := { (s.stream k).pop rest with stack := (s.stream k).stack.drop n }
    let s2 := taken s k
    let l := newLaunch s2 k x (launchCode i w) ((s.stream k).stack.take n).reverse wants
    Dequeues i s ((s2.startLaunch k x l).runEngine k (e k l))

/-- R199, R342, R343, R351: a matrix launch takes one launch of its thread's lease, or ends with MATRIX_LEASE (0x22) without one; it is put
under way, and what its parameters do not allow ends it at once. -/
def Claim.MatrixStarts : Prop :=
  ∀ (i : Instr) (s : State) (k n : Nat) (wants : Bool) (w : W16 × Option (Fin 6) × List Nat)
    (rest : List (W16 × Option (Fin 6) × List Nat)),
    launchParts i = some (n, true, wants) → engineWork i = none → atHead s k w rest → launchFree s k i n true wants = true →
    let x := { (s.stream k).pop rest with stack := (s.stream k).stack.drop n }
    let s2 := taken s k
    let ps := ((s.stream k).stack.take n).reverse
    let l := newLaunch s2 k x (launchCode i w) ps wants
    let s3 := (s2.startLaunch k x l).spendLease (leaseThread k)
    (s2.leased k x.who (isX4 i) = false → Dequeues i s ((s2.setStream k x).leaveWord k (launchCode i w) 0x22 0 wants false)) ∧
    (s2.leased k x.who (isX4 i) = true →
      (matJob i ps = none → Dequeues i s s3) ∧
      ∀ j, matJob i ps = some j →
        (∀ a s4, matCheck k l j s3 = (.ok a, s4) → Dequeues i s s4) ∧
        (∀ c s4 y, matCheck k l j s3 = (.error (.status c), s4) → s4.launch? k = some y → Dequeues i s (s4.endLaunch k y c 0)))

/-- R320-R322, R458, R462: SEMPOST adds one, or at the ceiling leaves the semaphore and ends with SEM_CEILING; SEMWAIT takes one and completes
where no take waits and the value allows it, else it queues its take and stays at the head of its stream (SemaphoreServes says how it then
completes); NOTE ends with a record of its mark. -/
def Claim.SemaphoreWords : Prop :=
  ∀ (i : Instr) (s : State) (k n : Nat) (wants : Bool) (w : W16 × Option (Fin 6) × List Nat)
    (rest : List (W16 × Option (Fin 6) × List Nat)),
    launchParts i = some (n, false, wants) → atHead s k w rest → launchFree s k i n false wants = true →
    let x := { (s.stream k).pop rest with stack := (s.stream k).stack.drop n }
    (∀ c, i = .sempost wants c →
      let key := streamSem k c.toNat
      let y := s.sem key
      (y.value + 1 ≤ y.ceil → Dequeues i s
        ((((s.setStream k x).setSem key { y with value := y.value + 1 }).serveNext key).leaveWord k (launchCode i w) 0 0 wants false)) ∧
      (y.ceil < y.value + 1 → Dequeues i s ((s.setStream k x).leaveWord k (launchCode i w) 0x18 0 wants false))) ∧
    (∀ c, i = .semwait wants c → x.waiting = none →
      let key := streamSem k c.toNat
      let y := s.sem key
      (y.takes = [] → 1 ≤ y.value → Dequeues i s
        (((s.setStream k x).setSem key { y with value := y.value - 1 }).leaveWord k (launchCode i w) 0 0 wants false)) ∧
      (y.takes ≠ [] ∨ y.value = 0 → Dequeues i s
        (let s2 := s.mapStream k fun z => { z with waiting := some s.ticket }
         let s3 := s2.setSem key { y with takes := y.takes ++ [{ stream := true, who := k, n := 1, ticket := s2.ticket }] }
         { s3 with ticket := s3.ticket + 1, held := true }))) ∧
    (∀ c t, i = .semwait wants c → x.waiting = some t → Dequeues i s { s with held := true }) ∧
    (i = .note → Dequeues i s
      ((s.setStream k x).leaveWord k (launchCode i w) 0 (((s.stream k).stack.take 1).reverse.headD 0).toNat true false))

/-- Together: what the launch-class words do once nothing holds them back. -/
def Obligations.LaunchesStart : Prop := Claim.LaunchStarts ∧ Claim.MatrixStarts ∧ Claim.SemaphoreWords

/-- R87, R314: a word that names nothing ends with ENGINE_DECODE; one whose bits 15-14 say that it would be a launch first waits for the
launch before it. -/
def Claim.UnknownEngineWord : Prop :=
  ∀ (v : W16) (s : State) (k : Nat) (w : W16 × Option (Fin 6) × List Nat) (rest : List (W16 × Option (Fin 6) × List Nat)),
    atHead s k w rest →
    (isLaunchWord v = true → (s.stream k).run.isSome = true → Dequeues (.engineWord v) s { s with held := true }) ∧
    (isLaunchWord v = false ∨ (s.stream k).run = none →
      Dequeues (.engineWord v) s ((s.setStream k ((s.stream k).pop rest)).leaveWord k w 0x21 0 false false))

/-- Together: the engine words that launch nothing. -/
def Obligations.StackAndUnknownWords : Prop := Claim.StackWords ∧ Claim.UnknownEngineWord

/-- R302, R310: what a completion record holds: status, port, sequence number, context and mark. -/
def Claim.RecordFields : Prop :=
  ∀ (status port seq ctx mark : Nat), status < 256 → port < 8 →
    let r := record status port seq ctx mark
    (r.extractLsb' 56 8).toNat = status ∧ (r.extractLsb' 53 3).toNat = port ∧ (r.extractLsb' 48 5).toNat = seq % 32 ∧
    (r.extractLsb' 36 12).toNat = ctx % 4096 ∧ (r.extractLsb' 0 36).toNat = mark % 2 ^ 36

/-- R310, R314: a launch that has done its work ends with the status and mark that its engine gave, whatever its engine but the matrix array;
no other stream's launch does. -/
def Claim.LaunchEnds : Prop :=
  ∀ (s : State) (k : Nat) (l : Launch) (rep : DriveReport),
    s.launch? k = some l → s.engineHalted l.engine = false → (portNo k ≠ 3 ∨ isHartStream k = true) → l.status ≠ 256 →
    exec (.launchCompletion k rep) s = .next (s.endLaunch k l l.status l.mark)

/-- Together: how launches end. -/
def Obligations.LaunchesEnd : Prop := Claim.RecordFields ∧ Claim.LaunchEnds

/-! ## Application cores -/

/-- Hart h acts and its command port permits the custom instructions (R495, R496). -/
def hartFree (s : State) (h : Nat) : Prop :=
  s.cur = .hart h ∧ s.hartOn h = true ∧ (s.cfgAt (hcpOff h 0)).getLsbD 63 = true ∧
    ((s.hart h).mode ≠ 0 ∨ (s.cfgAt (hcpOff h 0)).getLsbD 62 = true)

/-- What completing an instruction leaves of a hart: the next pc, no wait, and the destination register, x0 excepted. -/
def hartDone (x : Hart) (rd : Nat) (v : W64) : Hart :=
  { x with pc := x.pc + 4, wait := .run, x := if rd = 0 then x.x else x.x.set 0 rd v }

/-- R302, R497-R502: the custom instructions of a hart whose port permits them. LZ.PUSH, the hart's earlier stores first (log entry 13), enters
the words of its register in the stream, or waits for room; LZ.POP takes the oldest record, or gives the empty record; LZ.FENCE waits until nothing is outstanding on the queues it
names; LZ.TIME reads device time; LZ.WAITQ gives 1 with a record there, 0 once its limit has come, and else waits. -/
def Claim.PortInstructions : Prop :=
  ∀ (s : State) (h : Nat), hartFree s h →
    let x := s.hart h
    (∀ w q rs1,
      let k := hartStream h (portNum q)
      let y := s.stream k
      let ws := wordsOf (pushBits w) (x.reg rs1.toNat)
      let id : Ident := { vi := s.hcpVi h, ctx := s.hcpCtx h, card := none, block := 0, who := h, spBase := 0, spSize := 0, array := 0,
                          span := false, win := (1, 0) }
      ((y.halted = true ∨ y.buf.length + ws.length ≤ 32) → y.outstanding + (ws.filter isLaunchWord).length ≤ 65535 →
        exec (.lzPush w q rs1) s = .next (((s.l2Down h).pushWords k (some id) ws none []).setHart h { x with pc := x.pc + 4, wait := .run })) ∧
      ((y.halted = false ∧ 32 < y.buf.length + ws.length) ∨ 65535 < y.outstanding + (ws.filter isLaunchWord).length →
        exec (.lzPush w q rs1) s = .next { s.setHart h { x with wait := .push } with held := true })) ∧
    (∀ q rd r y, (s.stream (hartStream h (portNum q))).popRecord = some (r, y) →
      exec (.lzPop q rd) s = .next ((s.setStream (hartStream h (portNum q)) y).setHart h (hartDone x rd.toNat r))) ∧
    (∀ q rd, (s.stream (hartStream h (portNum q))).popRecord = none →
      exec (.lzPop q rd) s = .next (s.setHart h (hartDone x rd.toNat 0xFF00000000000000))) ∧
    (∀ mask : BitVec 6,
      let qs := if mask = 0 then [0, 1, 4, 5] else [0, 1, 4, 5].filter mask.getLsbD
      ((∀ q ∈ qs, (s.stream (hartStream h q)).outstanding = 0) →
        exec (.lzFence mask) s = .next (s.setHart h { x with pc := x.pc + 4, wait := .run })) ∧
      ((∃ q ∈ qs, (s.stream (hartStream h q)).outstanding ≠ 0) →
        exec (.lzFence mask) s = .next { s.setHart h { x with wait := .fence } with held := true })) ∧
    (∀ rd, exec (.lzTime rd) s = .next (s.setHart h (hartDone x rd.toNat s.time))) ∧
    (∀ q rs1 rd,
      let full := !(s.stream (hartStream h (portNum q))).fifo.isEmpty
      (full = true → exec (.lzWaitq q rs1 rd) s = .next (s.setHart h (hartDone x rd.toNat 1))) ∧
      (full = false → (x.reg rs1.toNat).toNat ≤ s.time.toNat → exec (.lzWaitq q rs1 rd) s = .next (s.setHart h (hartDone x rd.toNat 0))) ∧
      (full = false → s.time.toNat < (x.reg rs1.toNat).toNat →
        exec (.lzWaitq q rs1 rd) s = .next
          { s.setHart h { x with wait := .waitq q rd.toNat (x.reg rs1.toNat) } with held := true }))

/-- R501: LZ.SUBMIT of a card of the port's interface, the hart's earlier stores first (log entry 13), releases the card and, with arming, arms
it; its result says started 0, pending 1,
dropped 2, or refused 3 with the reason; a card beyond the table or of another interface gives 4 and does nothing. -/
def Claim.SubmitInstruction : Prop :=
  ∀ (s : State) (h : Nat) (arm : Bool) (rs1 rd : BitVec 5), hartFree s h →
    let x := s.hart h
    let n := (x.reg rs1.toNat).toNat
    ((1024 ≤ n ∨ bitsOf (cardWord s n 0).toNat 58 4 ≠ s.hcpVi h) →
      exec (.lzSubmit arm rs1 rd) s = .next (s.setHart h (hartDone x rd.toNat 4))) ∧
    (n < 1024 → bitsOf (cardWord s n 0).toNat 58 4 = s.hcpVi h →
      ∀ s2 r, (s.l2Down h).release n (s.l2Down h).time = (s2, r) →
        let s3 := if arm then (s2.setCfg (cardOff n 0) (cardWord s2 n 0 ||| 0x8000000000000000)).arm n false else s2
        exec (.lzSubmit arm rs1 rd) s = .next (s3.setHart h (hartDone x rd.toNat (match r with
          | .started => 0
          | .pending => 1
          | .dropped => 2
          | .refused k => BitVec.ofNat 64 (3 + 256 * k)))))

/-- Together: the custom instructions of the harts. -/
def Obligations.HartInstructions : Prop := Claim.PortInstructions ∧ Claim.SubmitInstruction

/-- R495, R496: a custom instruction whose port is off, or of user mode where the port does not allow it, and a custom word that names none,
raise the illegal-instruction exception and have no other effect. That its entry is that of the RISC-V privileged architecture, with cause 2
and the word in mtval, is PRESUMED (log entry 13). -/
def Claim.PortRefusals : Prop :=
  ∀ (s : State) (h : Nat), s.cur = .hart h → s.hartOn h = true →
    let x := s.hart h
    let trapped (w : W32) : State := s.setHart h (x.trapTo (x.mode != 3 && x.medeleg.getLsbD 2) x.pc 2 (w.setWidth 64))
    (((s.cfgAt (hcpOff h 0)).getLsbD 63 = false ∨ (x.mode = 0 ∧ (s.cfgAt (hcpOff h 0)).getLsbD 62 = false)) →
      ∀ i w, (∃ a b c, i = .lzPush a b c) ∨ (∃ a b, i = .lzPop a b) ∨ (∃ a, i = .lzFence a) ∨ (∃ a b c, i = .lzSubmit a b c) ∨
        (∃ a, i = .lzTime a) ∨ (∃ a b c, i = .lzWaitq a b c) → encode32 i = some w → exec i s = .next (trapped w)) ∧
    (∀ w, exec (.lzIllegalInstruction w) s = .next (trapped w))

/-- R497-R500: what ends a hart's wait: at its limit LZ.WAITQ completes with 0. An interrupt completes LZ.WAITQ and WFI, and lets LZ.PUSH and
LZ.FENCE execute again after the trap; that it is taken in machine mode, where MIE enables it there, with cause 9 for the supervisor file and
12 for a guest file, is PRESUMED (log entry 13). -/
def Claim.HartWaitsEnd : Prop :=
  ∀ (s : State) (h : Nat), s.hartOn h = true →
    let x := s.hart h
    (∀ q rd lim, x.wait = .waitq q rd lim → lim.toNat ≤ s.time.toNat → (s.stream (hartStream h (portNum q))).fifo = [] →
      exec (.lzWaitqTimeLimit h) s = .next (s.setHart h (hartDone x rd 0))) ∧
    ∀ m l r, s.intrs = l ++ m :: r → m.1 = h → (∀ e ∈ l, e.1 ≠ h) → (x.mode ≠ 3 ∨ x.mie = true) →
    ∃ (t : State) (y : Hart), exec (.hartInterrupt h) s = .next (t.setHart h (y.trapTo false y.pc
        (if m.2.1 = 0 then 0x8000000000000009 else 0x800000000000000C) 0)) ∧ t = { s with intrs := l ++ r } ∧
      (x.wait = .wfi → y.pc = x.pc + 4) ∧ (∀ q rd lim, x.wait = .waitq q rd lim → y.pc = x.pc + 4) ∧
      (x.wait = .push ∨ x.wait = .fence ∨ x.wait = .run → y = x)

/-- R19, R23, R25, R256, R284, R294, R399: a load of an application core that runs gives its register, zero-extended, what is at its address,
the part in each line at that line's own translation: of memory the bytes of the home with the newest ones of its own L2, of the
configuration space its register. A store puts memory bytes into its L2 and register bytes into the register. A write-back takes the oldest
dirty line of the L2 home, and a fence all of them; in machine mode nothing is translated. An error that a load meets is a machine check,
a translation that fails a page fault, and an address with nothing behind it a fault of the model (log entry 24). A hart in WFI or another
wait makes no access. The L2's order and the RISC-V side are PRESUMED (log entries 13 and 51). -/
def Claim.HartAccesses : Prop :=
  ∀ (s : State) (h va : Nat), s.hartOn h = true →
    let acc (a : HartAcc) : Instr := .applicationCoreAccess h a
    let at_ : W64 := BitVec.ofNat 64 va
    let got (s : State) (rd : Nat) (x : W64) : State := s.setHart h ((s.hart h).setReg rd x)
    ((s.hart h).wait ≠ .run → ∀ n rd x, exec (acc (.load va n rd)) s = .refused .notEnabled ∧ exec (acc (.store va n x)) s = .refused .notEnabled) ∧
    ((s.l2 h ≠ [] → exec (acc .writeback) s = .next (s.l2Oldest h)) ∧ (s.l2 h = [] → exec (acc .writeback) s = .refused .notEnabled)) ∧
    ((s.hart h).mode = 3 → ∀ need, s.hartXl h need at_ = (s, .ok at_.toNat)) ∧
    ((s.hart h).wait = .run →
      exec (acc .fence) s = .next (s.l2Down h) ∧
      (∀ n rd s2 pa, n ≠ 0 → s.hartXl h .r at_ = (s2, .ok pa) →
        (nowhere pa = true → exec (acc (.load va n rd)) s = .fault (.noStorage pa)) ∧
        (nowhere pa = false →
          (∀ o s3 x, placeOf pa = .dev o → s2.readReg (s2.hartParty h) o n = (s3, x) →
            exec (acc (.load va n rd)) s = .next (got s3 rd x)) ∧
          ((∀ o, placeOf pa ≠ .dev o) → n ≤ 8 →
            (∀ s3 bs, pa % 128 + n ≤ 128 → s2.hartBytes h pa n = (s3, bs, .data) →
              exec (acc (.load va n rd)) s = .next (got s3 rd (BitVec.ofNat 64 (ofBytes bs)))) ∧
            (∀ s3 bs m, pa % 128 + n ≤ 128 → s2.hartBytes h pa n = (s3, bs, m) → m ≠ .data →
              exec (acc (.load va n rd)) s = .next (s3.machineCheck h pa)) ∧
            (∀ s3 bs s4 pb s5 cs, 128 < pa % 128 + n →
              let k := 128 - pa % 128
              s2.hartBytes h pa k = (s3, bs, .data) → s3.hartXl h .r (at_ + BitVec.ofNat 64 k) = (s4, .ok pb) → nowhere pb = false →
              (∀ o, placeOf pb ≠ .dev o) → s4.hartBytes h pb (n - k) = (s5, cs, .data) →
              exec (acc (.load va n rd)) s = .next (got s5 rd (BitVec.ofNat 64
                ((BitVec.ofNat 64 (ofBytes bs)).toNat + (BitVec.ofNat 64 (ofBytes cs)).toNat * 2 ^ (8 * k)))))))) ∧
      (∀ n rd s2 r, n ≠ 0 → s.hartXl h .r at_ = (s2, r) → (∀ pa, r ≠ .ok pa) →
        exec (acc (.load va n rd)) s = .next (s2.hartFault h .r at_ r)) ∧
      (∀ n (x : W64) s2 pa, n ≠ 0 → s.hartXl h .w at_ = (s2, .ok pa) →
        let bs := toBytes x.toNat n
        (nowhere pa = true → exec (acc (.store va n x)) s = .fault (.noStorage pa)) ∧
        (nowhere pa = false →
          (∀ o, placeOf pa = .dev o →
            exec (acc (.store va n x)) s = .next ((s2.l2Down h).writeReg ((s2.l2Down h).hartParty h) o n (BitVec.ofNat 64 (ofBytes bs)))) ∧
          (∀ q, placeOf pa = .mem q → pa % 128 + n ≤ 128 → exec (acc (.store va n x)) s = .next (s2.l2Write h pa bs)) ∧
          ((∀ o, placeOf pa ≠ .dev o) → (∀ q, placeOf pa ≠ .mem q) → pa % 128 + n ≤ 128 →
            exec (acc (.store va n x)) s = .next ((s2.l2Down h).writeHome ((placesOf pa n).zip bs) ((s2.l2Down h).hartIdent h) true)) ∧
          (∀ q s3 pb, placeOf pa = .mem q → 128 < pa % 128 + n →
            let k := 128 - pa % 128
            s2.hartXl h .w (at_ + BitVec.ofNat 64 k) = (s3, .ok pb) → nowhere pb = false →
            exec (acc (.store va n x)) s = .next ((s3.l2Write h pa (bs.take k)).hartPut h pb (bs.drop k))))) ∧
      (∀ n (x : W64) s2 r, n ≠ 0 → s.hartXl h .w at_ = (s2, r) → (∀ pa, r ≠ .ok pa) →
        exec (acc (.store va n x)) s = .next (s2.hartFault h .w at_ r)))

/-- Together: what else the harts do. -/
def Obligations.HartRefusalsAndAccesses : Prop := Claim.PortRefusals ∧ Claim.HartWaitsEnd ∧ Claim.HartAccesses

/-! ## Steps of the hardware -/

/-- The steps in which a party writes a register: who writes, where, and what. -/
def registerStep (i : Instr) : Option (Party × Nat × W64) :=
  match i with
  | .registerWrite who off x => some (who, off, x)
  | .cardArm who off x => some (who, off, x)
  | .cardDoorbell v x => some (.vi v, 0x40000 + 0x1000 * v, x)
  | .dtStep who x => some (who, 0xA0010, x)
  | .dtRate who x => some (who, 0xA0008, x)
  | .mereCarve who x => some (who, 0x200, x)
  | .mereInj who x => some (who, 0x220, x)
  | .islRestart who x => some (who, 0xFF000, x)
  | .gateWayRequest who slice x => some (who, 0x10000 + 0x100 * slice, x)
  | .ungateWay who slice x => some (who, 0x10000 + 0x100 * slice, x)
  | .xltInvVa who v x => some (who, 0x60000 + 0x1000 * v, x &&& ~~~3#64)
  | .xltInvCtx who v x => some (who, 0x60000 + 0x1000 * v, (x &&& ~~~3#64) ||| 1)
  | .xltInvVi who v x => some (who, 0x60000 + 0x1000 * v, (x &&& ~~~3#64) ||| 2)
  | .xltHinv who v x => some (who, 0x60008 + 0x1000 * v, x &&& ~~~0x100#64)
  | .xltHinvAll who v x => some (who, 0x60008 + 0x1000 * v, x ||| 0x100#64)
  | .splReq who v x => some (who, 0x60018 + 0x1000 * v, x)
  | .svcReply who v x => some (who, 0x50018 + 0x1000 * v, x)
  | .hcpCtl who hart x => if hart < 24 then some (who, 0xF0000 + 0x100 * hart, x) else none
  | .hcpSem who hart n x => if hart < 24 ∧ n < 16 then some (who, 0xF0000 + 0x100 * hart + (0x40 + 8 * n), x) else none
  | .viSimt who v tile x => if v < 16 then some (who, 0xF8000 + 0x40 * v + (if tile then 8 else 0), x) else none
  | _ => none

/-- R4, R5, R21-R23, R543: a register write has the effect of the register at that offset; one that its party may not make, or that is not
an aligned doubleword of the 16 MiB of the configuration space, has no effect. A card that is written through an interface's own window
changes only where the card is that interface's. -/
def Obligations.RegisterSteps : Prop :=
  ∀ (i : Instr) (s : State) (who : Party) (off : Nat) (x : W64), registerStep i = some (who, off, x) →
    (off % 8 ≠ 0 ∨ 0x1000000 ≤ off ∨ partyReaches who off = false → exec i s = .next s) ∧
    (off % 8 = 0 → off < 0x1000000 → partyReaches who off = true →
      (windowCard off = none → exec i s = .next (s.regWrite off x)) ∧
      ∀ v c n, windowCard off = some (v, c, n) →
        exec i s = .next (if bitsOf (cardWord s c 0).toNat 58 4 = v then s.writeCard c n (some v) x else s))

/-- R46-R49, R213, R38, R232, R34: the steps of threads: a scope whose members have all arrived issues its word next, at its lowest member; a
pending asynchronous cause, the lowest first, is taken; a rotation that is due gives the next parked gang its turn; a thread that has exited,
whose counters are zero, whose results have landed and whose reductions are out (a tile thread: both sequencers) leaves its slot. -/
def Claim.ThreadSteps : Prop :=
  (∀ (s : State) (t : Nat) (th : Thread) (r : Rdv) (ms : List Nat) (sheaf : Nat),
    s.thread? t = some th → th.rdv = some r → s.scopeSet t th r.scp = some (ms, sheaf) → (∀ m ∈ ms, s.hasArrived m r = true) →
    exec (.scopedRendezvous t) s =
      .next { s with agenda := .issueAt (ms.headD t) ((s.thread? (ms.headD t)).elim 0 (·.liveSlices)) :: s.agenda }) ∧
  (∀ (s : State) (t : Nat) (th : Thread) (e : Nat × W64 × Nat),
    s.thread? t = some th → e ∈ th.async → (∀ f ∈ th.async, e.1 < f.1 ∨ f = e) → th.inTrap = none → th.kind ≠ .as → th.susp = none →
    th.exiting = false → th.saved = false →
    ∃ i : TrapInfo, i.code = e.1 ∧ i.async = true ∧ i.val = e.2.1 ∧ i.members = [t] ∧
      exec (.asyncTrapEntry t) s = .next ((s.setThread t { th with async := th.async.erase e }).trapEntry t i)) ∧
  (∀ (s : State) (t : Nat) (th : Thread), s.thread? t = some th → th.rotate = true →
    exec (.streamRotation t) s = .next ((s.setThread t th.rotateStreams).eventOf t 0x0B (if th.park = [] then 0 else 1)) ∧
    th.rotateStreams.rotate = false) ∧
  (∀ (s w : State) (t : Nat) (th : Thread), s.thread? t = some th → th.overdue = 0 →
    (isTile t = true → ∀ x, s.thread? (asOf t + 1) = some x → x.overdue = 0) →
    (th.kind = .simt → s.drained t = true →
      (s.redReady [t] = (w, true) → exec (.warpExitComplete t) s = .next ((w.leaveSlot t).blockDone th.block)) ∧
      (s.redReady [t] = (w, false) → exec (.warpExitComplete t) s = .next w)) ∧
    (th.kind ≠ .simt → s.drained (asOf t) = true → s.drained (asOf t + 1) = true →
      (s.redReady [asOf t] = (w, true) →
        exec (.warpExitComplete t) s = .next (((w.leaveSlot (asOf t + 1)).leaveSlot (asOf t)).blockDone th.block)) ∧
      (s.redReady [asOf t] = (w, false) → exec (.warpExitComplete t) s = .next w)))

/-- The access of a load, a load-reserve, an atomic, a store-conditional or a tile load. -/
def isReading (op : PendOp) : Bool :=
  match op with
  | .load .. | .reserve | .atom .. | .cond .. | .tload => true
  | _ => false

/-- R78, R80, R243-R252, R256, R413, R440, R441, R444-R448, R454: the landings of results in flight: a plain result writes its registers, ORs
its flags and lowers its counter, a push of it waiting for its port; an access first performs, or waits a step for what must go first; a
fence, a commit, a cache control, a flush of reductions and an invalidation wait for the accesses they order; a PREF lands once its lines have
passed their weirs. A SUB.sub has its lines read one
at a time and lands once the last is applied; an UNSUB and a SUBFLUSH wait for what was sent, an UNSUB also for what its publications sent since,
and its entries go as it lands. A store that has performed is acknowledged. Nothing lands while its request or its reply is held back on a
gutter. A remote access performs at its destination, which must be running, behind what its core sent there before. An access whose reply was lost performs and does not
land, and one without its reply after 64 us raises PACKET_LOST. -/
def Obligations.LandingSteps : Prop :=
  ∀ (s : State) (t id : Nat) (th : Thread) (p : Pend), s.pend? t id = some (th, p) →
    (p.weir = false → p.remote = false → p.lostAs = 0 → s.paused p = false →
      (p.op = .result → s.portReady t th p = true → exec (.resultLanding t id) s = .next (s.landLoad t th p true)) ∧
      (∀ w64, p.op = .xadd w64 → exec (.resultLanding t id) s = .next (s.landPend t p false)) ∧
      (p.op = .commit → s.mayPerform t p = true →
        exec (.resultLanding t id) s = .next ((s.drain th.block).landPend t p false)) ∧
      (∀ k mask, p.op = .fence k mask → s.mayPerform t p = true →
        exec (.resultLanding t id) s = .next ((s.endFence p k mask).landPend t p false)) ∧
      (∀ inv sys, p.op = .cctl inv sys → s.mayPerform t p = true →
        exec (.resultLanding t id) s = .next ((s.cacheControl (p.cores t) inv sys p.ps).landPend t p false)) ∧
      (∀ mere w, p.op = .pref mere →
        (s.prefetchLines t th p mere p.lines = (w, true) → exec (.resultLanding t id) s = .next (w.landPend t p false)) ∧
        (s.prefetchLines t th p mere p.lines = (w, false) → exec (.resultLanding t id) s = .next w)) ∧
      (∀ w, p.op = .flush → (∀ m ∈ p.mem, s.redReleasedBy p.at_ m = true) →
        (s.metered p.mem = (w, true) → exec (.resultLanding t id) s = .next ((w.flushRound p.at_ p.mem).landPend t p false)) ∧
        (s.metered p.mem = (w, false) → exec (.resultLanding t id) s = .next w)) ∧
      (∀ kind ctx va leaf, p.op = .inval kind ctx va leaf →
        (p.done = false → s.mayPerform t p = true →
          exec (.resultLanding t id) s = .next (s.startInval t th p kind ctx va leaf)) ∧
        (∀ w, p.done = true → s.inFlight th.vi p.sent.toNat = false → (∀ m ∈ s.staleReds, s.redReleased m = true) →
          (s.metered s.staleReds = (w, true) →
            exec (.resultLanding t id) s = .next (p.mem.foldl State.acquireAll ((w.settle.landPend t p false).acquireAll t))) ∧
          (s.metered s.staleReds = (w, false) → exec (.resultLanding t id) s = .next w))) ∧
      (∀ key, p.op = .subCopy key →
        (∀ s2, s.nextLine key = some s2 → exec (.resultLanding t id) s = .next s2) ∧
        (s.nextLine key = none → (∀ m ∈ s.batches, m.copy = true → m.dst * 16 + m.dstEntry ≠ key) →
          exec (.resultLanding t id) s = .next (s.landPend t p false))) ∧
      (∀ keys, p.op = .subWait keys false →
        (∀ k ∈ keys, ∀ m ∈ s.batches, m.acked = none → m.src * 16 + m.srcEntry = k.1 → m.copy = false ∧ k.2 ≤ m.seq) →
        exec (.resultLanding t id) s = .next (s.landPend t p false)) ∧
      (∀ keys, p.op = .subWait keys true →
        let ks := s.standing p.at_ (keys.map (·.1))
        (s.unsent ks ≠ [] → exec (.resultLanding t id) s = .next ((s.unsent ks).foldl (fun s k => s.sendBatch k 16) s)) ∧
        (s.unsent ks = [] → (∀ k ∈ keys, ∀ m ∈ s.batches, m.acked = none → m.src * 16 + m.srcEntry ≠ k.1) →
          exec (.resultLanding t id) s = .next ((ks.foldl State.removeSub s).landPend t p false))) ∧
      (isReading p.op = true → s.portReady t th p = true →
        (p.done = true → exec (.resultLanding t id) s = .next (s.landLoad t th p true)) ∧
        (p.done = false → s.mayPerform t p = true →
          (∀ s2 p2 fail, s.perform t th p = .ok s2 p2 fail → exec (.resultLanding t id) s = .next (s2.landLoad t th p2 fail)) ∧
          (∀ s2, s.perform t th p = .held s2 → exec (.resultLanding t id) s = .next s2))) ∧
      (p.op = .store ∨ p.op = .tstore →
        (p.done = true → exec (.storeAck t id) s = .next (s.landPend t p false)) ∧
        (p.done = false → s.mayPerform t p = true →
          (∀ s2 p2 fail, s.perform t th p = .ok s2 p2 fail → exec (.storeAck t id) s = .next (s2.landPend t p2 false)) ∧
          (∀ s2, s.perform t th p = .held s2 → exec (.storeAck t id) s = .next s2)))) ∧
    (p.weir = false → p.remote = false → p.lostAs = 2 → p.done = false → s.paused p = false → s.mayPerform t p = true →
      ∀ s2 p2 fail, s.perform t th p = .ok s2 p2 fail → p2.lostAs = 2 →
      let t2 := s2.setPend t { p2 with done := true, demote := if fail then p2.demote else [] }
      (isReading p.op = true → s.portReady t th p = true → exec (.resultLanding t id) s = .next t2) ∧
      (p.op = .store ∨ p.op = .tstore → exec (.storeAck t id) s = .next t2)) ∧
    (p.remote = true → p.lostAs ≠ 1 → s.coreClosed (p.circ.getD 0) = false → s.heldBack p.sent = false → s.mayPerform t p = true →
      s.entryAhead (coreOf t) (p.circ.getD 0) p.at_ = false → s.accessAhead (coreOf t) (p.circ.getD 0) p.at_ = false →
      (∀ s2 p2 fail, s.perform t th p = .ok s2 p2 fail → exec (.remoteAccess t id) s =
        .next (s2.setPend t { p2 with remote := false, done := true, back := s2.time, demote := if fail then p2.demote else [] })) ∧
      (∀ s2, s.perform t th p = .held s2 → exec (.remoteAccess t id) s = .next s2)) ∧
    (p.mem_ = true → 64000 ≤ (s.time - p.sent).toNat →
      ((p.done = true ∨ p.lostAs = 1) →
        ∃ val, exec (.packetLost t id) s = .next ((s.loseReply t p).postTo t cPacketLost val)) ∧
      (p.done = false → p.lostAs = 2 → p.circ.any s.coreClosed = false → s.mayPerform t p = true → ∀ s2 p2 fail, s.perform t th p = .ok s2 p2 fail →
        ∃ val, exec (.packetLost t id) s = .next ((s2.loseReply t p2).postTo t cPacketLost val)) ∧
      (p.done = false → p.lostAs = 0 → p.weir = false → (p.remote = true ∨ p.rides = true) → s.mayPerform t p = true →
        (∃ val, exec (.packetLost t id) s = .next ((s.loseReply t p).postTo t cPacketLost val)) ∨
        ∀ s2 p2 fail, s.perform t th p = .ok s2 p2 fail →
          ∃ val, exec (.packetLost t id) s = .next ((s2.loseReply t p2).postTo t cPacketLost val)))

/-- R405-R407: a walk that waits for M reads its entry again; one that has waited 16 us raises MIGRATION_STALL at its word, with the level and
the address in XVAL. A walk over the link that has had no reply for 64 us posts PACKET_LOST. -/
def Claim.MigrationSteps : Prop :=
  ∀ (s : State) (t : Nat) (th : Thread), s.thread? t = some th →
    ((∃ w ∈ th.walkM, w.set_ = true) → exec (.walkReread t) s = .next (th.walkM.foldl (State.rereadWalk t th.ident) s)) ∧
    (∀ w level, th.walkM.findSome? (fun w => (w.stalled s.time).map fun l => (w, l)) = some (w, level) →
      exec (.migrationStall t) s = .next ((s.setThread t { th with walkM := th.dropWalk w.gang }).trapWord
        { t := t, gang := w.gang, scp := w.scp, mem := w.mem, pc := w.pc, act := w.act, sheaf := w.sheaf, trapm := th.inTrap.isSome }
        cMigrationStall (lvlVal level w.va) w.sl false)) ∧
    (∀ w id, s.pend? t id = none → th.walkM.find? (fun w => w.level == noReply && 64000 ≤ (s.time - w.since).toNat) = some w →
      ∃ val, exec (.packetLost t id) s = .next ((s.setThread t { th with walkM := th.dropWalk w.gang }).postTo t cPacketLost val))

/-- Together: the steps of threads and of their walks. -/
def Obligations.ThreadAndWalkSteps : Prop := Claim.ThreadSteps ∧ Claim.MigrationSteps

/-- R55, R58, R311, R315, R342, R395, R414-R417, R448, R449, R451: the steps of queues and of the units that serve them. -/
def Obligations.QueueSteps : Prop :=
  (∀ (s : State) (core t : Nat) (r : SpawnReq) (rest : List SpawnReq) (b : Block),
    s.spawnq.get [] core = r :: rest → s.block? r.block = some b → s.freeSlot core b.nv = some t →
    exec (.spawnQueuePlace core) s = .next (({ s with spawnq := s.spawnq.set [] core rest } : State).startSpawn t r)) ∧
  (∀ (s : State) (g n : Nat) (ms : List Nat),
    (s.group g).queue = [(ms, n)] → (∀ a ∈ s.arraysOf ms, (s.group a).holder = []) →
    exec (.leaseGrant g) s = .next
      (let x := (s.arraysOf ms).foldl (fun s a =>
        s.setGroup a { s.group a with holder := ms, left := n, queue := (s.group a).queue.filter (· != (ms, n)),
                                      last := some ((coreOf (ms.headD 0) - 64) % 4) }) s
       ms.foldl (fun s m => s.mapThread m fun th =>
        { th with leaseWait := th.leaseWait.map fun _ => 0, leaseBack := [], leaseLeft := 0 }) x)) ∧
  (∀ (s : State) (v t : Nat) (th : Thread) (code : W16) (args : List W64), s.svcOldest v = some (t, th, code, args) → s.ringRoom v = true →
    exec (.svcRequestEnqueue v) s = .next (s.svcEnter t th code args)) ∧
  (∀ (s : State) (v c : Nat), s.hxlt.get none v = some c → s.inFlight v c = false →
    exec (.xltInvDone v true) s = .next { s with hxlt := s.hxlt.erase v }) ∧
  (∀ (s w : State) (v c : Nat), s.xlt.get none v = some c → s.inFlight v c = false → (∀ m ∈ s.staleReds, s.redReleased m = true) →
    (s.metered s.staleReds = (w, true) → exec (.xltInvDone v false) s = .next { w.settle with xlt := w.settle.xlt.erase v }) ∧
    (s.metered s.staleReds = (w, false) → exec (.xltInvDone v false) s = .next w)) ∧
  (∀ (s : State) (v : Nat) (p : Splinter), s.spl.get none v = some p → exec (.splinterDone v) s = .next (s.endSplit v p)) ∧
  (∀ (s : State) (core e : Nat) (x : SubEntry), s.subs.get none (core * 16 + e) = some x → x.pub = true → x.batch ≠ [] →
    2560 ≤ (s.time - x.lastStore).toNat * s.coreRate core →
    exec (.batchIdleFlush core e) s = .next (s.sendBatch (core * 16 + e) x.batch.length)) ∧
  (∀ (s : State) (n : Nat) (m : BatchMsg) (x : SubEntry), s.batches[n]? = some m → m.lost = false →
    (∀ e ∈ s.batches.take n, e.lost = false → e.src = m.src → e.dst = m.dst → e.acked.isSome ≠ m.acked.isSome) →
    let s2 : State := { s with batches := s.batches.eraseIdx n }
    (∀ a, m.acked = some a → s.heldBack a = false → exec (.batchEntryApply n) s = .next s2) ∧
    (m.acked = none → s.heldBack m.sent = false → s.accessAhead m.src m.dst m.at_ = false →
      s.subs.get none (m.dst * 16 + m.dstEntry) = some x → x.broken = false → x.ended = false →
      let key := m.dst * 16 + m.dstEntry
      let s3 : State := { s with batches := s.batches.set n { m with acked := some s.time } }
      (m.copy = true → exec (.batchEntryApply n) s = .next ((s2.applyEntry key x m).endSub key)) ∧
      (m.copy = false → m.seq = x.seqIn →
        exec (.batchEntryApply n) s = .next (((s3.applyEntry key x m).mapSub key fun x => { x with seqIn := x.seqIn + 1 }).endSub key)) ∧
      (m.copy = false → m.seq ≠ x.seqIn → exec (.batchEntryApply n) s = .next (s2.breakSub key)))) ∧
  (∀ (s : State) (core e peer : Nat) (x : SubEntry) (q : Nat × Nat), s.subs.get none (core * 16 + e) = some x → x.peers[peer]? = some q →
    (∃ m ∈ s.batches, m.src = core ∧ m.srcEntry = e ∧ m.dst = q.1 ∧ m.dstEntry = q.2 ∧ 64000 ≤ (s.time - m.sent).toNat) →
    exec (.subAckTimeout core e peer) s = .next (s.breakSub (q.1 * 16 + q.2))) ∧
  (∀ (s : State) (u port : Nat), s.lastData.get 0 (u * 8 + port) ≠ 0 →
    (s.cfgAt (qpaceOff u port)).toNat % 65536 ≤ 2 * (s.time - s.lastData.get 0 (u * 8 + port)).toNat →
    exec (.qpaceGapElapsed u port) s = .next { s with lastData := s.lastData.set 0 (u * 8 + port) 0 }) ∧
  (∀ (s : State) (k : Nat) (l : Launch), s.launch? k = some l → portNo k = 4 → l.status = 256 → 8000000000 ≤ (s.time - l.start).toNat →
    exec (.storageTimeout k) s = .next (s.endLaunch k l 0x85 l.mark))

/-- R361, R362, R366, R376-R378, R383, R419, R477: the steps of jobs: the first due instant of a card releases it at that instant; a job without
blocks, launches or iterations left completes, a miss and an overrun that are due being noticed then; a deadline, a budget and a checkpoint
interval that have passed raise their exception, a timer that reaches its bound owing a report and starting again; the budgets of the weirs
return at every window edge, what they held asking again; and a unit that nothing holds passes to its interface. -/
def Claim.JobSteps : Prop :=
  (∀ (s : State) (card i : Nat), s.instant card = some i →
    let a := s.arms.get noArm card
    exec (.periodicRelease card) s =
      .next (({ s with arms := s.arms.set noArm card (a.1, a.2.1, a.2.2.drop 1) } : State).release card (BitVec.ofNat 64 i)).1) ∧
  (∀ (s : State) (card : Nat) (j : Job), s.job? card = some j →
    (j.walked = true → s.blocksOf card = [] → j.launches = 0 →
      let s2 := if s.missDue j then s.logException card 0x30 else s
      let s3 := if j.budgetDue then s2.logException card 0x31 else s2
      exec (.jobCompletion card) s = .next (s3.completeJob card
        { j with miss := j.miss || s.missDue j, overran := j.overran || j.budgetDue })) ∧
    (s.missDue j = true → exec (.deadlineMiss card) s = .next (s.raise card 0x30 none)) ∧
    (j.budgetDue = true → ¬(s.missDue j = true ∧ j.missPol = 1 ∧ j.overPol = 1) →
      exec (.budgetTime card) s = .next (s.raise card 0x31 none)) ∧
    (s.missDue j = true ↔ j.deadline ≠ 0 ∧ j.missRaised = false ∧ j.relT.toNat + j.deadline.toNat < s.time.toNat) ∧
    (j.budgetDue = true ↔ j.budget ≠ 0 ∧ j.budgetRaised = false ∧ j.budget.toNat ≤ j.spent)) ∧
  (∀ (s : State) (t : Nat) (th : Thread) (b : Block) (j : Job), s.thread? t = some th → s.block? th.block = some b → b.phase ≠ .saved →
    s.job? b.card = some j →
    (th.overdue ≠ 0 → th.inTrap = none →
      exec (.checkpointOverdue t) s =
        .next ((s.mapThread t fun th => { th with overdue := th.overdue - 1 }).raise b.card 0x33 (some t))) ∧
    (th.kind = .xs → th.saved = false →
      let n := (s.time.toNat - th.ckptTime) / j.ckptBound
      s.passTimers.thread? t = some { th with overdue := th.overdue + n, ckptTime := th.ckptTime + n * j.ckptBound })) ∧
  (∀ (s : State), s.edge < s.time.toNat / 10000 →
    let full := (List.range 24).foldl (fun s ch => (List.range 64).foldl (fun s id =>
      s.setCfg (weirOff ch id) ((s.cfgAt (weirOff ch id) &&& 0xFFFFFFFF00000000) ||| BitVec.ofNat 64 (s.refill id))) s) s
    let asks := full.mapThreads fun _ th => { th with pend := th.pend.map fun p => { p with weir := false } }
    exec .weirWindowEdge s = .next { asks with
      edge := s.time.toNat / 10000, weirHeld := [], jobs := asks.jobs.map fun e => (e.1, e.2.map fun j => { j with bwWindow := false }) }) ∧
  (∀ (s : State) (v : Nat), (∃ p ∈ s.handover, p.1 = v ∧ s.unitHolds p.2.1 = false) →
    ∃ t : State, exec (.viUnitHandover v) s = .next t ∧ { t with cfg := s.cfg, handover := s.handover } = s ∧
      t.handover = s.handover.filter fun p => !(p.1 == v && !s.unitHolds p.2.1))

/-- R361-R374, R386: the steps of blocks: the dispatcher starts the next block of the next card or pre-empts for it; a victim whose results
have landed is saved; a saved block that comes next and whose image is whole starts again, and one whose image is not is ended. -/
def Claim.BlockSteps : Prop :=
  (∀ (s : State) (tile : Bool),
    (∀ card j r, s.nextPlaced tile = some (card, j, r) → s.nextBlock_ card = none →
      exec (.blockPlacement tile) s = .next (s.placeIteration card j r)) ∧
    (∀ card j r b x, s.nextPlaced tile = some (card, j, r) → s.nextBlock_ card = some (b, x) → x.phase = .relaunch →
      exec (.blockPlacement tile) s = .next (s.startBlock card b j r x.ord x.idx (x.relaunches + 1))) ∧
    (∀ t, s.nextPlaced tile = none → s.preempt tile = some t → exec (.blockPlacement tile) s = .next t)) ∧
  (∀ (s : State) (blk : Nat) (x : Block) (slot : Nat), s.block? blk = some x → x.phase = .saving →
    (∀ k ∈ s.pubKeys blk, ∀ y, s.subs.get none k = some y → y.batch = []) → s.sentApplied blk = true → x.slot = some slot → s.regErr = [] →
    (x.tile = false → (∀ t ∈ x.thr.filter (· != goneKey) ++ x.spawned, s.saveQuiet t = true) →
      ∃ t : State, exec (.simtBlockSave blk) s = .next t ∧ ∀ y, t.block? blk = some y → y.phase = .saved) ∧
    (x.tile = true → (∀ m ∈ x.thr, m ≠ goneKey → ∀ t ∈ [m, m + 1], s.saveQuiet t = true ∧ ∃ th, s.thread? t = some th ∧ th.saved = true) →
      ∃ t : State, exec (.tileBlockSave blk) s = .next t ∧ ∀ y, t.block? blk = some y → y.phase = .saved)) ∧
  (∀ (s s2 s3 : State) (blk card slot : Nat) (x : Block) (j : Job) (r : Room) (d : Desc), s.block? blk = some x → x.phase = .saved →
    s.nextPlaced x.tile = some (card, j, r) → (s.nextBlock_ card).map (·.1) = some blk → s.rawDesc x.vi x.ctx = (s2, .ok d) →
    x.slot = some slot →
    (s2.headerOk d.saveBase slot = false → exec (.blockRestore blk) s = .next (s2.badImage blk x)) ∧
    (s2.headerOk d.saveBase slot = true →
      let ps := ((x.thr.filter (· != goneKey)).zip r.slots).map fun e => (coreOf e.2, (e.1 - (20064 + 128 * blk)) / 2)
      let us := if x.tile then ps ++ (((List.range 4).filter fun i => !ps.any (·.2 == i)).flatMap fun i => (ps.take 1).map fun p => (p.1, i))
        else [(r.unit, 0)]
      s2.unparkSubs blk us ((r.spBase : Int) - x.spBase) = some s3 →
      ∃ u : State, exec (.blockRestore blk) s = .next ((u.joinBars blk false).giveNotices card blk) ∧
        ∀ y, u.block? blk = some y → y.phase = .resident))

/-- Together: the steps of jobs and blocks. -/
def Obligations.JobAndBlockSteps : Prop := Claim.JobSteps ∧ Claim.BlockSteps

/-- R18, R62-R64, R481-R488, R509-R512: the steps of power, heat and restarts. -/
def Obligations.PowerSteps : Prop :=
  (∀ (s : State) (c : Nat), c < 96 → s.railWanted c ≠ (s.cluster c).high →
    exec (.railSwitch c) s = .next ((clusterCores c).foldl (fun s u => s.event u 0x08 none 1)
      (s.mapCluster c fun x => { x with high := s.railWanted c }))) ∧
  (∀ (s : State) (c : Nat), c < 96 →
    let recent := (s.cluster c).replays.filter fun t => (s.time - t).toNat < 1000
    ∃ t : State, exec (.droopReplay c) s = .next t ∧
      (t.cluster c).replays = s.time :: recent ∧
      (t.cluster c).droopHold = if 63 < recent.length then some (s.time + 10000) else (s.cluster c).droopHold) ∧
  (∀ (s : State) (c : Nat) (e : W64), (s.cluster c).droopHold = some e → e.toNat ≤ s.time.toNat →
    exec (.droopHoldEnd c) s = .next (s.mapCluster c fun x => { x with droopHold := none })) ∧
  (∀ (s : State) (c : Nat), c < 96 →
    ∃ arg1, let s2 := (s.setCfg (0xC0000 + 8 * c) (s.cfgAt (0xC0000 + 8 * c) ||| 0x80)).log 0x0471 (0xC000 + c) 0xFFFF (BitVec.ofNat 64 c) arg1
    exec (.brownout c) s = .next (if c < 80 then
      (s2.mapCluster c fun x => { x with halted := true }).startRestart (clusterEngine c) else s2.losePair (c - 80))) ∧
  (∀ (s : State) (temps : List (W16 × W16)), temps.length = 96 →
    exec (.thermalRead temps) s =
      .next ((((List.range 96).foldl (fun s n => s.readPair temps n) s).readDie temps 0).readDie temps 1)) ∧
  (∀ (s : State) (e : Nat), restartable e = true → 1000000 ≤ (s.time - s.beats.get 0 e).toNat → ∃ a b, exec (.watchdog e) s = .next ((s.log 0x0481 e 0xFFFF a b).startRestart e)) ∧
  (∀ (s : State) (e n : Nat), s.restarts.get none e = some n →
    let on (s : State) : State := { s with restarts := s.restarts.insert e (some (n + 1)) }
    exec (.engineRestart e) s = .next (if n = 0 then on (s.isolate e) else if n = 1 then on ((engineCores e).foldl State.l1Flush s)
      else if n = 2 then on (s.resetUnit e) else if n = 3 then on s else s.readmit e)) ∧
  (∀ (s : State) (slice : Nat), (s.cfgAt (mslOff slice 8)).getLsbD 16 = true → exec (.gatingDone slice) s = .next (s.endGating slice))

/-- R281-R298, R423, R493: the steps of memory and its containment: a scrub corrects or finds what it reads, a refresh changes nothing, a
sensor stream writes its bytes, an uncorrectable error ends its owner's context, retires its frame and quarantines its way, an injection
takes effect, and where a fatal entry waits the ring of the log is kept in the flash, each entry at its place in the ring. -/
def Claim.MemorySteps : Prop :=
  (∀ (s : State) (slot : Nat), (s.mere.get none slot = none → exec (.merePatrolScrub slot) s = .next s) ∧
    (∀ l, s.mere.get none slot = some l → exec (.merePatrolScrub slot) s = .next (s.readCode (slotPa slot l)))) ∧
  (∀ (s : State) (line : Nat),
    (s.latent.get 0 line ≠ 3 → exec (.dramPatrolScrub line) s = .next s) ∧
    (s.latent.get 0 line = 3 → s.findWay (128 * line) = none → exec (.dramPatrolScrub line) s =
      .next { s with ue := s.ue ++ [{ pa := 128 * line, slot := none, owner := none, stage := 1 }] })) ∧
  (∀ (s : State) (ch bank : Nat), exec (.lpddr6Refresh ch bank) s = .next s) ∧
  (∀ (s : State) (v : Ingest) (pa : Nat) (bytes : List Byte), pa + bytes.length ≤ dramTop →
    exec (.sensorStreamWrite v pa bytes) s = .next (s.sensorBytes v.vi v.stream (bytes.length + 1) pa bytes)) ∧
  (∀ (s : State) (i : Nat) (u : Ue), s.ueAt 0 = some (i, u) →
    exec .ctxKill s = .next ((s.ueNext i (if u.slot.isSome then some 1 else none)).chargeOwner u)) ∧
  (∀ (s : State) (i : Nat) (u : Ue), s.ueAt 1 = some (i, u) →
    let frame := u.pa / 65536 * 65536
    let ctx := u.owner.elim 0xFFFF (·.toNat)
    let s2 := s.ueNext i (if u.slot.isSome then some 2 else none)
    (s.retired.length < 4096 → exec .pageRetire s =
      .next { s2.log 0x0412 0 ctx (BitVec.ofNat 64 frame) (BitVec.ofNat 64 s.retired.length) with retired := s.retired ++ [frame] }) ∧
    (4096 ≤ s.retired.length → exec .pageRetire s =
      .next ((s2.log 0x0412 0 ctx (BitVec.ofNat 64 frame) 0xFFFF).log 0x0414 0 ctx (BitVec.ofNat 64 frame) 0))) ∧
  (∀ (s : State) (i : Nat) (u : Ue), s.ueAt 2 = some (i, u) →
    let slice := u.slot.getD 0 / 131072
    let w := u.slot.getD 0 % 16
    let s2 := s.ueNext i none
    let s3 := s2.emptyWay slice w
    exec .wayQuar s = .next (if (s2.quarWays slice).getLsbD w then s2 else
      (s3.setCfg (mslOff slice 0) (s3.cfgAt (mslOff slice 0) ||| BitVec.ofNat 64 (2 ^ (32 + w) + 2 ^ (16 + w)))).log
        0x0413 (0x3000 + slice) 0xFFFF (BitVec.ofNat 64 slice) (BitVec.ofNat 64 w))) ∧
  (∀ (s : State), (s.cfgAt 0x220).getLsbD 63 = true → exec .mereInjection s = .next s.inject) ∧
  (∀ (s : State), (∃ e ∈ s.silt, e.fatal = true ∧ e.persisted = false) →
    let l := s.silt.map fun e => { e with persisted := true }
    exec .siltPersist s =
      .next { s with silt := l, siltFlash := if l.length < 4096 then l else l.rotateLeft (s.siltCount % 4096) })

/-- R25, R26, R440-R442, R503-R508: the steps of the gutter and of boot: flit errors count, and two in a header lose the flit; a dead lane
pauses injection until the flits in transit have drained and the routes are compiled again without it; the boot starts the harts once its
images verify and its steps succeed, and a recovery image that verifies lets it run again. -/
def Claim.GutterAndBootSteps : Prop :=
  (∀ (s : State) (st : Nat) (west : Bool) (lane errs : Nat), st < 24 → lane < 32 →
    (errs = 0 → exec (.gutterFlitArrival st west lane errs) s = .next s) ∧
    (errs = 1 → exec (.gutterFlitArrival st west lane errs) s = .next (s.setCfg 0xFC010
      ((s.cfgAt 0xFC010 &&& 0xFFFFFFFF00000000) ||| ((s.cfgAt 0xFC010 + 1) &&& 0xFFFFFFFF)))) ∧
    (2 ≤ errs → ∃ arg1, exec (.gutterFlitArrival st west lane errs) s = .next
      (((s.setCfg 0xFC010 (s.cfgAt 0xFC010 + 0x100000000)).loseFlits true).log 0x0460 (0x4000 + st) 0xFFFF
        (BitVec.ofNat 64 (st * 256 + (if west then 32 else 0) + lane)) arg1))) ∧
  (∀ (s : State) (west : Bool) (lane : Nat), lane < 32 → ∃ t : State, exec (.deadLane west lane) s = .next t ∧ t.pause = true ∧
    t.dying.getLsbD (lane + if west then 32 else 0) = true ∧ t.mem = s.mem ∧
    ∀ u th, s.thread? u = some th → ∃ th', t.thread? u = some th' ∧ { th' with pend := th.pend } = th) ∧
  (∀ (s : State), s.pause = true → s.boot ≠ .stopped → (∀ m ∈ s.batches, s.entryInTransit m = false) → s.inTransit = [] →
    exec .rafterRecompile s = .next s.compileRafter ∧ s.compileRafter.pause = false ∧ s.compileRafter.dying = 0 ∧
      s.compileRafter.cfgAt 0xFC000 = s.cfgAt 0xFC000 ||| s.dying) ∧
  (∀ (s : State) (flash : List Image) (ok : Bool), s.boot = .off →
    let s0 : State :=
      { s with time := 0, timeFrac := 0, edge := 0, beats := [], asked := [], gpio := false, silt := [], siltCount := 0, siltRead := 0 }
    (s0.image flash 3 = none → exec (.powerGoodBoot flash ok) s = .next s0.bootFail) ∧
    (∀ inv a b i, s0.image flash 3 = some inv →
      let s1 : State := { s0 with inv := s0.inv.load (imageWords inv) }
      s1.image flash 1 = some a → s1.image flash 2 = some b → s1.image flash 4 = some i →
      (ok = false → exec (.powerGoodBoot flash ok) s = .next s1.bootFail) ∧
      (ok = true → exec (.powerGoodBoot flash ok) s = .next
        ({ (s1.setCfg 0xFC000 (~~~((imageWords inv).getD 39 (BitVec.allOnes 64)))).compileRafter with boot := .up }.startImage i)))) ∧
  (∀ (s : State) (img : Image), s.boot = .failed →
    exec (.recoveryImage img) s = .next (if s.accepts img then { s with boot := .off } else s))

/-- Together: the steps of memory, of the gutter and of boot. -/
def Obligations.MachineSteps : Prop := Claim.MemorySteps ∧ Claim.GutterAndBootSteps

/-! ## Decoding, stepping and the whole machine -/

/-- R7, R29, R456, R457, R508, R517: what reset leaves. The part is off, its clock reads zero, no thread, block, job or launch exists,
every register of the configuration space is stored as zero, every semaphore has value 0 and ceiling 255, no barrier has an arrival, and
the log is empty. That storage, accumulators and harts begin as zero is the model's choice (log entries 4, 5 and 8). -/
def Obligations.ResetState : Prop :=
  State.reset.boot = .off ∧ State.reset.time = 0 ∧ State.reset.edge = 0 ∧ State.reset.threads = [] ∧ State.reset.blocks = [] ∧
  State.reset.jobs = [] ∧ State.reset.streams = [] ∧ State.reset.silt = [] ∧ State.reset.siltCount = 0 ∧ State.reset.tlb = [] ∧
  State.reset.dq = [] ∧ State.reset.retired = [] ∧ State.reset.coreBars = [] ∧ State.reset.jobBars = [] ∧ State.reset.ticket = 0 ∧
  (∀ off, State.reset.cfgAt off = 0) ∧
  (∀ k, State.reset.sem k = { value := 0, ceil := 255, takes := [] }) ∧
  (∀ q, State.reset.homeByte q = 0) ∧
  (∀ h, State.reset.hart h = freshHart)

/-- The byte tables of the reset state are in canonical form (that nothing is listed is the model's choice: log entry 5). -/
def Obligations.ResetBytesWf : Prop := State.reset.bytesWf = true

/-- A header of a scope without guard, WAIT or SIG. -/
def bareHdr (c : Scope) : Hdr := { scp := c, pr := { neg := false, idx := 0 }, wait := 0, sig := none }

/-- R65-R87, R343, R503: words written out from the encodings, among them words of the example programs, decode to the instructions that
they stand for. -/
def Obligations.DecodeWords : Prop :=
  decode64 0x0000000200000000 = .ok (.nop (bareHdr .lane) 2) ∧
  decode64 0x00003C1508800103 =
    .ok (.imul (bareHdr .warp) .w32 (.scl 8) (.scl 5) (.lit 3)) ∧
  decode64 0x00000010000005A0 = .ok (.bra { bareHdr .warp with pr := { neg := false, idx := 1 } } 0 0x10) ∧
  decode64 0x1348100308206C80 =
    .ok (.ld { scp := .lane, pr := { neg := true, idx := 3 }, wait := 1, sig := some 1 } false (.vec 8)
      { sz := .b32, ms := .device, sem := .acqrel, oc := 2, hd := 3, off := .vec 4 }) ∧
  decode64 0x1300030107000193 =
    .ok (.red (bareHdr .warp) .fadd { scl := false, n := 1 } { sz := .b32, ms := .device, sem := .plain, oc := 0, hd := 1, off := .lit 0 }) ∧
  decode64 0x0100D41C04010143 = .ok (.ffma { bareHdr .warp with wait := 4 } .rne (.vec 4) (.vec 7) (.scl 13) (.vec 4)) ∧
  decode64 0x01004000000001B1 = .ok (.sempInit (bareHdr .warp) 0 0 1) ∧
  decode64 0x00000000000000D4 = .ok (.lease (bareHdr .lane) 0) ∧
  decode64 0x00009421001000E4 = .ok (.tlbinvVa { bareHdr .lane with sig := some 0 } false (.scl 8) (.scl 9)) ∧
  decode16 0xC300 = .mma false false false ∧ decode16 0xC220 = .semwait false 0 ∧ decode16 0xC202 = .sempost false 2 ∧
  decode16 0xFFFF = .engineNop ∧ decode16 0x0008 = .lit 8 ∧
  decode32 0x0000168B = some (.lzPop .q0 13)

/-- R65-R84: decoding the word of a well-formed Lerzil instruction gives the instruction back, with every operand at every value that its
encoding admits. -/
def Obligations.RoundTrip64 : Prop := ∀ (i : Instr) (w : W64), i.wf = true → encode64 i = some w → decode64 w = .ok i

/-- R86, R87, R307, R343, R503: the same of the engine words and of the hart instructions; and no instruction has words of two kinds. -/
def Obligations.RoundTripShort : Prop :=
  (∀ (i : Instr) (w : W16), i.wf = true → encode16 i = some w → decode16 w = i) ∧
  (∀ (i : Instr) (w : W32), i.wf = true → encode32 i = some w → decode32 w = some i) ∧
  (∀ i : Instr, ((encode64 i).isSome → encode16 i = none ∧ encode32 i = none) ∧ ((encode16 i).isSome → encode32 i = none))

/-- The state in which the entry at the head of the agenda acts (log entry 2). -/
def begun (s : State) (rest : List Activity) : State :=
  { s with clock := s.clock + 1, cur := .idle, held := false, agenda := rest }

/-- R38, R46, R53, R81, R128, R209, R306, R399, R503: a step runs the decoded instruction. A path that may issue, that is due no rotation and
stands first for its scheduler, or whose scope has arrived, fetches the word at its PC; what the word decodes to executes, the warp's turn
standing behind the path's stream; a word that is held leaves the turn where it was. A scheduler issues its first candidate, and the next
where that one is held. A front end runs the oldest word of the stream whose turn it is, a hart the word at its PC, a step of the hardware
runs as it is named and is passed over where it cannot happen. With an empty agenda the step is that of the entry that the schedule, or the
fixed round, names (log entry 2). -/
def Obligations.StepRuns : Prop :=
  (∀ (s s1 : State) (t : Nat) (g : BitVec 8) (rest : List Activity) (th : Thread) (w : W64) (i : Instr) (l : List (Nat × BitVec 8)),
    s.agenda = .issueAt t g :: rest →
    let b0 := begun s rest
    let b := b0.dueFirst (b0.schedOf t).1 (b0.schedOf t).2
    (b.scopeReady t = true ∨ b.candidates (b.schedOf t).1 (b.schedOf t).2 = (t, g) :: l) →
    b.thread? t = some th → th.mayIssue g = true → b.blocked t th = false → th.migHeld g = false →
    b.coreClosed (coreOf t) = false →
    (th.ccopy = false ∨ th.inTrap.isSome = true) → th.wildAt g = none →
    ({ b with cur := .thread t g } : State).fetchWord t th (th.fetchCtx t g).pc = (s1, .ok w) → decode64 w = .ok i →
    let s2 := s1.mapThread t fun th => { th with turn := (th.streams.findIdx? fun x => x.gang == g).elim th.turn (· + 1) }
    (∀ u : State, exec i s2 = .next u → u.held = false → step s = .next u) ∧
    (∀ u : State, exec i s2 = .next u → u.held = true → step s = .next (u.mapThread t fun x => { x with turn := th.turn })) ∧
    (∀ f, exec i s2 = .fault f → step s = .fault f) ∧ (∀ r, exec i s2 = .refused r → step s = .refused r)) ∧
  (∀ (s : State) (t : Nat) (g : BitVec 8) (rest : List Activity) (v : State),
    s.agenda = .issueAt t g :: rest →
    let b0 := begun s rest
    let b := b0.dueFirst (b0.schedOf t).1 (b0.schedOf t).2
    b.scopeReady t = false → b.offer exec t g (b.candidates (b.schedOf t).1 (b.schedOf t).2) = some v →
    step s = v.issueGang exec t g) ∧
  (∀ (s u : State) (core sched t : Nat) (g : BitVec 8) (rest : List Activity) (l : List (Nat × BitVec 8)),
    s.agenda = .issue core sched :: rest →
    let b := (begun s rest).dueFirst core sched
    b.candidates core sched = (t, g) :: l → b.issueGang exec t g = .next u →
    (u.held = false → step s = .next u) ∧
    (u.held = true → step s = (({ u with held := false } : State).notReady t).issueFirst exec l)) ∧
  (∀ (s u : State) (k j : Nat) (rest : List Activity) (w : W16 × Option (Fin 6) × List Nat) (ws : List (W16 × Option (Fin 6) × List Nat))
      (l : List Nat), (s.agenda = .front j :: rest ∨ s.agenda = .serve k :: rest) →
    let b := begun s rest
    b.boot = .up → b.turns k = j :: l → b.turns j = j :: l → (b.stream j).buf = w :: ws → exec (decode16 w.1) { b with cur := .stream j } = .next u →
    (u.held = false → step s = .next { u with served := u.served.set 0 (b.frontKey j) (j + 1) })) ∧
  (∀ (s s0 s1 : State) (h pa : Nat) (rest : List Activity) (w : W64) (i : Instr), s.agenda = .hart h :: rest →
    let b := begun s rest
    b.hartOn h = true → (b.hart h).wait ≠ .wfi → b.hartXl h .x (b.hart h).pc = (s0, .ok pa) → nowhere pa = false →
    s0.hartRead h pa 4 = (s1, some w) → decode32 (w.setWidth 32) = some i →
    step s = exec i { s1 with cur := .hart h }) ∧
  (∀ (s : State) (i : Instr) (rest : List Activity), s.agenda = .event i :: rest →
    ((exec i (begun s rest) = .refused .notEnabled ∨ exec i (begun s rest) = .refused .notActing) → step s = .next (begun s rest)) ∧
    (exec i (begun s rest) ≠ .refused .notEnabled → exec i (begun s rest) ≠ .refused .notActing → step s = exec i (begun s rest))) ∧
  (∀ s : State, s.agenda = [] →
    (s.spare ≠ 0 → step s = step { s with agenda := [Config.schedule s.clock], spare := s.spare - 1 }) ∧
    (s.spare = 0 → step s = step { s with agenda := [roundEntry s.round], spare := Config.gap s.round, round := s.round + 1 }))

/-- The instructions whose own execution stores no byte anywhere: the accesses among them perform later, at their landing. -/
def storesNothing (i : Instr) : Bool :=
  match i with
  | .nop .. | .icmp .. | .plop .. | .fcmp .. | .rseed .. | .vote .. | .xadd .. | .ld .. | .st .. | .ldpoll .. | .pref .. | .cctl .. | .commit ..
  | .ldsp .. | .stsp .. | .atom .. | .ldres .. | .stcond .. | .redflush .. | .cfence .. | .bra .. | .brx .. | .call .. | .ret ..
  | .loop .. | .regang .. | .elect .. | .yield .. | .yieldC .. | .spawn .. | .spawnW .. | .exit .. | .setpl .. | .setsh ..
  | .trap .. | .brq .. | .semwWait .. | .semwTry .. | .rsectEnter .. | .rsectExit .. | .gpwait .. | .gptest .. | .subPub .. | .subSub ..
  | .unsub .. | .subflush .. | .tld .. | .tst .. | .tzero .. | .tshapeImm .. | .tshapeReg .. | .tadd .. | .tsub .. | .tmul .. | .tfma ..
  | .tmin .. | .tmax .. | .tun .. | .tcmp .. | .tsel .. | .tbc .. | .ttr .. | .tcvt .. | .accrd .. | .accwr .. | .accwin .. | .lease ..
  | .unlease .. | .xret .. | .killBlk .. | .killCtx .. | .swr .. | .tlbinvVa .. | .tlbinvCtx .. | .tlbinvVi .. | .hinv ..
  | .illegalOpcode .. | .lzPop .. | .lzFence .. | .lzTime .. | .lzWaitq .. | .lzIllegalInstruction ..
  | .scopedRendezvous .. | .asyncTrapEntry .. | .streamRotation .. | .spawnQueuePlace .. | .leaseGrant ..
  | .graceSlotComplete .. | .periodicRelease .. | .jobCompletion .. | .deadlineMiss ..
  | .budgetTime .. | .checkpointOverdue .. | .railSwitch .. | .droopReplay .. | .droopHoldEnd .. | .brownout .. | .thermalRead ..
  | .watchdog .. | .gatingDone .. | .merePatrolScrub .. | .dramPatrolScrub .. | .lpddr6Refresh .. | .walkReread .. | .migrationStall ..
  | .xltInvDone .. | .gutterFlitArrival .. | .deadLane .. | .batchIdleFlush .. | .subAckTimeout .. | .viUnitHandover ..
  | .recoveryImage .. | .lzWaitqTimeLimit .. | .hartInterrupt .. | .qpaceGapElapsed .. | .weirWindowEdge | .ctxKill | .pageRetire
  | .wayQuar | .mereInjection | .rafterRecompile | .siltPersist => true
  | _ => false

/-- The engine words that store nothing as they are taken, and what ends a take or a storage launch: of a thread that is saved they count
down in its image (R80, R304). -/
def countsOnly (i : Instr) : Bool :=
  match i with
  | .lit .. | .litx .. | .dup | .drop | .swap | .stackOver | .add | .mul | .clr | .engineNop | .engineWord .. | .sempost .. | .semwait ..
  | .note | .mma .. | .mmas .. | .mmax .. | .accz .. | .accdrain .. | .accload .. | .bvhset .. | .stwr .. | .strd .. | .sflush ..
  | .semTakeServed .. | .storageTimeout .. => true
  | _ => false

/-- R244, R256, R265: an instruction of these stores nothing as it executes: every byte of memory, of the scratchpads, of carved Mere and
of the peer window is unchanged. A load, a store or an atomic touches storage when it performs (StoredBytes, LandingSteps). An engine word
stores nothing while no thread is saved, a CKPT while no block is being saved; LZ.PUSH and LZ.SUBMIT store nothing but the dirty lines of
the hart's L2. -/
def Obligations.NoStoreFrame : Prop :=
  (∀ (i : Instr) (s t : State), storesNothing i = true → exec i s = .next t → ∀ q, t.homeByte q = s.homeByte q) ∧
  (∀ (i : Instr) (s t : State), countsOnly i = true → (∀ m th, s.thread? m = some th → th.saved = false) → exec i s = .next t →
    ∀ q, t.homeByte q = s.homeByte q) ∧
  (∀ (h : Hdr) (id : BitVec 8) (rows : BitVec 9) (a : Src) (s t : State), (∀ b x, s.block? b = some x → x.phase ≠ .saving) →
    exec (.ckpt h id rows a) s = .next t → ∀ q, t.homeByte q = s.homeByte q) ∧
  (∀ (s t : State) (w : PushW) (p : HPort) (arm : Bool) (rs1 rd : BitVec 5), (∀ h, s.l2 h = []) →
    (exec (.lzPush w p rs1) s = .next t ∨ exec (.lzSubmit arm rs1 rd) s = .next t) → ∀ q, t.homeByte q = s.homeByte q)

/-- The byte that a run of writes leaves at a place: the last one written there. -/
def lastAt (ws : List (Place × Byte)) (q : Place) : Option Byte := (ws.reverse.find? fun e => e.1 == q).map (·.2)

/-- A place that storage holds: not a device register, and inside its scratchpad. -/
def Place.held (p : Place) : Bool :=
  match p with
  | .core _ o => o < 262144
  | .group _ o => o < 8388608
  | .dev _ => false
  | _ => true

/-- R237, R246, R249, R256, R289: bytes written at their home replace those bytes and no others, and one written to a way that is carved no
longer is discarded. A store that orders nothing before it and that performs at the home, in LPDDR6 or in a scratchpad, writes the bytes of
its active lanes at the places that its addresses name, in increasing lane order so that the highest lane's stay, and every other byte of
storage is as it was when its lines were ready. -/
def Obligations.StoredBytes : Prop :=
  (∀ (s : State) (ws : List (Place × Byte)) (id : W16) (alloc : Bool) (q : Place),
    s.bytesWf = true → (∀ e ∈ ws, Place.held e.1 = true ∧ ∀ o, e.1 = .carved o → s.stillCarved o = true) → Place.held q = true →
    (s.writeHome ws id alloc).homeByte q = (lastAt ws q).getD (s.homeByte q)) ∧
  (∀ (s : State) (o : Nat) (b : Byte) (ws : List (Place × Byte)) (id : W16) (alloc : Bool), s.stillCarved o = false →
    s.writeHome ((.carved o, b) :: ws) id alloc = s) ∧
  (∀ (s s1 : State) (t id : Nat) (th : Thread) (p : Pend), s1.bytesWf = true → s.pend? t id = some (th, p) → p.op = .store →
    p.weir = false → p.remote = false → p.done = false → p.releases = false → p.wr = [] → s.mayPerform t p = true →
    s.prepLines t th p p.lines = .ready s1 → (∀ b, s1.block? th.block = some b → b.cont = false) →
    (∀ x ∈ p.ps, ∀ a ∈ x.at_, Place.held a = true ∧ (∀ o, a ≠ .peer o) ∧ ∀ o, a ≠ .carved o) →
    (∀ x ∈ p.ps, p.homeFor t x.pol = true ∨ 2 ≤ x.pol ∨ ∀ a ∈ x.at_, a.line = none) →
    ∃ u : State, exec (.storeAck t id) s = .next u ∧
      ∀ q, Place.held q = true → u.homeByte q = (lastAt (p.ps.flatMap fun x => x.at_.zip x.data) q).getD (s1.homeByte q))

/-- Equal storage stays equal data: from every state whose byte tables are in canonical form, a step that goes on leaves them so. -/
def Obligations.BytesInvariant : Prop :=
  ∀ s t : State, s.bytesWf = true → step s = .next t → t.bytesWf = true

/-! ## Rules stated word for word -/

/-- R146: LEA forms `(a + (SignExtend32(b<31:0>) << FN))<63:0>` in every active lane, the low half in a vector register and the high half in
the one after it; its words leave K3 and A3 zero, and FN is the scale. -/
def Obligations.LeaAddress : Prop :=
  (∀ (h : Hdr) (sc : BitVec 2) (d : Dst) (a b : Src) (s s2 : State) (p : Ready) (x y : Opd),
    ready (.lea h sc d a b) s = some p → fetchSrcs p.c p.s1 [(a, 64), (b, 32)] = .ok [x, y] s2 → p.c.idle = false →
    isRegDst p.kind d = true →
    let addr : Opd := fun m l => x m l + (((y m l).setWidth 32).signExtend 64 <<< sc.toNat)
    Finishes (.lea h sc d a b) s p (deliver s2 p.c h (latOf p.kind [(a, 64), (b, 32)] 4) (regWrites s2 p.c p.kind d 64 addr) [])) ∧
  (∀ (s : State) (c : Ctx0) (a : Nat) (f : Opd) (m l : Nat), m ∈ c.mem → (c.active m).getLsbD l = true → l < 32 →
    ∃ w1 ∈ vecWrites s c a 64 f, ∃ w2 ∈ vecWrites s c a 64 f,
      w1.loc = .v m (vindex s c m a) ∧ w2.loc = .v m (vindex s c m a + 1) ∧
      (l, (f m l).extractLsb' 0 32) ∈ w1.lanes ∧ (l, (f m l).extractLsb' 32 32) ∈ w2.lanes) ∧
  (∀ (w : W64) (i : Instr), w.extractLsb' 0 8 = 0x26 → decode64 w = .ok i →
    w.extractLsb' 52 2 = 0 ∧ w.extractLsb' 54 8 = 0 ∧ ∃ h d a b, i = .lea h (w.extractLsb' 62 2) d a b)

/-- R144: MOVL writes its 32-bit literal in every active lane of a vector register, or zero-extended to 64 bits in a scalar one; the literal
is bits [63:32] of its word. -/
def Obligations.MovlLiteral : Prop :=
  (∀ (h : Hdr) (d : Dst) (lit : W32) (s : State) (p : Ready), ready (.movl h d lit) s = some p → p.c.idle = false →
    isRegDst p.kind d = true →
    Finishes (.movl h d lit) s p (deliver p.s1 p.c h 4 (regWrites p.s1 p.c p.kind d 32 fun _ _ => lit.setWidth 64) [])) ∧
  (∀ (w : W64) (i : Instr), w.extractLsb' 0 8 = 0x24 → decode64 w = .ok i → ∃ h d, i = .movl h d (w.extractLsb' 32 32))

/-- R457: the state word of a semaphore: VALUE in bits [7:0], CEIL in [15:8], WAITERS in [16], zero above; at reset the value is 0, the
ceiling 255, and no take waits. -/
def Obligations.SemaphoreState : Prop :=
  (∀ (h : Hdr) (d : BitVec 8) (n : BitVec 4) (s : State) (p : Ready), ready (.semwRd h d n) s = some p → p.c.idle = false →
    d.toNat < 64 → (p.s1.thread? p.c.t).isSome = true →
    let x := p.s1.sem (semKey (coreOf p.c.t) n.toNat)
    x.value < 256 → x.ceil < 256 →
    ∃ word : W64, Finishes (.semwRd h d n) s p (deliver p.s1 p.c h 0 (sclWrites p.s1 p.c d.toNat word) []) ∧
      word.extractLsb' 17 47 = 0 ∧ (word.getLsbD 16 = true ↔ x.takes ≠ []) ∧ (word.extractLsb' 8 8).toNat = x.ceil ∧
      (word.extractLsb' 0 8).toNat = x.value) ∧
  (∀ k, (State.reset.sem k).takes = [] ∧ (State.reset.sem k).ceil = 255 ∧ (State.reset.sem k).value = 0)

/-- R186: TZERO writes zero to all 4,096 bytes of its register, whatever SHAPE holds; its words leave K1, A1, K2, A2 and FN zero. -/
def Obligations.TzeroClears : Prop :=
  (∀ (h : Hdr) (t : BitVec 8) (s : State) (p : Ready), ready (.tzero h t) s = some p → p.s1.tileBusy p.c.mem = false → p.c.idle = false →
    Finishes (.tzero h t) s p (deliver p.s1 p.c h 0
      [{ loc := .t p.c.t t.toNat, mask := BitVec.allOnes 32, val := 0, lanes := [], bytes := (List.range 4096).map fun i => (i, 0) }] [])) ∧
  (∀ (w : W64) (i : Instr), w.extractLsb' 0 8 = 0xC2 → decode64 w = .ok i →
    w.extractLsb' 32 2 = 0 ∧ w.extractLsb' 34 8 = 0 ∧ w.extractLsb' 42 2 = 0 ∧ w.extractLsb' 44 8 = 0 ∧ w.extractLsb' 52 12 = 0 ∧
      ∃ h, i = .tzero h (w.extractLsb' 24 8))

/-- R500: LZ.WAITQ gives 1 with a record present and 0 once device time has come to its limit, at once where either holds already; else it
waits until one of them holds or an interrupt comes, and then gives 1 or 0 as a record is present. Nothing is popped. -/
def Obligations.WaitqCompletes : Prop :=
  (∀ (s : State) (h : Nat) (q : HPort) (rs1 rd : BitVec 5), hartFree s h →
    let x := s.hart h
    let rec_ := !(s.stream (hartStream h (portNum q))).fifo.isEmpty
    (rec_ = true ∨ (x.reg rs1.toNat).toNat ≤ s.time.toNat →
      exec (.lzWaitq q rs1 rd) s = .next (s.setHart h (hartDone x rd.toNat (if rec_ then 1 else 0)))) ∧
    (x.reg rs1.toNat = 0 → exec (.lzWaitq q rs1 rd) s = .next (s.setHart h (hartDone x rd.toNat (if rec_ then 1 else 0)))) ∧
    (rec_ = false → s.time.toNat < (x.reg rs1.toNat).toNat →
      exec (.lzWaitq q rs1 rd) s = .next { s.setHart h { x with wait := .waitq q rd.toNat (x.reg rs1.toNat) } with held := true })) ∧
  (∀ (s : State) (h : Nat) (q : HPort) (rd : Nat) (lim : W64), s.hartOn h = true → (s.hart h).wait = .waitq q rd lim →
    let rec_ := !(s.stream (hartStream h (portNum q))).fifo.isEmpty
    (rec_ = false → lim.toNat ≤ s.time.toNat → exec (.lzWaitqTimeLimit h) s = .next (s.setHart h (hartDone (s.hart h) rd 0))) ∧
    ∀ m ∈ s.intrs, m.1 = h → ((s.hart h).mode ≠ 3 ∨ (s.hart h).mie = true) →
    ∃ t : State, exec (.hartInterrupt h) s = .next t ∧ t.streams = s.streams ∧ (t.hart h).wait = .run ∧
      (0 < rd → (t.hart h).reg rd = if rec_ then 1 else 0))
end

