-- ==== Sys2Proof/Laws/Issue.lean ====
section
/-! SUPPORT. Laws of issue: every meaning of a Lerzil word runs the checks of its row, and what follows when they pass or stop it. -/

namespace Sys2Proof.Machine

/-- Every Lerzil word issues through the checks of its row. -/
theorem exec_issues (i : Instr) (s : State) (k : Checks) (hk : Instr.checks i s = some k) :
    ∃ body, exec i s = issueR k.op k.h k.reg k.us k.extra body s := by
  cases i
  case cvt8 h unpk _ _ _ _ _ _ _ => cases unpk <;> (cases hk; exact ⟨_, rfl⟩)
  case cvt4 h unpk _ _ _ _ _ => cases unpk <;> (cases hk; exact ⟨_, rfl⟩)
  case cvtw h unpk _ _ _ _ _ _ => cases unpk <;> (cases hk; exact ⟨_, rfl⟩)
  case tred h _ _ _ d _ => cases d <;> (cases hk; exact ⟨_, rfl⟩)
  all_goals first
    | (cases hk; exact ⟨_, rfl⟩)
    | (cases hk; done)

/-- A ready word has a row, and its plan is to run. -/
theorem ready_plan {i : Instr} {s : State} {p : Ready} (hp : ready i s = some p) :
    ∃ k, Instr.checks i s = some k ∧ plan k.op k.h k.reg k.us k.extra s = .run p.c p.fresh p.s0 p.s1 := by
  unfold ready at hp
  split at hp
  · cases hp
  · rename_i k hk
    refine ⟨k, hk, ?_⟩
    split at hp
    · cases hp; assumption
    · cases hp

/-- A ready word goes on with its own effect. -/
theorem issueR_ready {i : Instr} {s : State} {p : Ready} {k : Checks} (hk : Instr.checks i s = some k) (hp : ready i s = some p)
    (body : Ctx0 → State → Res) :
    issueR k.op k.h k.reg k.us k.extra body s = finish p.c p.fresh p.s0 (body p.c p.s1) := by
  obtain ⟨k', hk', hplan⟩ := ready_plan hp
  obtain rfl : k = k' := Option.some.inj (hk.symm.trans hk')
  unfold issueR
  rw [hplan]

/-- What holds a word back, or the trap of a check, is what the word comes to. -/
theorem issueR_out {k : Checks} {s : State} {o : Out} (h : plan k.op k.h k.reg k.us k.extra s = .out o) (body : Ctx0 → State → Res) :
    issueR k.op k.h k.reg k.us k.extra body s = o := by
  unfold issueR
  rw [h]

/-- An effect that settles completes. -/
theorem finish_adv {c : Ctx0} {fresh : Bool} {s0 t : State} (h : settles c t = true) :
    finish c fresh s0 (.adv t) = .next (completed c s0 t) := by
  unfold settles at h
  simp only [Bool.and_eq_true, Bool.not_eq_true', Bool.or_eq_true, Option.isNone_iff_eq_none] at h
  obtain ⟨h1, h2⟩ := h
  simp only [finish, h1, Bool.false_eq_true, if_false]
  rcases h2 with h2 | h2 <;> simp [h2]

/-- The same of an effect that has moved the slices. -/
theorem finish_moved {c : Ctx0} {fresh : Bool} {s0 t : State} (h : settlesMoved c t = true) :
    finish c fresh s0 (.moved t) = .next (completedMoved c s0 t) := by
  unfold settlesMoved at h
  simp only [Bool.not_eq_true'] at h
  simp [finish, h]

/-- A ready word whose effect leaves `t` finishes with it. -/
theorem finishes_of {i : Instr} {s t : State} {p : Ready} {k : Checks} {body : Ctx0 → State → Res}
    (hk : Instr.checks i s = some k) (hp : ready i s = some p) (he : exec i s = issueR k.op k.h k.reg k.us k.extra body s)
    (hb : body p.c p.s1 = .adv t) : Finishes i s p t := fun hs => by
  rw [he, issueR_ready hk hp, hb, finish_adv hs]

theorem finishesMoved_of {i : Instr} {s t : State} {p : Ready} {k : Checks} {body : Ctx0 → State → Res}
    (hk : Instr.checks i s = some k) (hp : ready i s = some p) (he : exec i s = issueR k.op k.h k.reg k.us k.extra body s)
    (hb : body p.c p.s1 = .moved t) : FinishesMoved i s p t := fun hs => by
  rw [he, issueR_ready hk hp, hb, finish_moved hs]

end Sys2Proof.Machine
end

