-- ==== Sys2Proof/Laws/Tables.lean ====
section
/-! SUPPORT. Laws of the finite tables: reading after writing, and the canonical form. -/

namespace Sys2Proof

variable {α : Type}

@[simp] theorem Tbl.get_insert_self (d : α) (m : Tbl α) (k : Nat) (v : α) : Tbl.get d (Tbl.insert m k v) k = v := by
  induction m with
  | nil => simp [Tbl.insert, Tbl.get]
  | cons e m ih =>
    unfold Tbl.insert
    split
    · simp [Tbl.get]
    · split
      · simp [Tbl.get]
      · simp_all [Tbl.get]

theorem Tbl.get_insert_ne (d : α) (m : Tbl α) {k k' : Nat} (v : α) (h : k' ≠ k) :
    Tbl.get d (Tbl.insert m k v) k' = Tbl.get d m k' := by
  induction m with
  | nil => simp [Tbl.insert, Tbl.get, Ne.symm h]
  | cons e m ih =>
    unfold Tbl.insert
    split
    · subst_vars; simp [Tbl.get, Ne.symm h]
    · split
      · simp [Tbl.get, Ne.symm h]
      · simp [Tbl.get, ih]

theorem Tbl.get_insert (d : α) (m : Tbl α) (k k' : Nat) (v : α) :
    Tbl.get d (Tbl.insert m k v) k' = if k' = k then v else Tbl.get d m k' := by
  by_cases h : k' = k
  · subst h; simp
  · simp [h, Tbl.get_insert_ne]

theorem Tbl.get_erase_ne (d : α) (m : Tbl α) {k k' : Nat} (h : k' ≠ k) : Tbl.get d (Tbl.erase m k) k' = Tbl.get d m k' := by
  induction m with
  | nil => rfl
  | cons e m ih =>
    unfold Tbl.erase
    split
    · subst_vars; simp [Tbl.get, Ne.symm h]
    · simp [Tbl.get, ih]

theorem Tbl.get_set_ne [DecidableEq α] (d : α) (m : Tbl α) {k k' : Nat} (v : α) (h : k' ≠ k) :
    Tbl.get d (Tbl.set d m k v) k' = Tbl.get d m k' := by
  unfold Tbl.set
  split
  · exact Tbl.get_erase_ne d m h
  · exact Tbl.get_insert_ne d m v h

/-- Every key of the table is larger. -/
def Tbl.above (k : Nat) (m : Tbl α) : Prop := ∀ e ∈ m, k < e.1

theorem Tbl.wf_cons [DecidableEq α] {d : α} {e : Nat × α} {m : Tbl α} :
    Tbl.wf d (e :: m) = true ↔ e.2 ≠ d ∧ Tbl.above e.1 m ∧ Tbl.wf d m = true := by
  induction m generalizing e with
  | nil => simp [Tbl.wf, Tbl.above]
  | cons f m ih =>
    constructor
    · intro h
      simp only [Tbl.wf, Bool.and_eq_true, decide_eq_true_eq] at h
      obtain ⟨⟨h1, h2⟩, h3⟩ := h
      refine ⟨h1, ?_, h3⟩
      intro x hx
      rcases List.mem_cons.1 hx with rfl | hx
      · exact h2
      · exact Nat.lt_trans h2 ((ih.1 h3).2.1 x hx)
    · rintro ⟨h1, h2, h3⟩
      simp [Tbl.wf, h1, h2 f (List.mem_cons_self ..), h3]

theorem Tbl.get_above {d : α} {m : Tbl α} {k : Nat} (h : Tbl.above k m) : Tbl.get d m k = d := by
  induction m with
  | nil => rfl
  | cons e m ih =>
    have h1 := h e (List.mem_cons_self ..)
    have h2 : e.1 ≠ k := by omega
    simp only [Tbl.get, h2, if_false]
    exact ih fun x hx => h x (List.mem_cons_of_mem _ hx)

theorem Tbl.get_erase_self [DecidableEq α] {d : α} {m : Tbl α} (k : Nat) (h : Tbl.wf d m = true) :
    Tbl.get d (Tbl.erase m k) k = d := by
  induction m with
  | nil => rfl
  | cons e m ih =>
    rw [Tbl.wf_cons] at h
    unfold Tbl.erase
    split
    · subst_vars; exact Tbl.get_above h.2.1
    · rename_i hk
      simp only [Tbl.get, hk, if_false]
      exact ih h.2.2

theorem Tbl.get_set_self [DecidableEq α] {d : α} {m : Tbl α} (k : Nat) (v : α) (h : Tbl.wf d m = true) :
    Tbl.get d (Tbl.set d m k v) k = v := by
  unfold Tbl.set
  split
  · subst_vars; exact Tbl.get_erase_self k h
  · simp

theorem Tbl.above_erase {k n : Nat} {m : Tbl α} (h : Tbl.above k m) : Tbl.above k (Tbl.erase m n) := by
  induction m with
  | nil => exact h
  | cons e m ih =>
    unfold Tbl.erase
    split
    · exact fun x hx => h x (List.mem_cons_of_mem _ hx)
    · intro x hx
      rcases List.mem_cons.1 hx with rfl | hx
      · exact h _ (List.mem_cons_self ..)
      · exact ih (fun y hy => h y (List.mem_cons_of_mem _ hy)) x hx

theorem Tbl.above_insert {k n : Nat} {m : Tbl α} {v : α} (h : Tbl.above k m) (hn : k < n) : Tbl.above k (Tbl.insert m n v) := by
  induction m with
  | nil => intro x hx; simp [Tbl.insert] at hx; subst hx; exact hn
  | cons e m ih =>
    have he := h e (List.mem_cons_self ..)
    have hm : Tbl.above k m := fun y hy => h y (List.mem_cons_of_mem _ hy)
    unfold Tbl.insert
    intro x hx
    split at hx
    · rcases List.mem_cons.1 hx with rfl | hx
      · exact hn
      · exact hm x hx
    · split at hx
      · rcases List.mem_cons.1 hx with rfl | hx
        · exact hn
        · exact h x hx
      · rcases List.mem_cons.1 hx with rfl | hx
        · exact he
        · exact ih hm x hx

/-- Taking an entry out keeps the canonical form. -/
theorem Tbl.wf_erase [DecidableEq α] {d : α} {m : Tbl α} (k : Nat) (h : Tbl.wf d m = true) : Tbl.wf d (Tbl.erase m k) = true := by
  induction m with
  | nil => rfl
  | cons e m ih =>
    rw [Tbl.wf_cons] at h
    unfold Tbl.erase
    split
    · exact h.2.2
    · rw [Tbl.wf_cons]; exact ⟨h.1, Tbl.above_erase h.2.1, ih h.2.2⟩

/-- Putting an entry that is not the default keeps the canonical form. -/
theorem Tbl.wf_insert [DecidableEq α] {d : α} {m : Tbl α} (k : Nat) {v : α} (hv : v ≠ d) (h : Tbl.wf d m = true) :
    Tbl.wf d (Tbl.insert m k v) = true := by
  induction m with
  | nil => simp [Tbl.insert, Tbl.wf, hv]
  | cons e m ih =>
    have h' := Tbl.wf_cons.1 h
    unfold Tbl.insert
    split
    · rename_i hk
      rw [Tbl.wf_cons]
      exact ⟨hv, by subst hk; exact h'.2.1, h'.2.2⟩
    · split
      · rename_i hlt
        rw [Tbl.wf_cons]
        refine ⟨hv, ?_, h⟩
        intro x hx
        rcases List.mem_cons.1 hx with rfl | hx
        · exact hlt
        · exact Nat.lt_trans hlt (h'.2.1 x hx)
      · rw [Tbl.wf_cons]
        exact ⟨h'.1, Tbl.above_insert h'.2.1 (by omega), ih h'.2.2⟩

/-- Writing keeps the canonical form: a default value takes its entry out. -/
theorem Tbl.wf_set [DecidableEq α] {d : α} {m : Tbl α} (k : Nat) (v : α) (h : Tbl.wf d m = true) : Tbl.wf d (Tbl.set d m k v) = true := by
  unfold Tbl.set
  split
  · exact Tbl.wf_erase k h
  · exact Tbl.wf_insert k ‹_› h

/-- In canonical form, tables that read alike are equal data. -/
theorem Tbl.ext_wf [DecidableEq α] {d : α} {m n : Tbl α} (hm : Tbl.wf d m = true) (hn : Tbl.wf d n = true)
    (h : ∀ k, Tbl.get d m k = Tbl.get d n k) : m = n := by
  induction m generalizing n with
  | nil =>
    cases n with
    | nil => rfl
    | cons f n =>
      have hf := (Tbl.wf_cons.1 hn).1
      have := h f.1
      simp [Tbl.get] at this
      exact absurd this.symm hf
  | cons e m ih =>
    cases n with
    | nil =>
      have he := (Tbl.wf_cons.1 hm).1
      have := h e.1
      simp [Tbl.get] at this
      exact absurd this he
    | cons f n =>
      have hm' := Tbl.wf_cons.1 hm
      have hn' := Tbl.wf_cons.1 hn
      rcases Nat.lt_trichotomy e.1 f.1 with hlt | heq | hgt
      · have h1 := h e.1
        rw [Tbl.get_above (m := f :: n)] at h1
        · simp [Tbl.get] at h1; exact absurd h1 hm'.1
        · intro x hx
          rcases List.mem_cons.1 hx with rfl | hx
          · exact hlt
          · exact Nat.lt_trans hlt (hn'.2.1 x hx)
      · have hv : e.2 = f.2 := by have h1 := h e.1; simpa [Tbl.get, heq] using h1
        have he : e = f := Prod.ext heq hv
        subst he
        congr 1
        apply ih hm'.2.2 hn'.2.2
        intro k
        by_cases hk : e.1 = k
        · subst hk; rw [Tbl.get_above hm'.2.1, Tbl.get_above hn'.2.1]
        · simpa [Tbl.get, hk] using h k
      · have h1 := h f.1
        rw [Tbl.get_above (m := e :: m)] at h1
        · simp [Tbl.get] at h1; exact absurd h1.symm hn'.1
        · intro x hx
          rcases List.mem_cons.1 hx with rfl | hx
          · exact hgt
          · exact Nat.lt_trans hgt (hm'.2.1 x hx)

end Sys2Proof
end

