-- ==== Sys2Proof/Laws/Memory.lean ====
section
/-! SUPPORT. Laws of storage: writing bytes at their home keeps every table of bytes in canonical form, reads back, and leaves every other
byte alone; so does taking whole entries out of a table, as a restart and an end of carving do. -/

namespace Sys2Proof

variable {α : Type}

/-- Taking entries out keeps the bound on the keys. -/
theorem Tbl.above_filter {k : Nat} {m : Tbl α} (f : Nat × α → Bool) (h : Tbl.above k m) : Tbl.above k (m.filter f) :=
  fun e he => h e (List.mem_filter.1 he).1

/-- Taking entries out keeps the canonical form. -/
theorem Tbl.wf_filter [DecidableEq α] {d : α} {m : Tbl α} (f : Nat × α → Bool) (h : Tbl.wf d m = true) :
    Tbl.wf d (m.filter f) = true := by
  induction m with
  | nil => rfl
  | cons e m ih =>
    have h' := Tbl.wf_cons.1 h
    rw [List.filter_cons]
    split
    · exact Tbl.wf_cons.2 ⟨h'.1, Tbl.above_filter f h'.2.1, ih h'.2.2⟩
    · exact ih h'.2.2

/-- Writing a run of entries keeps the canonical form. -/
theorem Tbl.wf_foldl_set [DecidableEq α] {β : Type} {d : α} (l : List β) (key : β → Nat) (val : β → α) {m : Tbl α} (h : Tbl.wf d m = true) :
    Tbl.wf d (l.foldl (fun m e => Tbl.set d m (key e) (val e)) m) = true := by
  induction l generalizing m with
  | nil => exact h
  | cons e l ih => exact ih (Tbl.wf_set _ _ h)

namespace Machine

/-- The canonical form of all storage, table by table. -/
theorem State.bytesWf_iff {s : State} : s.bytesWf = true ↔
    Memory.wf s.mem = true ∧ Memory.wf s.peer = true ∧ Memory.wf s.carved = true ∧ Memory.wf s.scratch = true ∧
      Memory.wf s.gscratch = true ∧ Memory.wf s.nvme = true := by
  simp [State.bytesWf, and_assoc]

/-- A state with the same tables is as canonical. -/
theorem State.bytesWf_congr {s t : State} (hm : t.mem = s.mem) (hp : t.peer = s.peer) (hc : t.carved = s.carved) (hs : t.scratch = s.scratch)
    (hg : t.gscratch = s.gscratch) (hn : t.nvme = s.nvme) : t.bytesWf = s.bytesWf := by
  simp [State.bytesWf, hm, hp, hc, hs, hg, hn]

/-- A byte written at its home. -/
theorem State.bytesWf_setHome {s : State} (p : Place) (b : Byte) (h : s.bytesWf = true) : (s.setHome p b).bytesWf = true := by
  obtain ⟨hm, hp, hc, hs, hg, hn⟩ := State.bytesWf_iff.1 h
  cases p <;> exact State.bytesWf_iff.2 (by simp only [State.setHome]; refine ⟨?_, ?_, ?_, ?_, ?_, ?_⟩ <;> first | assumption | exact Tbl.wf_set _ _ ‹_›)

/-- A run of bytes written at their homes. -/
theorem State.bytesWf_setHomes {s : State} (ws : List (Place × Byte)) (h : s.bytesWf = true) : (s.setHomes ws).bytesWf = true := by
  induction ws generalizing s with
  | nil => exact h
  | cons e ws ih => exact ih (State.bytesWf_setHome e.1 e.2 h)

/-- Carving that ends takes the bytes of its way. -/
theorem State.bytesWf_clearCarved {s : State} (w : Nat) (h : s.bytesWf = true) : (s.clearCarved w).bytesWf = true := by
  obtain ⟨hm, hp, hc, hs, hg, hn⟩ := State.bytesWf_iff.1 h
  exact State.bytesWf_iff.2 ⟨hm, hp, Tbl.wf_filter _ hc, hs, hg, hn⟩

/-- The state after reset lists no byte. -/
theorem State.bytesWf_reset : State.reset.bytesWf = true := rfl

/-- A byte written reads back, where storage has such a place. -/
theorem State.homeByte_setHome_self {s : State} {p : Place} (b : Byte) (h : s.bytesWf = true) (hp : ∀ o, p ≠ .dev o) :
    (s.setHome p b).homeByte p = b := by
  obtain ⟨hm, hpe, hc, hs, hg, _⟩ := State.bytesWf_iff.1 h
  cases p with
  | dev o => exact absurd rfl (hp o)
  | mem a => exact Tbl.get_set_self a b hm
  | core u o => exact Tbl.get_set_self _ b hs
  | group g o => exact Tbl.get_set_self _ b hg
  | carved o => exact Tbl.get_set_self o b hc
  | peer o => exact Tbl.get_set_self o b hpe

/-- A byte of memory written leaves every other address alone. -/
theorem State.homeByte_setHome_mem {s : State} {a a' : Nat} (b : Byte) (h : a' ≠ a) :
    (s.setHome (.mem a) b).homeByte (.mem a') = s.homeByte (.mem a') := Tbl.get_set_ne 0 s.mem b h

/-- A byte of a core's scratchpad written leaves every other byte of the scratchpads alone. -/
theorem State.homeByte_setHome_core {s : State} {u o u' o' : Nat} (b : Byte) (ho : o < 262144) (ho' : o' < 262144)
    (h : Place.core u' o' ≠ .core u o) : (s.setHome (.core u o) b).homeByte (.core u' o') = s.homeByte (.core u' o') := by
  refine Tbl.get_set_ne 0 s.scratch b fun hk => h ?_
  have hu : u' = u := by omega
  have : o' = o := by omega
  rw [hu, this]

end Machine

end Sys2Proof
end

