-- ==== Sys2Proof/Laws/State.lean ====
section
/-! SUPPORT. One lemma per field per update of the state: an update changes its own field and no other. -/

namespace Sys2Proof.Machine

variable (s : State)

/-! ## setThread -/

@[simp] theorem State.setThread_boot (t : Nat) (x : Thread) : (s.setThread t x).boot = s.boot := rfl
@[simp] theorem State.setThread_time (t : Nat) (x : Thread) : (s.setThread t x).time = s.time := rfl
@[simp] theorem State.setThread_timeFrac (t : Nat) (x : Thread) : (s.setThread t x).timeFrac = s.timeFrac := rfl
@[simp] theorem State.setThread_clock (t : Nat) (x : Thread) : (s.setThread t x).clock = s.clock := rfl
@[simp] theorem State.setThread_agenda (t : Nat) (x : Thread) : (s.setThread t x).agenda = s.agenda := rfl
@[simp] theorem State.setThread_spare (t : Nat) (x : Thread) : (s.setThread t x).spare = s.spare := rfl
@[simp] theorem State.setThread_round (t : Nat) (x : Thread) : (s.setThread t x).round = s.round := rfl
@[simp] theorem State.setThread_served (t : Nat) (x : Thread) : (s.setThread t x).served = s.served := rfl
@[simp] theorem State.setThread_cur (t : Nat) (x : Thread) : (s.setThread t x).cur = s.cur := rfl
@[simp] theorem State.setThread_held (t : Nat) (x : Thread) : (s.setThread t x).held = s.held := rfl
@[simp] theorem State.setThread_cfg (t : Nat) (x : Thread) : (s.setThread t x).cfg = s.cfg := rfl
@[simp] theorem State.setThread_inv (t : Nat) (x : Thread) : (s.setThread t x).inv = s.inv := rfl
@[simp] theorem State.setThread_mem (t : Nat) (x : Thread) : (s.setThread t x).mem = s.mem := rfl
@[simp] theorem State.setThread_peer (t : Nat) (x : Thread) : (s.setThread t x).peer = s.peer := rfl
@[simp] theorem State.setThread_carved (t : Nat) (x : Thread) : (s.setThread t x).carved = s.carved := rfl
@[simp] theorem State.setThread_carvedOwner (t : Nat) (x : Thread) : (s.setThread t x).carvedOwner = s.carvedOwner := rfl
@[simp] theorem State.setThread_scratch (t : Nat) (x : Thread) : (s.setThread t x).scratch = s.scratch := rfl
@[simp] theorem State.setThread_gscratch (t : Nat) (x : Thread) : (s.setThread t x).gscratch = s.gscratch := rfl
@[simp] theorem State.setThread_l1 (t : Nat) (x : Thread) : (s.setThread t x).l1 = s.l1 := rfl
@[simp] theorem State.setThread_hl2 (t : Nat) (x : Thread) : (s.setThread t x).hl2 = s.hl2 := rfl
@[simp] theorem State.setThread_mere (t : Nat) (x : Thread) : (s.setThread t x).mere = s.mere := rfl
@[simp] theorem State.setThread_tree (t : Nat) (x : Thread) : (s.setThread t x).tree = s.tree := rfl
@[simp] theorem State.setThread_poison (t : Nat) (x : Thread) : (s.setThread t x).poison = s.poison := rfl
@[simp] theorem State.setThread_latent (t : Nat) (x : Thread) : (s.setThread t x).latent = s.latent := rfl
@[simp] theorem State.setThread_regErr (t : Nat) (x : Thread) : (s.setThread t x).regErr = s.regErr := rfl
@[simp] theorem State.setThread_corrected (t : Nat) (x : Thread) : (s.setThread t x).corrected = s.corrected := rfl
@[simp] theorem State.setThread_gating (t : Nat) (x : Thread) : (s.setThread t x).gating = s.gating := rfl
@[simp] theorem State.setThread_retired (t : Nat) (x : Thread) : (s.setThread t x).retired = s.retired := rfl
@[simp] theorem State.setThread_ue (t : Nat) (x : Thread) : (s.setThread t x).ue = s.ue := rfl
@[simp] theorem State.setThread_silt (t : Nat) (x : Thread) : (s.setThread t x).silt = s.silt := rfl
@[simp] theorem State.setThread_siltCount (t : Nat) (x : Thread) : (s.setThread t x).siltCount = s.siltCount := rfl
@[simp] theorem State.setThread_siltRead (t : Nat) (x : Thread) : (s.setThread t x).siltRead = s.siltRead := rfl
@[simp] theorem State.setThread_siltFlash (t : Nat) (x : Thread) : (s.setThread t x).siltFlash = s.siltFlash := rfl
@[simp] theorem State.setThread_gpio (t : Nat) (x : Thread) : (s.setThread t x).gpio = s.gpio := rfl
@[simp] theorem State.setThread_kills (t : Nat) (x : Thread) : (s.setThread t x).kills = s.kills := rfl
@[simp] theorem State.setThread_blocks (t : Nat) (x : Thread) : (s.setThread t x).blocks = s.blocks := rfl
@[simp] theorem State.setThread_nextBlock (t : Nat) (x : Thread) : (s.setThread t x).nextBlock = s.nextBlock := rfl
@[simp] theorem State.setThread_jobs (t : Nat) (x : Thread) : (s.setThread t x).jobs = s.jobs := rfl
@[simp] theorem State.setThread_nextJobs (t : Nat) (x : Thread) : (s.setThread t x).nextJobs = s.nextJobs := rfl
@[simp] theorem State.setThread_arms (t : Nat) (x : Thread) : (s.setThread t x).arms = s.arms := rfl
@[simp] theorem State.setThread_streams (t : Nat) (x : Thread) : (s.setThread t x).streams = s.streams := rfl
@[simp] theorem State.setThread_lastData (t : Nat) (x : Thread) : (s.setThread t x).lastData = s.lastData := rfl
@[simp] theorem State.setThread_sems (t : Nat) (x : Thread) : (s.setThread t x).sems = s.sems := rfl
@[simp] theorem State.setThread_ticket (t : Nat) (x : Thread) : (s.setThread t x).ticket = s.ticket := rfl
@[simp] theorem State.setThread_coreBars (t : Nat) (x : Thread) : (s.setThread t x).coreBars = s.coreBars := rfl
@[simp] theorem State.setThread_jobBars (t : Nat) (x : Thread) : (s.setThread t x).jobBars = s.jobBars := rfl
@[simp] theorem State.setThread_ctxs (t : Nat) (x : Thread) : (s.setThread t x).ctxs = s.ctxs := rfl
@[simp] theorem State.setThread_groups (t : Nat) (x : Thread) : (s.setThread t x).groups = s.groups := rfl
@[simp] theorem State.setThread_ridgeWaits (t : Nat) (x : Thread) : (s.setThread t x).ridgeWaits = s.ridgeWaits := rfl
@[simp] theorem State.setThread_acc (t : Nat) (x : Thread) : (s.setThread t x).acc = s.acc := rfl
@[simp] theorem State.setThread_dq (t : Nat) (x : Thread) : (s.setThread t x).dq = s.dq := rfl
@[simp] theorem State.setThread_dqAcq (t : Nat) (x : Thread) : (s.setThread t x).dqAcq = s.dqAcq := rfl
@[simp] theorem State.setThread_spawnq (t : Nat) (x : Thread) : (s.setThread t x).spawnq = s.spawnq := rfl
@[simp] theorem State.setThread_cycle (t : Nat) (x : Thread) : (s.setThread t x).cycle = s.cycle := rfl
@[simp] theorem State.setThread_tlb (t : Nat) (x : Thread) : (s.setThread t x).tlb = s.tlb := rfl
@[simp] theorem State.setThread_hcache (t : Nat) (x : Thread) : (s.setThread t x).hcache = s.hcache := rfl
@[simp] theorem State.setThread_xlt (t : Nat) (x : Thread) : (s.setThread t x).xlt = s.xlt := rfl
@[simp] theorem State.setThread_hxlt (t : Nat) (x : Thread) : (s.setThread t x).hxlt = s.hxlt := rfl
@[simp] theorem State.setThread_spl (t : Nat) (x : Thread) : (s.setThread t x).spl = s.spl := rfl
@[simp] theorem State.setThread_subs (t : Nat) (x : Thread) : (s.setThread t x).subs = s.subs := rfl
@[simp] theorem State.setThread_batches (t : Nat) (x : Thread) : (s.setThread t x).batches = s.batches := rfl
@[simp] theorem State.setThread_rafter (t : Nat) (x : Thread) : (s.setThread t x).rafter = s.rafter := rfl
@[simp] theorem State.setThread_pause (t : Nat) (x : Thread) : (s.setThread t x).pause = s.pause := rfl
@[simp] theorem State.setThread_pausedAt (t : Nat) (x : Thread) : (s.setThread t x).pausedAt = s.pausedAt := rfl
@[simp] theorem State.setThread_dying (t : Nat) (x : Thread) : (s.setThread t x).dying = s.dying := rfl
@[simp] theorem State.setThread_svcOut (t : Nat) (x : Thread) : (s.setThread t x).svcOut = s.svcOut := rfl
@[simp] theorem State.setThread_weirHeld (t : Nat) (x : Thread) : (s.setThread t x).weirHeld = s.weirHeld := rfl
@[simp] theorem State.setThread_weirQ (t : Nat) (x : Thread) : (s.setThread t x).weirQ = s.weirQ := rfl
@[simp] theorem State.setThread_edge (t : Nat) (x : Thread) : (s.setThread t x).edge = s.edge := rfl
@[simp] theorem State.setThread_clusters (t : Nat) (x : Thread) : (s.setThread t x).clusters = s.clusters := rfl
@[simp] theorem State.setThread_pairHold (t : Nat) (x : Thread) : (s.setThread t x).pairHold = s.pairHold := rfl
@[simp] theorem State.setThread_restarts (t : Nat) (x : Thread) : (s.setThread t x).restarts = s.restarts := rfl
@[simp] theorem State.setThread_beats (t : Nat) (x : Thread) : (s.setThread t x).beats = s.beats := rfl
@[simp] theorem State.setThread_asked (t : Nat) (x : Thread) : (s.setThread t x).asked = s.asked := rfl
@[simp] theorem State.setThread_tripped (t : Nat) (x : Thread) : (s.setThread t x).tripped = s.tripped := rfl
@[simp] theorem State.setThread_nvme (t : Nat) (x : Thread) : (s.setThread t x).nvme = s.nvme := rfl
@[simp] theorem State.setThread_nvmeDirty (t : Nat) (x : Thread) : (s.setThread t x).nvmeDirty = s.nvmeDirty := rfl
@[simp] theorem State.setThread_intrs (t : Nat) (x : Thread) : (s.setThread t x).intrs = s.intrs := rfl
@[simp] theorem State.setThread_harts (t : Nat) (x : Thread) : (s.setThread t x).harts = s.harts := rfl
@[simp] theorem State.setThread_handover (t : Nat) (x : Thread) : (s.setThread t x).handover = s.handover := rfl

/-! ## dropThread -/

@[simp] theorem State.dropThread_boot (t : Nat) : (s.dropThread t).boot = s.boot := rfl
@[simp] theorem State.dropThread_time (t : Nat) : (s.dropThread t).time = s.time := rfl
@[simp] theorem State.dropThread_timeFrac (t : Nat) : (s.dropThread t).timeFrac = s.timeFrac := rfl
@[simp] theorem State.dropThread_clock (t : Nat) : (s.dropThread t).clock = s.clock := rfl
@[simp] theorem State.dropThread_agenda (t : Nat) : (s.dropThread t).agenda = s.agenda := rfl
@[simp] theorem State.dropThread_spare (t : Nat) : (s.dropThread t).spare = s.spare := rfl
@[simp] theorem State.dropThread_round (t : Nat) : (s.dropThread t).round = s.round := rfl
@[simp] theorem State.dropThread_served (t : Nat) : (s.dropThread t).served = s.served := rfl
@[simp] theorem State.dropThread_cur (t : Nat) : (s.dropThread t).cur = s.cur := rfl
@[simp] theorem State.dropThread_held (t : Nat) : (s.dropThread t).held = s.held := rfl
@[simp] theorem State.dropThread_cfg (t : Nat) : (s.dropThread t).cfg = s.cfg := rfl
@[simp] theorem State.dropThread_inv (t : Nat) : (s.dropThread t).inv = s.inv := rfl
@[simp] theorem State.dropThread_mem (t : Nat) : (s.dropThread t).mem = s.mem := rfl
@[simp] theorem State.dropThread_peer (t : Nat) : (s.dropThread t).peer = s.peer := rfl
@[simp] theorem State.dropThread_carved (t : Nat) : (s.dropThread t).carved = s.carved := rfl
@[simp] theorem State.dropThread_carvedOwner (t : Nat) : (s.dropThread t).carvedOwner = s.carvedOwner := rfl
@[simp] theorem State.dropThread_scratch (t : Nat) : (s.dropThread t).scratch = s.scratch := rfl
@[simp] theorem State.dropThread_gscratch (t : Nat) : (s.dropThread t).gscratch = s.gscratch := rfl
@[simp] theorem State.dropThread_l1 (t : Nat) : (s.dropThread t).l1 = s.l1 := rfl
@[simp] theorem State.dropThread_hl2 (t : Nat) : (s.dropThread t).hl2 = s.hl2 := rfl
@[simp] theorem State.dropThread_mere (t : Nat) : (s.dropThread t).mere = s.mere := rfl
@[simp] theorem State.dropThread_tree (t : Nat) : (s.dropThread t).tree = s.tree := rfl
@[simp] theorem State.dropThread_poison (t : Nat) : (s.dropThread t).poison = s.poison := rfl
@[simp] theorem State.dropThread_latent (t : Nat) : (s.dropThread t).latent = s.latent := rfl
@[simp] theorem State.dropThread_regErr (t : Nat) : (s.dropThread t).regErr = s.regErr := rfl
@[simp] theorem State.dropThread_corrected (t : Nat) : (s.dropThread t).corrected = s.corrected := rfl
@[simp] theorem State.dropThread_gating (t : Nat) : (s.dropThread t).gating = s.gating := rfl
@[simp] theorem State.dropThread_retired (t : Nat) : (s.dropThread t).retired = s.retired := rfl
@[simp] theorem State.dropThread_ue (t : Nat) : (s.dropThread t).ue = s.ue := rfl
@[simp] theorem State.dropThread_silt (t : Nat) : (s.dropThread t).silt = s.silt := rfl
@[simp] theorem State.dropThread_siltCount (t : Nat) : (s.dropThread t).siltCount = s.siltCount := rfl
@[simp] theorem State.dropThread_siltRead (t : Nat) : (s.dropThread t).siltRead = s.siltRead := rfl
@[simp] theorem State.dropThread_siltFlash (t : Nat) : (s.dropThread t).siltFlash = s.siltFlash := rfl
@[simp] theorem State.dropThread_gpio (t : Nat) : (s.dropThread t).gpio = s.gpio := rfl
@[simp] theorem State.dropThread_kills (t : Nat) : (s.dropThread t).kills = s.kills := rfl
@[simp] theorem State.dropThread_blocks (t : Nat) : (s.dropThread t).blocks = s.blocks := rfl
@[simp] theorem State.dropThread_nextBlock (t : Nat) : (s.dropThread t).nextBlock = s.nextBlock := rfl
@[simp] theorem State.dropThread_jobs (t : Nat) : (s.dropThread t).jobs = s.jobs := rfl
@[simp] theorem State.dropThread_nextJobs (t : Nat) : (s.dropThread t).nextJobs = s.nextJobs := rfl
@[simp] theorem State.dropThread_arms (t : Nat) : (s.dropThread t).arms = s.arms := rfl
@[simp] theorem State.dropThread_streams (t : Nat) : (s.dropThread t).streams = s.streams := rfl
@[simp] theorem State.dropThread_lastData (t : Nat) : (s.dropThread t).lastData = s.lastData := rfl
@[simp] theorem State.dropThread_sems (t : Nat) : (s.dropThread t).sems = s.sems := rfl
@[simp] theorem State.dropThread_ticket (t : Nat) : (s.dropThread t).ticket = s.ticket := rfl
@[simp] theorem State.dropThread_coreBars (t : Nat) : (s.dropThread t).coreBars = s.coreBars := rfl
@[simp] theorem State.dropThread_jobBars (t : Nat) : (s.dropThread t).jobBars = s.jobBars := rfl
@[simp] theorem State.dropThread_ctxs (t : Nat) : (s.dropThread t).ctxs = s.ctxs := rfl
@[simp] theorem State.dropThread_groups (t : Nat) : (s.dropThread t).groups = s.groups := rfl
@[simp] theorem State.dropThread_ridgeWaits (t : Nat) : (s.dropThread t).ridgeWaits = s.ridgeWaits := rfl
@[simp] theorem State.dropThread_acc (t : Nat) : (s.dropThread t).acc = s.acc := rfl
@[simp] theorem State.dropThread_dq (t : Nat) : (s.dropThread t).dq = s.dq := rfl
@[simp] theorem State.dropThread_dqAcq (t : Nat) : (s.dropThread t).dqAcq = s.dqAcq := rfl
@[simp] theorem State.dropThread_spawnq (t : Nat) : (s.dropThread t).spawnq = s.spawnq := rfl
@[simp] theorem State.dropThread_cycle (t : Nat) : (s.dropThread t).cycle = s.cycle := rfl
@[simp] theorem State.dropThread_tlb (t : Nat) : (s.dropThread t).tlb = s.tlb := rfl
@[simp] theorem State.dropThread_hcache (t : Nat) : (s.dropThread t).hcache = s.hcache := rfl
@[simp] theorem State.dropThread_xlt (t : Nat) : (s.dropThread t).xlt = s.xlt := rfl
@[simp] theorem State.dropThread_hxlt (t : Nat) : (s.dropThread t).hxlt = s.hxlt := rfl
@[simp] theorem State.dropThread_spl (t : Nat) : (s.dropThread t).spl = s.spl := rfl
@[simp] theorem State.dropThread_subs (t : Nat) : (s.dropThread t).subs = s.subs := rfl
@[simp] theorem State.dropThread_batches (t : Nat) : (s.dropThread t).batches = s.batches := rfl
@[simp] theorem State.dropThread_rafter (t : Nat) : (s.dropThread t).rafter = s.rafter := rfl
@[simp] theorem State.dropThread_pause (t : Nat) : (s.dropThread t).pause = s.pause := rfl
@[simp] theorem State.dropThread_pausedAt (t : Nat) : (s.dropThread t).pausedAt = s.pausedAt := rfl
@[simp] theorem State.dropThread_dying (t : Nat) : (s.dropThread t).dying = s.dying := rfl
@[simp] theorem State.dropThread_svcOut (t : Nat) : (s.dropThread t).svcOut = s.svcOut := rfl
@[simp] theorem State.dropThread_weirHeld (t : Nat) : (s.dropThread t).weirHeld = s.weirHeld := rfl
@[simp] theorem State.dropThread_weirQ (t : Nat) : (s.dropThread t).weirQ = s.weirQ := rfl
@[simp] theorem State.dropThread_edge (t : Nat) : (s.dropThread t).edge = s.edge := rfl
@[simp] theorem State.dropThread_clusters (t : Nat) : (s.dropThread t).clusters = s.clusters := rfl
@[simp] theorem State.dropThread_pairHold (t : Nat) : (s.dropThread t).pairHold = s.pairHold := rfl
@[simp] theorem State.dropThread_restarts (t : Nat) : (s.dropThread t).restarts = s.restarts := rfl
@[simp] theorem State.dropThread_beats (t : Nat) : (s.dropThread t).beats = s.beats := rfl
@[simp] theorem State.dropThread_asked (t : Nat) : (s.dropThread t).asked = s.asked := rfl
@[simp] theorem State.dropThread_tripped (t : Nat) : (s.dropThread t).tripped = s.tripped := rfl
@[simp] theorem State.dropThread_nvme (t : Nat) : (s.dropThread t).nvme = s.nvme := rfl
@[simp] theorem State.dropThread_nvmeDirty (t : Nat) : (s.dropThread t).nvmeDirty = s.nvmeDirty := rfl
@[simp] theorem State.dropThread_intrs (t : Nat) : (s.dropThread t).intrs = s.intrs := rfl
@[simp] theorem State.dropThread_harts (t : Nat) : (s.dropThread t).harts = s.harts := rfl
@[simp] theorem State.dropThread_handover (t : Nat) : (s.dropThread t).handover = s.handover := rfl

/-! ## setBlock -/

@[simp] theorem State.setBlock_boot (b : Nat) (x : Block) : (s.setBlock b x).boot = s.boot := rfl
@[simp] theorem State.setBlock_time (b : Nat) (x : Block) : (s.setBlock b x).time = s.time := rfl
@[simp] theorem State.setBlock_timeFrac (b : Nat) (x : Block) : (s.setBlock b x).timeFrac = s.timeFrac := rfl
@[simp] theorem State.setBlock_clock (b : Nat) (x : Block) : (s.setBlock b x).clock = s.clock := rfl
@[simp] theorem State.setBlock_agenda (b : Nat) (x : Block) : (s.setBlock b x).agenda = s.agenda := rfl
@[simp] theorem State.setBlock_spare (b : Nat) (x : Block) : (s.setBlock b x).spare = s.spare := rfl
@[simp] theorem State.setBlock_round (b : Nat) (x : Block) : (s.setBlock b x).round = s.round := rfl
@[simp] theorem State.setBlock_served (b : Nat) (x : Block) : (s.setBlock b x).served = s.served := rfl
@[simp] theorem State.setBlock_cur (b : Nat) (x : Block) : (s.setBlock b x).cur = s.cur := rfl
@[simp] theorem State.setBlock_held (b : Nat) (x : Block) : (s.setBlock b x).held = s.held := rfl
@[simp] theorem State.setBlock_cfg (b : Nat) (x : Block) : (s.setBlock b x).cfg = s.cfg := rfl
@[simp] theorem State.setBlock_inv (b : Nat) (x : Block) : (s.setBlock b x).inv = s.inv := rfl
@[simp] theorem State.setBlock_mem (b : Nat) (x : Block) : (s.setBlock b x).mem = s.mem := rfl
@[simp] theorem State.setBlock_peer (b : Nat) (x : Block) : (s.setBlock b x).peer = s.peer := rfl
@[simp] theorem State.setBlock_carved (b : Nat) (x : Block) : (s.setBlock b x).carved = s.carved := rfl
@[simp] theorem State.setBlock_carvedOwner (b : Nat) (x : Block) : (s.setBlock b x).carvedOwner = s.carvedOwner := rfl
@[simp] theorem State.setBlock_scratch (b : Nat) (x : Block) : (s.setBlock b x).scratch = s.scratch := rfl
@[simp] theorem State.setBlock_gscratch (b : Nat) (x : Block) : (s.setBlock b x).gscratch = s.gscratch := rfl
@[simp] theorem State.setBlock_l1 (b : Nat) (x : Block) : (s.setBlock b x).l1 = s.l1 := rfl
@[simp] theorem State.setBlock_hl2 (b : Nat) (x : Block) : (s.setBlock b x).hl2 = s.hl2 := rfl
@[simp] theorem State.setBlock_mere (b : Nat) (x : Block) : (s.setBlock b x).mere = s.mere := rfl
@[simp] theorem State.setBlock_tree (b : Nat) (x : Block) : (s.setBlock b x).tree = s.tree := rfl
@[simp] theorem State.setBlock_poison (b : Nat) (x : Block) : (s.setBlock b x).poison = s.poison := rfl
@[simp] theorem State.setBlock_latent (b : Nat) (x : Block) : (s.setBlock b x).latent = s.latent := rfl
@[simp] theorem State.setBlock_regErr (b : Nat) (x : Block) : (s.setBlock b x).regErr = s.regErr := rfl
@[simp] theorem State.setBlock_corrected (b : Nat) (x : Block) : (s.setBlock b x).corrected = s.corrected := rfl
@[simp] theorem State.setBlock_gating (b : Nat) (x : Block) : (s.setBlock b x).gating = s.gating := rfl
@[simp] theorem State.setBlock_retired (b : Nat) (x : Block) : (s.setBlock b x).retired = s.retired := rfl
@[simp] theorem State.setBlock_ue (b : Nat) (x : Block) : (s.setBlock b x).ue = s.ue := rfl
@[simp] theorem State.setBlock_silt (b : Nat) (x : Block) : (s.setBlock b x).silt = s.silt := rfl
@[simp] theorem State.setBlock_siltCount (b : Nat) (x : Block) : (s.setBlock b x).siltCount = s.siltCount := rfl
@[simp] theorem State.setBlock_siltRead (b : Nat) (x : Block) : (s.setBlock b x).siltRead = s.siltRead := rfl
@[simp] theorem State.setBlock_siltFlash (b : Nat) (x : Block) : (s.setBlock b x).siltFlash = s.siltFlash := rfl
@[simp] theorem State.setBlock_gpio (b : Nat) (x : Block) : (s.setBlock b x).gpio = s.gpio := rfl
@[simp] theorem State.setBlock_kills (b : Nat) (x : Block) : (s.setBlock b x).kills = s.kills := rfl
@[simp] theorem State.setBlock_threads (b : Nat) (x : Block) : (s.setBlock b x).threads = s.threads := rfl
@[simp] theorem State.setBlock_nextBlock (b : Nat) (x : Block) : (s.setBlock b x).nextBlock = s.nextBlock := rfl
@[simp] theorem State.setBlock_jobs (b : Nat) (x : Block) : (s.setBlock b x).jobs = s.jobs := rfl
@[simp] theorem State.setBlock_nextJobs (b : Nat) (x : Block) : (s.setBlock b x).nextJobs = s.nextJobs := rfl
@[simp] theorem State.setBlock_arms (b : Nat) (x : Block) : (s.setBlock b x).arms = s.arms := rfl
@[simp] theorem State.setBlock_streams (b : Nat) (x : Block) : (s.setBlock b x).streams = s.streams := rfl
@[simp] theorem State.setBlock_lastData (b : Nat) (x : Block) : (s.setBlock b x).lastData = s.lastData := rfl
@[simp] theorem State.setBlock_sems (b : Nat) (x : Block) : (s.setBlock b x).sems = s.sems := rfl
@[simp] theorem State.setBlock_ticket (b : Nat) (x : Block) : (s.setBlock b x).ticket = s.ticket := rfl
@[simp] theorem State.setBlock_coreBars (b : Nat) (x : Block) : (s.setBlock b x).coreBars = s.coreBars := rfl
@[simp] theorem State.setBlock_jobBars (b : Nat) (x : Block) : (s.setBlock b x).jobBars = s.jobBars := rfl
@[simp] theorem State.setBlock_ctxs (b : Nat) (x : Block) : (s.setBlock b x).ctxs = s.ctxs := rfl
@[simp] theorem State.setBlock_groups (b : Nat) (x : Block) : (s.setBlock b x).groups = s.groups := rfl
@[simp] theorem State.setBlock_ridgeWaits (b : Nat) (x : Block) : (s.setBlock b x).ridgeWaits = s.ridgeWaits := rfl
@[simp] theorem State.setBlock_acc (b : Nat) (x : Block) : (s.setBlock b x).acc = s.acc := rfl
@[simp] theorem State.setBlock_dq (b : Nat) (x : Block) : (s.setBlock b x).dq = s.dq := rfl
@[simp] theorem State.setBlock_dqAcq (b : Nat) (x : Block) : (s.setBlock b x).dqAcq = s.dqAcq := rfl
@[simp] theorem State.setBlock_spawnq (b : Nat) (x : Block) : (s.setBlock b x).spawnq = s.spawnq := rfl
@[simp] theorem State.setBlock_cycle (b : Nat) (x : Block) : (s.setBlock b x).cycle = s.cycle := rfl
@[simp] theorem State.setBlock_tlb (b : Nat) (x : Block) : (s.setBlock b x).tlb = s.tlb := rfl
@[simp] theorem State.setBlock_hcache (b : Nat) (x : Block) : (s.setBlock b x).hcache = s.hcache := rfl
@[simp] theorem State.setBlock_xlt (b : Nat) (x : Block) : (s.setBlock b x).xlt = s.xlt := rfl
@[simp] theorem State.setBlock_hxlt (b : Nat) (x : Block) : (s.setBlock b x).hxlt = s.hxlt := rfl
@[simp] theorem State.setBlock_spl (b : Nat) (x : Block) : (s.setBlock b x).spl = s.spl := rfl
@[simp] theorem State.setBlock_subs (b : Nat) (x : Block) : (s.setBlock b x).subs = s.subs := rfl
@[simp] theorem State.setBlock_batches (b : Nat) (x : Block) : (s.setBlock b x).batches = s.batches := rfl
@[simp] theorem State.setBlock_rafter (b : Nat) (x : Block) : (s.setBlock b x).rafter = s.rafter := rfl
@[simp] theorem State.setBlock_pause (b : Nat) (x : Block) : (s.setBlock b x).pause = s.pause := rfl
@[simp] theorem State.setBlock_pausedAt (b : Nat) (x : Block) : (s.setBlock b x).pausedAt = s.pausedAt := rfl
@[simp] theorem State.setBlock_dying (b : Nat) (x : Block) : (s.setBlock b x).dying = s.dying := rfl
@[simp] theorem State.setBlock_svcOut (b : Nat) (x : Block) : (s.setBlock b x).svcOut = s.svcOut := rfl
@[simp] theorem State.setBlock_weirHeld (b : Nat) (x : Block) : (s.setBlock b x).weirHeld = s.weirHeld := rfl
@[simp] theorem State.setBlock_weirQ (b : Nat) (x : Block) : (s.setBlock b x).weirQ = s.weirQ := rfl
@[simp] theorem State.setBlock_edge (b : Nat) (x : Block) : (s.setBlock b x).edge = s.edge := rfl
@[simp] theorem State.setBlock_clusters (b : Nat) (x : Block) : (s.setBlock b x).clusters = s.clusters := rfl
@[simp] theorem State.setBlock_pairHold (b : Nat) (x : Block) : (s.setBlock b x).pairHold = s.pairHold := rfl
@[simp] theorem State.setBlock_restarts (b : Nat) (x : Block) : (s.setBlock b x).restarts = s.restarts := rfl
@[simp] theorem State.setBlock_beats (b : Nat) (x : Block) : (s.setBlock b x).beats = s.beats := rfl
@[simp] theorem State.setBlock_asked (b : Nat) (x : Block) : (s.setBlock b x).asked = s.asked := rfl
@[simp] theorem State.setBlock_tripped (b : Nat) (x : Block) : (s.setBlock b x).tripped = s.tripped := rfl
@[simp] theorem State.setBlock_nvme (b : Nat) (x : Block) : (s.setBlock b x).nvme = s.nvme := rfl
@[simp] theorem State.setBlock_nvmeDirty (b : Nat) (x : Block) : (s.setBlock b x).nvmeDirty = s.nvmeDirty := rfl
@[simp] theorem State.setBlock_intrs (b : Nat) (x : Block) : (s.setBlock b x).intrs = s.intrs := rfl
@[simp] theorem State.setBlock_harts (b : Nat) (x : Block) : (s.setBlock b x).harts = s.harts := rfl
@[simp] theorem State.setBlock_handover (b : Nat) (x : Block) : (s.setBlock b x).handover = s.handover := rfl

/-! ## setStream -/

@[simp] theorem State.setStream_boot (k : Nat) (x : Stream) : (s.setStream k x).boot = s.boot := rfl
@[simp] theorem State.setStream_time (k : Nat) (x : Stream) : (s.setStream k x).time = s.time := rfl
@[simp] theorem State.setStream_timeFrac (k : Nat) (x : Stream) : (s.setStream k x).timeFrac = s.timeFrac := rfl
@[simp] theorem State.setStream_clock (k : Nat) (x : Stream) : (s.setStream k x).clock = s.clock := rfl
@[simp] theorem State.setStream_agenda (k : Nat) (x : Stream) : (s.setStream k x).agenda = s.agenda := rfl
@[simp] theorem State.setStream_spare (k : Nat) (x : Stream) : (s.setStream k x).spare = s.spare := rfl
@[simp] theorem State.setStream_round (k : Nat) (x : Stream) : (s.setStream k x).round = s.round := rfl
@[simp] theorem State.setStream_served (k : Nat) (x : Stream) : (s.setStream k x).served = s.served := rfl
@[simp] theorem State.setStream_cur (k : Nat) (x : Stream) : (s.setStream k x).cur = s.cur := rfl
@[simp] theorem State.setStream_held (k : Nat) (x : Stream) : (s.setStream k x).held = s.held := rfl
@[simp] theorem State.setStream_cfg (k : Nat) (x : Stream) : (s.setStream k x).cfg = s.cfg := rfl
@[simp] theorem State.setStream_inv (k : Nat) (x : Stream) : (s.setStream k x).inv = s.inv := rfl
@[simp] theorem State.setStream_mem (k : Nat) (x : Stream) : (s.setStream k x).mem = s.mem := rfl
@[simp] theorem State.setStream_peer (k : Nat) (x : Stream) : (s.setStream k x).peer = s.peer := rfl
@[simp] theorem State.setStream_carved (k : Nat) (x : Stream) : (s.setStream k x).carved = s.carved := rfl
@[simp] theorem State.setStream_carvedOwner (k : Nat) (x : Stream) : (s.setStream k x).carvedOwner = s.carvedOwner := rfl
@[simp] theorem State.setStream_scratch (k : Nat) (x : Stream) : (s.setStream k x).scratch = s.scratch := rfl
@[simp] theorem State.setStream_gscratch (k : Nat) (x : Stream) : (s.setStream k x).gscratch = s.gscratch := rfl
@[simp] theorem State.setStream_l1 (k : Nat) (x : Stream) : (s.setStream k x).l1 = s.l1 := rfl
@[simp] theorem State.setStream_hl2 (k : Nat) (x : Stream) : (s.setStream k x).hl2 = s.hl2 := rfl
@[simp] theorem State.setStream_mere (k : Nat) (x : Stream) : (s.setStream k x).mere = s.mere := rfl
@[simp] theorem State.setStream_tree (k : Nat) (x : Stream) : (s.setStream k x).tree = s.tree := rfl
@[simp] theorem State.setStream_poison (k : Nat) (x : Stream) : (s.setStream k x).poison = s.poison := rfl
@[simp] theorem State.setStream_latent (k : Nat) (x : Stream) : (s.setStream k x).latent = s.latent := rfl
@[simp] theorem State.setStream_regErr (k : Nat) (x : Stream) : (s.setStream k x).regErr = s.regErr := rfl
@[simp] theorem State.setStream_corrected (k : Nat) (x : Stream) : (s.setStream k x).corrected = s.corrected := rfl
@[simp] theorem State.setStream_gating (k : Nat) (x : Stream) : (s.setStream k x).gating = s.gating := rfl
@[simp] theorem State.setStream_retired (k : Nat) (x : Stream) : (s.setStream k x).retired = s.retired := rfl
@[simp] theorem State.setStream_ue (k : Nat) (x : Stream) : (s.setStream k x).ue = s.ue := rfl
@[simp] theorem State.setStream_silt (k : Nat) (x : Stream) : (s.setStream k x).silt = s.silt := rfl
@[simp] theorem State.setStream_siltCount (k : Nat) (x : Stream) : (s.setStream k x).siltCount = s.siltCount := rfl
@[simp] theorem State.setStream_siltRead (k : Nat) (x : Stream) : (s.setStream k x).siltRead = s.siltRead := rfl
@[simp] theorem State.setStream_siltFlash (k : Nat) (x : Stream) : (s.setStream k x).siltFlash = s.siltFlash := rfl
@[simp] theorem State.setStream_gpio (k : Nat) (x : Stream) : (s.setStream k x).gpio = s.gpio := rfl
@[simp] theorem State.setStream_kills (k : Nat) (x : Stream) : (s.setStream k x).kills = s.kills := rfl
@[simp] theorem State.setStream_threads (k : Nat) (x : Stream) : (s.setStream k x).threads = s.threads := rfl
@[simp] theorem State.setStream_blocks (k : Nat) (x : Stream) : (s.setStream k x).blocks = s.blocks := rfl
@[simp] theorem State.setStream_nextBlock (k : Nat) (x : Stream) : (s.setStream k x).nextBlock = s.nextBlock := rfl
@[simp] theorem State.setStream_jobs (k : Nat) (x : Stream) : (s.setStream k x).jobs = s.jobs := rfl
@[simp] theorem State.setStream_nextJobs (k : Nat) (x : Stream) : (s.setStream k x).nextJobs = s.nextJobs := rfl
@[simp] theorem State.setStream_arms (k : Nat) (x : Stream) : (s.setStream k x).arms = s.arms := rfl
@[simp] theorem State.setStream_lastData (k : Nat) (x : Stream) : (s.setStream k x).lastData = s.lastData := rfl
@[simp] theorem State.setStream_sems (k : Nat) (x : Stream) : (s.setStream k x).sems = s.sems := rfl
@[simp] theorem State.setStream_ticket (k : Nat) (x : Stream) : (s.setStream k x).ticket = s.ticket := rfl
@[simp] theorem State.setStream_coreBars (k : Nat) (x : Stream) : (s.setStream k x).coreBars = s.coreBars := rfl
@[simp] theorem State.setStream_jobBars (k : Nat) (x : Stream) : (s.setStream k x).jobBars = s.jobBars := rfl
@[simp] theorem State.setStream_ctxs (k : Nat) (x : Stream) : (s.setStream k x).ctxs = s.ctxs := rfl
@[simp] theorem State.setStream_groups (k : Nat) (x : Stream) : (s.setStream k x).groups = s.groups := rfl
@[simp] theorem State.setStream_ridgeWaits (k : Nat) (x : Stream) : (s.setStream k x).ridgeWaits = s.ridgeWaits := rfl
@[simp] theorem State.setStream_acc (k : Nat) (x : Stream) : (s.setStream k x).acc = s.acc := rfl
@[simp] theorem State.setStream_dq (k : Nat) (x : Stream) : (s.setStream k x).dq = s.dq := rfl
@[simp] theorem State.setStream_dqAcq (k : Nat) (x : Stream) : (s.setStream k x).dqAcq = s.dqAcq := rfl
@[simp] theorem State.setStream_spawnq (k : Nat) (x : Stream) : (s.setStream k x).spawnq = s.spawnq := rfl
@[simp] theorem State.setStream_cycle (k : Nat) (x : Stream) : (s.setStream k x).cycle = s.cycle := rfl
@[simp] theorem State.setStream_tlb (k : Nat) (x : Stream) : (s.setStream k x).tlb = s.tlb := rfl
@[simp] theorem State.setStream_hcache (k : Nat) (x : Stream) : (s.setStream k x).hcache = s.hcache := rfl
@[simp] theorem State.setStream_xlt (k : Nat) (x : Stream) : (s.setStream k x).xlt = s.xlt := rfl
@[simp] theorem State.setStream_hxlt (k : Nat) (x : Stream) : (s.setStream k x).hxlt = s.hxlt := rfl
@[simp] theorem State.setStream_spl (k : Nat) (x : Stream) : (s.setStream k x).spl = s.spl := rfl
@[simp] theorem State.setStream_subs (k : Nat) (x : Stream) : (s.setStream k x).subs = s.subs := rfl
@[simp] theorem State.setStream_batches (k : Nat) (x : Stream) : (s.setStream k x).batches = s.batches := rfl
@[simp] theorem State.setStream_rafter (k : Nat) (x : Stream) : (s.setStream k x).rafter = s.rafter := rfl
@[simp] theorem State.setStream_pause (k : Nat) (x : Stream) : (s.setStream k x).pause = s.pause := rfl
@[simp] theorem State.setStream_pausedAt (k : Nat) (x : Stream) : (s.setStream k x).pausedAt = s.pausedAt := rfl
@[simp] theorem State.setStream_dying (k : Nat) (x : Stream) : (s.setStream k x).dying = s.dying := rfl
@[simp] theorem State.setStream_svcOut (k : Nat) (x : Stream) : (s.setStream k x).svcOut = s.svcOut := rfl
@[simp] theorem State.setStream_weirHeld (k : Nat) (x : Stream) : (s.setStream k x).weirHeld = s.weirHeld := rfl
@[simp] theorem State.setStream_weirQ (k : Nat) (x : Stream) : (s.setStream k x).weirQ = s.weirQ := rfl
@[simp] theorem State.setStream_edge (k : Nat) (x : Stream) : (s.setStream k x).edge = s.edge := rfl
@[simp] theorem State.setStream_clusters (k : Nat) (x : Stream) : (s.setStream k x).clusters = s.clusters := rfl
@[simp] theorem State.setStream_pairHold (k : Nat) (x : Stream) : (s.setStream k x).pairHold = s.pairHold := rfl
@[simp] theorem State.setStream_restarts (k : Nat) (x : Stream) : (s.setStream k x).restarts = s.restarts := rfl
@[simp] theorem State.setStream_beats (k : Nat) (x : Stream) : (s.setStream k x).beats = s.beats := rfl
@[simp] theorem State.setStream_asked (k : Nat) (x : Stream) : (s.setStream k x).asked = s.asked := rfl
@[simp] theorem State.setStream_tripped (k : Nat) (x : Stream) : (s.setStream k x).tripped = s.tripped := rfl
@[simp] theorem State.setStream_nvme (k : Nat) (x : Stream) : (s.setStream k x).nvme = s.nvme := rfl
@[simp] theorem State.setStream_nvmeDirty (k : Nat) (x : Stream) : (s.setStream k x).nvmeDirty = s.nvmeDirty := rfl
@[simp] theorem State.setStream_intrs (k : Nat) (x : Stream) : (s.setStream k x).intrs = s.intrs := rfl
@[simp] theorem State.setStream_harts (k : Nat) (x : Stream) : (s.setStream k x).harts = s.harts := rfl
@[simp] theorem State.setStream_handover (k : Nat) (x : Stream) : (s.setStream k x).handover = s.handover := rfl

/-! ## setSem -/

@[simp] theorem State.setSem_boot (k : Nat) (x : Sem) : (s.setSem k x).boot = s.boot := rfl
@[simp] theorem State.setSem_time (k : Nat) (x : Sem) : (s.setSem k x).time = s.time := rfl
@[simp] theorem State.setSem_timeFrac (k : Nat) (x : Sem) : (s.setSem k x).timeFrac = s.timeFrac := rfl
@[simp] theorem State.setSem_clock (k : Nat) (x : Sem) : (s.setSem k x).clock = s.clock := rfl
@[simp] theorem State.setSem_agenda (k : Nat) (x : Sem) : (s.setSem k x).agenda = s.agenda := rfl
@[simp] theorem State.setSem_spare (k : Nat) (x : Sem) : (s.setSem k x).spare = s.spare := rfl
@[simp] theorem State.setSem_round (k : Nat) (x : Sem) : (s.setSem k x).round = s.round := rfl
@[simp] theorem State.setSem_served (k : Nat) (x : Sem) : (s.setSem k x).served = s.served := rfl
@[simp] theorem State.setSem_cur (k : Nat) (x : Sem) : (s.setSem k x).cur = s.cur := rfl
@[simp] theorem State.setSem_held (k : Nat) (x : Sem) : (s.setSem k x).held = s.held := rfl
@[simp] theorem State.setSem_cfg (k : Nat) (x : Sem) : (s.setSem k x).cfg = s.cfg := rfl
@[simp] theorem State.setSem_inv (k : Nat) (x : Sem) : (s.setSem k x).inv = s.inv := rfl
@[simp] theorem State.setSem_mem (k : Nat) (x : Sem) : (s.setSem k x).mem = s.mem := rfl
@[simp] theorem State.setSem_peer (k : Nat) (x : Sem) : (s.setSem k x).peer = s.peer := rfl
@[simp] theorem State.setSem_carved (k : Nat) (x : Sem) : (s.setSem k x).carved = s.carved := rfl
@[simp] theorem State.setSem_carvedOwner (k : Nat) (x : Sem) : (s.setSem k x).carvedOwner = s.carvedOwner := rfl
@[simp] theorem State.setSem_scratch (k : Nat) (x : Sem) : (s.setSem k x).scratch = s.scratch := rfl
@[simp] theorem State.setSem_gscratch (k : Nat) (x : Sem) : (s.setSem k x).gscratch = s.gscratch := rfl
@[simp] theorem State.setSem_l1 (k : Nat) (x : Sem) : (s.setSem k x).l1 = s.l1 := rfl
@[simp] theorem State.setSem_hl2 (k : Nat) (x : Sem) : (s.setSem k x).hl2 = s.hl2 := rfl
@[simp] theorem State.setSem_mere (k : Nat) (x : Sem) : (s.setSem k x).mere = s.mere := rfl
@[simp] theorem State.setSem_tree (k : Nat) (x : Sem) : (s.setSem k x).tree = s.tree := rfl
@[simp] theorem State.setSem_poison (k : Nat) (x : Sem) : (s.setSem k x).poison = s.poison := rfl
@[simp] theorem State.setSem_latent (k : Nat) (x : Sem) : (s.setSem k x).latent = s.latent := rfl
@[simp] theorem State.setSem_regErr (k : Nat) (x : Sem) : (s.setSem k x).regErr = s.regErr := rfl
@[simp] theorem State.setSem_corrected (k : Nat) (x : Sem) : (s.setSem k x).corrected = s.corrected := rfl
@[simp] theorem State.setSem_gating (k : Nat) (x : Sem) : (s.setSem k x).gating = s.gating := rfl
@[simp] theorem State.setSem_retired (k : Nat) (x : Sem) : (s.setSem k x).retired = s.retired := rfl
@[simp] theorem State.setSem_ue (k : Nat) (x : Sem) : (s.setSem k x).ue = s.ue := rfl
@[simp] theorem State.setSem_silt (k : Nat) (x : Sem) : (s.setSem k x).silt = s.silt := rfl
@[simp] theorem State.setSem_siltCount (k : Nat) (x : Sem) : (s.setSem k x).siltCount = s.siltCount := rfl
@[simp] theorem State.setSem_siltRead (k : Nat) (x : Sem) : (s.setSem k x).siltRead = s.siltRead := rfl
@[simp] theorem State.setSem_siltFlash (k : Nat) (x : Sem) : (s.setSem k x).siltFlash = s.siltFlash := rfl
@[simp] theorem State.setSem_gpio (k : Nat) (x : Sem) : (s.setSem k x).gpio = s.gpio := rfl
@[simp] theorem State.setSem_kills (k : Nat) (x : Sem) : (s.setSem k x).kills = s.kills := rfl
@[simp] theorem State.setSem_threads (k : Nat) (x : Sem) : (s.setSem k x).threads = s.threads := rfl
@[simp] theorem State.setSem_blocks (k : Nat) (x : Sem) : (s.setSem k x).blocks = s.blocks := rfl
@[simp] theorem State.setSem_nextBlock (k : Nat) (x : Sem) : (s.setSem k x).nextBlock = s.nextBlock := rfl
@[simp] theorem State.setSem_jobs (k : Nat) (x : Sem) : (s.setSem k x).jobs = s.jobs := rfl
@[simp] theorem State.setSem_nextJobs (k : Nat) (x : Sem) : (s.setSem k x).nextJobs = s.nextJobs := rfl
@[simp] theorem State.setSem_arms (k : Nat) (x : Sem) : (s.setSem k x).arms = s.arms := rfl
@[simp] theorem State.setSem_streams (k : Nat) (x : Sem) : (s.setSem k x).streams = s.streams := rfl
@[simp] theorem State.setSem_lastData (k : Nat) (x : Sem) : (s.setSem k x).lastData = s.lastData := rfl
@[simp] theorem State.setSem_ticket (k : Nat) (x : Sem) : (s.setSem k x).ticket = s.ticket := rfl
@[simp] theorem State.setSem_coreBars (k : Nat) (x : Sem) : (s.setSem k x).coreBars = s.coreBars := rfl
@[simp] theorem State.setSem_jobBars (k : Nat) (x : Sem) : (s.setSem k x).jobBars = s.jobBars := rfl
@[simp] theorem State.setSem_ctxs (k : Nat) (x : Sem) : (s.setSem k x).ctxs = s.ctxs := rfl
@[simp] theorem State.setSem_groups (k : Nat) (x : Sem) : (s.setSem k x).groups = s.groups := rfl
@[simp] theorem State.setSem_ridgeWaits (k : Nat) (x : Sem) : (s.setSem k x).ridgeWaits = s.ridgeWaits := rfl
@[simp] theorem State.setSem_acc (k : Nat) (x : Sem) : (s.setSem k x).acc = s.acc := rfl
@[simp] theorem State.setSem_dq (k : Nat) (x : Sem) : (s.setSem k x).dq = s.dq := rfl
@[simp] theorem State.setSem_dqAcq (k : Nat) (x : Sem) : (s.setSem k x).dqAcq = s.dqAcq := rfl
@[simp] theorem State.setSem_spawnq (k : Nat) (x : Sem) : (s.setSem k x).spawnq = s.spawnq := rfl
@[simp] theorem State.setSem_cycle (k : Nat) (x : Sem) : (s.setSem k x).cycle = s.cycle := rfl
@[simp] theorem State.setSem_tlb (k : Nat) (x : Sem) : (s.setSem k x).tlb = s.tlb := rfl
@[simp] theorem State.setSem_hcache (k : Nat) (x : Sem) : (s.setSem k x).hcache = s.hcache := rfl
@[simp] theorem State.setSem_xlt (k : Nat) (x : Sem) : (s.setSem k x).xlt = s.xlt := rfl
@[simp] theorem State.setSem_hxlt (k : Nat) (x : Sem) : (s.setSem k x).hxlt = s.hxlt := rfl
@[simp] theorem State.setSem_spl (k : Nat) (x : Sem) : (s.setSem k x).spl = s.spl := rfl
@[simp] theorem State.setSem_subs (k : Nat) (x : Sem) : (s.setSem k x).subs = s.subs := rfl
@[simp] theorem State.setSem_batches (k : Nat) (x : Sem) : (s.setSem k x).batches = s.batches := rfl
@[simp] theorem State.setSem_rafter (k : Nat) (x : Sem) : (s.setSem k x).rafter = s.rafter := rfl
@[simp] theorem State.setSem_pause (k : Nat) (x : Sem) : (s.setSem k x).pause = s.pause := rfl
@[simp] theorem State.setSem_pausedAt (k : Nat) (x : Sem) : (s.setSem k x).pausedAt = s.pausedAt := rfl
@[simp] theorem State.setSem_dying (k : Nat) (x : Sem) : (s.setSem k x).dying = s.dying := rfl
@[simp] theorem State.setSem_svcOut (k : Nat) (x : Sem) : (s.setSem k x).svcOut = s.svcOut := rfl
@[simp] theorem State.setSem_weirHeld (k : Nat) (x : Sem) : (s.setSem k x).weirHeld = s.weirHeld := rfl
@[simp] theorem State.setSem_weirQ (k : Nat) (x : Sem) : (s.setSem k x).weirQ = s.weirQ := rfl
@[simp] theorem State.setSem_edge (k : Nat) (x : Sem) : (s.setSem k x).edge = s.edge := rfl
@[simp] theorem State.setSem_clusters (k : Nat) (x : Sem) : (s.setSem k x).clusters = s.clusters := rfl
@[simp] theorem State.setSem_pairHold (k : Nat) (x : Sem) : (s.setSem k x).pairHold = s.pairHold := rfl
@[simp] theorem State.setSem_restarts (k : Nat) (x : Sem) : (s.setSem k x).restarts = s.restarts := rfl
@[simp] theorem State.setSem_beats (k : Nat) (x : Sem) : (s.setSem k x).beats = s.beats := rfl
@[simp] theorem State.setSem_asked (k : Nat) (x : Sem) : (s.setSem k x).asked = s.asked := rfl
@[simp] theorem State.setSem_tripped (k : Nat) (x : Sem) : (s.setSem k x).tripped = s.tripped := rfl
@[simp] theorem State.setSem_nvme (k : Nat) (x : Sem) : (s.setSem k x).nvme = s.nvme := rfl
@[simp] theorem State.setSem_nvmeDirty (k : Nat) (x : Sem) : (s.setSem k x).nvmeDirty = s.nvmeDirty := rfl
@[simp] theorem State.setSem_intrs (k : Nat) (x : Sem) : (s.setSem k x).intrs = s.intrs := rfl
@[simp] theorem State.setSem_harts (k : Nat) (x : Sem) : (s.setSem k x).harts = s.harts := rfl
@[simp] theorem State.setSem_handover (k : Nat) (x : Sem) : (s.setSem k x).handover = s.handover := rfl

/-! ## setCtx -/

@[simp] theorem State.setCtx_boot (k : Nat) (x : Ctx) : (s.setCtx k x).boot = s.boot := rfl
@[simp] theorem State.setCtx_time (k : Nat) (x : Ctx) : (s.setCtx k x).time = s.time := rfl
@[simp] theorem State.setCtx_timeFrac (k : Nat) (x : Ctx) : (s.setCtx k x).timeFrac = s.timeFrac := rfl
@[simp] theorem State.setCtx_clock (k : Nat) (x : Ctx) : (s.setCtx k x).clock = s.clock := rfl
@[simp] theorem State.setCtx_agenda (k : Nat) (x : Ctx) : (s.setCtx k x).agenda = s.agenda := rfl
@[simp] theorem State.setCtx_spare (k : Nat) (x : Ctx) : (s.setCtx k x).spare = s.spare := rfl
@[simp] theorem State.setCtx_round (k : Nat) (x : Ctx) : (s.setCtx k x).round = s.round := rfl
@[simp] theorem State.setCtx_served (k : Nat) (x : Ctx) : (s.setCtx k x).served = s.served := rfl
@[simp] theorem State.setCtx_cur (k : Nat) (x : Ctx) : (s.setCtx k x).cur = s.cur := rfl
@[simp] theorem State.setCtx_held (k : Nat) (x : Ctx) : (s.setCtx k x).held = s.held := rfl
@[simp] theorem State.setCtx_cfg (k : Nat) (x : Ctx) : (s.setCtx k x).cfg = s.cfg := rfl
@[simp] theorem State.setCtx_inv (k : Nat) (x : Ctx) : (s.setCtx k x).inv = s.inv := rfl
@[simp] theorem State.setCtx_mem (k : Nat) (x : Ctx) : (s.setCtx k x).mem = s.mem := rfl
@[simp] theorem State.setCtx_peer (k : Nat) (x : Ctx) : (s.setCtx k x).peer = s.peer := rfl
@[simp] theorem State.setCtx_carved (k : Nat) (x : Ctx) : (s.setCtx k x).carved = s.carved := rfl
@[simp] theorem State.setCtx_carvedOwner (k : Nat) (x : Ctx) : (s.setCtx k x).carvedOwner = s.carvedOwner := rfl
@[simp] theorem State.setCtx_scratch (k : Nat) (x : Ctx) : (s.setCtx k x).scratch = s.scratch := rfl
@[simp] theorem State.setCtx_gscratch (k : Nat) (x : Ctx) : (s.setCtx k x).gscratch = s.gscratch := rfl
@[simp] theorem State.setCtx_l1 (k : Nat) (x : Ctx) : (s.setCtx k x).l1 = s.l1 := rfl
@[simp] theorem State.setCtx_hl2 (k : Nat) (x : Ctx) : (s.setCtx k x).hl2 = s.hl2 := rfl
@[simp] theorem State.setCtx_mere (k : Nat) (x : Ctx) : (s.setCtx k x).mere = s.mere := rfl
@[simp] theorem State.setCtx_tree (k : Nat) (x : Ctx) : (s.setCtx k x).tree = s.tree := rfl
@[simp] theorem State.setCtx_poison (k : Nat) (x : Ctx) : (s.setCtx k x).poison = s.poison := rfl
@[simp] theorem State.setCtx_latent (k : Nat) (x : Ctx) : (s.setCtx k x).latent = s.latent := rfl
@[simp] theorem State.setCtx_regErr (k : Nat) (x : Ctx) : (s.setCtx k x).regErr = s.regErr := rfl
@[simp] theorem State.setCtx_corrected (k : Nat) (x : Ctx) : (s.setCtx k x).corrected = s.corrected := rfl
@[simp] theorem State.setCtx_gating (k : Nat) (x : Ctx) : (s.setCtx k x).gating = s.gating := rfl
@[simp] theorem State.setCtx_retired (k : Nat) (x : Ctx) : (s.setCtx k x).retired = s.retired := rfl
@[simp] theorem State.setCtx_ue (k : Nat) (x : Ctx) : (s.setCtx k x).ue = s.ue := rfl
@[simp] theorem State.setCtx_silt (k : Nat) (x : Ctx) : (s.setCtx k x).silt = s.silt := rfl
@[simp] theorem State.setCtx_siltCount (k : Nat) (x : Ctx) : (s.setCtx k x).siltCount = s.siltCount := rfl
@[simp] theorem State.setCtx_siltRead (k : Nat) (x : Ctx) : (s.setCtx k x).siltRead = s.siltRead := rfl
@[simp] theorem State.setCtx_siltFlash (k : Nat) (x : Ctx) : (s.setCtx k x).siltFlash = s.siltFlash := rfl
@[simp] theorem State.setCtx_gpio (k : Nat) (x : Ctx) : (s.setCtx k x).gpio = s.gpio := rfl
@[simp] theorem State.setCtx_kills (k : Nat) (x : Ctx) : (s.setCtx k x).kills = s.kills := rfl
@[simp] theorem State.setCtx_threads (k : Nat) (x : Ctx) : (s.setCtx k x).threads = s.threads := rfl
@[simp] theorem State.setCtx_blocks (k : Nat) (x : Ctx) : (s.setCtx k x).blocks = s.blocks := rfl
@[simp] theorem State.setCtx_nextBlock (k : Nat) (x : Ctx) : (s.setCtx k x).nextBlock = s.nextBlock := rfl
@[simp] theorem State.setCtx_jobs (k : Nat) (x : Ctx) : (s.setCtx k x).jobs = s.jobs := rfl
@[simp] theorem State.setCtx_nextJobs (k : Nat) (x : Ctx) : (s.setCtx k x).nextJobs = s.nextJobs := rfl
@[simp] theorem State.setCtx_arms (k : Nat) (x : Ctx) : (s.setCtx k x).arms = s.arms := rfl
@[simp] theorem State.setCtx_streams (k : Nat) (x : Ctx) : (s.setCtx k x).streams = s.streams := rfl
@[simp] theorem State.setCtx_lastData (k : Nat) (x : Ctx) : (s.setCtx k x).lastData = s.lastData := rfl
@[simp] theorem State.setCtx_sems (k : Nat) (x : Ctx) : (s.setCtx k x).sems = s.sems := rfl
@[simp] theorem State.setCtx_ticket (k : Nat) (x : Ctx) : (s.setCtx k x).ticket = s.ticket := rfl
@[simp] theorem State.setCtx_coreBars (k : Nat) (x : Ctx) : (s.setCtx k x).coreBars = s.coreBars := rfl
@[simp] theorem State.setCtx_jobBars (k : Nat) (x : Ctx) : (s.setCtx k x).jobBars = s.jobBars := rfl
@[simp] theorem State.setCtx_groups (k : Nat) (x : Ctx) : (s.setCtx k x).groups = s.groups := rfl
@[simp] theorem State.setCtx_ridgeWaits (k : Nat) (x : Ctx) : (s.setCtx k x).ridgeWaits = s.ridgeWaits := rfl
@[simp] theorem State.setCtx_acc (k : Nat) (x : Ctx) : (s.setCtx k x).acc = s.acc := rfl
@[simp] theorem State.setCtx_dq (k : Nat) (x : Ctx) : (s.setCtx k x).dq = s.dq := rfl
@[simp] theorem State.setCtx_dqAcq (k : Nat) (x : Ctx) : (s.setCtx k x).dqAcq = s.dqAcq := rfl
@[simp] theorem State.setCtx_spawnq (k : Nat) (x : Ctx) : (s.setCtx k x).spawnq = s.spawnq := rfl
@[simp] theorem State.setCtx_cycle (k : Nat) (x : Ctx) : (s.setCtx k x).cycle = s.cycle := rfl
@[simp] theorem State.setCtx_tlb (k : Nat) (x : Ctx) : (s.setCtx k x).tlb = s.tlb := rfl
@[simp] theorem State.setCtx_hcache (k : Nat) (x : Ctx) : (s.setCtx k x).hcache = s.hcache := rfl
@[simp] theorem State.setCtx_xlt (k : Nat) (x : Ctx) : (s.setCtx k x).xlt = s.xlt := rfl
@[simp] theorem State.setCtx_hxlt (k : Nat) (x : Ctx) : (s.setCtx k x).hxlt = s.hxlt := rfl
@[simp] theorem State.setCtx_spl (k : Nat) (x : Ctx) : (s.setCtx k x).spl = s.spl := rfl
@[simp] theorem State.setCtx_subs (k : Nat) (x : Ctx) : (s.setCtx k x).subs = s.subs := rfl
@[simp] theorem State.setCtx_batches (k : Nat) (x : Ctx) : (s.setCtx k x).batches = s.batches := rfl
@[simp] theorem State.setCtx_rafter (k : Nat) (x : Ctx) : (s.setCtx k x).rafter = s.rafter := rfl
@[simp] theorem State.setCtx_pause (k : Nat) (x : Ctx) : (s.setCtx k x).pause = s.pause := rfl
@[simp] theorem State.setCtx_pausedAt (k : Nat) (x : Ctx) : (s.setCtx k x).pausedAt = s.pausedAt := rfl
@[simp] theorem State.setCtx_dying (k : Nat) (x : Ctx) : (s.setCtx k x).dying = s.dying := rfl
@[simp] theorem State.setCtx_svcOut (k : Nat) (x : Ctx) : (s.setCtx k x).svcOut = s.svcOut := rfl
@[simp] theorem State.setCtx_weirHeld (k : Nat) (x : Ctx) : (s.setCtx k x).weirHeld = s.weirHeld := rfl
@[simp] theorem State.setCtx_weirQ (k : Nat) (x : Ctx) : (s.setCtx k x).weirQ = s.weirQ := rfl
@[simp] theorem State.setCtx_edge (k : Nat) (x : Ctx) : (s.setCtx k x).edge = s.edge := rfl
@[simp] theorem State.setCtx_clusters (k : Nat) (x : Ctx) : (s.setCtx k x).clusters = s.clusters := rfl
@[simp] theorem State.setCtx_pairHold (k : Nat) (x : Ctx) : (s.setCtx k x).pairHold = s.pairHold := rfl
@[simp] theorem State.setCtx_restarts (k : Nat) (x : Ctx) : (s.setCtx k x).restarts = s.restarts := rfl
@[simp] theorem State.setCtx_beats (k : Nat) (x : Ctx) : (s.setCtx k x).beats = s.beats := rfl
@[simp] theorem State.setCtx_asked (k : Nat) (x : Ctx) : (s.setCtx k x).asked = s.asked := rfl
@[simp] theorem State.setCtx_tripped (k : Nat) (x : Ctx) : (s.setCtx k x).tripped = s.tripped := rfl
@[simp] theorem State.setCtx_nvme (k : Nat) (x : Ctx) : (s.setCtx k x).nvme = s.nvme := rfl
@[simp] theorem State.setCtx_nvmeDirty (k : Nat) (x : Ctx) : (s.setCtx k x).nvmeDirty = s.nvmeDirty := rfl
@[simp] theorem State.setCtx_intrs (k : Nat) (x : Ctx) : (s.setCtx k x).intrs = s.intrs := rfl
@[simp] theorem State.setCtx_harts (k : Nat) (x : Ctx) : (s.setCtx k x).harts = s.harts := rfl
@[simp] theorem State.setCtx_handover (k : Nat) (x : Ctx) : (s.setCtx k x).handover = s.handover := rfl

/-! ## setGroup -/

@[simp] theorem State.setGroup_boot (g : Nat) (x : Group) : (s.setGroup g x).boot = s.boot := rfl
@[simp] theorem State.setGroup_time (g : Nat) (x : Group) : (s.setGroup g x).time = s.time := rfl
@[simp] theorem State.setGroup_timeFrac (g : Nat) (x : Group) : (s.setGroup g x).timeFrac = s.timeFrac := rfl
@[simp] theorem State.setGroup_clock (g : Nat) (x : Group) : (s.setGroup g x).clock = s.clock := rfl
@[simp] theorem State.setGroup_agenda (g : Nat) (x : Group) : (s.setGroup g x).agenda = s.agenda := rfl
@[simp] theorem State.setGroup_spare (g : Nat) (x : Group) : (s.setGroup g x).spare = s.spare := rfl
@[simp] theorem State.setGroup_round (g : Nat) (x : Group) : (s.setGroup g x).round = s.round := rfl
@[simp] theorem State.setGroup_served (g : Nat) (x : Group) : (s.setGroup g x).served = s.served := rfl
@[simp] theorem State.setGroup_cur (g : Nat) (x : Group) : (s.setGroup g x).cur = s.cur := rfl
@[simp] theorem State.setGroup_held (g : Nat) (x : Group) : (s.setGroup g x).held = s.held := rfl
@[simp] theorem State.setGroup_cfg (g : Nat) (x : Group) : (s.setGroup g x).cfg = s.cfg := rfl
@[simp] theorem State.setGroup_inv (g : Nat) (x : Group) : (s.setGroup g x).inv = s.inv := rfl
@[simp] theorem State.setGroup_mem (g : Nat) (x : Group) : (s.setGroup g x).mem = s.mem := rfl
@[simp] theorem State.setGroup_peer (g : Nat) (x : Group) : (s.setGroup g x).peer = s.peer := rfl
@[simp] theorem State.setGroup_carved (g : Nat) (x : Group) : (s.setGroup g x).carved = s.carved := rfl
@[simp] theorem State.setGroup_carvedOwner (g : Nat) (x : Group) : (s.setGroup g x).carvedOwner = s.carvedOwner := rfl
@[simp] theorem State.setGroup_scratch (g : Nat) (x : Group) : (s.setGroup g x).scratch = s.scratch := rfl
@[simp] theorem State.setGroup_gscratch (g : Nat) (x : Group) : (s.setGroup g x).gscratch = s.gscratch := rfl
@[simp] theorem State.setGroup_l1 (g : Nat) (x : Group) : (s.setGroup g x).l1 = s.l1 := rfl
@[simp] theorem State.setGroup_hl2 (g : Nat) (x : Group) : (s.setGroup g x).hl2 = s.hl2 := rfl
@[simp] theorem State.setGroup_mere (g : Nat) (x : Group) : (s.setGroup g x).mere = s.mere := rfl
@[simp] theorem State.setGroup_tree (g : Nat) (x : Group) : (s.setGroup g x).tree = s.tree := rfl
@[simp] theorem State.setGroup_poison (g : Nat) (x : Group) : (s.setGroup g x).poison = s.poison := rfl
@[simp] theorem State.setGroup_latent (g : Nat) (x : Group) : (s.setGroup g x).latent = s.latent := rfl
@[simp] theorem State.setGroup_regErr (g : Nat) (x : Group) : (s.setGroup g x).regErr = s.regErr := rfl
@[simp] theorem State.setGroup_corrected (g : Nat) (x : Group) : (s.setGroup g x).corrected = s.corrected := rfl
@[simp] theorem State.setGroup_gating (g : Nat) (x : Group) : (s.setGroup g x).gating = s.gating := rfl
@[simp] theorem State.setGroup_retired (g : Nat) (x : Group) : (s.setGroup g x).retired = s.retired := rfl
@[simp] theorem State.setGroup_ue (g : Nat) (x : Group) : (s.setGroup g x).ue = s.ue := rfl
@[simp] theorem State.setGroup_silt (g : Nat) (x : Group) : (s.setGroup g x).silt = s.silt := rfl
@[simp] theorem State.setGroup_siltCount (g : Nat) (x : Group) : (s.setGroup g x).siltCount = s.siltCount := rfl
@[simp] theorem State.setGroup_siltRead (g : Nat) (x : Group) : (s.setGroup g x).siltRead = s.siltRead := rfl
@[simp] theorem State.setGroup_siltFlash (g : Nat) (x : Group) : (s.setGroup g x).siltFlash = s.siltFlash := rfl
@[simp] theorem State.setGroup_gpio (g : Nat) (x : Group) : (s.setGroup g x).gpio = s.gpio := rfl
@[simp] theorem State.setGroup_kills (g : Nat) (x : Group) : (s.setGroup g x).kills = s.kills := rfl
@[simp] theorem State.setGroup_threads (g : Nat) (x : Group) : (s.setGroup g x).threads = s.threads := rfl
@[simp] theorem State.setGroup_blocks (g : Nat) (x : Group) : (s.setGroup g x).blocks = s.blocks := rfl
@[simp] theorem State.setGroup_nextBlock (g : Nat) (x : Group) : (s.setGroup g x).nextBlock = s.nextBlock := rfl
@[simp] theorem State.setGroup_jobs (g : Nat) (x : Group) : (s.setGroup g x).jobs = s.jobs := rfl
@[simp] theorem State.setGroup_nextJobs (g : Nat) (x : Group) : (s.setGroup g x).nextJobs = s.nextJobs := rfl
@[simp] theorem State.setGroup_arms (g : Nat) (x : Group) : (s.setGroup g x).arms = s.arms := rfl
@[simp] theorem State.setGroup_streams (g : Nat) (x : Group) : (s.setGroup g x).streams = s.streams := rfl
@[simp] theorem State.setGroup_lastData (g : Nat) (x : Group) : (s.setGroup g x).lastData = s.lastData := rfl
@[simp] theorem State.setGroup_sems (g : Nat) (x : Group) : (s.setGroup g x).sems = s.sems := rfl
@[simp] theorem State.setGroup_ticket (g : Nat) (x : Group) : (s.setGroup g x).ticket = s.ticket := rfl
@[simp] theorem State.setGroup_coreBars (g : Nat) (x : Group) : (s.setGroup g x).coreBars = s.coreBars := rfl
@[simp] theorem State.setGroup_jobBars (g : Nat) (x : Group) : (s.setGroup g x).jobBars = s.jobBars := rfl
@[simp] theorem State.setGroup_ridgeWaits (g : Nat) (x : Group) : (s.setGroup g x).ridgeWaits = s.ridgeWaits := rfl
@[simp] theorem State.setGroup_ctxs (g : Nat) (x : Group) : (s.setGroup g x).ctxs = s.ctxs := rfl
@[simp] theorem State.setGroup_acc (g : Nat) (x : Group) : (s.setGroup g x).acc = s.acc := rfl
@[simp] theorem State.setGroup_dq (g : Nat) (x : Group) : (s.setGroup g x).dq = s.dq := rfl
@[simp] theorem State.setGroup_dqAcq (g : Nat) (x : Group) : (s.setGroup g x).dqAcq = s.dqAcq := rfl
@[simp] theorem State.setGroup_spawnq (g : Nat) (x : Group) : (s.setGroup g x).spawnq = s.spawnq := rfl
@[simp] theorem State.setGroup_cycle (g : Nat) (x : Group) : (s.setGroup g x).cycle = s.cycle := rfl
@[simp] theorem State.setGroup_tlb (g : Nat) (x : Group) : (s.setGroup g x).tlb = s.tlb := rfl
@[simp] theorem State.setGroup_hcache (g : Nat) (x : Group) : (s.setGroup g x).hcache = s.hcache := rfl
@[simp] theorem State.setGroup_xlt (g : Nat) (x : Group) : (s.setGroup g x).xlt = s.xlt := rfl
@[simp] theorem State.setGroup_hxlt (g : Nat) (x : Group) : (s.setGroup g x).hxlt = s.hxlt := rfl
@[simp] theorem State.setGroup_spl (g : Nat) (x : Group) : (s.setGroup g x).spl = s.spl := rfl
@[simp] theorem State.setGroup_subs (g : Nat) (x : Group) : (s.setGroup g x).subs = s.subs := rfl
@[simp] theorem State.setGroup_batches (g : Nat) (x : Group) : (s.setGroup g x).batches = s.batches := rfl
@[simp] theorem State.setGroup_rafter (g : Nat) (x : Group) : (s.setGroup g x).rafter = s.rafter := rfl
@[simp] theorem State.setGroup_pause (g : Nat) (x : Group) : (s.setGroup g x).pause = s.pause := rfl
@[simp] theorem State.setGroup_pausedAt (g : Nat) (x : Group) : (s.setGroup g x).pausedAt = s.pausedAt := rfl
@[simp] theorem State.setGroup_dying (g : Nat) (x : Group) : (s.setGroup g x).dying = s.dying := rfl
@[simp] theorem State.setGroup_svcOut (g : Nat) (x : Group) : (s.setGroup g x).svcOut = s.svcOut := rfl
@[simp] theorem State.setGroup_weirHeld (g : Nat) (x : Group) : (s.setGroup g x).weirHeld = s.weirHeld := rfl
@[simp] theorem State.setGroup_weirQ (g : Nat) (x : Group) : (s.setGroup g x).weirQ = s.weirQ := rfl
@[simp] theorem State.setGroup_edge (g : Nat) (x : Group) : (s.setGroup g x).edge = s.edge := rfl
@[simp] theorem State.setGroup_clusters (g : Nat) (x : Group) : (s.setGroup g x).clusters = s.clusters := rfl
@[simp] theorem State.setGroup_pairHold (g : Nat) (x : Group) : (s.setGroup g x).pairHold = s.pairHold := rfl
@[simp] theorem State.setGroup_restarts (g : Nat) (x : Group) : (s.setGroup g x).restarts = s.restarts := rfl
@[simp] theorem State.setGroup_beats (g : Nat) (x : Group) : (s.setGroup g x).beats = s.beats := rfl
@[simp] theorem State.setGroup_asked (g : Nat) (x : Group) : (s.setGroup g x).asked = s.asked := rfl
@[simp] theorem State.setGroup_tripped (g : Nat) (x : Group) : (s.setGroup g x).tripped = s.tripped := rfl
@[simp] theorem State.setGroup_nvme (g : Nat) (x : Group) : (s.setGroup g x).nvme = s.nvme := rfl
@[simp] theorem State.setGroup_nvmeDirty (g : Nat) (x : Group) : (s.setGroup g x).nvmeDirty = s.nvmeDirty := rfl
@[simp] theorem State.setGroup_intrs (g : Nat) (x : Group) : (s.setGroup g x).intrs = s.intrs := rfl
@[simp] theorem State.setGroup_harts (g : Nat) (x : Group) : (s.setGroup g x).harts = s.harts := rfl
@[simp] theorem State.setGroup_handover (g : Nat) (x : Group) : (s.setGroup g x).handover = s.handover := rfl

/-! ## setCluster -/

@[simp] theorem State.setCluster_boot (c : Nat) (x : Cluster) : (s.setCluster c x).boot = s.boot := rfl
@[simp] theorem State.setCluster_time (c : Nat) (x : Cluster) : (s.setCluster c x).time = s.time := rfl
@[simp] theorem State.setCluster_timeFrac (c : Nat) (x : Cluster) : (s.setCluster c x).timeFrac = s.timeFrac := rfl
@[simp] theorem State.setCluster_clock (c : Nat) (x : Cluster) : (s.setCluster c x).clock = s.clock := rfl
@[simp] theorem State.setCluster_agenda (c : Nat) (x : Cluster) : (s.setCluster c x).agenda = s.agenda := rfl
@[simp] theorem State.setCluster_spare (c : Nat) (x : Cluster) : (s.setCluster c x).spare = s.spare := rfl
@[simp] theorem State.setCluster_round (c : Nat) (x : Cluster) : (s.setCluster c x).round = s.round := rfl
@[simp] theorem State.setCluster_served (c : Nat) (x : Cluster) : (s.setCluster c x).served = s.served := rfl
@[simp] theorem State.setCluster_cur (c : Nat) (x : Cluster) : (s.setCluster c x).cur = s.cur := rfl
@[simp] theorem State.setCluster_held (c : Nat) (x : Cluster) : (s.setCluster c x).held = s.held := rfl
@[simp] theorem State.setCluster_cfg (c : Nat) (x : Cluster) : (s.setCluster c x).cfg = s.cfg := rfl
@[simp] theorem State.setCluster_inv (c : Nat) (x : Cluster) : (s.setCluster c x).inv = s.inv := rfl
@[simp] theorem State.setCluster_mem (c : Nat) (x : Cluster) : (s.setCluster c x).mem = s.mem := rfl
@[simp] theorem State.setCluster_peer (c : Nat) (x : Cluster) : (s.setCluster c x).peer = s.peer := rfl
@[simp] theorem State.setCluster_carved (c : Nat) (x : Cluster) : (s.setCluster c x).carved = s.carved := rfl
@[simp] theorem State.setCluster_carvedOwner (c : Nat) (x : Cluster) : (s.setCluster c x).carvedOwner = s.carvedOwner := rfl
@[simp] theorem State.setCluster_scratch (c : Nat) (x : Cluster) : (s.setCluster c x).scratch = s.scratch := rfl
@[simp] theorem State.setCluster_gscratch (c : Nat) (x : Cluster) : (s.setCluster c x).gscratch = s.gscratch := rfl
@[simp] theorem State.setCluster_l1 (c : Nat) (x : Cluster) : (s.setCluster c x).l1 = s.l1 := rfl
@[simp] theorem State.setCluster_hl2 (c : Nat) (x : Cluster) : (s.setCluster c x).hl2 = s.hl2 := rfl
@[simp] theorem State.setCluster_mere (c : Nat) (x : Cluster) : (s.setCluster c x).mere = s.mere := rfl
@[simp] theorem State.setCluster_tree (c : Nat) (x : Cluster) : (s.setCluster c x).tree = s.tree := rfl
@[simp] theorem State.setCluster_poison (c : Nat) (x : Cluster) : (s.setCluster c x).poison = s.poison := rfl
@[simp] theorem State.setCluster_latent (c : Nat) (x : Cluster) : (s.setCluster c x).latent = s.latent := rfl
@[simp] theorem State.setCluster_regErr (c : Nat) (x : Cluster) : (s.setCluster c x).regErr = s.regErr := rfl
@[simp] theorem State.setCluster_corrected (c : Nat) (x : Cluster) : (s.setCluster c x).corrected = s.corrected := rfl
@[simp] theorem State.setCluster_gating (c : Nat) (x : Cluster) : (s.setCluster c x).gating = s.gating := rfl
@[simp] theorem State.setCluster_retired (c : Nat) (x : Cluster) : (s.setCluster c x).retired = s.retired := rfl
@[simp] theorem State.setCluster_ue (c : Nat) (x : Cluster) : (s.setCluster c x).ue = s.ue := rfl
@[simp] theorem State.setCluster_silt (c : Nat) (x : Cluster) : (s.setCluster c x).silt = s.silt := rfl
@[simp] theorem State.setCluster_siltCount (c : Nat) (x : Cluster) : (s.setCluster c x).siltCount = s.siltCount := rfl
@[simp] theorem State.setCluster_siltRead (c : Nat) (x : Cluster) : (s.setCluster c x).siltRead = s.siltRead := rfl
@[simp] theorem State.setCluster_siltFlash (c : Nat) (x : Cluster) : (s.setCluster c x).siltFlash = s.siltFlash := rfl
@[simp] theorem State.setCluster_gpio (c : Nat) (x : Cluster) : (s.setCluster c x).gpio = s.gpio := rfl
@[simp] theorem State.setCluster_kills (c : Nat) (x : Cluster) : (s.setCluster c x).kills = s.kills := rfl
@[simp] theorem State.setCluster_threads (c : Nat) (x : Cluster) : (s.setCluster c x).threads = s.threads := rfl
@[simp] theorem State.setCluster_blocks (c : Nat) (x : Cluster) : (s.setCluster c x).blocks = s.blocks := rfl
@[simp] theorem State.setCluster_nextBlock (c : Nat) (x : Cluster) : (s.setCluster c x).nextBlock = s.nextBlock := rfl
@[simp] theorem State.setCluster_jobs (c : Nat) (x : Cluster) : (s.setCluster c x).jobs = s.jobs := rfl
@[simp] theorem State.setCluster_nextJobs (c : Nat) (x : Cluster) : (s.setCluster c x).nextJobs = s.nextJobs := rfl
@[simp] theorem State.setCluster_arms (c : Nat) (x : Cluster) : (s.setCluster c x).arms = s.arms := rfl
@[simp] theorem State.setCluster_streams (c : Nat) (x : Cluster) : (s.setCluster c x).streams = s.streams := rfl
@[simp] theorem State.setCluster_lastData (c : Nat) (x : Cluster) : (s.setCluster c x).lastData = s.lastData := rfl
@[simp] theorem State.setCluster_sems (c : Nat) (x : Cluster) : (s.setCluster c x).sems = s.sems := rfl
@[simp] theorem State.setCluster_ticket (c : Nat) (x : Cluster) : (s.setCluster c x).ticket = s.ticket := rfl
@[simp] theorem State.setCluster_coreBars (c : Nat) (x : Cluster) : (s.setCluster c x).coreBars = s.coreBars := rfl
@[simp] theorem State.setCluster_jobBars (c : Nat) (x : Cluster) : (s.setCluster c x).jobBars = s.jobBars := rfl
@[simp] theorem State.setCluster_ctxs (c : Nat) (x : Cluster) : (s.setCluster c x).ctxs = s.ctxs := rfl
@[simp] theorem State.setCluster_groups (c : Nat) (x : Cluster) : (s.setCluster c x).groups = s.groups := rfl
@[simp] theorem State.setCluster_ridgeWaits (c : Nat) (x : Cluster) : (s.setCluster c x).ridgeWaits = s.ridgeWaits := rfl
@[simp] theorem State.setCluster_acc (c : Nat) (x : Cluster) : (s.setCluster c x).acc = s.acc := rfl
@[simp] theorem State.setCluster_dq (c : Nat) (x : Cluster) : (s.setCluster c x).dq = s.dq := rfl
@[simp] theorem State.setCluster_dqAcq (c : Nat) (x : Cluster) : (s.setCluster c x).dqAcq = s.dqAcq := rfl
@[simp] theorem State.setCluster_spawnq (c : Nat) (x : Cluster) : (s.setCluster c x).spawnq = s.spawnq := rfl
@[simp] theorem State.setCluster_cycle (c : Nat) (x : Cluster) : (s.setCluster c x).cycle = s.cycle := rfl
@[simp] theorem State.setCluster_tlb (c : Nat) (x : Cluster) : (s.setCluster c x).tlb = s.tlb := rfl
@[simp] theorem State.setCluster_hcache (c : Nat) (x : Cluster) : (s.setCluster c x).hcache = s.hcache := rfl
@[simp] theorem State.setCluster_xlt (c : Nat) (x : Cluster) : (s.setCluster c x).xlt = s.xlt := rfl
@[simp] theorem State.setCluster_hxlt (c : Nat) (x : Cluster) : (s.setCluster c x).hxlt = s.hxlt := rfl
@[simp] theorem State.setCluster_spl (c : Nat) (x : Cluster) : (s.setCluster c x).spl = s.spl := rfl
@[simp] theorem State.setCluster_subs (c : Nat) (x : Cluster) : (s.setCluster c x).subs = s.subs := rfl
@[simp] theorem State.setCluster_batches (c : Nat) (x : Cluster) : (s.setCluster c x).batches = s.batches := rfl
@[simp] theorem State.setCluster_rafter (c : Nat) (x : Cluster) : (s.setCluster c x).rafter = s.rafter := rfl
@[simp] theorem State.setCluster_pause (c : Nat) (x : Cluster) : (s.setCluster c x).pause = s.pause := rfl
@[simp] theorem State.setCluster_pausedAt (c : Nat) (x : Cluster) : (s.setCluster c x).pausedAt = s.pausedAt := rfl
@[simp] theorem State.setCluster_dying (c : Nat) (x : Cluster) : (s.setCluster c x).dying = s.dying := rfl
@[simp] theorem State.setCluster_svcOut (c : Nat) (x : Cluster) : (s.setCluster c x).svcOut = s.svcOut := rfl
@[simp] theorem State.setCluster_weirHeld (c : Nat) (x : Cluster) : (s.setCluster c x).weirHeld = s.weirHeld := rfl
@[simp] theorem State.setCluster_weirQ (c : Nat) (x : Cluster) : (s.setCluster c x).weirQ = s.weirQ := rfl
@[simp] theorem State.setCluster_edge (c : Nat) (x : Cluster) : (s.setCluster c x).edge = s.edge := rfl
@[simp] theorem State.setCluster_pairHold (c : Nat) (x : Cluster) : (s.setCluster c x).pairHold = s.pairHold := rfl
@[simp] theorem State.setCluster_restarts (c : Nat) (x : Cluster) : (s.setCluster c x).restarts = s.restarts := rfl
@[simp] theorem State.setCluster_beats (c : Nat) (x : Cluster) : (s.setCluster c x).beats = s.beats := rfl
@[simp] theorem State.setCluster_asked (c : Nat) (x : Cluster) : (s.setCluster c x).asked = s.asked := rfl
@[simp] theorem State.setCluster_tripped (c : Nat) (x : Cluster) : (s.setCluster c x).tripped = s.tripped := rfl
@[simp] theorem State.setCluster_nvme (c : Nat) (x : Cluster) : (s.setCluster c x).nvme = s.nvme := rfl
@[simp] theorem State.setCluster_nvmeDirty (c : Nat) (x : Cluster) : (s.setCluster c x).nvmeDirty = s.nvmeDirty := rfl
@[simp] theorem State.setCluster_intrs (c : Nat) (x : Cluster) : (s.setCluster c x).intrs = s.intrs := rfl
@[simp] theorem State.setCluster_harts (c : Nat) (x : Cluster) : (s.setCluster c x).harts = s.harts := rfl
@[simp] theorem State.setCluster_handover (c : Nat) (x : Cluster) : (s.setCluster c x).handover = s.handover := rfl

/-! ## setCfg -/

@[simp] theorem State.setCfg_boot (o : Nat) (x : W64) : (s.setCfg o x).boot = s.boot := rfl
@[simp] theorem State.setCfg_time (o : Nat) (x : W64) : (s.setCfg o x).time = s.time := rfl
@[simp] theorem State.setCfg_timeFrac (o : Nat) (x : W64) : (s.setCfg o x).timeFrac = s.timeFrac := rfl
@[simp] theorem State.setCfg_clock (o : Nat) (x : W64) : (s.setCfg o x).clock = s.clock := rfl
@[simp] theorem State.setCfg_agenda (o : Nat) (x : W64) : (s.setCfg o x).agenda = s.agenda := rfl
@[simp] theorem State.setCfg_spare (o : Nat) (x : W64) : (s.setCfg o x).spare = s.spare := rfl
@[simp] theorem State.setCfg_round (o : Nat) (x : W64) : (s.setCfg o x).round = s.round := rfl
@[simp] theorem State.setCfg_served (o : Nat) (x : W64) : (s.setCfg o x).served = s.served := rfl
@[simp] theorem State.setCfg_cur (o : Nat) (x : W64) : (s.setCfg o x).cur = s.cur := rfl
@[simp] theorem State.setCfg_held (o : Nat) (x : W64) : (s.setCfg o x).held = s.held := rfl
@[simp] theorem State.setCfg_inv (o : Nat) (x : W64) : (s.setCfg o x).inv = s.inv := rfl
@[simp] theorem State.setCfg_mem (o : Nat) (x : W64) : (s.setCfg o x).mem = s.mem := rfl
@[simp] theorem State.setCfg_peer (o : Nat) (x : W64) : (s.setCfg o x).peer = s.peer := rfl
@[simp] theorem State.setCfg_carved (o : Nat) (x : W64) : (s.setCfg o x).carved = s.carved := rfl
@[simp] theorem State.setCfg_carvedOwner (o : Nat) (x : W64) : (s.setCfg o x).carvedOwner = s.carvedOwner := rfl
@[simp] theorem State.setCfg_scratch (o : Nat) (x : W64) : (s.setCfg o x).scratch = s.scratch := rfl
@[simp] theorem State.setCfg_gscratch (o : Nat) (x : W64) : (s.setCfg o x).gscratch = s.gscratch := rfl
@[simp] theorem State.setCfg_l1 (o : Nat) (x : W64) : (s.setCfg o x).l1 = s.l1 := rfl
@[simp] theorem State.setCfg_hl2 (o : Nat) (x : W64) : (s.setCfg o x).hl2 = s.hl2 := rfl
@[simp] theorem State.setCfg_mere (o : Nat) (x : W64) : (s.setCfg o x).mere = s.mere := rfl
@[simp] theorem State.setCfg_tree (o : Nat) (x : W64) : (s.setCfg o x).tree = s.tree := rfl
@[simp] theorem State.setCfg_poison (o : Nat) (x : W64) : (s.setCfg o x).poison = s.poison := rfl
@[simp] theorem State.setCfg_latent (o : Nat) (x : W64) : (s.setCfg o x).latent = s.latent := rfl
@[simp] theorem State.setCfg_regErr (o : Nat) (x : W64) : (s.setCfg o x).regErr = s.regErr := rfl
@[simp] theorem State.setCfg_corrected (o : Nat) (x : W64) : (s.setCfg o x).corrected = s.corrected := rfl
@[simp] theorem State.setCfg_gating (o : Nat) (x : W64) : (s.setCfg o x).gating = s.gating := rfl
@[simp] theorem State.setCfg_retired (o : Nat) (x : W64) : (s.setCfg o x).retired = s.retired := rfl
@[simp] theorem State.setCfg_ue (o : Nat) (x : W64) : (s.setCfg o x).ue = s.ue := rfl
@[simp] theorem State.setCfg_silt (o : Nat) (x : W64) : (s.setCfg o x).silt = s.silt := rfl
@[simp] theorem State.setCfg_siltCount (o : Nat) (x : W64) : (s.setCfg o x).siltCount = s.siltCount := rfl
@[simp] theorem State.setCfg_siltRead (o : Nat) (x : W64) : (s.setCfg o x).siltRead = s.siltRead := rfl
@[simp] theorem State.setCfg_siltFlash (o : Nat) (x : W64) : (s.setCfg o x).siltFlash = s.siltFlash := rfl
@[simp] theorem State.setCfg_gpio (o : Nat) (x : W64) : (s.setCfg o x).gpio = s.gpio := rfl
@[simp] theorem State.setCfg_kills (o : Nat) (x : W64) : (s.setCfg o x).kills = s.kills := rfl
@[simp] theorem State.setCfg_threads (o : Nat) (x : W64) : (s.setCfg o x).threads = s.threads := rfl
@[simp] theorem State.setCfg_blocks (o : Nat) (x : W64) : (s.setCfg o x).blocks = s.blocks := rfl
@[simp] theorem State.setCfg_nextBlock (o : Nat) (x : W64) : (s.setCfg o x).nextBlock = s.nextBlock := rfl
@[simp] theorem State.setCfg_jobs (o : Nat) (x : W64) : (s.setCfg o x).jobs = s.jobs := rfl
@[simp] theorem State.setCfg_nextJobs (o : Nat) (x : W64) : (s.setCfg o x).nextJobs = s.nextJobs := rfl
@[simp] theorem State.setCfg_arms (o : Nat) (x : W64) : (s.setCfg o x).arms = s.arms := rfl
@[simp] theorem State.setCfg_streams (o : Nat) (x : W64) : (s.setCfg o x).streams = s.streams := rfl
@[simp] theorem State.setCfg_lastData (o : Nat) (x : W64) : (s.setCfg o x).lastData = s.lastData := rfl
@[simp] theorem State.setCfg_sems (o : Nat) (x : W64) : (s.setCfg o x).sems = s.sems := rfl
@[simp] theorem State.setCfg_ticket (o : Nat) (x : W64) : (s.setCfg o x).ticket = s.ticket := rfl
@[simp] theorem State.setCfg_coreBars (o : Nat) (x : W64) : (s.setCfg o x).coreBars = s.coreBars := rfl
@[simp] theorem State.setCfg_jobBars (o : Nat) (x : W64) : (s.setCfg o x).jobBars = s.jobBars := rfl
@[simp] theorem State.setCfg_ctxs (o : Nat) (x : W64) : (s.setCfg o x).ctxs = s.ctxs := rfl
@[simp] theorem State.setCfg_groups (o : Nat) (x : W64) : (s.setCfg o x).groups = s.groups := rfl
@[simp] theorem State.setCfg_ridgeWaits (o : Nat) (x : W64) : (s.setCfg o x).ridgeWaits = s.ridgeWaits := rfl
@[simp] theorem State.setCfg_acc (o : Nat) (x : W64) : (s.setCfg o x).acc = s.acc := rfl
@[simp] theorem State.setCfg_dq (o : Nat) (x : W64) : (s.setCfg o x).dq = s.dq := rfl
@[simp] theorem State.setCfg_dqAcq (o : Nat) (x : W64) : (s.setCfg o x).dqAcq = s.dqAcq := rfl
@[simp] theorem State.setCfg_spawnq (o : Nat) (x : W64) : (s.setCfg o x).spawnq = s.spawnq := rfl
@[simp] theorem State.setCfg_cycle (o : Nat) (x : W64) : (s.setCfg o x).cycle = s.cycle := rfl
@[simp] theorem State.setCfg_tlb (o : Nat) (x : W64) : (s.setCfg o x).tlb = s.tlb := rfl
@[simp] theorem State.setCfg_hcache (o : Nat) (x : W64) : (s.setCfg o x).hcache = s.hcache := rfl
@[simp] theorem State.setCfg_xlt (o : Nat) (x : W64) : (s.setCfg o x).xlt = s.xlt := rfl
@[simp] theorem State.setCfg_hxlt (o : Nat) (x : W64) : (s.setCfg o x).hxlt = s.hxlt := rfl
@[simp] theorem State.setCfg_spl (o : Nat) (x : W64) : (s.setCfg o x).spl = s.spl := rfl
@[simp] theorem State.setCfg_subs (o : Nat) (x : W64) : (s.setCfg o x).subs = s.subs := rfl
@[simp] theorem State.setCfg_batches (o : Nat) (x : W64) : (s.setCfg o x).batches = s.batches := rfl
@[simp] theorem State.setCfg_rafter (o : Nat) (x : W64) : (s.setCfg o x).rafter = s.rafter := rfl
@[simp] theorem State.setCfg_pause (o : Nat) (x : W64) : (s.setCfg o x).pause = s.pause := rfl
@[simp] theorem State.setCfg_pausedAt (o : Nat) (x : W64) : (s.setCfg o x).pausedAt = s.pausedAt := rfl
@[simp] theorem State.setCfg_dying (o : Nat) (x : W64) : (s.setCfg o x).dying = s.dying := rfl
@[simp] theorem State.setCfg_svcOut (o : Nat) (x : W64) : (s.setCfg o x).svcOut = s.svcOut := rfl
@[simp] theorem State.setCfg_weirHeld (o : Nat) (x : W64) : (s.setCfg o x).weirHeld = s.weirHeld := rfl
@[simp] theorem State.setCfg_weirQ (o : Nat) (x : W64) : (s.setCfg o x).weirQ = s.weirQ := rfl
@[simp] theorem State.setCfg_edge (o : Nat) (x : W64) : (s.setCfg o x).edge = s.edge := rfl
@[simp] theorem State.setCfg_clusters (o : Nat) (x : W64) : (s.setCfg o x).clusters = s.clusters := rfl
@[simp] theorem State.setCfg_pairHold (o : Nat) (x : W64) : (s.setCfg o x).pairHold = s.pairHold := rfl
@[simp] theorem State.setCfg_restarts (o : Nat) (x : W64) : (s.setCfg o x).restarts = s.restarts := rfl
@[simp] theorem State.setCfg_beats (o : Nat) (x : W64) : (s.setCfg o x).beats = s.beats := rfl
@[simp] theorem State.setCfg_asked (o : Nat) (x : W64) : (s.setCfg o x).asked = s.asked := rfl
@[simp] theorem State.setCfg_tripped (o : Nat) (x : W64) : (s.setCfg o x).tripped = s.tripped := rfl
@[simp] theorem State.setCfg_nvme (o : Nat) (x : W64) : (s.setCfg o x).nvme = s.nvme := rfl
@[simp] theorem State.setCfg_nvmeDirty (o : Nat) (x : W64) : (s.setCfg o x).nvmeDirty = s.nvmeDirty := rfl
@[simp] theorem State.setCfg_intrs (o : Nat) (x : W64) : (s.setCfg o x).intrs = s.intrs := rfl
@[simp] theorem State.setCfg_harts (o : Nat) (x : W64) : (s.setCfg o x).harts = s.harts := rfl
@[simp] theorem State.setCfg_handover (o : Nat) (x : W64) : (s.setCfg o x).handover = s.handover := rfl

/-! ## setHart -/

@[simp] theorem State.setHart_boot (h : Nat) (x : Hart) : (s.setHart h x).boot = s.boot := rfl
@[simp] theorem State.setHart_time (h : Nat) (x : Hart) : (s.setHart h x).time = s.time := rfl
@[simp] theorem State.setHart_timeFrac (h : Nat) (x : Hart) : (s.setHart h x).timeFrac = s.timeFrac := rfl
@[simp] theorem State.setHart_clock (h : Nat) (x : Hart) : (s.setHart h x).clock = s.clock := rfl
@[simp] theorem State.setHart_agenda (h : Nat) (x : Hart) : (s.setHart h x).agenda = s.agenda := rfl
@[simp] theorem State.setHart_spare (h : Nat) (x : Hart) : (s.setHart h x).spare = s.spare := rfl
@[simp] theorem State.setHart_round (h : Nat) (x : Hart) : (s.setHart h x).round = s.round := rfl
@[simp] theorem State.setHart_served (h : Nat) (x : Hart) : (s.setHart h x).served = s.served := rfl
@[simp] theorem State.setHart_cur (h : Nat) (x : Hart) : (s.setHart h x).cur = s.cur := rfl
@[simp] theorem State.setHart_held (h : Nat) (x : Hart) : (s.setHart h x).held = s.held := rfl
@[simp] theorem State.setHart_cfg (h : Nat) (x : Hart) : (s.setHart h x).cfg = s.cfg := rfl
@[simp] theorem State.setHart_inv (h : Nat) (x : Hart) : (s.setHart h x).inv = s.inv := rfl
@[simp] theorem State.setHart_mem (h : Nat) (x : Hart) : (s.setHart h x).mem = s.mem := rfl
@[simp] theorem State.setHart_peer (h : Nat) (x : Hart) : (s.setHart h x).peer = s.peer := rfl
@[simp] theorem State.setHart_carved (h : Nat) (x : Hart) : (s.setHart h x).carved = s.carved := rfl
@[simp] theorem State.setHart_carvedOwner (h : Nat) (x : Hart) : (s.setHart h x).carvedOwner = s.carvedOwner := rfl
@[simp] theorem State.setHart_scratch (h : Nat) (x : Hart) : (s.setHart h x).scratch = s.scratch := rfl
@[simp] theorem State.setHart_gscratch (h : Nat) (x : Hart) : (s.setHart h x).gscratch = s.gscratch := rfl
@[simp] theorem State.setHart_l1 (h : Nat) (x : Hart) : (s.setHart h x).l1 = s.l1 := rfl
@[simp] theorem State.setHart_hl2 (h : Nat) (x : Hart) : (s.setHart h x).hl2 = s.hl2 := rfl
@[simp] theorem State.setHart_mere (h : Nat) (x : Hart) : (s.setHart h x).mere = s.mere := rfl
@[simp] theorem State.setHart_tree (h : Nat) (x : Hart) : (s.setHart h x).tree = s.tree := rfl
@[simp] theorem State.setHart_poison (h : Nat) (x : Hart) : (s.setHart h x).poison = s.poison := rfl
@[simp] theorem State.setHart_latent (h : Nat) (x : Hart) : (s.setHart h x).latent = s.latent := rfl
@[simp] theorem State.setHart_regErr (h : Nat) (x : Hart) : (s.setHart h x).regErr = s.regErr := rfl
@[simp] theorem State.setHart_corrected (h : Nat) (x : Hart) : (s.setHart h x).corrected = s.corrected := rfl
@[simp] theorem State.setHart_gating (h : Nat) (x : Hart) : (s.setHart h x).gating = s.gating := rfl
@[simp] theorem State.setHart_retired (h : Nat) (x : Hart) : (s.setHart h x).retired = s.retired := rfl
@[simp] theorem State.setHart_ue (h : Nat) (x : Hart) : (s.setHart h x).ue = s.ue := rfl
@[simp] theorem State.setHart_silt (h : Nat) (x : Hart) : (s.setHart h x).silt = s.silt := rfl
@[simp] theorem State.setHart_siltCount (h : Nat) (x : Hart) : (s.setHart h x).siltCount = s.siltCount := rfl
@[simp] theorem State.setHart_siltRead (h : Nat) (x : Hart) : (s.setHart h x).siltRead = s.siltRead := rfl
@[simp] theorem State.setHart_siltFlash (h : Nat) (x : Hart) : (s.setHart h x).siltFlash = s.siltFlash := rfl
@[simp] theorem State.setHart_gpio (h : Nat) (x : Hart) : (s.setHart h x).gpio = s.gpio := rfl
@[simp] theorem State.setHart_kills (h : Nat) (x : Hart) : (s.setHart h x).kills = s.kills := rfl
@[simp] theorem State.setHart_threads (h : Nat) (x : Hart) : (s.setHart h x).threads = s.threads := rfl
@[simp] theorem State.setHart_blocks (h : Nat) (x : Hart) : (s.setHart h x).blocks = s.blocks := rfl
@[simp] theorem State.setHart_nextBlock (h : Nat) (x : Hart) : (s.setHart h x).nextBlock = s.nextBlock := rfl
@[simp] theorem State.setHart_jobs (h : Nat) (x : Hart) : (s.setHart h x).jobs = s.jobs := rfl
@[simp] theorem State.setHart_nextJobs (h : Nat) (x : Hart) : (s.setHart h x).nextJobs = s.nextJobs := rfl
@[simp] theorem State.setHart_arms (h : Nat) (x : Hart) : (s.setHart h x).arms = s.arms := rfl
@[simp] theorem State.setHart_streams (h : Nat) (x : Hart) : (s.setHart h x).streams = s.streams := rfl
@[simp] theorem State.setHart_lastData (h : Nat) (x : Hart) : (s.setHart h x).lastData = s.lastData := rfl
@[simp] theorem State.setHart_sems (h : Nat) (x : Hart) : (s.setHart h x).sems = s.sems := rfl
@[simp] theorem State.setHart_ticket (h : Nat) (x : Hart) : (s.setHart h x).ticket = s.ticket := rfl
@[simp] theorem State.setHart_coreBars (h : Nat) (x : Hart) : (s.setHart h x).coreBars = s.coreBars := rfl
@[simp] theorem State.setHart_jobBars (h : Nat) (x : Hart) : (s.setHart h x).jobBars = s.jobBars := rfl
@[simp] theorem State.setHart_ctxs (h : Nat) (x : Hart) : (s.setHart h x).ctxs = s.ctxs := rfl
@[simp] theorem State.setHart_groups (h : Nat) (x : Hart) : (s.setHart h x).groups = s.groups := rfl
@[simp] theorem State.setHart_ridgeWaits (h : Nat) (x : Hart) : (s.setHart h x).ridgeWaits = s.ridgeWaits := rfl
@[simp] theorem State.setHart_acc (h : Nat) (x : Hart) : (s.setHart h x).acc = s.acc := rfl
@[simp] theorem State.setHart_dq (h : Nat) (x : Hart) : (s.setHart h x).dq = s.dq := rfl
@[simp] theorem State.setHart_dqAcq (h : Nat) (x : Hart) : (s.setHart h x).dqAcq = s.dqAcq := rfl
@[simp] theorem State.setHart_spawnq (h : Nat) (x : Hart) : (s.setHart h x).spawnq = s.spawnq := rfl
@[simp] theorem State.setHart_cycle (h : Nat) (x : Hart) : (s.setHart h x).cycle = s.cycle := rfl
@[simp] theorem State.setHart_tlb (h : Nat) (x : Hart) : (s.setHart h x).tlb = s.tlb := rfl
@[simp] theorem State.setHart_hcache (h : Nat) (x : Hart) : (s.setHart h x).hcache = s.hcache := rfl
@[simp] theorem State.setHart_xlt (h : Nat) (x : Hart) : (s.setHart h x).xlt = s.xlt := rfl
@[simp] theorem State.setHart_hxlt (h : Nat) (x : Hart) : (s.setHart h x).hxlt = s.hxlt := rfl
@[simp] theorem State.setHart_spl (h : Nat) (x : Hart) : (s.setHart h x).spl = s.spl := rfl
@[simp] theorem State.setHart_subs (h : Nat) (x : Hart) : (s.setHart h x).subs = s.subs := rfl
@[simp] theorem State.setHart_batches (h : Nat) (x : Hart) : (s.setHart h x).batches = s.batches := rfl
@[simp] theorem State.setHart_rafter (h : Nat) (x : Hart) : (s.setHart h x).rafter = s.rafter := rfl
@[simp] theorem State.setHart_pause (h : Nat) (x : Hart) : (s.setHart h x).pause = s.pause := rfl
@[simp] theorem State.setHart_pausedAt (h : Nat) (x : Hart) : (s.setHart h x).pausedAt = s.pausedAt := rfl
@[simp] theorem State.setHart_dying (h : Nat) (x : Hart) : (s.setHart h x).dying = s.dying := rfl
@[simp] theorem State.setHart_svcOut (h : Nat) (x : Hart) : (s.setHart h x).svcOut = s.svcOut := rfl
@[simp] theorem State.setHart_weirHeld (h : Nat) (x : Hart) : (s.setHart h x).weirHeld = s.weirHeld := rfl
@[simp] theorem State.setHart_weirQ (h : Nat) (x : Hart) : (s.setHart h x).weirQ = s.weirQ := rfl
@[simp] theorem State.setHart_edge (h : Nat) (x : Hart) : (s.setHart h x).edge = s.edge := rfl
@[simp] theorem State.setHart_clusters (h : Nat) (x : Hart) : (s.setHart h x).clusters = s.clusters := rfl
@[simp] theorem State.setHart_pairHold (h : Nat) (x : Hart) : (s.setHart h x).pairHold = s.pairHold := rfl
@[simp] theorem State.setHart_restarts (h : Nat) (x : Hart) : (s.setHart h x).restarts = s.restarts := rfl
@[simp] theorem State.setHart_beats (h : Nat) (x : Hart) : (s.setHart h x).beats = s.beats := rfl
@[simp] theorem State.setHart_asked (h : Nat) (x : Hart) : (s.setHart h x).asked = s.asked := rfl
@[simp] theorem State.setHart_tripped (h : Nat) (x : Hart) : (s.setHart h x).tripped = s.tripped := rfl
@[simp] theorem State.setHart_nvme (h : Nat) (x : Hart) : (s.setHart h x).nvme = s.nvme := rfl
@[simp] theorem State.setHart_nvmeDirty (h : Nat) (x : Hart) : (s.setHart h x).nvmeDirty = s.nvmeDirty := rfl
@[simp] theorem State.setHart_intrs (h : Nat) (x : Hart) : (s.setHart h x).intrs = s.intrs := rfl
@[simp] theorem State.setHart_handover (h : Nat) (x : Hart) : (s.setHart h x).handover = s.handover := rfl

/-! ## Reading what was written -/

@[simp] theorem State.thread?_setThread_self (t : Nat) (x : Thread) : (s.setThread t x).thread? t = some x := by
  simp [State.thread?, State.setThread]

theorem State.thread?_setThread_ne {t u : Nat} (x : Thread) (h : u ≠ t) : (s.setThread t x).thread? u = s.thread? u := by
  simp [State.thread?, State.setThread, Tbl.get_insert_ne _ _ _ h]

theorem State.thread?_setThread (t u : Nat) (x : Thread) : (s.setThread t x).thread? u = if u = t then some x else s.thread? u := by
  by_cases h : u = t
  · subst h; simp
  · simp [h, State.thread?_setThread_ne]

@[simp] theorem State.block?_setBlock_self (b : Nat) (x : Block) : (s.setBlock b x).block? b = some x := by
  simp [State.block?, State.setBlock]

theorem State.block?_setBlock_ne {b c : Nat} (x : Block) (h : c ≠ b) : (s.setBlock b x).block? c = s.block? c := by
  simp [State.block?, State.setBlock, Tbl.get_insert_ne _ _ _ h]

@[simp] theorem State.thread?_setBlock (b t : Nat) (x : Block) : (s.setBlock b x).thread? t = s.thread? t := rfl
@[simp] theorem State.thread?_setCfg (o t : Nat) (x : W64) : (s.setCfg o x).thread? t = s.thread? t := rfl
@[simp] theorem State.thread?_setStream (k t : Nat) (x : Stream) : (s.setStream k x).thread? t = s.thread? t := rfl
@[simp] theorem State.thread?_setSem (k t : Nat) (x : Sem) : (s.setSem k x).thread? t = s.thread? t := rfl
@[simp] theorem State.thread?_setCtx (k t : Nat) (x : Ctx) : (s.setCtx k x).thread? t = s.thread? t := rfl
@[simp] theorem State.thread?_setGroup (k t : Nat) (x : Group) : (s.setGroup k x).thread? t = s.thread? t := rfl

/-- Changing a resident thread: the thread itself. -/
theorem State.thread?_mapThread (t u : Nat) (f : Thread → Thread) :
    (s.mapThread t f).thread? u = if u = t then (s.thread? u).map f else s.thread? u := by
  unfold State.mapThread
  split
  · rename_i h
    by_cases hu : u = t
    · subst hu; simp [h]
    · simp [hu]
  · rename_i th h
    rw [State.thread?_setThread]
    by_cases hu : u = t
    · subst hu; simp [h]
    · simp [hu]

@[simp] theorem State.thread?_mapThread_self (t : Nat) (f : Thread → Thread) : (s.mapThread t f).thread? t = (s.thread? t).map f := by
  simp [State.thread?_mapThread]

@[simp] theorem State.mapThread_boot (t : Nat) (f : Thread → Thread) : (s.mapThread t f).boot = s.boot := by
  unfold State.mapThread; split <;> rfl
@[simp] theorem State.mapThread_time (t : Nat) (f : Thread → Thread) : (s.mapThread t f).time = s.time := by
  unfold State.mapThread; split <;> rfl
@[simp] theorem State.mapThread_timeFrac (t : Nat) (f : Thread → Thread) : (s.mapThread t f).timeFrac = s.timeFrac := by
  unfold State.mapThread; split <;> rfl
@[simp] theorem State.mapThread_clock (t : Nat) (f : Thread → Thread) : (s.mapThread t f).clock = s.clock := by
  unfold State.mapThread; split <;> rfl
@[simp] theorem State.mapThread_agenda (t : Nat) (f : Thread → Thread) : (s.mapThread t f).agenda = s.agenda := by
  unfold State.mapThread; split <;> rfl
@[simp] theorem State.mapThread_spare (t : Nat) (f : Thread → Thread) : (s.mapThread t f).spare = s.spare := by
  unfold State.mapThread; split <;> rfl
@[simp] theorem State.mapThread_round (t : Nat) (f : Thread → Thread) : (s.mapThread t f).round = s.round := by
  unfold State.mapThread; split <;> rfl
@[simp] theorem State.mapThread_served (t : Nat) (f : Thread → Thread) : (s.mapThread t f).served = s.served := by
  unfold State.mapThread; split <;> rfl
@[simp] theorem State.mapThread_cur (t : Nat) (f : Thread → Thread) : (s.mapThread t f).cur = s.cur := by
  unfold State.mapThread; split <;> rfl
@[simp] theorem State.mapThread_held (t : Nat) (f : Thread → Thread) : (s.mapThread t f).held = s.held := by
  unfold State.mapThread; split <;> rfl
@[simp] theorem State.mapThread_cfg (t : Nat) (f : Thread → Thread) : (s.mapThread t f).cfg = s.cfg := by
  unfold State.mapThread; split <;> rfl
@[simp] theorem State.mapThread_inv (t : Nat) (f : Thread → Thread) : (s.mapThread t f).inv = s.inv := by
  unfold State.mapThread; split <;> rfl
@[simp] theorem State.mapThread_mem (t : Nat) (f : Thread → Thread) : (s.mapThread t f).mem = s.mem := by
  unfold State.mapThread; split <;> rfl
@[simp] theorem State.mapThread_peer (t : Nat) (f : Thread → Thread) : (s.mapThread t f).peer = s.peer := by
  unfold State.mapThread; split <;> rfl
@[simp] theorem State.mapThread_carved (t : Nat) (f : Thread → Thread) : (s.mapThread t f).carved = s.carved := by
  unfold State.mapThread; split <;> rfl
@[simp] theorem State.mapThread_carvedOwner (t : Nat) (f : Thread → Thread) : (s.mapThread t f).carvedOwner = s.carvedOwner := by
  unfold State.mapThread; split <;> rfl
@[simp] theorem State.mapThread_scratch (t : Nat) (f : Thread → Thread) : (s.mapThread t f).scratch = s.scratch := by
  unfold State.mapThread; split <;> rfl
@[simp] theorem State.mapThread_gscratch (t : Nat) (f : Thread → Thread) : (s.mapThread t f).gscratch = s.gscratch := by
  unfold State.mapThread; split <;> rfl
@[simp] theorem State.mapThread_l1 (t : Nat) (f : Thread → Thread) : (s.mapThread t f).l1 = s.l1 := by
  unfold State.mapThread; split <;> rfl
@[simp] theorem State.mapThread_hl2 (t : Nat) (f : Thread → Thread) : (s.mapThread t f).hl2 = s.hl2 := by
  unfold State.mapThread; split <;> rfl
@[simp] theorem State.mapThread_mere (t : Nat) (f : Thread → Thread) : (s.mapThread t f).mere = s.mere := by
  unfold State.mapThread; split <;> rfl
@[simp] theorem State.mapThread_tree (t : Nat) (f : Thread → Thread) : (s.mapThread t f).tree = s.tree := by
  unfold State.mapThread; split <;> rfl
@[simp] theorem State.mapThread_poison (t : Nat) (f : Thread → Thread) : (s.mapThread t f).poison = s.poison := by
  unfold State.mapThread; split <;> rfl
@[simp] theorem State.mapThread_latent (t : Nat) (f : Thread → Thread) : (s.mapThread t f).latent = s.latent := by
  unfold State.mapThread; split <;> rfl
@[simp] theorem State.mapThread_regErr (t : Nat) (f : Thread → Thread) : (s.mapThread t f).regErr = s.regErr := by
  unfold State.mapThread; split <;> rfl
@[simp] theorem State.mapThread_corrected (t : Nat) (f : Thread → Thread) : (s.mapThread t f).corrected = s.corrected := by
  unfold State.mapThread; split <;> rfl
@[simp] theorem State.mapThread_gating (t : Nat) (f : Thread → Thread) : (s.mapThread t f).gating = s.gating := by
  unfold State.mapThread; split <;> rfl
@[simp] theorem State.mapThread_retired (t : Nat) (f : Thread → Thread) : (s.mapThread t f).retired = s.retired := by
  unfold State.mapThread; split <;> rfl
@[simp] theorem State.mapThread_ue (t : Nat) (f : Thread → Thread) : (s.mapThread t f).ue = s.ue := by
  unfold State.mapThread; split <;> rfl
@[simp] theorem State.mapThread_silt (t : Nat) (f : Thread → Thread) : (s.mapThread t f).silt = s.silt := by
  unfold State.mapThread; split <;> rfl
@[simp] theorem State.mapThread_siltCount (t : Nat) (f : Thread → Thread) : (s.mapThread t f).siltCount = s.siltCount := by
  unfold State.mapThread; split <;> rfl
@[simp] theorem State.mapThread_siltRead (t : Nat) (f : Thread → Thread) : (s.mapThread t f).siltRead = s.siltRead := by
  unfold State.mapThread; split <;> rfl
@[simp] theorem State.mapThread_siltFlash (t : Nat) (f : Thread → Thread) : (s.mapThread t f).siltFlash = s.siltFlash := by
  unfold State.mapThread; split <;> rfl
@[simp] theorem State.mapThread_gpio (t : Nat) (f : Thread → Thread) : (s.mapThread t f).gpio = s.gpio := by
  unfold State.mapThread; split <;> rfl
@[simp] theorem State.mapThread_kills (t : Nat) (f : Thread → Thread) : (s.mapThread t f).kills = s.kills := by
  unfold State.mapThread; split <;> rfl
@[simp] theorem State.mapThread_blocks (t : Nat) (f : Thread → Thread) : (s.mapThread t f).blocks = s.blocks := by
  unfold State.mapThread; split <;> rfl
@[simp] theorem State.mapThread_nextBlock (t : Nat) (f : Thread → Thread) : (s.mapThread t f).nextBlock = s.nextBlock := by
  unfold State.mapThread; split <;> rfl
@[simp] theorem State.mapThread_jobs (t : Nat) (f : Thread → Thread) : (s.mapThread t f).jobs = s.jobs := by
  unfold State.mapThread; split <;> rfl
@[simp] theorem State.mapThread_nextJobs (t : Nat) (f : Thread → Thread) : (s.mapThread t f).nextJobs = s.nextJobs := by
  unfold State.mapThread; split <;> rfl
@[simp] theorem State.mapThread_arms (t : Nat) (f : Thread → Thread) : (s.mapThread t f).arms = s.arms := by
  unfold State.mapThread; split <;> rfl
@[simp] theorem State.mapThread_streams (t : Nat) (f : Thread → Thread) : (s.mapThread t f).streams = s.streams := by
  unfold State.mapThread; split <;> rfl
@[simp] theorem State.mapThread_lastData (t : Nat) (f : Thread → Thread) : (s.mapThread t f).lastData = s.lastData := by
  unfold State.mapThread; split <;> rfl
@[simp] theorem State.mapThread_sems (t : Nat) (f : Thread → Thread) : (s.mapThread t f).sems = s.sems := by
  unfold State.mapThread; split <;> rfl
@[simp] theorem State.mapThread_ticket (t : Nat) (f : Thread → Thread) : (s.mapThread t f).ticket = s.ticket := by
  unfold State.mapThread; split <;> rfl
@[simp] theorem State.mapThread_coreBars (t : Nat) (f : Thread → Thread) : (s.mapThread t f).coreBars = s.coreBars := by
  unfold State.mapThread; split <;> rfl
@[simp] theorem State.mapThread_jobBars (t : Nat) (f : Thread → Thread) : (s.mapThread t f).jobBars = s.jobBars := by
  unfold State.mapThread; split <;> rfl
@[simp] theorem State.mapThread_ctxs (t : Nat) (f : Thread → Thread) : (s.mapThread t f).ctxs = s.ctxs := by
  unfold State.mapThread; split <;> rfl
@[simp] theorem State.mapThread_groups (t : Nat) (f : Thread → Thread) : (s.mapThread t f).groups = s.groups := by
  unfold State.mapThread; split <;> rfl
@[simp] theorem State.mapThread_ridgeWaits (t : Nat) (f : Thread → Thread) : (s.mapThread t f).ridgeWaits = s.ridgeWaits := by
  unfold State.mapThread; split <;> rfl
@[simp] theorem State.mapThread_acc (t : Nat) (f : Thread → Thread) : (s.mapThread t f).acc = s.acc := by
  unfold State.mapThread; split <;> rfl
@[simp] theorem State.mapThread_dq (t : Nat) (f : Thread → Thread) : (s.mapThread t f).dq = s.dq := by
  unfold State.mapThread; split <;> rfl
@[simp] theorem State.mapThread_dqAcq (t : Nat) (f : Thread → Thread) : (s.mapThread t f).dqAcq = s.dqAcq := by
  unfold State.mapThread; split <;> rfl
@[simp] theorem State.mapThread_spawnq (t : Nat) (f : Thread → Thread) : (s.mapThread t f).spawnq = s.spawnq := by
  unfold State.mapThread; split <;> rfl
@[simp] theorem State.mapThread_cycle (t : Nat) (f : Thread → Thread) : (s.mapThread t f).cycle = s.cycle := by
  unfold State.mapThread; split <;> rfl
@[simp] theorem State.mapThread_tlb (t : Nat) (f : Thread → Thread) : (s.mapThread t f).tlb = s.tlb := by
  unfold State.mapThread; split <;> rfl
@[simp] theorem State.mapThread_hcache (t : Nat) (f : Thread → Thread) : (s.mapThread t f).hcache = s.hcache := by
  unfold State.mapThread; split <;> rfl
@[simp] theorem State.mapThread_xlt (t : Nat) (f : Thread → Thread) : (s.mapThread t f).xlt = s.xlt := by
  unfold State.mapThread; split <;> rfl
@[simp] theorem State.mapThread_hxlt (t : Nat) (f : Thread → Thread) : (s.mapThread t f).hxlt = s.hxlt := by
  unfold State.mapThread; split <;> rfl
@[simp] theorem State.mapThread_spl (t : Nat) (f : Thread → Thread) : (s.mapThread t f).spl = s.spl := by
  unfold State.mapThread; split <;> rfl
@[simp] theorem State.mapThread_subs (t : Nat) (f : Thread → Thread) : (s.mapThread t f).subs = s.subs := by
  unfold State.mapThread; split <;> rfl
@[simp] theorem State.mapThread_batches (t : Nat) (f : Thread → Thread) : (s.mapThread t f).batches = s.batches := by
  unfold State.mapThread; split <;> rfl
@[simp] theorem State.mapThread_rafter (t : Nat) (f : Thread → Thread) : (s.mapThread t f).rafter = s.rafter := by
  unfold State.mapThread; split <;> rfl
@[simp] theorem State.mapThread_pause (t : Nat) (f : Thread → Thread) : (s.mapThread t f).pause = s.pause := by
  unfold State.mapThread; split <;> rfl
@[simp] theorem State.mapThread_pausedAt (t : Nat) (f : Thread → Thread) : (s.mapThread t f).pausedAt = s.pausedAt := by
  unfold State.mapThread; split <;> rfl
@[simp] theorem State.mapThread_dying (t : Nat) (f : Thread → Thread) : (s.mapThread t f).dying = s.dying := by
  unfold State.mapThread; split <;> rfl
@[simp] theorem State.mapThread_svcOut (t : Nat) (f : Thread → Thread) : (s.mapThread t f).svcOut = s.svcOut := by
  unfold State.mapThread; split <;> rfl
@[simp] theorem State.mapThread_weirHeld (t : Nat) (f : Thread → Thread) : (s.mapThread t f).weirHeld = s.weirHeld := by
  unfold State.mapThread; split <;> rfl
@[simp] theorem State.mapThread_weirQ (t : Nat) (f : Thread → Thread) : (s.mapThread t f).weirQ = s.weirQ := by
  unfold State.mapThread; split <;> rfl
@[simp] theorem State.mapThread_edge (t : Nat) (f : Thread → Thread) : (s.mapThread t f).edge = s.edge := by
  unfold State.mapThread; split <;> rfl
@[simp] theorem State.mapThread_clusters (t : Nat) (f : Thread → Thread) : (s.mapThread t f).clusters = s.clusters := by
  unfold State.mapThread; split <;> rfl
@[simp] theorem State.mapThread_pairHold (t : Nat) (f : Thread → Thread) : (s.mapThread t f).pairHold = s.pairHold := by
  unfold State.mapThread; split <;> rfl
@[simp] theorem State.mapThread_restarts (t : Nat) (f : Thread → Thread) : (s.mapThread t f).restarts = s.restarts := by
  unfold State.mapThread; split <;> rfl
@[simp] theorem State.mapThread_beats (t : Nat) (f : Thread → Thread) : (s.mapThread t f).beats = s.beats := by
  unfold State.mapThread; split <;> rfl
@[simp] theorem State.mapThread_asked (t : Nat) (f : Thread → Thread) : (s.mapThread t f).asked = s.asked := by
  unfold State.mapThread; split <;> rfl
@[simp] theorem State.mapThread_tripped (t : Nat) (f : Thread → Thread) : (s.mapThread t f).tripped = s.tripped := by
  unfold State.mapThread; split <;> rfl
@[simp] theorem State.mapThread_nvme (t : Nat) (f : Thread → Thread) : (s.mapThread t f).nvme = s.nvme := by
  unfold State.mapThread; split <;> rfl
@[simp] theorem State.mapThread_nvmeDirty (t : Nat) (f : Thread → Thread) : (s.mapThread t f).nvmeDirty = s.nvmeDirty := by
  unfold State.mapThread; split <;> rfl
@[simp] theorem State.mapThread_intrs (t : Nat) (f : Thread → Thread) : (s.mapThread t f).intrs = s.intrs := by
  unfold State.mapThread; split <;> rfl
@[simp] theorem State.mapThread_harts (t : Nat) (f : Thread → Thread) : (s.mapThread t f).harts = s.harts := by
  unfold State.mapThread; split <;> rfl
@[simp] theorem State.mapThread_handover (t : Nat) (f : Thread → Thread) : (s.mapThread t f).handover = s.handover := by
  unfold State.mapThread; split <;> rfl

end Sys2Proof.Machine
end

