-- ==== Sys2Proof/Laws/Operands.lean ====
section
/-! SUPPORT. Laws of operands and results: reading sources, delivering a result. -/

namespace Sys2Proof.Machine


/-- A pop leaves the popping thread there, of its kind. -/
theorem popPort_kind {s s' : State} {t q : Nat} {v : W64} (h : popPort s t q = .got v s') :
    (s'.thread? t).map (·.kind) = (s.thread? t).map (·.kind) := by
  unfold popPort at h
  split at h
  · cases h
  · rename_i th ht
    split at h
    · split at h
      · cases h
      · cases h; simp [State.acquireAll, ht, Thread.acquireAll]
    · split at h
      · simp only at h
        split at h
        · split at h <;> cases h
        · cases h; simp [State.acquireAll, ht, Thread.acquireAll]
      · split at h
        · split at h
          · cases h; simp [State.acquireAll, ht, Thread.acquireAll]
          · split at h <;> cases h
        · split at h
          · split at h <;> cases h
          · cases h
            change (((s.mapThread t _).thread? t).map _) = _
            rw [State.thread?_mapThread_self, ht]; rfl

/-- Reading the port sources leaves the thread there, of its kind. -/
theorem popAll_kind {t : Nat} {k : TKind} {xs : List (Src × Nat)} {s s' : State} {vs : List (Option W64)}
    (h : popAll t k xs s = .ok (vs, s')) : (s'.thread? t).map (·.kind) = (s.thread? t).map (·.kind) := by
  induction xs generalizing s s' vs with
  | nil => cases h; rfl
  | cons e xs ih =>
    obtain ⟨x, w⟩ := e
    unfold popAll at h
    split at h
    · split at h
      · split at h
        · rename_i hp
          split at h
          · rename_i hq
            cases h
            rw [ih hq, popPort_kind hp]
          · cases h
        all_goals cases h
      · split at h
        · rename_i hq; cases h; exact ih hq
        · cases h
    · split at h
      · rename_i hq; cases h; exact ih hq
      · cases h

/-- Reading the port sources never stops with an answer. -/
theorem popAll_error {t : Nat} {k : TKind} {xs : List (Src × Nat)} {s s' : State} {vs : List Opd} :
    popAll t k xs s ≠ .error (.ok vs s') := by
  induction xs generalizing s with
  | nil => intro h; cases h
  | cons e xs ih =>
    obtain ⟨x, w⟩ := e
    intro h
    unfold popAll at h
    split at h
    · split at h
      · split at h
        · split at h
          · cases h
          · rename_i hq; cases h; exact ih hq
        all_goals cases h
      · split at h
        · cases h
        · rename_i hq; cases h; exact ih hq
    · split at h
      · cases h
      · rename_i hq; cases h; exact ih hq

/-- A change of the threads of a list that keeps their kind. -/
theorem mapMembers_kind (ms : List Nat) (f : Thread → Thread) (hf : ∀ x, (f x).kind = x.kind) (s : State) (t : Nat) :
    ((s.mapMembers ms f).thread? t).map (·.kind) = (s.thread? t).map (·.kind) := by
  induction ms generalizing s with
  | nil => rfl
  | cons m ms ih =>
    change (((s.mapThread m f).mapMembers ms f).thread? t).map _ = _
    rw [ih, State.thread?_mapThread]
    split
    · cases s.thread? t <;> simp [hf]
    · rfl

/-- What a pop acquires for the members of a scope leaves their kinds. -/
theorem shareAcq_kind (c : Ctx0) (s s' : State) (t : Nat) :
    ((s.shareAcq c s').thread? t).map (·.kind) = (s'.thread? t).map (·.kind) := by
  unfold State.shareAcq
  split
  · split
    · rfl
    · exact mapMembers_kind _ _ (fun x => by rfl) _ _
  · rfl

/-- The thread whose sources are read is there before and after. -/
theorem fetchSrcs_kind {c : Ctx0} {s s' : State} {xs : List (Src × Nat)} {vs : List Opd} (h : fetchSrcs c s xs = .ok vs s') :
    ∃ th th', s.thread? c.t = some th ∧ s'.thread? c.t = some th' ∧ th'.kind = th.kind := by
  unfold fetchSrcs at h
  split at h
  · cases h
  · rename_i th ht
    simp only at h
    split at h
    · cases h; exact ⟨th, th, ht, ht, rfl⟩
    · split at h
      · rename_i e he
        subst h
        exact absurd he popAll_error
      · rename_i hp
        cases h
        have := (shareAcq_kind c s _ c.t).trans (popAll_kind hp)
        rw [ht] at this
        generalize hs : s.shareAcq c _ = u at this ⊢
        cases h' : u.thread? c.t with
        | none => rw [h'] at this; simp at this
        | some th' => exact ⟨th, th', ht, rfl, by rw [h'] at this; simpa using this⟩

/-- What a register destination receives. -/
theorem deliverDst_reg {c : Ctx0} {h : Hdr} {d : Dst} {w lat : Nat} {f : Opd} {fl : List (Nat × BitVec 5)} {s : State} {th : Thread}
    (ht : s.thread? c.t = some th) (hi : c.idle = false) (hd : isRegDst th.kind d = true) :
    deliverDst s c h d w lat f fl = .adv (deliver s c h lat (regWrites s c th.kind d w f) fl) := by
  unfold deliverDst regWrites
  simp only [ht, hi]
  simp only [isRegDst] at hd
  cases hd' : effDst th.kind d with
  | vec a => simp
  | scl a =>
    rw [hd'] at hd
    simp only [decide_eq_true_eq] at hd
    have : ¬ (96 ≤ a.toNat) := by omega
    simp [this]

/-- The same once the sources have been read. -/
theorem deliverDst_fetched {p : Ready} {h : Hdr} {d : Dst} {w lat : Nat} {f : Opd} {fl : List (Nat × BitVec 5)} {xs : List (Src × Nat)}
    {vs : List Opd} {s2 : State} (hf : fetchSrcs p.c p.s1 xs = .ok vs s2) (hi : p.c.idle = false) (hd : isRegDst p.kind d = true) :
    deliverDst s2 p.c h d w lat f fl = .adv (deliver s2 p.c h lat (regWrites s2 p.c p.kind d w f) fl) := by
  obtain ⟨th, th', h1, h2, h3⟩ := fetchSrcs_kind hf
  have hk : p.kind = th.kind := by simp [Ready.kind, h1]
  rw [hk, ← h3] at hd ⊢
  exact deliverDst_reg h2 hi hd

/-- The effect of a value instruction. -/
theorem valueBody_result {h : Hdr} {d : Dst} {w lat : Nat} {xs : List (Src × Nat)} {f : Thread → List W64 → W64 × BitVec 5} {p : Ready}
    {vs : List Opd} {s2 : State} (hf : fetchSrcs p.c p.s1 xs = .ok vs s2) (hi : p.c.idle = false) (hd : isRegDst p.kind d = true) :
    valueBody h d w lat xs f p.c p.s1 = .adv ((Val.mk h d w lat xs f).result p vs s2) := by
  unfold valueBody withSrcs
  simp only [hf]
  exact deliverDst_fetched hf hi hd

/-- A ready value instruction finishes with its result. -/
theorem val_finishes {h : Hdr} {d : Dst} {w lat : Nat} {xs : List (Src × Nat)} {f : Thread → List W64 → W64 × BitVec 5} {p : Ready}
    {vs : List Opd} {s2 : State} {i : Instr} {s : State} {k : Checks}
    (hk : Instr.checks i s = some k) (hp : ready i s = some p)
    (he : exec i s = issueR k.op k.h k.reg k.us k.extra (valueBody h d w lat xs f) s)
    (hf : fetchSrcs p.c p.s1 xs = .ok vs s2) (hi : p.c.idle = false) (hd : isRegDst p.kind d = true) :
    Finishes i s p ((Val.mk h d w lat xs f).result p vs s2) := finishes_of hk hp he (valueBody_result hf hi hd)

end Sys2Proof.Machine
end

