-- ==== Sys2Proof/Tests/Slice0.lean ====
section
/-! SUPPORT. Tests. Words written out from the encodings, an ill-formed term for each check of `Instr.wf`, results worked out by hand from
the manual, and for every statement a state and operands that meet its hypotheses. -/

namespace Sys2Proof.Tests
open Sys2Proof.Machine

set_option Elab.async false

/-! ## Small states -/

/-- A core that knows handle 1 (a scratchpad window of 1,024 bytes), handle 2 (4,096 bytes of global space) and handle 5 (one of a tile
group's scratchpad), and that holds the leaf of the first 64 KiB. -/
def base (leaves core : Nat) : State :=
  { State.reset with
    boot := .up
    tlb := [{ where_ := leaves, vi := 0, ctx := 0, level := 3, va := 0, entry := 0x73 }]
    hcache := [{ core := core, vi := 0, ctx := 0, n := 1, words := [0, 1024, 0x93000000, 0] },
               { core := core, vi := 0, ctx := 0, n := 2, words := [0, 4096, 0x83000000, 0] },
               { core := core, vi := 0, ctx := 0, n := 5, words := [0, 65536, 0xA3000000, 0] },
               { core := core, vi := 0, ctx := 0, n := 6, words := [0, 1024, 0x91000000, 0] }] }

/-- Registers of the warp: v1 holds its lane number, v2 the number 3, v3 the float 1.0; s8 holds 5, s9 the number 0x40 and s10 -1. -/
def warpTh : Thread :=
  let th := startThread .simt 0 0 0 0 0 false 128 0x1000
  { th with
    v := ((List.range 31).map fun l => (33 + l, BitVec.ofNat 32 (l + 1))) ++ ((List.range 32).map fun l => (64 + l, 3)) ++
      (List.range 32).map fun l => (96 + l, 0x3F800000)
    s := [(8, 5), (9, 0x40), (10, BitVec.allOnes 64)]
    p := [(1, 0x0000FFFF), (2, 0x00FF00FF), (3, 0x80000001)] }

/-- One warp in slot 0 of SIMT core 0 that stands at 0x1000. -/
def warpWith (th : Thread) : State :=
  { ((base 0 0).setBlock 0 { lonelyBlock false 0 with spSize := 4096 }).setThread 0 th with cur := .thread 0 0xFF }

def warp : State := warpWith warpTh

/-- The two sequencers of a tile thread: AS 4096 and XS 4097, which hold rows 0 to 63 of their array. -/
def tileTh (k : TKind) : Thread :=
  { startThread k 0 0 0 0 0 false 128 0x1000 with
    alim := 63, wlim := 63, s := [(8, 5), (9, 0x40), (10, 7), (11, 0)] }

def tileWith (t : Nat) (as_ xs : Thread) : State :=
  { ((((base (256 + t) 64).setBlock 0 { lonelyBlock true 4096 with spSize := 65536, accRows := 64 }).setThread 4096 as_).setThread 4097 xs) with
    cur := .thread t 1 }

def xseq : State := tileWith 4097 (tileTh .as) (tileTh .xs)
def aseq : State := tileWith 4096 (tileTh .as) (tileTh .xs)

/-- Hart 0, which runs in machine mode with its command port enabled. -/
def hartS : State :=
  { ((State.reset.setHart 0 { freshHart with wait := .run, x := [(5, 7), (6, 0x40)], pc := 0x80 }).setCfg (hcpOff 0 0) 0x8000000000000000) with
    boot := .up, cur := .hart 0 }

/-! ## What is asked of a witness -/

def goesOn (o : Out) : Bool := match o with | .next _ => true | _ => false

/-- The word is ready, its readiness meets `f`, and it answers a next state. -/
def isReady (i : Instr) (s : State) (f : Ready → Bool := fun _ => true) : Bool :=
  match ready i s with
  | some p => f p && goesOn (exec i s)
  | none => false

/-- The word is ready with an active lane and its sources read. -/
def reads (i : Instr) (s : State) (xs : List (Src × Nat)) (f : Ready → List Opd → State → Bool := fun _ _ _ => true) : Bool :=
  isReady i s fun p => !p.c.idle && match fetchSrcs p.c p.s1 xs with
    | .ok vs s2 => f p vs s2
    | _ => false

def H : Hdr := bareHdr .lane
def W : Hdr := bareHdr .warp
/-- A word of the lanes in which p3 holds: the first and the last. -/
def G : Hdr := { H with pr := { neg := false, idx := 3 } }

/-! ## Ill-formed terms, one for each check of `Instr.wf` -/

/-- A guard !p0. -/
def B : Hdr := { H with pr := { neg := true, idx := 0 } }
def P1 : Hdr := { H with pr := { neg := false, idx := 1 } }
def N1 : Hdr := { H with pr := { neg := true, idx := 1 } }
def m32 : MArg := { sz := .b32, ms := .device, sem := .plain, oc := 0, hd := 1, off := .lit 0 }
def g0 : AGrp := { scl := false, n := 1 }
def gs : AGrp := { scl := true, n := 16 }

/-- Guards that are not permitted, and results without a predicate (R66, R81, R250, R272, R275). -/
theorem ill_guards : [Instr.nop B 0, .regang P1 0, .rsectEnter P1, .rsectExit P1, .gpstart P1 8, .gpwait P1 (.scl 8), .gptest P1 1 (.scl 8), .barSync P1 .blk 0,
    .barArv N1 .cor 0, .barWt P1 .cor 0, .ldpoll H false (.vec 4) m32, .ldpoll N1 false (.vec 4) m32, .stcond H (.vec 1) m32, .atom H .bfadd g0 m32].all
      (fun i => !i.wf) = true := by decide

/-- Unused fields, formats and modes (R70, R99, R104, R152, R167-R172). -/
theorem ill_values : [Instr.sel H false (.vec 1) (.vec 2) (.vec 3) true 0, .movs H false true 8 1 (.vec 2), .fclass H .f32 true (.vec 1) (.vec 1),
    .cvtf H false false .f32 .f16 (.mode .rtz) (.vec 1) (.vec 2) (.vec 0), .cvtf H false false .f16 .f16 .dyn (.vec 1) (.vec 2) (.vec 0),
    .cvtf H false true .f16 .f32 .dyn (.vec 1) (.vec 2) (.vec 0), .cvtf H true false .f16 .bf16 .dyn (.vec 1) (.vec 2) (.vec 3),
    .cvtf H false false .f16 .f32 .dyn (.vec 1) (.vec 2) (.vec 3), .cvtfi H true .i32 .f32 .dyn (.vec 1) (.vec 2),
    .cvtfi H false .i32 .f32 (.mode .stoch) (.vec 1) (.vec 2), .cvtif H .i32 .f32 (.mode .stoch) (.vec 1) (.vec 2),
    .cvt8 H true 0 true .e4 (.mode .rne) (.vec 1) (.vec 2) (.vec 0), .cvt4 H true 0 .dyn (.vec 1) (.vec 2) (.vec 0),
    .cvtw H true .e4 false (.mode .stoch) (.vec 1) (.vec 2) (.vec 0), .cvtw H false .f4 true (.mode .rne) (.vec 1) (.vec 2) (.vec 3),
    .shfl H .idx 10 false (.vec 1) (.vec 2) (.lit 0), .perm W 1 (.vec 1) (.vec 2) (.vec 3), .vote H (.ballot 1) (.pred 1),
    .xadd H false 1 (.vec 2) 0, .xadd H false 1 (.vec 2) 96].all (fun i => !i.wf) = true := by decide

/-- Memory fields (R187, R243, R270, R271, R274). -/
theorem ill_memory : [Instr.ld H false (.vec 4) { m32 with sem := .both }, .ld H true (.vec 4) { m32 with sz := .b64 }, .ldsp H true (.vec 4) { m32 with sz := .b128 },
    .st H (.vec 4) { m32 with sem := .both }, .stsp H (.vec 4) { m32 with sem := .both }, .atom H .add gs m32, .atom H .add g0 { m32 with sz := .b8 },
    .atom H .fadd g0 { m32 with sz := .b64 }, .red H .xchg g0 m32, .red H .cas g0 m32, .red H .bfadd g0 m32, .red H .add g0 { m32 with sem := .both },
    .ldres H (.vec 1) { m32 with ms := .core }, .ldres H (.vec 1) { m32 with sz := .b16 }, .stcond P1 (.vec 1) { m32 with ms := .warp }, .cfence H .full .device 0,
    .tld H false 0 m32, .tld H true 0 { m32 with sz := .b8, off := .scl 9 }, .tst H true 0 { m32 with sz := .b8, off := .lit 1 }].all
      (fun i => !i.wf) = true := by decide

/-- Targets, links and fields of control words (R205, R208-R211, R219, R223). -/
theorem ill_control : [Instr.bra H 0 4, .bra W 2 8, .brx W 1 (.scl 8), .call H (.pair 1) 4, .call { W with scp := .block } (.pair 1) 8, .call H (.scl 0) 8,
    .yield H 4, .yieldC H 0 4, .spawn W 0 4, .spawnW W 0 4, .brq H true 4, .loop W 3 (.vec 1), .elect W 1 none 1, .elect W 1 (some 0) 0,
    .ckpt H 0 257 (.lit 0), .barSync H .cor 8, .barArv H .job 4].all (fun i => !i.wf) = true := by decide

/-- Counts, pairs and windows (R196, R199, R414, R444, R446, R457, R458). -/
theorem ill_counts : [Instr.sempPost W 0 0, .semwWait W 0 0, .semwTry W 1 0 0, .sempInit W 0 2 1, .sempInit W 0 0 0, .unsub W true 1, .subflush W true 1,
    .subPub W 9 1 (.lit 0), .subSub W 0 1 (.lit 0), .tshapeReg H (.vec 1), .swr H 0 (.vec 1), .tadd H 3 0 (.vec 0) (.vec 0), .tun H .abs 3 0 (.vec 0),
    .tred H .max .all 1 (.vec 0) (.vec 0), .tred H .add .row 0 (.scl 8) (.vec 0), .tred H .add .all 0 (.vec 0) (.lit 0), .tbc H .row 0 (.lit 0),
    .accrd H false false 3 0 (.lit 0) (.lit 0), .accrd H false false 0 0 (.vec 0) (.lit 0), .accwr H false 0 (.lit 0) (.vec 0), .accwin H false 5 4,
    .accwin H true 0 3, .lease H 65, .hinv H true 1 none].all (fun i => !i.wf) = true := by decide

/-- Words that name something else (R84, R87, R486, R496, R499). -/
theorem ill_words : [Instr.illegalOpcode 0 H, .engineWord 0xC000, .lzFence 4, .lzIllegalInstruction 0x0000168B, .thermalRead []].all
    (fun i => !i.wf) = true := by decide

/-! ## Words written out from their encodings, family by family -/

/-- The word decodes to the instruction, and the instruction encodes to the word. -/
def is64 (w : W64) (i : Instr) : Bool := (match decode64 w with | .ok j => j == i | .error _ => false) && encode64 i == some w && i.wf

/-- Integer, logic, float, generator and lane-network words (R66-R76, R130-R175). -/
theorem words_values :
    is64 0x0000000200000000 (.nop H 2) && is64 0x00003C1508800103 (.imul W .w32 (.scl 8) (.scl 5) (.lit 3)) &&
    is64 0x00002C1509800113 (.shl W false false (.scl 9) (.scl 5) (.lit 2)) && is64 0x001000256E800023 (.mov H true (.scl 0x6E) (.scl 9)) &&
    is64 0x0000080803008112 (.xor { W with wait := 2 } false false (.vec 3) (.vec 2) (.cst 0)) &&
    is64 0x0100D41C04010143 (.ffma { W with wait := 4 } .rne (.vec 4) (.vec 7) (.scl 13) (.vec 4)) &&
    is64 0x000FBC100C000140 (.fadd W .rne (.vec 12) (.vec 4) (.lit 0xFB)) && is64 0x000000070000006C (.rseed H (.lit 1)) &&
    is64 0x0100000700100274 (.xscan { H with scp := .sheaf, sig := some 0 } .add false true 0 (.lit 1)) = true := by decide +kernel

/-- Memory words (R69, R238, R243, R271, R281). -/
theorem words_memory :
    is64 0x1348100308206C80 (.ld { scp := .lane, pr := { neg := true, idx := 3 }, wait := 1, sig := some 1 } false (.vec 8)
      { sz := .b32, ms := .device, sem := .acqrel, oc := 2, hd := 3, off := .vec 4 }) &&
    is64 0x1300030107000193 (.red W .fadd g0 m32) && is64 0x0000000000100385 (.commit { H with scp := .block, sig := some 0 }) &&
    is64 0x0000000000100394 (.redflush { H with scp := .block, sig := some 0 }) = true := by decide +kernel

/-- Control, synchronisation and publication words (R205-R224, R394, R446, R457-R469). -/
theorem words_control :
    is64 0x00000010000005A0 (.bra { W with pr := { neg := false, idx := 1 } } 0 0x10) && is64 0x00001425000001A4 (.loop W 5 (.scl 9)) &&
    is64 0x00000040010000AF (.brq H true 0x40) && is64 0x00000403000040AC (.ckpt { H with wait := 1 } 1 0 (.lit 0)) &&
    is64 0x00000000000040A9 (.exit { H with wait := 1 }) && is64 0x00000000000003B0 (.barSync { H with scp := .block } .blk 0) &&
    is64 0x00010000000001B1 (.sempPost W 0 1) && is64 0x01004000000001B1 (.sempInit W 0 0 1) &&
    is64 0x00000000000001B3 (.rsectEnter W) && is64 0x00000400000001B3 (.rsectExit W) &&
    is64 0x000000000E9001B4 (.gpstart { W with sig := some 0 } 14) && is64 0x00000039000041B5 (.gpwait { W with wait := 1 } (.scl 14)) &&
    is64 0x000025010F8001B7 (.dfree W 15 1 (.scl 9)) && is64 0x00000C00002001B9 (.unsub { W with sig := some 1 } false 3) = true := by decide +kernel

/-- Tile words (R68, R186, R191, R196, R199): t5 in D; t1, t2 and t3 in D, A1 and A2 with FN 1; rows 0 to 63 split; no launches. -/
theorem words_tile :
    is64 0x00000000050000C2 (.tzero H 5) && is64 0x40003008010000C4 (.tadd H 1 1 (.vec 2) (.vec 3)) &&
    is64 0x04FC0000000002D3 (.accwin { H with scp := .sheaf } true 0 63) && is64 0x00000000000000D4 (.lease H 0) = true := by decide +kernel

/-- System words (R202, R229, R230, R413-R415): s8 in D and register 0x25; KILL.ctx; XRET; invalidations. -/
theorem words_system :
    is64 0x00009400088000E2 (.srd H 8 0x25) && is64 0x00000400000000E1 (.killCtx H) && is64 0x00000000000000E0 (.xret H) &&
    is64 0x00409421001000E4 (.tlbinvVa { H with sig := some 0 } true (.scl 8) (.scl 9)) &&
    is64 0x00040000002000E5 (.hinv { H with sig := some 1 } true 0 none) = true := by decide +kernel

/-- An opcode of no row, a reserved bit, and SIG 7 name nothing (R65, R66, R84). -/
theorem words_refused :
    (match decode64 0x00000000000000FF with | .ok (.illegalOpcode 0xFF _) => true | _ => false) && (match decode64 0x80000000050000C2 with | .ok _ => false | .error _ => true) &&
    (match decode64 0x0000000000700000 with | .ok _ => false | .error _ => true) = true := by decide +kernel

/-- Engine words and words of the application cores (R86, R87, R307, R320, R321, R343, R496). -/
theorem words_short :
    [(0xC100, Instr.copy1d false), (0xC300, .mma false false false), (0xC220, .semwait false 0), (0xC221, .semwait false 1), (0xC202, .sempost false 2),
      (0xFFFF, .engineNop), (0x0008, .lit 8), (0x8000, .litx 0), (0xC005, .mul)].all (fun e => decode16 e.1 == e.2 && encode16 e.2 == some e.1) &&
    (decode32 0x0000168B == some (.lzPop .q0 13)) && (encode32 (.lzPop .q0 13) == some 0x0000168B) = true := by decide +kernel

/-! ## Issue -/

def issueOk (i : Instr) (s : State) (t : Nat) (g : BitVec 8) : Bool :=
  match Instr.checks i s, s.thread? t with
  | some k, some th => laneFree k.h s t th g && (gate k.op k.h.scp k.reg k.us k.extra true (laneCtx k.h s t th g) s).isNone
  | _, _ => false

theorem wit_lane_issue : issueOk (.iadd H .w32 (.vec 4) (.vec 1) (.vec 2)) warp 0 0xFF = true ∧ issueOk (.tzero H 1) xseq 4097 1 = true := by
  decide +kernel

/-- What a word that is free at lane scope is checked for, and what the check answers (R81). -/
def checked (i : Instr) (s : State) (t : Nat) (g : BitVec 8) : Option (Nat × Bool × Bool × Bool × Bool × Option Nat) :=
  match Instr.checks i s, s.thread? t with
  | some k, some th =>
    if laneFree k.h s t th g && goesOn (exec i s) then
      some (k.op, (opRow k.op).isSome, profileOk th.kind k.op, privOp k.op || k.reg.any privReg,
        ((opRow k.op).map fun r => r.scopes.contains k.h.scp).getD false, checkUses k.us k.extra (laneCtx k.h s t th g) s)
    else none
  | _, _ => none

/-- Each check of R81 fails in its turn: the opcode, the profile, the privilege, the scope, an operand. -/
theorem wit_checks_fail :
    (checked (.illegalOpcode 0x7F H) warp 0 0xFF).map (fun r => (r.1, r.2.1)) = some (0x7F, false) ∧
    (checked (.tzero H 1) warp 0 0xFF).map (fun r => (r.2.1, r.2.2.1)) = some (true, false) ∧
    (checked (.tlbinvVi H) warp 0 0xFF).map (fun r => (r.2.2.1, r.2.2.2.1)) = some (true, true) ∧
    (checked (.barSync H .blk 0) warp 0 0xFF).map (fun r => (r.2.2.2.1, r.2.2.2.2.1)) = some (false, false) ∧
    (checked (.iadd H .w32 (.vec 4) (.vec 200) (.vec 2)) warp 0 0xFF).map (fun r => (r.2.2.2.2.1, r.2.2.2.2.2)) = some (true, some 34) := by
  decide +kernel

/-- R293: the second source holds an error; and one in a register that the word overwrites whole is gone. -/
def brokenReg (r : Nat) : State := { warp with regErr := [.reg (.v 0 r)] }

theorem wit_register_error :
    (laneFree H (brokenReg 2) 0 warpTh 0xFF && match Instr.checks (.iadd H .w32 (.vec 4) (.vec 1) (.vec 2)) (brokenReg 2) with
      | some k => ((brokenReg 2).regHit k.op k.reg (laneCtx H (brokenReg 2) 0 warpTh 0xFF) k.us == some (.reg (.v 0 2))) &&
          goesOn (exec (.iadd H .w32 (.vec 4) (.vec 1) (.vec 2)) (brokenReg 2))
      | none => false) = true ∧
    (match exec (.iadd H .w32 (.vec 4) (.vec 1) (.vec 2)) (brokenReg 4) with | .next t => t.regErr | _ => [.reg (.v 0 0)]) = [] := by decide +kernel

/-- The warp with one outstanding result on wc0. -/
def waiting : State := warpWith { warpTh with wc := [(0, 1)] }

theorem wit_wait_holds : waiting.blocked 0 { warpTh with wc := [(0, 1)] } = false ∧
    ({ warpTh with wc := [(0, 1)] } : Thread).waitOk 1 = false ∧
    goesOn (exec (.nop { H with wait := 1 } 0) waiting) = true := by decide +kernel

theorem wit_no_lane : ∀ i ∈ [Instr.iadd { H with pr := { neg := true, idx := 1 } } .w32 (.vec 4) (.vec 1) (.vec 2),
      .ld { H with pr := { neg := true, idx := 1 } } false (.vec 4) { sz := .b32, ms := .warp, sem := .plain, oc := 0, hd := 1, off := .vec 1 }],
    isReady i (warpWith { warpTh with p := [(1, 0xFFFFFFFF)] }) (fun p => p.c.idle && idleWord i) = true := by decide +kernel

/-! ## Value instructions -/

/-- The hypotheses of IntegerResults and FloatResults. -/
def valueOk (i : Instr) (s : State) : Bool :=
  match Instr.value i with
  | none => false
  | some k => reads i s k.xs fun p vs s2 =>
      isRegDst p.kind k.d && settles p.c (k.result p vs s2)

def v1 : Src := .vec 1
def v2 : Src := .vec 2
def v3 : Src := .vec 3
def d4 : Dst := .vec 4

theorem wit_integer : ∀ i ∈ [Instr.iadd G .ss d4 v1 v2, .isub G .w64 d4 v2 v2, .imul W .us d4 v1 v2, .imulhi G .s64 d4 v2 v2,
      .imad G .w32 d4 v1 v2 v3, .imin G .s32 d4 v1 v2, .imax G .u32 d4 v1 v2, .iabs G .ss64 d4 v2, .and G false true d4 v1 v2,
      .or G true false d4 v2 v2, .xor G false false (.scl 9) (.scl 8) (.lit 3), .shl G false true d4 v1 (.lit 31), .shr G true true d4 v2 v2,
      .bfx G false true d4 v1 v2 v2, .bfi G false d4 v1 v2 v2, .popc G true d4 v2, .clz G false d4 v1, .ctz G false d4 v1,
      .brev G false d4 v1, .clmul G false true d4 v1 v2, .mov G true (.scl 12) (.scl 10), .movl G d4 0x12345678, .lea G 3 d4 v2 v1],
    (Instr.intValue i).isSome = true ∧ valueOk i warp = true := by decide +kernel

theorem wit_float : ∀ i ∈ [Instr.fadd G .rne d4 v3 v3, .fsub G .rtz d4 v3 v1, .fmul W .dyn d4 v3 v3, .ffma G .rne d4 v3 v3 v3, .fmin G d4 v3 v1,
      .fmax G d4 v3 v1, .fsgn G .neg d4 v3 v3, .fclass G .f32 false d4 v3, .hadd2 G false false d4 v3 v3, .hmul2 G true false d4 v3 v3,
      .hfma2 G false true d4 v3 v3 v3, .hmin2 G false d4 v3 v1, .hmax2 G true d4 v3 v1, .dot2 G false true d4 v3 v3 v3,
      .dot4 G .e4 .e5 d4 v3 v3 v3, .cvtfi G false .i32 .f32 (.mode .rne) d4 v3, .cvtif G .ui32 .f32 (.mode .rne) d4 v1,
      .cvt8 G true 3 false .e4 (.mode .rne) d4 v3 (.vec 0), .cvt4 G true 7 (.mode .rne) d4 v3 (.vec 0),
      .cvtw G true .e4 false (.mode .rne) d4 v3 v2],
    (Instr.floatValue i).isSome = true ∧ valueOk i warp = true := by decide +kernel

/-! ## Ports, reads and frames -/

/-- Port q0 with room takes the value; with a full buffer the word waits. -/
def portOk (s : State) (room : Bool) : Bool :=
  let i : Instr := .mov H false (.scl 96) (.scl 8)
  match Instr.value i with
  | none => false
  | some k => reads i s k.xs fun p _ s2 =>
      decide (effDst p.kind k.d = .scl 96) && portRoom s2 p.c.t 0 k.w == room && (s2.releaseAll p.c.mem).isSome

def fullPort : State := warp.setStream (streamKey 0 0) { warp.stream (streamKey 0 0) with buf := List.replicate 32 (0xFFFF, none, []) }

theorem wit_port : portOk warp true = true ∧ portOk fullPort false = true := by decide +kernel

/-- R88: the push of s8 enters its low word in the buffer of q0. -/
theorem test_push : (match exec (.mov H false (.scl 96) (.scl 8)) warp with
    | .next t => ((t.stream (streamKey 0 0)).buf.map (·.1)).contains 5
    | _ => false) = true := by decide +kernel

theorem wit_register_reads :
    isReady (.iadd G .w64 (.vec 4) (.vec 2) (.vec 2)) warp (fun p =>
      decide p.c.mem.Nodup && p.c.mem.all (fun m => (p.s1.thread? m).isSome) && Tbl.wf 0 warpTh.v && Tbl.wf 0 warpTh.s &&
      hasLane (p.c.active 0) 31 && ((deliver p.s1 p.c G 4 (vecWrites p.s1 p.c 4 64 fun _ _ => 1) []).thread? 0).isSome &&
      ((deliver p.s1 p.c G 4 (sclWrites p.s1 p.c 12 1) []).thread? 0).isSome) = true := by decide +kernel

/-- R132: in 32 bits the sum wraps, and `.ss` clamps it; both land in lane 31 only where the guard holds. -/
def laneAfter (i : Instr) (s : State) (r l : Nat) : Option W32 :=
  match exec i s with
  | .next t => (t.thread? 0).map fun th => th.vreg r l
  | _ => none

def bigTh : Thread := { warpTh with v := [(32, 0x7FFFFFFF), (64, 1)] }

theorem test_add_wraps : laneAfter (.iadd G .w32 (.vec 4) (.vec 1) (.vec 2)) (warpWith bigTh) 4 0 = some 0x80000000 ∧
    laneAfter (.iadd G .ss (.vec 4) (.vec 1) (.vec 2)) (warpWith bigTh) 4 0 = some 0x7FFFFFFF ∧
    laneAfter (.iadd G .w32 (.vec 4) (.vec 1) (.vec 2)) (warpWith bigTh) 4 1 = some 0 := by decide +kernel

/-- R158: 1.0 + 1.0 = 2.0; a source that is also the destination is read first. -/
theorem test_fadd : laneAfter (.fadd G .rne (.vec 3) (.vec 3) (.vec 3)) warp 3 31 = some 0x40000000 := by decide +kernel

/-! ## Predicates, selection, conversions, generators -/

theorem wit_predicates :
    reads (.icmp G .lt true false .and 2 v1 v2) warp [(v1, 32), (v2, 32)] = true ∧
    reads (.fcmp G .eq .write 0 v3 v3) warp [(v3, 32), (v3, 32)] = true ∧
    isReady (.plop G 3 1 2 8) warp (fun p => !p.c.idle) = true ∧
    reads (.sel G false d4 v1 v2 true 1) warp [(v1, 32), (v2, 32)] (fun p _ _ => isRegDst p.kind d4) = true := by decide +kernel

/-- R142: lut 8 is AND: p3 becomes p1 AND p2 in the lanes of p3. -/
theorem test_plop : (match exec (.plop H 3 1 2 8) warp with
    | .next t => (t.thread? 0).map fun th => th.pred 3
    | _ => none) = some 0x000000FF := by decide +kernel

theorem wit_conversions :
    reads (.cvtf G true false .f16 .f32 (.mode .stoch) d4 v3 v3) warp [(v3, 32), (v3, 32)] (fun p _ _ => isRegDst p.kind d4) = true ∧
    reads (.cvtf G false false .bf16 .f32 (.mode .rne) d4 v3 (.vec 0)) warp [(v3, 32)] = true ∧
    reads (.cvt8 G false 1 false .e4 (.mode .stoch) d4 v3 v1) warp [(v3, 32), (v1, 32)] = true ∧
    reads (.cvt4 G false 7 (.mode .rne) d4 v3 v1) warp [(v3, 32), (v1, 32)] = true ∧
    reads (.cvtw G false .e5 true (.mode .rtz) d4 v3 v2) warp [(v3, 32), (v2, 32)] = true ∧
    reads (.rseed G (.lit 1)) warp [(.lit 1, 32)] = true ∧
    isReady (.rnext G 0 true d4) warp (fun p => !p.c.idle && isRegDst p.kind d4) = true ∧
    reads (.rseed H (.scl 8)) xseq [(.scl 8, 32)] = true ∧
    isReady (.rnext H 5 false (.scl 8)) xseq (fun p => !p.c.idle && isRegDst p.kind (.scl 8)) = true := by decide +kernel

/-- R174: lane 0 of RSEED #1 holds 1, lane 31 holds 1 XOR 31 * 0x9E3779B9 modulo 2^32. -/
theorem test_rseed : (match exec (.rseed G (.lit 1)) warp with
    | .next t => (t.thread? 0).map fun th => (th.genAt 0, th.genAt 31)
    | _ => none) = some (1, 0x28B7BD66) := by decide +kernel

/-! ## The lane network -/

theorem wit_lane_network :
    reads (.movs W false true 12 1 (.vec 0)) warp [(.vec 1, 32)] (fun p _ _ => !(spanActive p.c (spanOf p.s1 p.c)).isEmpty) = true ∧
    reads (.movs W false false 12 1 (.scl 8)) warp [(.vec 1, 32), (.scl 8, 32)] = true ∧
    reads (.shfl W .bfly 0 false d4 v1 v2) warp [(v1, 32), (v2, 32)] = true ∧
    reads (.perm W 0 d4 v1 v2) warp [(v1, 32), (v2, 32)] = true ∧
    reads (.xred W .add false (.scl 12) v1) warp [(v1, 32)] = true ∧
    reads (.xred W .umax false d4 v1) warp [(v1, 32)] (fun p _ _ => decide (p.kind ≠ .as)) = true ∧
    reads (.xscan W .add false true 4 v1) warp [(v1, 32)] (fun p _ _ => decide (p.kind ≠ .as)) = true ∧
    isReady (.vote W (.all 1) (.scl 12)) warp = true ∧
    isReady (.vote W (.any 1) (.pred 2)) warp (fun p => !p.c.idle) = true ∧
    reads (.vote W (.uni false v2) (.scl 12)) warp [(v2, 32)] = true ∧
    reads (.xadd W false 4 (.lit 1) 80) warp [(.lit 1, 32)] = true := by decide +kernel

/-- R152, R544: with no lane active a ballot writes 0 and `.all` writes 1. -/
theorem wit_vote_idle : isReady (.vote { W with pr := { neg := true, idx := 3 } } (.all 1) (.scl 12)) (warpWith { warpTh with p := [(3, 0xFFFFFFFF)] })
    (fun p => p.c.idle && (spanActive p.c (spanOf p.s1 p.c)).isEmpty) = true := by decide +kernel

/-! ## Memory -/

def marg (hd : BitVec 8) (off : Src) : MArg := { sz := .b32, ms := .warp, sem := .plain, oc := 0, hd := hd, off := off }

/-- The hypotheses of MemoryIssue, or of AccessFaultTraps where `fails` names the cause. -/
def accessOk (i : Instr) (s : State) (fails : Option Nat) : Bool :=
  match ready i s with
  | none => false
  | some p => reads i s (memSrcs p.kind i) fun p vs s2 =>
      match memAccesses p.kind p.c vs i with
      | none => false
      | some (mop, hd, n, accs) =>
        match s2.checkAccess p.c.t p.c.gang mop hd n accs, fails with
        | (s3, .ok (he, ps)), none => (memPending p.kind p.c s3 he ps i).isSome
        | (_, .error (.trapAt _ code _ _)), some c => code == c
        | _, _ => false

/-- Scratchpad words with an offset of 4 times the lane, at lane scope; the others through the global window or a lane's own word. -/
def offTh : Thread := { warpTh with v := [(32, 0), (63, 124), (64, 0xAA), (95, 0xBB)] }
def offs : State := warpWith offTh

theorem wit_memory_issue : ∀ i ∈ [Instr.ld G false d4 (marg 2 v1), .ldsp G true d4 { marg 1 v1 with sz := .b16 }, .ldpoll { G with sig := some 0 } false d4 (marg 2 v1),
      .ldres H (.scl 12) { marg 2 (.lit 0) with ms := .device }, .st G (.vec 2) (marg 2 v1), .stsp G (.vec 2) (marg 1 v1),
      .stcond { H with pr := { neg := false, idx := 3 } } (.scl 8) { marg 2 (.lit 0) with ms := .device },
      .atom G .add { scl := false, n := 2 } (marg 2 v1), .cctl G true false 2 v1],
    accessOk i offs none = true := by decide +kernel

/-- The last byte of the window passes, the next one does not (R241); a read-only handle, and one that is misaligned. -/
theorem wit_access_faults :
    accessOk (.ldsp G false d4 (marg 1 (.scl 11))) (warpWith { offTh with s := [(11, 1020)] }) none = true ∧
    accessOk (.ldsp G false d4 (marg 1 (.scl 11))) (warpWith { offTh with s := [(11, 1021)] }) (some cBounds) = true ∧
    accessOk (.ldsp G false d4 (marg 1 (.scl 11))) (warpWith { offTh with s := [(11, 2)] }) (some cMisaligned) = true ∧
    accessOk (.ldsp G false d4 (marg 6 v1)) offs (some cPermission) = true ∧
    accessOk (.red G .add { scl := false, n := 2 } (marg 2 (.scl 11))) (warpWith { offTh with s := [(11, 4096)] }) (some cBounds) = true := by
  decide +kernel

/-- The clauses of AccessChecks at the edge of each: a scratchpad window, a tile's and a remote one. -/
def spH (attr : W64) (len : W64) : HEntry := { idx := 1, base := 0, len := len, attr := attr, core := 3 }

theorem wit_access_checks :
    (spH 0x93000000 16).grants .ld = true ∧ (spH 0x91000000 16).grants .ld = false ∧ (spH 0x93000000 16).space = 1 ∧
    (spH 0xA3000000 16).space = 2 ∧ (spH 0xB3000000 16).space = 3 ∧ (spH 0xB3000000 16).core < 64 ∧
    (spH 0x93000000 16).len.toNat < (13 : W64).toNat + 4 ∧ (12 : W64).toNat + 4 ≤ (spH 0x93000000 16).len.toNat := by decide +kernel


theorem wit_handle_info :
    reads (.hinfo G .len d4 (.lit 1)) warp [(.lit 1, 32)] (fun p vs s2 =>
      match s2.thread? p.c.t, vs with
      | some th, [v] => match s2.hinfos p.c.t th .len (accLanes p.c true) v with
        | (s3, .ok _) => s3.thread? p.c.t == some th
        | _ => false
      | _, _ => false) = true := by decide +kernel

theorem wit_fences :
    reads (.pref { G with sig := some 0 } false 2 v1) offs [(v1, 32)] = true ∧
    isReady (.commit { W with scp := .block, sig := some 0 }) warp (fun p => !p.c.idle) = true ∧
    isReady (.cfence W .rel .device 1) warp (fun p => !p.c.idle) = true ∧
    isReady (.redflush { W with sig := some 0 }) warp (fun p => !p.c.idle) = true := by decide +kernel

/-! ## Control -/

theorem wit_nop : isReady (.nop W 65535) warp = true := by decide +kernel

def branchOk (i : Instr) (s : State) (moved : Bool) : Bool :=
  match ready i s with
  | none => false
  | some p => (loopEnd p.s1 p.c).isNone && goesOn (exec i s) &&
      match fetchSrcs p.c p.s1 (branchSrcs i) with
      | .ok vs s2 => (badTarget p.c (vs.getD 0 fun _ _ => 0)).isNone &&
          match branchMove i p.s1 p.c (vs.getD 0 fun _ _ => 0) with
          | some (act, dest, rj) => (match transferAll s2 p.c act dest rj with | .moved _ => moved | .trap c .. => !moved && c == cDivergenceDepth | _ => false)
          | none => false
      | _ => false

theorem wit_branches :
    branchOk (.bra G 0 0x40) warp true = true ∧ branchOk (.bra W 1 0x40) warp true = true ∧
    branchOk (.brx G 5 (.scl 9)) warp true = true ∧ branchOk (.ret W (.scl 9)) warp true = true ∧
    branchOk (.bra H 0 0x40) xseq true = true := by decide +kernel

/-- R208: at warp scope the whole warp goes to PC + OFF. -/
theorem test_bra : (match exec (.bra W 0 0x40) warp with
    | .next t => (t.thread? 0).map fun th => (List.range 8).map fun i => (th.slice i).pc
    | _ => none) = some (List.replicate 8 0x1040) := by decide +kernel

/-- R209: a target that is no multiple of 8. -/
theorem wit_bad_target : reads (.brx G 0 (.scl 9)) (warpWith { warpTh with s := [(9, 0x44)] }) [(.scl 9, 64)]
    (fun p vs _ => (badTarget p.c (vs.getD 0 fun _ _ => 0)).isSome) = true := by decide +kernel

/-- R209: a target at 2^52 is one that the branch moves to and whose fetch faults. -/
theorem wit_far_target : branchOk (.brx G 0 (.scl 9)) (warpWith { warpTh with s := [(9, 0x10000000000000)] }) true = true ∧
    (match exec (.brx G 0 (.scl 9)) (warpWith { warpTh with s := [(9, 0x10000000000000)] }) with
      | .next t => (t.thread? 0).map fun (th : Thread) => th.wild
      | _ => none) = some [(1, 0x10000000000000), (0x80000000, 0x10000000000000)] := by decide +kernel

/-- A warp that issues the last word of its only loop level. -/
def atLend : State := warpWith ((List.range 8).foldl (fun th i => (th.openLoop i 0xFF8 0x1000 3 (BitVec.allOnes 32)).getD th) warpTh |>
  fun th => { th with slices := th.slices.map fun sl => { sl with pc := 0x1000 } })

theorem wit_loop_end : ∀ i ∈ [Instr.bra W 0 0x40, .call W (.scl 1) 0x40, .loop W 3 (.scl 8), .yield W 0x40],
    isReady i atLend (fun p => match loopEnd p.s1 p.c with | some (.trap ..) => true | _ => false) = true := by decide +kernel

/-- R40: from 0xACE1 the bit is 1 XOR 0 XOR 0 XOR 1 = 0, so the state becomes 0x5670; from 0x5670 the bit is 1, so it becomes 0xAB38. -/
theorem test_lfsr : lfsrStep 0xACE1 = (0x5670, false) ∧ lfsrStep 0x5670 = (0xAB38, true) := by decide

theorem wit_divergence : (match warpTh.transfer 0xFF 0x80000001 (fun _ => 0x1040) 0x1008 none with
    | .ok th => th.lfsr == (lfsrStep warpTh.lfsr).1 && warpTh.diverges 0xFF 0x80000001 (fun _ => 0x1040) 0x1008
    | _ => false) = true := by decide +kernel

theorem wit_calls : ∀ i ∈ [Instr.call G (.pair 2) 0x40, .call W (.scl 13) 0x40, .yield G 0x40, .yieldC G 0 0x40],
    isReady i warp (fun p => (loopEnd p.s1 p.c).isNone && !p.c.idle) = true := by decide +kernel

/-- The XS with one outcome in its branch-outcome queue, and with none. -/
def outcomeS (x : List W64) : State := { xseq with dq := [(dqKey 4097 14, x)] }

theorem wit_brq : isReady (.brq H true 0x40) (outcomeS [1]) (fun p => (loopEnd p.s1 p.c).isNone && !p.c.idle && match popPort p.s1 p.c.t 14 with
      | .got x s2 => x == 1 && (match transferAll s2 p.c (fun m => if (x != 0) != false then p.c.active m else 0) (fun _ => p.c.pc + 0x40) none with
        | .moved _ => true
        | _ => false)
      | _ => false) = true := by decide +kernel

/-- R390: a word that finds the queue empty waits. -/
theorem test_brq_empty : (match exec (.brq H false 0x40) (outcomeS []) with | .next t => t.held | _ => false) = true := by decide +kernel

theorem wit_loops :
    reads (.loop W 3 (.scl 8)) warp [(.scl 8, 32)] (fun p _ _ => (loopEnd p.s1 p.c).isNone) = true ∧
    reads (.loop W 3 (.scl 8)) { atLend with cur := .thread 0 0xFF } [(.scl 8, 32)] = true ∧
    isReady (.regang H 0) warp (fun p => (warpTh.regangConflict p.c.gang warpTh.liveSlices p.c.pc).isNone) = true ∧
    isReady (.elect W 2 none 0) warp (fun p => p.c.leader.isSome) = true ∧
    isReady (.elect G 2 (some 0) 255) warp (fun p => p.c.leader == some (0, 0)) = true := by decide +kernel

theorem wit_spawns :
    isReady (.spawn W 2 0x40) warp (fun p => !p.c.idle && (p.s1.freeSlot 0 128).isSome) = true ∧
    isReady (.spawnW W 2 0x40) { warp with spawnq := [(0, List.replicate 15 (spawnReq warpTh 0 0 0 none))] } (fun p => !p.c.idle) = true ∧
    isReady (.spawn W 2 0x40) { warp with spawnq := [(0, List.replicate 16 (spawnReq warpTh 0 0 0 none))] } (fun p => !p.c.idle) = true ∧
    isReady (.spawnW W 2 0x40) { warp with spawnq := [(0, List.replicate 16 (spawnReq warpTh 0 0 0 none))] } (fun p => !p.c.idle) = true ∧
    isReady (.spawn W 2 0x40) (warpWith { warpTh with depth := 7 }) (fun p => !p.c.idle) = true ∧
    ((warp.startSpawn 1 (spawnReq warpTh 0 0x1040 1 none)).thread? 1).isSome = true := by decide +kernel

/-- R55: the new warp holds its depth in s7 and its parent's s8, and stands at the target. -/
theorem test_spawn : (match exec (.spawn W 2 0x40) warp with
    | .next t => (t.thread? 1).map fun th => (th.sreg 7, th.sreg 8, (th.slice 0).pc, th.vreg 2 0)
    | _ => none) = some (1, 5, 0x1040, 0) := by decide +kernel

theorem wit_exits :
    isReady (.exit G) warp (fun p => !p.c.idle) = true ∧
    isReady (.exit { H with pr := { neg := true, idx := 1 } }) (warpWith { warpTh with p := [(1, 0xFFFFFFFF)] }) (fun p => p.c.idle) = true ∧
    isReady (.exit H) xseq (fun p => !p.c.idle && !p.s1.asHalted 4097) = true ∧
    isReady (.svc W 0xFFFF) warp (fun p => !p.c.idle && (p.s1.releaseAll p.c.mem).isSome) = true ∧
    reads (.ckpt H 1 64 (.lit 0)) xseq [(.lit 0, 32)] = true ∧ reads (.ckpt H 1 65 (.lit 0)) xseq [(.lit 0, 32)] = true ∧
    reads (.ckpt H 1 0 (.lit 0)) aseq [(.lit 0, 32)] = true := by decide +kernel

/-- The warp in sheaf 2. -/
def inSheaf : State := warp.setBlock 0 { lonelyBlock false 0 with sheaves := [] }

theorem wit_requests :
    reads (.setpl G (.lit 2)) warp [(.lit 2, 64)] = true ∧ reads (.setpl G (.lit 3)) warp [(.lit 3, 64)] = true ∧
    isReady (.setsh W true 0) warp (fun p => !p.c.idle) = true ∧ isReady (.setsh W false 3) warp (fun p => !p.s1.sheafOk 0 warpTh 3) = true := by
  decide +kernel

/-! ## Traps -/

def trapped : State := warpWith { warpTh with trap := { warpTh.trap with vec := 0x2000 } }

theorem wit_traps :
    isReady (.trap W 0xFFFF) trapped (fun p => !p.c.idle) = true ∧ isReady (.xret H) (warpWith { warpTh with priv := true }) (fun p => !p.c.idle && !p.c.trapm) = true := by
  decide +kernel

/-- The warp once it has taken TRAP #7. -/
def handlerCtx : Ctx0 := { t := 0, gang := 0xFF, scp := .warp, mem := [0], pc := 0x1000, act := [(0, 0xFFFFFFFF)], sheaf := 0, trapm := false }
def inHandler : State := (trapped.trapWord handlerCtx cTrapInstr 7 none true).mapThread 0 fun th => { th with priv := true }

theorem wit_in_handler : (inHandler.thread? 0).map (fun th => (th.inTrap.isSome, th.trap.pc, th.trap.val)) = some (true, 0x1008, 7) ∧
    isReady (.xret H) inHandler (fun p => !p.c.idle && p.c.trapm) = true := by decide +kernel

/-- R229: XRET leaves trap mode and the warp stands at XPC. -/
theorem test_xret : (match exec (.xret H) inHandler with
    | .next t => (t.thread? 0).map fun th => (th.inTrap.isSome, (th.slice 0).pc)
    | _ => none) = some (false, 0x1008) := by decide +kernel

/-! ## Barriers, semaphores, read sections, grace periods -/

/-- The warp in a block with core barrier 0 and job barrier 0. -/
def barS (th : Thread) : State := (warpWith th).setBlock 0 { lonelyBlock false 0 with cbar := 1, jbar := 1 }
def bHdr (n : Nat) : Hdr := bareHdr (if n = 0 then .block else .warp)

theorem wit_barriers :
    isReady (.barArv W .cor 0) (barS warpTh) (fun p => p.c.mem.all (p.s1.barMember .cor · 0) && p.s1.quiet p.c.mem) = true ∧
    isReady (.barArv W .cor 7) (barS warpTh) (fun p => p.c.mem.any fun m => !p.s1.barMember .cor m 7) = true ∧
    isReady (.barArv W .job 0) (barS { warpTh with arvd := [(.job, 0, 0)] }) (fun p => (p.s1.atBar .job 0 1 p.c.pc 0).isNone) = true ∧
    isReady (.barWt W .cor 0) (barS warpTh) (fun p => p.s1.target_ .cor 0 0 ≤ (p.s1.barrierOf .cor 0 0).episode) = true ∧
    isReady (.barWt W .cor 0) (barS { warpTh with arvd := [(.cor, 0, 0)] }) (fun p => (p.s1.barrierOf .cor 0 0).episode < p.s1.target_ .cor 0 0) = true ∧
    isReady (.barSync { W with scp := .block } .blk 0) (barS warpTh) (fun p => p.c.mem.any fun m => (p.s1.atBar .blk 0 0 p.c.pc m).isNone) = true ∧
    isReady (.barSync { W with scp := .block } .blk 0)
      (barS { warpTh with barAt := some { kind := .blk, n := 0, mode := 0, pc := 0x1000, episode := 0, counted := true } })
      (fun p => p.c.mem.all fun m => match p.s1.atBar .blk 0 0 p.c.pc m with
        | some w => w.episode ≤ (p.s1.barrierOf .blk m 0).episode
        | none => false) = true := by decide +kernel

def tileBar : BarWait := { kind := .cor, n := 0, mode := 1, pc := 0x1000, episode := 0, counted := true }
def tileBarS (mode : Nat) : State :=
  ((tileWith 4097 { tileTh .as with barAt := some { tileBar with mode := mode } } { tileTh .xs with barAt := some { tileBar with mode := mode } }).setBlock 0
    { lonelyBlock true 4096 with cbar := 1 })

theorem wit_barrier_sequencers :
    isReady (.barArv W .cor 0) (tileBarS 1) (fun p => isTile p.c.t && p.c.mem.all fun m =>
      p.s1.barMember .cor m 0 && match p.s1.atBar .cor 0 1 p.c.pc m with | some w => w.counted | none => false) = true ∧
    isReady (.barSync W .cor 0) (tileBarS 0) (fun p => p.c.mem.all fun m =>
      match p.s1.atBar .cor 0 0 p.c.pc m with | some w => w.counted && w.episode ≤ (p.s1.barrierOf .cor m 0).episode | none => false) = true := by
  decide +kernel

/-- Every member of core barrier 0 of core 0 has arrived. -/
def completeS : State := (barS { warpTh with arvd := [(.cor, 0, 0)] }).setBarrier .cor 0 0 { episode := 0, begun := true, late := [] }

theorem wit_barrier_release : completeS.barComplete .cor 0 0 (barAt_ completeS .cor 0 0) = true ∧
    completeS.unapplied (completeS.barBlocks .cor 0 0) = false ∧ goesOn (exec (.barrierRelease .cor 0 0) completeS) = true := by decide +kernel

/-- R464: the release opens the next episode. -/
theorem test_release : (match exec (.barrierRelease .cor 0 0) completeS with
    | .next t => some (barAt_ t .cor 0 0).episode
    | _ => none) = some 1 := by decide +kernel

def semS (v : Nat) (takes : List Take) : State := warp.setSem (semKey 0 0) { value := v, ceil := 2, takes := takes }
def oneTake (n : Nat) : Take := { stream := false, who := 0, n := n, ticket := 9 }

theorem wit_semaphore_posts :
    isReady (.sempPost W 0 1) (semS 1 []) (fun p => !p.c.idle && p.s1.quiet p.c.mem) = true ∧
    isReady (.sempPost W 0 1) (semS 2 []) (fun p => !p.c.idle && p.s1.quiet p.c.mem) = true ∧
    isReady (.sempInit W 0 0 1) (semS 2 []) (fun p => !p.c.idle && p.s1.quiet p.c.mem) = true := by decide +kernel

/-- R459, R462: the post to the ceiling is made, the one past it leaves the value. -/
def semAfter (i : Instr) (s : State) : Option (Nat × Nat) :=
  match exec i s with
  | .next t => some ((t.sem (semKey 0 0)).value, (t.sem (semKey 0 0)).ceil)
  | _ => none

theorem test_post : semAfter (.sempPost W 0 1) (semS 1 []) = some (2, 2) ∧ semAfter (.sempPost W 0 1) (semS 2 []) = some (2, 2) ∧
    semAfter (.sempInit W 0 3 7) (semS 2 []) = some (3, 7) ∧ semAfter (.semwWait W 0 2) (semS 2 []) = some (0, 2) := by decide +kernel

theorem wit_semaphore_takes :
    isReady (.semwWait W 0 3) (semS 2 []) (fun p => !p.c.idle) = true ∧ isReady (.semwWait W 0 2) (semS 2 []) = true ∧
    isReady (.semwWait W 0 2) (semS 1 []) = true ∧ isReady (.semwWait W 0 1) (semS 2 [oneTake 1]) = true ∧
    isReady (.semwWait W 0 1) ((semS 2 [oneTake 1]).setThread 0 { warpTh with takes := [{ sem := semKey 0 0, ticket := 9, lanes := 0xFFFFFFFF }] }) = true ∧
    isReady (.semwWait W 0 1) ((semS 2 []).setThread 0 { warpTh with takes := [{ sem := semKey 0 0, ticket := 9, lanes := 0xFFFFFFFF }] }) = true ∧
    isReady (.semwTry W 2 0 3) (semS 2 []) = true ∧ isReady (.semwTry W 2 0 2) (semS 2 []) = true ∧ isReady (.semwTry W 2 0 2) (semS 1 []) = true ∧
    isReady (.semwRd W 12 0) (semS 2 [oneTake 1]) = true := by decide +kernel

theorem wit_semaphore_serves : (semS 1 [oneTake 1, oneTake 2]).sem (semKey 0 0) = { value := 1, ceil := 2, takes := [oneTake 1, oneTake 2] } ∧
    (oneTake 1).n ≤ ((semS 1 [oneTake 1, oneTake 2]).sem (semKey 0 0)).value ∧
    goesOn (exec (.semTakeServed (semKey 0 0)) (semS 1 [oneTake 1, oneTake 2])) = true := by decide +kernel

theorem wit_read_sections :
    isReady (.rsectEnter W) (warpWith { warpTh with rsdepth := 14 }) = true ∧ isReady (.rsectEnter W) (warpWith { warpTh with rsdepth := 15 }) = true ∧
    isReady (.rsectExit W) (warpWith { warpTh with rsdepth := 1 }) (fun p => !(p.s1.pendsOf p.c.t).any (·.op.reads)) = true ∧
    isReady (.rsectExit W) warp = true := by decide +kernel

def depthAfter (i : Instr) (s : State) : Option Nat := match exec i s with | .next t => (t.thread? 0).map (·.rsdepth) | _ => none
theorem test_read_section : depthAfter (.rsectEnter W) (warpWith { warpTh with rsdepth := 14 }) = some 15 ∧
    depthAfter (.rsectExit W) (warpWith { warpTh with rsdepth := 1 }) = some 0 := by decide +kernel

/-- A context with one open grace period, in slot 3. -/
def graceS (mask : List Nat) : State :=
  warp.setCtx (ctxKey 0 0) { grace := [(3, { open_ := true, gen := 5, mask := mask, entries := [], opened := 0 })], wait := [], fifo := [] }
def allOpen : State :=
  warp.setCtx (ctxKey 0 0) { grace := (List.range 16).map fun k => (k, { open_ := true, gen := 0, mask := [1], entries := [], opened := 0 }), wait := [], fifo := [] }

theorem wit_grace :
    isReady (.gpstart W 14) warp (fun p => !p.c.idle && p.s1.quiet p.c.mem && !(p.s1.ctx (ctxKey 0 0)).freeSlots.isEmpty) = true ∧
    isReady (.gpstart W 14) allOpen (fun p => (p.s1.ctx (ctxKey 0 0)).freeSlots.isEmpty) = true ∧
    reads (.gpwait W (.scl 14)) ((graceS [1]).setThread 0 { warpTh with s := [(14, 0x53)] }) [(.scl 14, 64)] = true ∧
    reads (.gpwait W (.scl 14)) ((graceS [1]).setThread 0 { warpTh with s := [(14, 0x43)] }) [(.scl 14, 64)] = true ∧
    reads (.gptest W 2 (.scl 14)) ((graceS [1]).setThread 0 { warpTh with s := [(14, 0x53)] }) [(.scl 14, 64)] = true ∧
    reads (.gptest W 2 (.scl 14)) warp [(.scl 14, 64)] = true ∧
    ((graceS []).ctx (ctxKey 0 0)).grace.get freshGrace 3 = { open_ := true, gen := 5, mask := [], entries := [], opened := 0 } ∧
    goesOn (exec (.graceSlotComplete (ctxKey 0 0) 3) (graceS [])) = true := by decide +kernel

def dfreeOk (s : State) (len : W64) (f : Option (Nat × W64) → Option Nat → Bool) : Bool :=
  let s := s.setThread 0 { warpTh with s := [(15, len)] }
  reads (.dfree W 15 2 (.lit 0)) s [(.scl 15, 64), (.lit 0, 32)] fun p vs s2 =>
    match s2.handle 0 0 0 2 with
    | (s3, .ok he) => he.space == 0 && f (((accLanes p.c false).map fun _ => (0 : W64)).findSome? (freeFault he ((vs.headD fun _ _ => 0) 0 0))) (s3.ctx (ctxKey 0 0)).newest
    | _ => false

theorem wit_dfree : dfreeOk (graceS [1]) 128 (fun x y => x.isNone && y == some 3) = true ∧ dfreeOk warp 128 (fun x y => x.isNone && y.isNone) = true ∧
    dfreeOk (graceS [1]) 8192 (fun x _ => x.isSome) = true := by decide +kernel

/-! ## Publications -/

/-- The warp with handle 7 for core 1's scratchpad and s12, s13 naming 256 bytes of its own. -/
def pubS : State :=
  { warp.setThread 0 { warpTh with s := [(12, 0), (13, 128)] } with
    hcache := [{ core := 0, vi := 0, ctx := 0, n := 1, words := [0, 1024, 0x93000000, 0] },
               { core := 0, vi := 0, ctx := 0, n := 7, words := [0, 1024, 0xB3010000, 0] }] }

theorem wit_publish :
    reads (.subPub { W with sig := some 0 } 12 1 (.lit 0)) pubS [(.scl 12, 64), (.scl 13, 64), (.lit 0, 64)] (fun p vs s2 =>
      match s2.handle (coreOf p.c.t) 0 0 1, s2.block? 0 with
      | (_, .ok he), some b => spaceOk .simt .pub he.space && (subFault b he true ((vs.getD 0 fun _ _ => 0) 0 0) ((vs.getD 1 fun _ _ => 0) 0 0) 0).isNone
      | _, _ => false) = true := by decide +kernel

theorem wit_sub_names :
    isReady (.unsub { W with sig := some 1 } true 0) pubS (fun p => !p.c.idle) = true ∧
    isReady (.unsub { W with sig := some 1 } false 3) pubS (fun p => (p.s1.namedSubs 0 0 false 3).isEmpty) = true ∧
    isReady (.subflush { W with sig := some 1 } true 0) pubS (fun p => !p.c.idle) = true := by decide +kernel

/-! ## Tile instructions -/

/-- The XS with a 2-by-2 shape of a type; t1 holds the bytes of 1.0 in each element, t2 of 2.0. -/
def tileOf (ty : W16) : Thread :=
  { tileTh .xs with
    shape := 0x41 ||| ty <<< 12
    treg := [(4098, 0x80), (4099, 0x3F), (4102, 0x80), (4103, 0x3F), (4106, 0x80), (4107, 0x3F), (4110, 0x80), (4111, 0x3F), (8195, 0x40)] }
def tileS : State := tileWith 4097 (tileTh .as) (tileOf 0)
def tileI : State := tileWith 4097 (tileTh .as) (tileOf 6)
def t1 : Src := .vec 1
def t2 : Src := .vec 2

theorem wit_tile_elements : ∀ i ∈ [Instr.tadd H 0 3 t1 t2, .tsub H 1 3 t1 t2, .tmul H 0 3 t1 t2, .tfma H 0 3 t1 t2 t1, .tmin H 3 t1 t2,
      .tmax H 3 t1 t2, .tun H .relu 0 3 t1, .tcmp H .lt false 3 t1 t2],
    ((tileElement i).map fun e => reads i tileI (e.2.2.1.map fun x => (x, 32)) fun p _ _ => !p.s1.tileBusy p.c.mem) = some true := by
  decide +kernel

theorem wit_tile_float : (tileElement (.tadd H 0 3 t1 t2)).isSome = true ∧ reads (.tadd H 0 3 t1 t2) tileS [(t1, 32), (t2, 32)] = true := by decide +kernel

/-- R181: with a tile result in flight the next tile word waits. -/
theorem wit_tile_busy : (match exec (.tadd H 0 3 t1 t2) tileS with
    | .next t => isReady (.tadd H 0 4 t1 t2) { t with cur := .thread 4097 1, held := false } fun p => p.s1.tileBusy p.c.mem
    | _ => false) = true := by decide +kernel

/-- The result that a tile word has put in flight, read at one byte. -/
def flightByte (i : Instr) (s : State) (o : Nat) : Option Byte :=
  match exec i s with
  | .next t => (t.thread? 4097).bind fun th => th.pend.head?.bind fun p => p.wr.head?.map fun w => w.bytes.foldl (fun b e => if e.1 = o then e.2 else b) 0
  | _ => none

/-- R191: 1.0 + 2.0 = 3.0, 0x40400000, in element 0. -/
theorem test_tadd : flightByte (.tadd H 0 3 t1 t2) tileS 3 = some 0x40 ∧ flightByte (.tadd H 0 3 t1 t2) tileS 2 = some 0x40 := by decide +kernel

def rearranges (i : Instr) (s : State) : Bool :=
  match tileRearranged i (tileOf 0) (fun _ => 0) fun _ => 0 with
  | none => false
  | some (_, _, xs, _) => reads i s (xs.map fun x => (x, 32)) fun p _ s2 => !p.s1.tileBusy p.c.mem && (s2.thread? p.c.t).isSome

theorem wit_tile_rearrangements : ∀ i ∈ [Instr.tsel H 3 t1 t2 1, .tbc H .row 3 t1, .tbc H .all 3 (.scl 8), .ttr H 3 1,
      .tcvt H .f16 false (.mode .rne) 3 1, .tred H .add .row 0 (.vec 3) t1], rearranges i tileS = true := by decide +kernel

theorem wit_tile_state :
    isReady (.tzero H 31) tileS (fun p => !p.c.idle && !p.s1.tileBusy p.c.mem) = true ∧
    isReady (.tred H .max .all 0 (.scl 12) t1) tileS (fun p => !p.c.idle && !p.s1.tileBusy p.c.mem) = true ∧
    isReady (.tshapeImm H 0x7DF) tileS (fun p => !p.c.idle) = true ∧
    reads (.tshapeReg H (.scl 8)) tileS [(.scl 8, 64)] = true ∧
    reads (.tshapeReg H (.scl 8)) (tileWith 4097 (tileTh .as) { tileOf 0 with s := [(8, 0x10000)] }) [(.scl 8, 64)] = true ∧
    reads (.tshapeReg H (.scl 8)) (tileWith 4097 (tileTh .as) { tileOf 0 with s := [(8, 0x9000)] }) [(.scl 8, 64)] = true ∧
    shapeOk 0x9000 = false ∧ shapeOk 0x7DF = true := by decide +kernel

def tmarg (hd : BitVec 8) (off : Src) : MArg := { sz := .b8, ms := .warp, sem := .plain, oc := 0, hd := hd, off := off }

/-- The whole tile at an aligned offset, rows a stride apart, and a base and a stride that are not aligned. -/
def tileMemOk (load str : Bool) (s : State) : Bool :=
  let i : Instr := if load then .tld H str 3 (tmarg 5 (.scl 8)) else .tst H str 3 (tmarg 5 (.scl 8))
  reads i s ((.scl 8, 64) :: (if str then [(.scl 9, 64)] else [])) fun p vs s2 =>
    match s2.thread? p.c.t with
    | none => false
    | some th =>
      let off := (vs.getD 0 fun _ _ => 0) p.c.t 0
      let stride : W64 := if str then (vs.getD 1 fun _ _ => 0) p.c.t 0 else 0
      let q := th.tParts str off stride
      let accs := q.1.map fun e => (e.1, e.2, if load then ([] : List Byte) else (List.range q.2).map fun i => th.treg.get 0 (3 * 4096 + e.1 + i))
      match s2.checkAccess p.c.t p.c.gang (if load then .tld else .tst) 5 q.2 accs with
      | (_, .ok _) => !p.s1.tileBusy p.c.mem
      | _ => false

def tileAt (off stride : W64) : State := tileWith 4097 (tileTh .as) { tileOf 0 with s := [(8, off), (9, stride)] }

theorem wit_tile_memory :
    tileMemOk true false (tileAt 0x40 0) = true ∧ tileMemOk false true (tileAt 0 64) = true := by decide +kernel

/-! ## Accumulators and leases -/

theorem wit_accumulator_windows :
    isReady (.accwin H false 0 63) xseq (fun p => !p.c.idle && (p.s1.ridgeUps p.c.mem isMatrixWord).isEmpty && p.s1.ridgeWaits.isEmpty) = true ∧
    isReady (.accwin H false 0 64) xseq (fun p => !p.c.idle) = true := by decide +kernel

def accOk (i : Instr) (s : State) (fits : Bool) : Bool :=
  reads i s [(.scl 8, 32), (.scl 11, 32)] fun p vs s2 =>
    match p.c.mem, s2.thread? 4097 with
    | [4097], some th =>
      let r := ((vs.getD 0 fun _ _ => 0) 4097 0).toNat
      let q := ((vs.getD 1 fun _ _ => 0) 4097 0).toNat
      !p.s1.tileBusy p.c.mem && (decide (th.wbase + r + th.tRows - 1 ≤ th.wlim ∧ q + th.tCols - 1 ≤ 511) == fits) &&
        !s2.ridgeTouches (s2.arrayAt 4097) (th.wbase + r) (th.wbase + r + th.tRows - 1)
    | _, _ => false

/-- Rows 62 and 63 are the last two of the window; rows 63 and 64 pass it. -/
theorem wit_accumulator_access :
    accOk (.accrd H false true 0 3 (.scl 8) (.scl 11)) (tileAt 62 0) true = true ∧
    accOk (.accwr H true 1 (.scl 8) (.scl 11)) (tileAt 62 0) true = true ∧
    accOk (.accrd H false false 0 3 (.scl 8) (.scl 11)) (tileAt 63 0) false = true ∧
    accOk (.accwr H false 1 (.scl 8) (.scl 11)) (tileAt 63 0) false = true ∧
    isReady (.accrd H true false 0 3 (.scl 8) (.scl 11)) (tileAt 0 0) = true := by decide +kernel

theorem wit_leases :
    isReady (.lease H 64) xseq (fun p => !p.c.idle && p.c.mem == [4097]) = true ∧
    isReady (.lease H 0) (tileWith 4097 (tileTh .as) { tileTh .xs with leaseWait := some 0 }) (fun p => !p.c.idle) = true ∧
    isReady (.unlease H) xseq (fun p => !p.c.idle && (p.s1.ridgeUps p.c.mem isLaunchWord).isEmpty && p.s1.ridgeWaits.isEmpty) = true := by decide +kernel

/-! ## Status registers and privileged words -/

theorem wit_status :
    isReady (.srd H 12 0x01) warp (fun p => !p.c.idle) = true ∧ isReady (.srd W 12 0x0F) xseq = true ∧
    reads (.swr W 0x02 (.scl 8)) warp [(.scl 8, 64)] (fun p _ s2 => match s2.swrOf p.c warpTh 0x02 5 with | .ok _ => true | _ => false) = true ∧
    reads (.swr W 0x02 (.lit 6)) warp [(.lit 6, 64)] (fun p _ s2 => match s2.swrOf p.c warpTh 0x02 6 with | .bad c _ => c == cIllegalOperand | _ => false) = true ∧
    reads (.swr W 0x04 (.lit 0)) warp [(.lit 0, 64)] (fun p _ s2 => match s2.swrOf p.c warpTh 0x04 0 with
      | .copy b => (match s2.copyConst 0 warpTh b with | (_, .ok _) => true | _ => false)
      | _ => false) = true := by decide +kernel

def privTh : Thread := { warpTh with priv := true }

theorem wit_kills : isReady (.killBlk H) (warpWith privTh) (fun p => !p.c.idle) = true ∧ isReady (.killCtx H) (warpWith privTh) (fun p => !p.c.idle) = true := by
  decide +kernel

/-- Context 4093 is the last; 4094 names none. -/
def invS (ctx : W64) : State := warpWith { privTh with s := [(8, 0x10000), (9, ctx)] }

theorem wit_invalidations :
    reads (.tlbinvVa { H with sig := some 0 } true (.scl 8) (.scl 9)) (invS 4093) [(.scl 8, 64), (.scl 9, 64)] = true ∧
    reads (.tlbinvCtx { H with sig := some 0 } (.scl 9)) (invS 4094) [(.scl 9, 64)] = true ∧
    isReady (.tlbinvVi { H with sig := some 0 }) (invS 0) (fun p => !p.c.idle) = true ∧
    isReady (.hinv { H with sig := some 0 } true 0 none) (invS 0) (fun p => !p.c.idle) = true ∧
    reads (.hinv { H with sig := some 0 } false 5 (some (.scl 9))) (warpWith { privTh with s := [(9, 1)] }) [(.scl 9, 64)] = true := by
  decide +kernel

/-! ## Engine words -/

def whoIs (array : Nat) (who : Nat) : Ident :=
  { vi := 0, ctx := 0, card := none, block := 0, who := who, spBase := 0, spSize := 4096, array := array, span := false, win := (0, 63) }

/-- Stream k acts: its buffer holds the word of `i` and `st` is its parameter stack, the newest entry first. -/
def streamS (k : Nat) (i : Instr) (st : List W64) : State :=
  let w := match i with | .engineWord v => v | _ => (encode16 i).getD 0
  { (base 1000 0).setStream k { emptyStream with
      buf := [(w, none, []), (0xC006, none, [])], stack := st, ident := some (whoIs 0 (k / 8)) } with cur := .stream k }

/-- A stream whose launch runs. -/
def busyS (k : Nat) (i : Instr) (st : List W64) (status : Nat) : State :=
  let s := streamS k i st
  s.setStream k { s.stream k with run := some { newLaunch s k (s.stream k) (0xC100, none, []) [] false with status := status, mark := 3 } }

def atHeadB (s : State) (k : Nat) : Bool := s.cur == .stream k && !(s.stream k).buf.isEmpty && !isSavedStream k

def stackAfter (i : Instr) (st : List W64) : Option (List W64) := match exec i (streamS 2 i st) with
  | .next t => if (t.stream 2).halted then none else some (t.stream 2).stack
  | _ => none

/-- R307: the newest entry is the top; each word with enough entries. -/
theorem test_stack_words :
    stackAfter (.lit 0x7FFF) [1] = some [0x7FFF, 1] ∧ stackAfter (.litx 3) [1, 9] = some [0x4003, 9] ∧
    stackAfter .dup [1, 2] = some [1, 1, 2] ∧ stackAfter .drop [1, 2] = some [2] ∧ stackAfter .swap [1, 2, 3] = some [2, 1, 3] ∧
    stackAfter .stackOver [1, 2] = some [2, 1, 2] ∧ stackAfter .add [1, 2] = some [3] ∧ stackAfter .mul [5, 2] = some [10] ∧
    stackAfter .clr [1, 2] = some [] ∧ stackAfter .engineNop [1] = some [1] := by decide +kernel

/-- R306, R307: a ninth entry, and too few. -/
theorem test_stack_faults :
    stackAfter (.lit 1) [1, 2, 3, 4, 5, 6, 7, 8] = none ∧ stackAfter .dup [] = none ∧ stackAfter .add [1] = none ∧
    stackAfter .stackOver [1, 2, 3, 4, 5, 6, 7, 8] = none ∧ atHeadB (streamS 2 .dup []) 2 = true := by decide +kernel

/-- R302: an ENGINE_STACK record of port 2, the first of its stream. -/
theorem test_stack_record : (match exec .dup (streamS 2 .dup []) with
    | .next t => ((t.stream 2).fifo, (t.stream 2).buf.length, (t.stream 2).halted)
    | _ => ([], 9, false)) = ([0x2040000000000000], 0, true) := by decide +kernel

/-- Each launch word with the stream that takes it. -/
def launches : List (Instr × Nat) :=
  [(.copy1d true, 0), (.copy2d false, 0), (.copy3d false, 0), (.fill false .w4, 0), (.gather false false false, 1), (.scatter true false false, 1),
   (.bvhset false, 2), (.rayhit false, 2), (.rayrad true, 2), (.rayknn false, 2), (.vremap false, 5), (.vpyr false, 5), (.vstereo false false .d64, 5),
   (.vflow false false, 5), (.vchain true, 5), (.stwr false false 0, 4), (.strd false 0, 4), (.sflush true 0, 4)]

def matrixWords : List (Instr × Nat) :=
  [(.mma true false false, 32771), (.mmas false false false false, 32771), (.mmax false false false, 32771), (.accz false false, 32771),
   (.accdrain false false false false, 32771), (.accload false false false, 32771)]

def eight : List W64 := [64, 1, 2, 3, 4, 5, 6, 7]

def startsOk (e : Instr × Nat) (engine : Bool) : Bool :=
  match launchParts e.1 with
  | some (n, true, wants) => atHeadB (streamS e.2 e.1 eight) e.2 && (engineWork e.1).isSome == engine &&
      launchFree (streamS e.2 e.1 eight) e.2 e.1 n true wants && goesOn (exec e.1 (streamS e.2 e.1 eight))
  | _ => false

theorem wit_launches_start : launches.all (startsOk · true) = true := by decide +kernel
theorem wit_matrix_starts : matrixWords.all (startsOk · false) = true := by decide +kernel

/-- The lease of array 0 is held by the XS of tile core 0, with two launches left. -/
def leasedS (i : Instr) (st : List W64) : State :=
  (streamS 32771 i st).setGroup 0 { (State.reset.group 0) with holder := [4097], left := 2 }

def matStart (i : Instr) (st : List W64) : Option (Bool × Bool × Nat) :=
  let s := leasedS i st
  match launchParts i with
  | none => none
  | some (n, _, wants) =>
    let k := 32771
    let x := { s.stream k with buf := (s.stream k).buf.tail, stack := (s.stream k).stack.drop n }
    let s2 := s.startPace k
    let ps := ((s.stream k).stack.take n).reverse
    let l := newLaunch s2 k x (launchCode i ((encode16 i).getD 0, none, [])) ps wants
    let s3 := (s2.startLaunch k x l).spendLease (leaseThread k)
    match matJob i ps with
    | none => none
    | some j => match matCheck k l j s3 with
      | (.ok _, _) => some (s2.leased k x.who (isX4 i), true, 0)
      | (.error (.status c), s4) => some (s2.leased k x.who (isX4 i), (s4.launch? k).isSome, c)
      | _ => none

/-- R343, R351: ACCZ of 2 rows and 4 columns is accepted; 257 rows give 0x80, and rows beyond the window 0x25. -/
theorem wit_matrix :
    matStart (.accz false false) [0x601] = some (true, true, 0) ∧ matStart (.accz false false) [0x100] = some (true, true, 0x80) ∧
    matStart (.accz false false) [0x3F00000000000601] = some (true, true, 0x25) := by decide +kernel

/-- R302, R314, R320: a word of an unknown code, one at a busy stream, and the semaphore words. -/
theorem wit_unknown : atHeadB (streamS 2 (.engineWord 0xC0FF) []) 2 && goesOn (exec (.engineWord 0xC0FF) (streamS 2 (.engineWord 0xC0FF) [])) &&
    isLaunchWord 0xC1F0 && atHeadB (busyS 2 (.engineWord 0xC1F0) [] 256) 2 && ((busyS 2 (.engineWord 0xC1F0) [] 256).stream 2).run.isSome &&
    goesOn (exec (.engineWord 0xC1F0) (busyS 2 (.engineWord 0xC1F0) [] 256)) = true := by decide +kernel

/-- A word that waits for the launch before it, one that its queue does not take, one without parameters, and one whose FIFO is full. -/
theorem wit_launch_waits :
    atHeadB (busyS 0 (.copy1d false) eight 256) 0 && ((busyS 0 (.copy1d false) eight 256).stream 0).run.isSome &&
    !(Instr.copy1d false).acceptedBy (portNo 1) && atHeadB (streamS 1 (.copy1d false) eight) 1 && !courseBusy (streamS 1 (.copy1d false) eight) 1 (.copy1d false) &&
    atHeadB (streamS 0 (.copy1d false) [1, 2]) 0 && !courseBusy (streamS 0 (.copy1d false) [1, 2]) 0 (.copy1d false) &&
    !launchFree ((streamS 0 (.copy1d true) eight).setStream 0 { (streamS 0 (.copy1d true) eight).stream 0 with fifo := eight }) 0 (.copy1d true) 3 true true = true := by
  decide +kernel

/-- Semaphore 5 of the streams of core 0 at a value, with takes waiting. -/
def semWordS (k : Nat) (i : Instr) (value ceil : Nat) (takes : List Take) (waiting : Option Nat) : State :=
  let s := (streamS k i [7]).setSem (streamSem k 5) { value := value, ceil := ceil, takes := takes }
  s.setStream k { s.stream k with waiting := waiting }

def semOk (i : Instr) (s : State) : Bool :=
  match launchParts i with
  | some (n, false, wants) => atHeadB s 2 && launchFree s 2 i n false wants && goesOn (exec i s)
  | _ => false

theorem wit_sem_words :
    semOk (.sempost true 5) (semWordS 2 (.sempost true 5) 1 2 [] none) && semOk (.sempost false 5) (semWordS 2 (.sempost false 5) 2 2 [] none) &&
    semOk (.semwait false 5) (semWordS 2 (.semwait false 5) 1 2 [] none) && semOk (.semwait false 5) (semWordS 2 (.semwait false 5) 0 2 [] none) &&
    semOk (.semwait true 5) (semWordS 2 (.semwait true 5) 0 2 [{ stream := true, who := 2, n := 1, ticket := 4 }] (some 4)) &&
    semOk (.semwait true 5) (semWordS 2 (.semwait true 5) 0 2 [] (some 4)) && semOk .note (streamS 2 .note [7]) = true := by decide +kernel

/-- R302, R322: the record of NOTE holds its mark. -/
theorem test_note : (match exec .note (streamS 2 .note [7]) with | .next t => (t.stream 2).fifo | _ => []) = [0x0040000000000007] := by decide +kernel

theorem wit_launch_ends : (match (busyS 0 .clr [] 0).launch? 0 with
    | some l => !(busyS 0 .clr [] 0).engineHalted l.engine && l.status != 256 &&
        goesOn (exec (.launchCompletion 0 { blocks := 0, err := none }) (busyS 0 .clr [] 0))
    | none => false) = true := by decide +kernel

/-- A launch of storage that has run for eight seconds. -/
theorem wit_storage_timeout : (match ({ busyS 4 .clr [] 256 with time := 9000000000 } : State).launch? 4 with
    | some l => l.status == 256 && goesOn (exec (.storageTimeout 4) { busyS 4 .clr [] 256 with time := 9000000000 })
    | none => false) = true := by decide +kernel

/-! ## Application cores -/

/-- Hart 0 runs, its port lets it execute the custom instructions. -/
def hartFreeB (s : State) : Bool := s.cur == .hart 0 && s.hartOn 0 && (s.cfgAt (hcpOff 0 0)).getLsbD 63 && (s.hart 0).mode != 0

theorem wit_hart_free : hartFreeB hartS = true := by decide +kernel

def hartRuns (i : Instr) (s : State := hartS) : Bool := hartFreeB s && goesOn (exec i s)

/-- Hart 0 with a record in the FIFO of its port 1, and with a full buffer on port 0. -/
def hartRec : State := hartS.setStream (hartStream 0 1) { emptyStream with fifo := [0x0040000000000007], outstanding := 1 }
def hartFull : State := hartS.setStream (hartStream 0 0) { emptyStream with buf := List.replicate 32 (0xC006, none, []) }

theorem wit_ports :
    hartRuns (.lzPush .w16 .q0 6) && hartRuns (.lzPush .w64 .q4 6) && hartRuns (.lzPush .w16 .q0 6) hartFull &&
    hartRuns (.lzPop .q1 3) hartRec && hartRuns (.lzPop .q0 3) && hartRuns (.lzFence 0) && hartRuns (.lzFence 2) hartRec &&
    hartRuns (.lzTime 0) && hartRuns (.lzWaitq .q1 5 3) hartRec && hartRuns (.lzWaitq .q1 0 3) && hartRuns (.lzWaitq .q1 5 3) &&
    (hartRec.stream (hartStream 0 1)).popRecord.isSome && (hartS.stream (hartStream 0 0)).popRecord.isNone = true := by decide +kernel

/-- R500: with no record and a limit of 7 the hart waits; at 7 it gets 0 and goes on. -/
theorem test_waitq : (match exec (.lzWaitq .q0 5 3) hartS with
    | .next t => (t.held, (t.hart 0).pc, match exec (.lzWaitqTimeLimit 0) { t with time := 7 } with
      | .next u => some ((u.hart 0).pc, (u.hart 0).reg 3)
      | _ => none)
    | _ => (false, 0, none)) = (true, 0x80, some (0x84, 0)) := by decide +kernel

/-- R498: an empty FIFO gives the record of all ones in its status. -/
theorem test_lz_pop : (match exec (.lzPop .q0 3) hartS with | .next t => ((t.hart 0).reg 3, (t.hart 0).pc) | _ => (0, 0)) = (0xFF00000000000000, 0x84) := by
  decide +kernel

/-- A hart with interrupts enabled, for which a message of the supervisor's file has come. -/
def called (s : State) : State := { s.setHart 0 { s.hart 0 with mie := true } with intrs := [(0, 0, 5)] }

theorem wit_hart_waits :
    (match exec (.lzWaitq .q0 5 3) hartS with
      | .next t => t.hartOn 0 && goesOn (exec (.hartInterrupt 0) (called t)) && goesOn (exec (.lzWaitqTimeLimit 0) { t with time := 7 })
      | _ => false) && (called hartS).hartOn 0 && goesOn (exec (.hartInterrupt 0) (called hartS)) &&
    goesOn (exec (.hartInterrupt 0) (called (hartS.setHart 0 { hartS.hart 0 with wait := .wfi }))) = true := by decide +kernel

/-- R500, R505: an interrupt that is not enabled ends no wait; one that is has its cause by its file. -/
theorem test_hart_interrupt : (goesOn (exec (.hartInterrupt 0) { hartS with intrs := [(0, 0, 5)] }),
    match exec (.hartInterrupt 0) (called hartS) with | .next t => ((t.hart 0).mcause, t.intrs) | _ => (0, [])) =
    (false, 0x8000000000000009, []) := by decide +kernel

/-- Card 3 of interface 0, and one of interface 2. -/
def cardS (vi : Nat) (w0 : W64) : State := (hartS.setHart 0 { hartS.hart 0 with x := [(5, 3)] }).setCfg (cardOff 3 0) (w0 ||| BitVec.ofNat 64 (vi * 2 ^ 58))

theorem wit_submit : hartRuns (.lzSubmit true 5 3) (cardS 0 0x4000000000000000) && hartRuns (.lzSubmit false 5 3) (cardS 2 0) &&
    hartRuns (.lzSubmit false 6 3) (hartS.setHart 0 { hartS.hart 0 with x := [(6, 1024)] }) = true := by decide +kernel

/-- R501: a card of another interface gives 4. -/
theorem test_submit : (match exec (.lzSubmit false 5 3) (cardS 2 0) with | .next t => ((t.hart 0).reg 3, t.jobs.length) | _ => (0, 9)) = (4, 0) := by
  decide +kernel

def hartOff : State := hartS.setCfg (hcpOff 0 0) 0
def hartUser : State := hartS.setHart 0 { hartS.hart 0 with mode := 0, medeleg := 4 }

theorem wit_refusals :
    hartOff.hartOn 0 && !(hartOff.cfgAt (hcpOff 0 0)).getLsbD 63 && goesOn (exec (.lzTime 3) hartOff) &&
    hartUser.hartOn 0 && !(hartUser.cfgAt (hcpOff 0 0)).getLsbD 62 && goesOn (exec (.lzPush .w32 .q5 1) hartUser) &&
    [Instr.lzPush .w32 .q5 1, .lzPop .q0 3, .lzFence 1, .lzSubmit true 1 2, .lzTime 3, .lzWaitq .q1 1 2].all (fun i => (encode32 i).isSome) &&
    goesOn (exec (.lzIllegalInstruction 0x700B) hartS) = true := by decide +kernel

/-- R496; log entry 13: cause 2, the word in mtval, and the handler's address. -/
theorem test_illegal : (match exec (.lzIllegalInstruction 0x700B) (hartS.setHart 0 { hartS.hart 0 with mtvec := 0x9000 }) with
    | .next t => ((t.hart 0).mcause, (t.hart 0).mtval, (t.hart 0).mepc, (t.hart 0).pc)
    | _ => (0, 0, 0, 0)) = (2, 0x700B, 0x80, 0x9000) := by decide +kernel

/-- Hart 0 once it has stored 5 at 0x10000, in machine mode; and in supervisor mode with an empty table at 0x20000. -/
def hartDirty : State := hartS.l2Write 0 0x10000 (toBytes 5 4)
def hartSuper : State := hartS.setHart 0 { hartS.hart 0 with mode := 1, satp := 0x9000000000000020 }

theorem wit_hart_accesses :
    [HartAcc.load 0x10000 8 3, .load 0x1007C 8 3, .store 0x10000 4 5, .store 0x1007C 8 5, .load 0x40000000A0000 8 3, .store 0x40000000A0008 8 3].all
      (fun a => goesOn (exec (.applicationCoreAccess 0 a) hartS)) &&
    [HartAcc.fence, .writeback].all (fun a => goesOn (exec (.applicationCoreAccess 0 a) hartDirty)) &&
    [HartAcc.load 0x10000 8 3, .store 0x10000 8 3].all (fun a => goesOn (exec (.applicationCoreAccess 0 a) hartSuper)) = true := by decide +kernel

theorem wit_hart_places :
    hartS.hartOn 0 && hartS.hartXl 0 .r 0x10000 == (hartS, .ok 0x10000) && !nowhere 0x10000 && placeOf 0x10000 == .mem 0x10000 &&
    (hartDirty.hartBytes 0 0x10000 8).2.2 == .data && !(hartDirty.l2 0).isEmpty && (hartS.l2 0).isEmpty && nowhere 0x10000000000000 &&
    placeOf 0x40000000A0000 == .dev 0xA0000 && (hartSuper.hartXl 0 .r 0x10000).2 == .fault false && (hartSuper.hartXl 0 .w 0x10000).2 == .fault false &&
    (((hartS.setHart 0 { hartS.hart 0 with wait := .wfi }).hart 0).wait != .run) = true := by decide +kernel

/-- R256: a hart reads its own store before it is at its home, and the fence takes it there. -/
theorem test_hart_store :
    (match exec (.applicationCoreAccess 0 (.load 0x10000 8 3)) hartDirty, exec (.applicationCoreAccess 0 .fence) hartDirty with
      | .next t, .next u => ((t.hart 0).reg 3, t.homeByte (.mem 0x10000), u.homeByte (.mem 0x10000))
      | _, _ => (0, 0, 0)) = (5, 0, 5) := by decide +kernel

/-! ## Register writes -/

theorem wit_register_steps :
    [Instr.registerWrite .hyper 0xA0008 5, .cardArm .island 0x80000 5, .cardDoorbell 3 7, .dtStep .island 9, .dtRate .island 9, .mereCarve .hyper 0,
      .mereInj .island 0, .islRestart .island 0, .gateWayRequest .hyper 1 0, .ungateWay .hyper 1 0, .xltInvVa (.vi 2) 2 0, .xltInvCtx .hyper 2 0,
      .xltInvVi .hyper 2 0, .xltHinv (.vi 2) 2 0, .xltHinvAll .hyper 2 0, .splReq (.vi 1) 1 0, .svcReply (.vi 1) 1 0, .hcpCtl .hyper 3 0,
      .hcpSem .hyper 3 15 1, .viSimt .hyper 4 true 0].all (fun i => match registerStep i with
        | some (who, off, x) => off % 8 == 0 && off < 0x1000000 && partyReaches who off && (windowCard off).isNone && goesOn (exec i State.reset)
        | none => false) = true ∧
    (registerStep (.registerWrite (.vi 1) 0xA0008 5)).map (fun e => partyReaches e.1 e.2.1) = some false ∧
    (registerStep (.registerWrite (.vi 1) 0x120180 5)).map (fun e => (partyReaches e.1 e.2.1, windowCard e.2.1)) = some (true, some (1, 3, 0)) := by
  decide +kernel

/-- R21, R23: a reserved bit is not kept, and an interface does not write another's register. -/
theorem test_register_write : (match exec (.registerWrite .hyper 0x200 0xFFFFFFFFFFFF0000) State.reset with
    | .next t => t.cfgAt 0x200 | _ => 1) = 0 := by decide +kernel

/-! ## Threads and landings -/

/-- The warp with a trap handler at 0x2000. -/
def vecTh : Thread := { warpTh with trap := { warpTh.trap with vec := 0x2000 } }

def ev (i : Instr) (s : State) : Bool := goesOn (exec i s)

def waitsIn : State := warpWith { warpTh with
  run := 0
  held := 0xFFFFFFFF
  rdv := some { pc := 0x1000, scp := .warp, wait := 0, sheaf := 0 }
  slices := warpTh.slices.map fun x => { x with at_ := some { pc := 0x1000, mask := 0xFF, regang := false } } }

theorem wit_threads :
    (match waitsIn.thread? 0 with
      | some th => (match th.rdv with
        | some r => (match waitsIn.scopeSet 0 th r.scp with | some (ms, _) => ms.all fun m => waitsIn.hasArrived m r | none => false)
        | none => false)
      | none => false) && ev (.scopedRendezvous 0) waitsIn &&
    ev (.asyncTrapEntry 0) (warpWith { vecTh with async := [(0x41, 7, 0), (0x40, 3, 2)] }) &&
    ev (.streamRotation 0) (warpWith { warpTh with rotate := true, park := [0x80] }) &&
    (warpWith { warpTh with exiting := true, live := 0 }).drained 0 && ev (.warpExitComplete 0) (warpWith { warpTh with exiting := true, live := 0 }) &&
    (let s := tileWith 4097 { tileTh .as with exiting := true, live := 0 } { tileTh .xs with exiting := true, live := 0 }
     s.drained 4096 && s.drained 4097 && ev (.warpExitComplete 4097) s) = true := by decide +kernel

/-- R232: of two pending causes the lower is taken. -/
theorem test_async : (match exec (.asyncTrapEntry 0) (warpWith { vecTh with async := [(0x41, 7, 0), (0x40, 3, 2)] }) with
    | .next t => (t.thread? 0).map fun th => (th.inTrap.map (·.first)) == some 0x40 && th.trap.val == 3 && th.async.length == 1
    | _ => none) = some true := by decide +kernel

/-- A result in flight. -/
def pendOf (op : PendOp) : Pend := { Pend.value 4 (some 1) [0] [{ loc := .v 0 5, mask := 1, val := 0, lanes := [(0, 9)], bytes := [] }] [] 0 with op := op }
def memPendOf (op : PendOp) (done : Bool) : Pend :=
  { pendOf op with done := done, sz := 4, ps := [{ lane := 0, at_ := (List.range 4).map fun i => .mem (0x100 + i), data := [1, 2, 3, 4], va := 0x100, pol := 0 }] }
def flying (p : Pend) (now : W64 := 0) : State := { warpWith { warpTh with pend := [p], wc := [(1, 1)] } with time := now }

def performs (p : Pend) : Bool :=
  let s := flying p
  match s.thread? 0 with
  | some th => s.mayPerform 0 p && (match s.perform 0 th p with | .ok .. => true | _ => false)
  | none => false

theorem wit_landings :
    ev (.resultLanding 0 4) (flying (pendOf .result)) && ev (.resultLanding 0 4) (flying (pendOf (.xadd false))) &&
    ev (.resultLanding 0 4) (flying (pendOf .commit)) && ev (.resultLanding 0 4) (flying (pendOf (.fence .full 1))) &&
    ev (.resultLanding 0 4) (flying (pendOf .flush)) &&
    ((flying (pendOf (.pref true))).prefetchLines 0 warpTh (pendOf (.pref true)) true []).2 &&
    ev (.resultLanding 0 4) (flying { memPendOf (.pref true) false with wr := [] }) &&
    (flying (pendOf .commit)).mayPerform 0 (pendOf .commit) && (flying (pendOf .flush)).mayPerform 0 (pendOf .flush) &&
    performs (memPendOf (.load false false) false) && ev (.resultLanding 0 4) (flying (memPendOf (.load false false) false)) &&
    performs { memPendOf .store false with wr := [] } && ev (.storeAck 0 4) (flying { memPendOf .store false with wr := [] }) &&
    ev (.storeAck 0 4) (flying { memPendOf .store true with wr := [] }) &&
    performs { memPendOf .store false with remote := true, wr := [] } && ev (.remoteAccess 0 4) (flying { memPendOf .store false with remote := true, wr := [] }) &&
    ev (.packetLost 0 4) (flying (memPendOf .store true) 64000) = true := by decide +kernel

/-- R78: the result lands in its lane, and its counter falls. -/
theorem test_landing : (match exec (.resultLanding 0 4) (flying (pendOf .result)) with
    | .next t => (t.thread? 0).map fun th => (th.vreg 5 0, th.wc.get 0 1, th.pend.length)
    | _ => none) = some (9, 0, 0) := by decide +kernel

/-- R3: a store's bytes, the lowest first. -/
theorem test_store : (match exec (.storeAck 0 4) (flying { memPendOf .store false with
      wr := [], ps := [{ lane := 0, at_ := (List.range 4).map fun i => .core 0 (0x100 + i), data := [1, 2, 3, 4], va := 0x100, pol := 0 }] }) with
    | .next t => (List.range 5).map fun i => (t.homeByte (.core 0 (0x100 + i))).toNat
    | _ => []) = [1, 2, 3, 4, 0] := by decide +kernel

def walk (set_ : Bool) : WalkM :=
  { entry := 0x5000, level := 3, va := 0x20000, since := 0, gang := 0xFF, set_ := set_, pc := 0x1000, scp := .warp, mem := [0], sheaf := 0,
    act := [(0, 0xFFFFFFFF)], m := some (0, 3) }
def walking : State := { warpWith { vecTh with walkM := [walk true] } with time := 16000 }

theorem wit_walks : ev (.walkReread 0) walking && ev (.migrationStall 0) walking = true := by decide +kernel

/-- R233, R407: cause 0x0B, and the level with the VA. -/
theorem test_stall : (match exec (.migrationStall 0) walking with
    | .next t => (t.thread? 0).map fun th => th.trap.cause.toNat % 256 == 0x0B && th.trap.val == lvlVal 3 0x20000
    | _ => none) = some true := by decide +kernel

/-! ## Queues -/

def request : SpawnReq := spawnReq warpTh 0 0x1040 1 none

def subE : SubEntry :=
  { pub := true, block := 0, base := 0, len := 128, peers := [(1, 0)], broken := false, ended := false, seqOut := 0, seqIn := 0,
    batch := [{ line := 0, bytes := [(0, 7)], mask := 1, cls := 1 }], lastStore := 0 }
def msg (copy : Bool) (seq : Nat) : BatchMsg :=
  { src := 0, srcEntry := 0, dst := 1, dstEntry := 0, seq := seq, copy := copy, entry := { line := 0, bytes := [(0, 7)], mask := 1, cls := 1 }, sent := 0 }
def subS (ms : List BatchMsg) : State :=
  { warp with subs := [(0, some { subE with batch := [] }), (16, some { subE with pub := false, batch := [], peers := [(0, 0)] })], batches := ms, time := 64000 }

theorem wit_queues :
    ev (.spawnQueuePlace 0) { warp with spawnq := [(0, [request])] } && (warp.freeSlot 0 128).isSome &&
    ev (.leaseGrant 0) (xseq.setGroup 0 { (xseq.group 0) with queue := [([4097], 2)] }) && ((xseq.arraysOf [4097]).all fun a => (xseq.group a).holder == []) &&
    (let s := (warpWith { warpTh with svc := .waiting 3 [1, 2] }).setCfg (svcOff 0 0) 0x8000000000010000
     (s.svcOldest 0).isSome && s.ringRoom 0 && ev (.svcRequestEnqueue 0) s) &&
    ev (.xltInvDone 0 false) { warp with xlt := [(0, some 0)] } && ev (.xltInvDone 0 true) { warp with hxlt := [(0, some 0)] } &&
    !warp.inFlight 0 0 && ev (.splinterDone 0) { warp with spl := [(0, some { ctx := 0, va := 0, entry := 1, slot := 0x8000, node := 0, status := 1 })] } &&
    ev (.batchIdleFlush 0 0) { warp with subs := [(0, some subE)], time := 1000 } && ev (.batchEntryApply 0) (subS [msg true 0]) &&
    ev (.batchEntryApply 0) (subS [msg false 0]) && ev (.batchEntryApply 0) (subS [msg false 5]) && ev (.subAckTimeout 0 0 0) (subS [msg false 0]) &&
    ev (.qpaceGapElapsed 0 2) ({ warp with lastData := [(2, 10)], time := 60 }.setCfg (qpaceOff 0 2) 100) = true := by decide +kernel

/-- R55: a queued request starts in the lowest free slot, its s7 and s8 as its parent gave them. -/
theorem test_spawn_place : (match exec (.spawnQueuePlace 0) { warp with spawnq := [(0, [request])] } with
    | .next t => (t.thread? 1).map fun th => (th.slice 0).pc
    | _ => none) = some 0x1040 := by decide +kernel

/-! ## Jobs and blocks -/

def nest1 : Nest :=
  { span := false, cbar := 0, accRows := 0, sp := 0, nv := 128, threads := 1, order := 0, entry := 0x40, xentry := 0, loops := [(0, 2, 1)], curve := [],
    sheaves := [] }
def job1 (tile : Bool) : Job :=
  { w0 := if tile then 0x100000000000 else 0, deadline := 0, budget := 0, w4 := 0, args := 0, cbase := 0, nest := nest1, relT := 0, absDl := 0,
    level := 4, step := 0, next := 0, walked := false, launches := 0, spent := 0, miss := false, overran := false, bwheld := false, lost := false,
    missRaised := false, budgetRaised := false, bwWindow := false, notices := [], ending := .none }
/-- Card 0 runs a job; interface 0 has SIMT core 0, tile group 0 and a table of one descriptor, with one save slot. -/
def jobS (j : Job) (bs : Tbl (Option Block)) : State :=
  { (((State.reset.setCfg (viOff 0) 1).setCfg (viOff 0 + 8) 1).setCfg (ctxTabOff 0) 0x0010000000010000).setHomes
      ((placesOf 0x10000 8).zip (toBytes 0x8000000000000000 8) ++ (placesOf 0x10018 8).zip (toBytes 0x0000000100000001 8)) with
    boot := .up, jobs := [(0, some j)], blocks := bs, nextBlock := 3 }

def savedB (tile : Bool) (ph : Phase) : Block :=
  { lonelyBlock tile (if tile then 20064 else 20000) with phase := ph, slot := some 0, idx := [0] }

theorem wit_jobs :
    (let s := { (State.reset.setCfg (cardOff 0 0) 0xC000000000000000).setCfg (cardOff 0 8) 100 with arms := [(0, (0, 100, [0]))], time := 500 }
     s.instant 0 == some 0 && ev (.periodicRelease 0) s) &&
    ev (.jobCompletion 0) (jobS { job1 false with walked := true } []) &&
    ev (.deadlineMiss 0) { jobS { job1 false with deadline := 5 } [] with time := 6 } &&
    ev (.budgetTime 0) (jobS { job1 false with budget := 5, spent := 5 } []) &&
    (let s := { tileWith 4097 (tileTh .as) { tileTh .xs with overdue := 1 } with jobs := [(0, some (job1 true))] }
     ev (.checkpointOverdue 4097) s) &&
    ev .weirWindowEdge { State.reset with time := 10000 } && ev (.viUnitHandover 1) { State.reset with handover := [(1, 5, true)] } = true := by
  decide +kernel

/-- R378: the bound of 100 us has passed twice by 250 us: two reports are owed, and the timer runs from 200 us. -/
theorem test_timers :
    (({ tileWith 4097 (tileTh .as) (tileTh .xs) with
        jobs := [(0, some (job1 true))], time := 250000 } : State).passTimers.thread? 4097).map
      (fun (th : Thread) => (th.overdue, th.ckptTime)) = some (2, 200000) := by decide +kernel

/-- R376: a deadline that has passed by 1 ns raises DEADLINE in the Silt log. -/
theorem test_deadline : (match exec (.deadlineMiss 0) { jobS { job1 false with deadline := 5 } [] with time := 6 } with
    | .next t => t.job? 0 |>.map (·.missRaised)
    | _ => none) = some true := by decide +kernel

theorem wit_places :
    (let s := jobS (job1 false) []
     (s.nextPlaced false).isSome && (s.nextBlock_ 0).isNone && ev (.blockPlacement false) s) &&
    (let s := jobS (job1 false) [(1, some { savedB false .relaunch with unit := 1 })]
     (s.nextPlaced false).isSome && (s.nextBlock_ 0).isSome && ev (.blockPlacement false) s) = true := by decide +kernel

/-- R294: the reader of a scratchpad error has the block that owns the region relaunched once with its indices, where it is idempotent; the
second one, or one in a plain block, ends it and sets LOST. -/
theorem test_upset_relaunch :
    (let b : Block := { savedB false .resident with idem := true, spSize := 64 }
     let s := jobS (job1 false) [(1, some b)]
     let bad (s : State) : State := ((s.upset (.scratchpad b.unit b.spBase)).readHome [.core b.unit (b.spBase + 3)] 0 true).1
     let meet (s : State) : State := match (bad s).sramRead [.core b.unit (b.spBase + 3)] with | some p => (bad s).loseSram p | none => s
     let t := meet s
     let u := meet (jobS (job1 false) [(1, some { b with relaunches := 1 })])
     let v := meet (jobS (job1 false) [(1, some { b with idem := false })])
     ((t.block? 1).map fun x => (x.phase, x.idx, x.thr), (t.job? 0).map (·.lost), (u.block? 1).isSome, (u.job? 0).map (·.lost),
      (v.block? 1).isSome, (v.job? 0).map (·.lost))) =
    (some (.relaunch, [0], []), some false, false, some true, false, some true) := by decide +kernel

/-- R29: the walker's first iteration becomes block 3 in slot 0, with ordinal 0, and its thread starts at the entry. -/
theorem test_place : (match exec (.blockPlacement false) (jobS (job1 false) []) with
    | .next t => (t.block? 3).bind fun b => (t.thread? 0).map fun th => (b.ord, b.unit, (th.slice 0).pc, th.sreg 5)
    | _ => none) = some (0, 0, 0x40, 0) := by decide +kernel

/-- A job of level 1 finds its core full of a block of level 4. -/
def crowded : State :=
  let s := jobS (job1 false) []
  let full := (List.range 64).foldl (fun (s : State) t => s.setThread t (startThread .simt 1 0 0 0 0 false 64 0)) s
  { full with blocks := [(1, some { lonelyBlock false 0 with thr := List.range 16 })], jobs := [(0, some (job1 false)), (1, some { job1 false with level := 1 })] }

theorem wit_preempt : (crowded.nextPlaced false).isNone && (crowded.preempt false).isSome && ev (.blockPlacement false) crowded = true := by decide +kernel

def saving : State := (jobS (job1 false) [(0, some { savedB false .saving with thr := [0] })]).setThread 0 warpTh
def savingTile : State :=
  ((jobS (job1 true) [(0, some { savedB true .saving with thr := [4096] })]).setThread 4096 { tileTh .as with saved := true }).setThread 4097
    { tileTh .xs with saved := true }

def descRead (s : State) : Bool := match s.readDesc 0 0 with | (_, .ok d) => d.slots == 1 | _ => false

theorem wit_saves :
    descRead saving && (saving.pubKeys 0).isEmpty && saving.sentApplied 0 && saving.saveQuiet 0 && descRead savingTile && (savingTile.pubKeys 0).isEmpty &&
    savingTile.sentApplied 0 && savingTile.saveQuiet 4096 && savingTile.saveQuiet 4097 = true := by decide +kernel

/-- A saved block whose image is not the one that its save wrote. -/
def torn (tile : Bool) : State := jobS (job1 tile) [(0, some (savedB tile .saved))]

theorem wit_restore : descRead (torn false) && (((torn false).nextBlock_ 0).map (·.1) == some 0) && ((torn false).nextPlaced false).isSome &&
    ((torn false).unparkSubs 0 [(0, 0)] 0).isSome && ((torn true).nextPlaced true).isSome = true := by decide +kernel

/-! ## Power, heat, restarts -/

theorem wit_power :
    ev (.railSwitch 0) (State.reset.mapCluster 0 fun x => { x with high := true }) && !State.reset.railWanted 0 &&
    ev (.droopReplay 0) State.reset && ev (.droopHoldEnd 0) (State.reset.mapCluster 0 fun x => { x with droopHold := some 0 }) &&
    ev (.brownout 0) State.reset && ev (.brownout 80) State.reset && ev (.watchdog 0x1000) { State.reset with time := 1000000 } &&
    ev (.gatingDone 0) (State.reset.setCfg (mslOff 0 8) 0x10000) &&
    [0, 1, 2, 3, 4].all (fun n => ev (.engineRestart 0x1000) { warp with restarts := [(0x1000, some n)] }) = true := by decide +kernel

theorem wit_heat : ev (.thermalRead (List.replicate 96 (800, 800))) State.reset = true := by decide +kernel

/-- R483: the rail goes down and the change is logged as an event of the core. -/
theorem test_rail : (match exec (.railSwitch 0) (State.reset.mapCluster 0 fun x => { x with high := true }) with
    | .next t => (t.cluster 0).high | _ => true) = false := by decide +kernel

/-! ## Memory -/

def lineS : State := { State.reset with mere := [(0, some { tag := 0, dirty := true, lock := false, owner := 5, stream := none, age := 0 })] }
def ueS (stage : Nat) (slot : Option Nat) : State := { lineS with ue := [{ pa := 0, slot := slot, owner := some 5, stage := stage }] }
def fatalE : Silt := { time := 0, code := 0x0410, source := 0, ctx := 0, arg0 := 0, arg1 := 0, fatal := true, persisted := false }

theorem wit_memory :
    ev (.merePatrolScrub 0) lineS && ev (.merePatrolScrub 1) lineS && ev (.dramPatrolScrub 5) State.reset &&
    ev (.dramPatrolScrub 5) { State.reset with latent := [(5, 3)] } && ev (.lpddr6Refresh 0 0) State.reset &&
    ev (.sensorStreamWrite ⟨0, 3⟩ 0x100 [1, 2]) State.reset &&
    ev .ctxKill (ueS 0 (some 0)) && ev .pageRetire (ueS 1 (some 0)) && ev .wayQuar (ueS 2 (some 0)) &&
    ev .mereInjection (lineS.setCfg 0x220 0x8000000000000000) && ev .siltPersist { State.reset with silt := [fatalE] } = true := by decide +kernel

/-- R296: the frame of the error is retired. -/
theorem test_retire : (match exec .pageRetire { State.reset with ue := [{ pa := 0x12380, slot := none, owner := none, stage := 1 }] } with
    | .next t => (t.retired, t.ue.length) | _ => ([], 9)) = ([0x10000], 0) := by decide +kernel

/-! ## Gutter and boot -/

/-- Header and payload of an image of one payload word, 0x1000. -/
def image (kind : Nat) : Image :=
  { head := toBytes kind 4 ++ toBytes 0 4 ++ toBytes 8 4 ++ List.replicate 52 0, payload := toBytes 0x1000 8, edOk := true, mlOk := true }

theorem wit_gutter :
    [0, 1, 2].all (fun e => ev (.gutterFlitArrival 3 true 4 e) State.reset) && ev (.deadLane true 0) State.reset &&
    ev .rafterRecompile { State.reset with pause := true } = true := by decide +kernel

theorem wit_boot :
    ev (.powerGoodBoot [] true) State.reset && ev (.powerGoodBoot ([1, 2, 3, 4].map image) true) State.reset &&
    ev (.powerGoodBoot ([1, 2, 3, 4].map image) false) State.reset &&
    [1, 2, 3, 4].all (fun k => (State.reset.image ([1, 2, 3, 4].map image) k).isSome) && ev (.recoveryImage (image 2)) { State.reset with boot := .failed } = true := by
  decide +kernel

/-- R507: hart 0 starts at the entry of the image. -/
theorem test_boot : (match exec (.powerGoodBoot ([1, 2, 3, 4].map image) true) State.reset with
    | .next t => (t.boot, (t.hart 0).pc, (t.hart 0).wait, (t.hart 1).wait)
    | _ => (.failed, 0, .inReset, .inReset)) = (.up, 0x1000, .run, .inReset) := by decide +kernel

/-! ## Steps -/

/-- A word placed where the next step fetches it, at each kind of agenda entry. -/
def stepsTo (s : State) (f : State → Bool) : Bool := match step s with | .next t => f t | _ => false

theorem wit_step_lane : stepsTo (State.reset.withFetchWord 64 0x0000003600000424) (fun t => (t.thread? 0).any fun th => (th.slice 0).pc == 8) = true := by
  decide +kernel
theorem wit_step_tile : stepsTo (State.reset.withFetchWord 64 0xC6) (fun _ => true) = true := by decide +kernel
theorem wit_step_engine : stepsTo (State.reset.withFetchWord 16 0x0008) (fun t => (t.stream (hartStream 0 0)).stack == [8]) = true := by decide +kernel
theorem wit_step_hart : stepsTo (State.reset.withFetchWord 32 0x700B) (fun t => (t.hart 0).mcause == 2) = true := by decide +kernel
theorem wit_step_event : stepsTo { State.reset with agenda := [.event (.lpddr6Refresh 0 0)] } (fun t => t.clock == 1) &&
    stepsTo { State.reset with agenda := [.event .siltPersist] } (fun t => t.clock == 1) = true := by decide +kernel

/-- A warp that stands at a word is the one that its core's scheduler issues from. -/
theorem wit_step_issue :
    let s : State := { State.reset.withFetchWord 64 0x0000003600000424 with agenda := [.issue 0 0] }
    (begun s []).candidates 0 0 == [(0, 0xFF)] && stepsTo s (fun t => (t.thread? 0).any fun th => (th.slice 0).pc == 8) = true := by decide +kernel

theorem wit_bytes : (State.reset.withFetchWord 64 0x0000003600000424).bytesWf = true := by decide +kernel

/-! ## Further clauses -/

/-- R75, R130: RCP has a variable latency; at q12 of the AS its push is in flight. -/
theorem wit_port_later : (match Instr.value (.rcp H (.scl 97) (.scl 8)) with
    | some k => k.lat == 0 && reads (.rcp H (.scl 97) (.scl 8)) warp k.xs fun p _ _ => decide (effDst p.kind k.d = .scl 97)
    | none => false) = true := by decide +kernel

/-- A sub-buffer that holds four entries. -/
def redE (n : Nat) : RedEntry :=
  { place := .mem (0x1000 + 4 * n), sz := 4, op := .add, val := 1, ms := .device, oc := 0, pol := 0, rel := false, passed := false, at_ := n }
def redFull : State := warpWith { offTh with red := (List.range 4).map redE }

theorem wit_red_buffers :
    accessOk (.red G .add { scl := false, n := 2 } (marg 2 v1)) offs none = false ∧
    isReady (.red G .add { scl := false, n := 2 } (marg 2 v1)) offs = true ∧
    isReady (.red G .add { scl := false, n := 2 } (marg 2 v1)) redFull
      (fun p => (p.c.mem.all fun t => (p.s1.thread? t).any fun (th : Thread) => 4 ≤ th.redEntries) && p.c.mem.all p.s1.redReleased &&
        (p.s1.redReady p.c.mem).2) = true := by decide +kernel

/-- R277: the four entries are applied, and the new word's contributions stand alone. -/
theorem test_red_spill : (match exec (.red G .add { scl := false, n := 2 } (marg 2 v1)) redFull with
    | .next t => ((List.range 4).map fun i => t.homeByte (.mem (0x1000 + 4 * i)), (t.thread? 0).map fun (th : Thread) => th.redEntries)
    | _ => ([], none)) = ([1, 1, 1, 1], some 1) := by decide +kernel

/-- Two warps of a sheaf scope, the first of which has a handler. -/
def pair : State := trapped.setThread 1 warpTh
def pairTrap : TrapInfo := { code := cBarrierMember, async := false, pc := 0x1000, val := 3, slice := 7, lane := 31, mask := 1, scp := .sheaf, members := [0, 1], gang := 0xFF, pushed := false }

/-- R227: the other member of the scope stops, and the handler starts. -/
theorem wit_trap_entry :
    (pair.thread? 0).isSome && (pair.thread? 0).all (fun (th : Thread) => th.inTrap.isNone && decide (th.kind ≠ .as) && th.trap.vec != 0) &&
    ((pair.trapEntry 0 pairTrap).thread? 1).any (fun (th : Thread) => th.susp == some 0) &&
    ((pair.trapEntry 0 pairTrap).thread? 0).any (fun (th : Thread) => th.inTrap.isSome && th.trap.slice == 0x1F07) = true := by decide +kernel

/-- Sequencers of a tile thread that come to BAR.arv: alone, with a partner at another BAR, and with one that has exited. -/
def tileBars (as_ xs : Thread) (t : Nat) : State := (tileWith t as_ xs).setBlock 0 { lonelyBlock true 4096 with cbar := 3 }
def atOther : BarWait := { kind := .cor, n := 1, mode := 1, pc := 0x1000, episode := 0, counted := false }

theorem wit_barrier_partners :
    [tileBars (tileTh .as) (tileTh .xs) 4097, tileBars { tileTh .as with barAt := some atOther } (tileTh .xs) 4097,
     tileBars { tileTh .as with live := 0, exiting := true } (tileTh .xs) 4097, tileBars (tileTh .as) { tileTh .xs with live := 0, exiting := true } 4096].all
      (fun s => isReady (.barArv W .cor 0) s fun p => p.c.mem.all fun m => p.s1.barMember .cor m 0 && (p.s1.atBar .cor 0 1 p.c.pc m).isNone) = true := by
  decide +kernel

/-- A warp with a store in flight waits at BAR and SEMP, and one whose episode is not over at BAR.sync. -/
def storing : Thread := { warpTh with
  pend := [{ Pend.value 4 none [0] [] [] 0 with
    op := .store, done := false, sz := 4, ps := [{ lane := 0, at_ := (List.range 4).map fun i => .mem (0x100 + i), data := [1, 2, 3, 4], va := 0x100, pol := 0 }] }] }

theorem wit_quiet :
    isReady (.barArv W .cor 0) (barS storing) (fun p => !p.s1.quiet p.c.mem) = true ∧
    isReady (.sempPost W 0 1) (warpWith storing) (fun p => !p.s1.quiet p.c.mem) = true ∧
    isReady (.gpstart W 14) (warpWith storing) (fun p => !p.s1.quiet p.c.mem) = true ∧
    isReady (.barSync W .cor 0) (barS storing) (fun p => !p.s1.quiet p.c.mem && p.c.mem.any fun m => (p.s1.atBar .cor 0 0 p.c.pc m).isNone) = true ∧
    isReady (.barSync W .cor 0) (barS { warpTh with barAt := some { kind := .cor, n := 0, mode := 0, pc := 0x1000, episode := 1, counted := true } })
      (fun p => p.c.mem.any fun m => match p.s1.atBar .cor 0 0 p.c.pc m with
        | some w => (p.s1.barrierOf .cor m 0).episode < w.episode
        | none => false) = true := by decide +kernel

/-- The take of a stream is served and its word leaves the stream. -/
def servedS : State :=
  semWordS 2 (.semwait false 5) 1 2 [{ stream := true, who := 2, n := 1, ticket := 4 }] (some 4)
theorem wit_stream_served : !((servedS.sem (streamSem 2 5)).takes.isEmpty) && goesOn (exec (.semTakeServed (streamSem 2 5)) servedS) = true := by
  decide +kernel

/-- R244, R470: handle 6 is not of a space that DFREE takes, and handle 1 not of one that SUB.sub takes. -/
theorem wit_wrong_handles :
    reads (.dfree W 15 1 (.lit 0)) ((graceS [1]).setThread 0 { warpTh with s := [(15, 128)] }) [(.scl 15, 64), (.lit 0, 32)] (fun p _ s2 => match s2.handle 0 0 0 1 with
      | (_, .ok he) => he.space != 0 && he.space != 4 && !p.c.idle
      | _ => false) = true ∧
    reads (.subSub { W with sig := some 0 } 12 1 (.lit 0)) pubS [(.scl 12, 64), (.scl 13, 64), (.lit 0, 64)] (fun _ _ s2 =>
      match s2.handle 0 0 0 1 with
      | (_, .ok he) => !spaceOk .simt .sub he.space
      | _ => false) = true ∧
    reads (.subSub { W with sig := some 0 } 12 7 (.lit 0)) (pubS.setCfg (viOff 0) 3) [(.scl 12, 64), (.scl 13, 64), (.lit 0, 64)] (fun _ _ s2 =>
      match s2.handle 0 0 0 7 with
      | (_, .ok he) => spaceOk .simt .sub he.space
      | _ => false) = true := by decide +kernel

/-- The XS at CKPT 1 while its block is to be saved: the AS stands at CKPT y, or not. -/
def ckptS (y : Option (BitVec 8)) : State :=
  (tileWith 4097 { tileTh .as with ckpt := y.map fun id => (id, 0, 0) } (tileTh .xs)).setBlock 0
    { lonelyBlock true 4096 with spSize := 65536, accRows := 64, phase := .saving, slot := some 0 }

theorem wit_ckpt :
    [none, some 1, some 2].all (fun y => match ready (.ckpt H 1 64 (.lit 0)) (ckptS y) with
      | some p => !p.c.idle && !p.s1.asHalted 4097 && (p.s1.block? 0).any (fun b => b.phase == .saving) && p.s1.dqEmpty 4097 && p.s1.ckptQuiet 4097
      | none => false) = true := by decide +kernel

/-- R223: with another id both go on without a save. -/
theorem test_ckpt : (match exec (.ckpt H 1 64 (.lit 0)) (ckptS (some 2)) with
    | .next t => (t.thread? 4096).map fun (th : Thread) => (th.saved, th.ckpt.isSome, (th.slice 0).pc)
    | _ => none) = some (false, false, 0x1008) := by decide +kernel

/-- Results in flight that land once what they order is done: cache control, invalidations, and the waits of SUB, UNSUB and SUBFLUSH. -/
theorem wit_ordering_landings :
    [PendOp.cctl true false, .inval 0 0 0x10000 true, .inval 2 0 0 false, .inval 4 0 0 false].all (fun op =>
      (flying { pendOf op with done := false }).mayPerform 0 { pendOf op with done := false } &&
        ev (.resultLanding 0 4) (flying { pendOf op with done := false })) &&
    !(flying { pendOf (.inval 1 0 0 false) with done := true }).inFlight 0 0 && ev (.resultLanding 0 4) (flying { pendOf (.inval 1 0 0 false) with done := true }) &&
    [PendOp.subCopy 16, .subWait [(0, 0)] true].all (fun op => ev (.resultLanding 0 4) (flying (pendOf op))) &&
    [PendOp.atom .add true, .reserve, .cond 0].all (fun op => performs (memPendOf op false) && ev (.resultLanding 0 4) (flying (memPendOf op false))) = true := by
  decide +kernel

/-- A landing whose port has no room cannot happen yet. -/
def portless : State := { flying { pendOf .result with wr := [], port := some 0, sz := 4, got := [7] } with streams := fullPort.streams }
theorem test_port_waits : (match exec (.resultLanding 0 4) portless with | .refused r => r == .notEnabled | _ => false) = true := by decide +kernel

/-- A walk over the link that has had no reply for 64 us. -/
def lostWalk : State := { warpWith { vecTh with walkM := [{ walk true with level := noReply }] } with time := 64000 }

theorem wit_lost_walk : ((lostWalk.thread? 0).any fun (th : Thread) => (th.walkM.find? fun w => w.level == noReply).isSome) &&
    (lostWalk.pend? 0 4).isNone && ev (.packetLost 0 4) lostWalk = true := by decide +kernel

/-- A copy of the constant window that waits for M: the word waits. -/
theorem wit_stalled_write : (vecTh.migHeld 0xFF || ({ vecTh with walkM := [walk true] } : Thread).migHeld 0xFF) = true := by decide +kernel

/-- A store in flight that orders nothing and performs at the home. -/
def plainStore : Pend := { memPendOf .store false with wr := [], ms := .device }

theorem wit_stored_bytes :
    !plainStore.releases && plainStore.homeFor 0 0 && (flying plainStore).mayPerform 0 plainStore && (flying plainStore).bytesWf &&
    (match (flying plainStore).thread? 0 with
      | some th => (match (flying plainStore).prepLines 0 th plainStore plainStore.lines with
        | .ready s1 => (s1.block? th.block).any (fun b => !b.cont) && s1.bytesWf
        | _ => false)
      | none => false) && ev (.storeAck 0 4) (flying plainStore) && State.reset.bytesWf && Place.held (.mem 0x100) &&
    !State.reset.stillCarved 0 = true := by decide +kernel

/-- What stores nothing: an engine word with no thread saved, CKPT with no block to save, the pushes of a hart with an empty L2. -/
theorem wit_no_store :
    countsOnly .dup && goesOn (exec .dup (streamS 2 .dup [1])) && (streamS 2 .dup [1]).threads.isEmpty &&
    (xseq.block? 0).all (fun b => b.phase != .saving) && goesOn (exec (.ckpt H 1 0 (.lit 0)) xseq) && (hartS.l2 0).isEmpty &&
    storesNothing (.nop W 0) && goesOn (exec (.nop W 0) warp) = true := by decide +kernel

/-- A step of each further kind of agenda entry: a front end by its turn, a scheduler without a candidate, a party of the fixed round. -/
theorem wit_step_serve :
    (let s : State := { streamS 2 (.lit 5) [] with agenda := [.serve 2], boot := .up }
     (begun s []).turns 2 == [2] && stepsTo s (fun t => (t.stream 2).stack == [5] && t.served.get 0 ((begun s []).frontKey 2) == 3)) &&
    stepsTo { warp with agenda := [.issue 5 0] } (fun t => t.clock == 1) &&
    (State.reset.spare == 0 && roundEntry 0 == .issue 0 0) = true := by decide +kernel

/-! ## The plain cases -/

/-- The word is ready in its plain case, and its effect can be completed. -/
def plainly (i : Instr) (s : State) : Bool :=
  match ready i s with
  | none => false
  | some p =>
    match fetchSrcs p.c p.s1 (plainSrcs i (kindOf p.s1 p.c)) with
    | .ok vs s2 =>
      match s2.thread? p.c.t with
      | none => false
      | some th =>
        match plainEffect i p.c p.s1 s2 th fun n => vs.getD n fun _ _ => 0 with
        | some (m, t) => !p.c.idle && (if m then settlesMoved p.c t else settles p.c t) && goesOn (exec i s)
        | none => false
    | _ => false

/-- Every slot of the context but number 3 is open. -/
def oneSlot : State :=
  warp.setCtx (ctxKey 0 0) { grace := ((List.range 16).filter (· != 3)).map fun k => (k, { open_ := true, gen := 0, mask := [1], entries := [], opened := 0 }), wait := [], fifo := [] }

theorem wit_plain_warp : plainly (.exit G) warp && plainly (.svc W 0xFFFF) warp && plainly (.barArv W .cor 0) (barS warpTh) &&
    plainly (.barWt W .cor 0) (barS warpTh) &&
    plainly (.barSync { W with scp := .block } .blk 0)
      (barS { warpTh with barAt := some { kind := .blk, n := 0, mode := 0, pc := 0x1000, episode := 0, counted := true } }) &&
    plainly (.rsectEnter W) warp && plainly (.rsectExit W) (warpWith { warpTh with rsdepth := 2 }) && plainly (.gpstart W 14) oneSlot &&
    plainly (.gpwait W (.scl 14)) ((graceS [1]).setThread 0 { warpTh with s := [(14, 0x43)] }) && plainly (.gptest W 2 (.scl 14)) warp = true := by
  decide +kernel

theorem wit_plain_tables : plainly (.dfree W 15 2 (.lit 0)) ((graceS [1]).setThread 0 { warpTh with s := [(15, 128)] }) &&
    plainly (.subPub { W with sig := some 0 } 12 1 (.lit 0)) pubS && plainly (.subSub { W with sig := some 0 } 12 7 (.lit 0)) (pubS.setCfg (viOff 0) 3) &&
    plainly (.unsub { W with sig := some 1 } true 0) pubS && plainly (.subflush { W with sig := some 1 } true 0) pubS &&
    plainly (.killBlk H) (warpWith privTh) && plainly (.killCtx H) (warpWith privTh) && plainly (.tlbinvVa H true (.scl 8) (.scl 9)) (invS 4093) &&
    plainly (.tlbinvCtx H (.scl 9)) (invS 4093) && plainly (.tlbinvVi H) (invS 0) && plainly (.hinv H true 0 none) (invS 0) &&
    plainly (.hinv H false 5 (some (.scl 9))) (warpWith { privTh with s := [(9, 1)] }) = true := by decide +kernel

theorem wit_plain_tile : plainly (.ckpt H 1 64 (.lit 0)) xseq && plainly (.tld H false 3 (tmarg 5 (.scl 8))) (tileAt 0x40 0) &&
    plainly (.tst H false 3 (tmarg 5 (.scl 8))) (tileAt 0x40 0) && plainly (.tzero H 31) tileS && plainly (.tshapeImm H 0x7DF) tileS &&
    plainly (.tshapeReg H (.scl 8)) (tileAt 0x7DF 0) && plainly (.accwin H false 0 63) xseq &&
    plainly (.accrd H false true 0 3 (.scl 8) (.scl 11)) (tileAt 62 0) && plainly (.accwr H true 1 (.scl 8) (.scl 11)) (tileAt 62 0) &&
    plainly (.lease H 0) (tileWith 4097 (tileTh .as) { tileTh .xs with leaseWait := some 0 }) && plainly (.unlease H) xseq = true := by decide +kernel

end Sys2Proof.Tests
end

section
/-! Number formats: conversions and generators (R117, R168-R175), and the reading and writing of status registers (R202-R206). -/

namespace Sys2Proof.Machine.NumberFormats

/-! ## The return of a word's effect -/

theorem finish_stall (c : Ctx0) (fresh : Bool) (s0 : State) : finish c fresh s0 .stall = .next { s0 with held := !fresh } := rfl

/-- The issuing thread's kind, where its thread is known. -/
theorem ready_kind {p : Ready} {th : Thread} (ht : p.s1.thread? p.c.t = some th) : p.kind = th.kind := by
  simp [Ready.kind, ht]

/-! ## Results that go to a port (R75, R88, R391) -/

section Port
variable {c : Ctx0} {h : Hdr} {d : Dst} {w lat : Nat} {f : Opd} {fl : List (Nat × BitVec 5)} {s : State} {th : Thread} {a : BitVec 8}

/-- A result of variable latency is pushed as it lands. -/
theorem deliverDst_port_later (ht : s.thread? c.t = some th) (hi : c.idle = false) (ha : effDst th.kind d = .scl a) (hlo : 96 ≤ a.toNat)
    (hhi : a.toNat < 112) : deliverDst s c h d w 0 f fl = pushNow s c h (a.toNat - 96) w (uniform c f) fl := by
  simp [deliverDst, ht, hi, ha, hlo, hhi]

/-- One of fixed latency is pushed at once, where its queue has room and the earlier stores are released. -/
theorem deliverDst_port_room {s3 : State} (ht : s.thread? c.t = some th) (hi : c.idle = false) (ha : effDst th.kind d = .scl a)
    (hlo : 96 ≤ a.toNat) (hhi : a.toNat < 112) (hl : lat ≠ 0) (hr : portRoom s c.t (a.toNat - 96) w = true)
    (hs : (if a.toNat - 96 < 6 then s.releaseAll c.mem else some s) = some s3) :
    deliverDst s c h d w lat f fl =
      .adv (fl.foldl (fun s e => s.orFlagsFixed e.1 lat e.2) (pushPort s3 c (a.toNat - 96) w (uniform c f) h.sig)) := by
  simp [deliverDst, ht, hi, ha, hlo, hhi, hl, hr, hs]

/-- At q0-q5 it waits for both. -/
theorem deliverDst_port_stall (ht : s.thread? c.t = some th) (hi : c.idle = false) (ha : effDst th.kind d = .scl a)
    (hlo : 96 ≤ a.toNat) (hhi : a.toNat < 112) (hl : lat ≠ 0) (hq : a.toNat - 96 < 6)
    (hb : portRoom s c.t (a.toNat - 96) w = false ∨ s.releaseAll c.mem = none) : deliverDst s c h d w lat f fl = .stall := by
  cases hr : portRoom s c.t (a.toNat - 96) w with
  | false => simp [deliverDst, ht, hi, ha, hlo, hhi, hl, hr, hq]
  | true =>
    have hn : s.releaseAll c.mem = none := hb.resolve_left (by simp [hr])
    simp [deliverDst, ht, hi, ha, hlo, hhi, hl, hr, hq, hn]

end Port

/-- A word whose effect is to deliver a value, delivers it. -/
theorem delivers_of {i : Instr} {s s2 : State} {p : Ready} {h : Hdr} {d : Dst} {w lat : Nat} {f : Opd} {fl : List (Nat × BitVec 5)}
    {k : Checks} {body : Ctx0 → State → Res} {th : Thread}
    (hk : Instr.checks i s = some k) (hp : ready i s = some p) (he : exec i s = issueR k.op k.h k.reg k.us k.extra body s)
    (hb : body p.c p.s1 = deliverDst s2 p.c h d w lat f fl) (hi : p.c.idle = false) (ht : s2.thread? p.c.t = some th)
    (hkind : p.kind = th.kind) : Delivers i s p h d w lat f fl s2 := by
  have hrun : exec i s = finish p.c p.fresh p.s0 (deliverDst s2 p.c h d w lat f fl) := by rw [he, issueR_ready hk hp, hb]
  unfold Delivers
  rw [hkind]
  refine ⟨fun hd => finishes_of hk hp he (hb.trans (deliverDst_reg ht hi hd)), fun a ha hlo hhi => ⟨?_, ?_, ?_, ?_⟩⟩
  · rintro rfl hroom
    refine finishes_of hk hp he (hb.trans ((deliverDst_port_later ht hi ha hlo hhi).trans ?_))
    simp only [pushNow, hroom, Bool.false_eq_true, if_false]
  · rintro rfl hfull hhalt
    rw [hrun, deliverDst_port_later ht hi ha hlo hhi]
    simp only [pushNow, hfull, if_true, finish, hhalt]
  · intro hl s3 hroom hrel
    exact finishes_of hk hp he (hb.trans (deliverDst_port_room ht hi ha hlo hhi hl hroom hrel))
  · intro hl hq hbusy
    rw [hrun, deliverDst_port_stall ht hi ha hlo hhi hl hq hbusy, finish_stall]

/-! ## Status registers -/

/-- With no flag in flight FFLAGS reads as the flags that have landed (R108). -/
theorem statusReg_fflags {s : State} {c : Ctx0} {th : Thread} (hf : th.flagsInFlight c.t = 0) :
    s.statusReg c th 0x03 = th.sureFlags.setWidth 64 := by
  simp [State.statusReg, hf]

/-- Settles O30: SRD delivers the value of its register, and each layout is the model's row of that register. -/
theorem statusReads : Obligations.StatusReads := by
  refine ⟨fun h d reg s p th hp hi ht => ?_, fun s c th => ?_⟩
  · refine delivers_of (k := ⟨0xE2, h, _, _, _⟩) rfl hp rfl ?_ hi ht (ready_kind ht)
    simp only [ht]
  · exact ⟨rfl, rfl, rfl, statusReg_fflags, rfl, rfl, rfl, rfl, rfl, rfl, rfl, rfl, rfl, rfl, rfl, rfl, rfl, rfl, rfl⟩

/-! ## A window that still waits (R355) -/

/-- An XS whose block holds rows 0 to 63 of its array, with an ACCWIN of rows 0 to 31 that waits for the ACCZ in its q3 stream to start. -/
def windowWaits : State :=
  let th (k : TKind) : Thread := { startThread k 0 0 0 0 0 false 128 0x1000 with alim := 63, wlim := 63 }
  { (((State.reset.setBlock 0 { lonelyBlock true 4096 with accRows := 64 }).setThread 4096 (th .as)).setThread 4097 (th .xs)).setStream
      (streamKey 4097 3) { emptyStream with buf := [(0xC360, none, [])] } with
    boot := .up
    cur := .thread 4097 1
    ridgeWaits := [{ ups := [(streamKey 4097 3, 1)], ms := [4097], win := some (0, 31) }] }

/-- SWR of row 16 to ACCBASE. -/
def writeAccbase : Instr := .swr (bareHdr .lane) 0x13 (.lit 16)

/-- In `windowWaits` the SWR is ready and `swrOf` accepts its value; but the state that it leaves holds another waiting window than the one
that changes the thread alone. -/
theorem writeAccbase_changes_ridgeWaits :
    ∃ p v s2 th th' t, ready writeAccbase windowWaits = some p ∧ fetchSrcs p.c p.s1 [(.lit 16, 64)] = .ok [v] s2 ∧ p.c.idle = false ∧
      s2.thread? p.c.t = some th ∧ s2.swrOf p.c th (0x13 : BitVec 8).toNat (v p.c.t 0) = .ok th' ∧
      settles p.c (s2.setThread p.c.t th') = true ∧ exec writeAccbase windowWaits = .next t ∧
      t.ridgeWaits.map (·.win) = [some (16, 31)] ∧
      (completed p.c p.s0 (s2.setThread p.c.t th')).ridgeWaits.map (·.win) = [some (0, 31)] :=
  ⟨_, _, _, _, _, _, rfl, rfl, rfl, rfl, rfl, rfl, rfl, rfl, rfl⟩

/-- Refutes O31: the SWR writes more than its register. One of ACCBASE or ACCLIM also overrides the window of an ACCWIN that still waits
(`State.swrWindow`): in `windowWaits` the waiting window (0, 31) becomes (16, 31). -/
theorem not_statusWrites : ¬ Obligations.StatusWrites := by
  rintro ⟨hword, -⟩
  obtain ⟨p, v, s2, th, th', t, hp, hf, hi, ht, hok, hset, hexec, hwin, hsame⟩ := writeAccbase_changes_ridgeWaits
  obtain ⟨hfin, -⟩ := hword _ _ _ _ _ _ _ _ hp hf hi ht
  have heq : t = completed p.c p.s0 (s2.setThread p.c.t th') := Host.Outcome.next.inj (hexec.symm.trans (hfin th' hok hset))
  rw [heq, hsame] at hwin
  exact absurd hwin (by decide)

/-! ## Generators (R117, R174) -/

/-- The kind of a thread does not depend on its generators. (With a variable for the table: to see this of `setGen` itself the kernel would
evaluate the constant of the seed.) -/
theorem kind_of_gen (th : Thread) (g : Tbl W32) : ({ th with gen := g } : Thread).kind = th.kind := rfl

@[simp] theorem setGen_kind (th : Thread) (j : Nat) (x : W32) : (th.setGen j x).kind = th.kind := kind_of_gen th _

/-- A change of one thread that keeps its kind keeps every thread's. -/
theorem mapThread_kind {f : Thread → Thread} (hf : ∀ x, (f x).kind = x.kind) (s : State) (u t : Nat) :
    ((s.mapThread u f).thread? t).map (·.kind) = (s.thread? t).map (·.kind) := mapMembers_kind [u] f hf s t

/-- So do many of them, one after another. -/
theorem foldl_mapThread_kind {α : Type} {u : α → Nat} {f : α → Thread → Thread} (hf : ∀ e x, (f e x).kind = x.kind) (es : List α)
    (s : State) (t : Nat) :
    ((es.foldl (fun s e => s.mapThread (u e) (f e)) s).thread? t).map (·.kind) = (s.thread? t).map (·.kind) := by
  induction es generalizing s with
  | nil => rfl
  | cons e es ih => rw [List.foldl_cons, ih, mapThread_kind (hf e)]

/-- A thread of the same kind is there, where one was. -/
theorem thread_of_kind {s s' : State} {t : Nat} {th : Thread} (ht : s.thread? t = some th)
    (hk : (s'.thread? t).map (·.kind) = (s.thread? t).map (·.kind)) : ∃ th', s'.thread? t = some th' ∧ th'.kind = th.kind := by
  rw [ht] at hk
  exact Option.map_eq_some_iff.mp hk

theorem mapThread_of_some {s : State} {t : Nat} {th : Thread} (ht : s.thread? t = some th) (f : Thread → Thread) :
    s.mapThread t f = s.setThread t (f th) := by
  simp [State.mapThread, ht]

/-! ## Conversions that step generators (R117, R168-R173) -/

/-- Stepping the generators of the converting lanes keeps the kind of every thread. -/
theorem foldl_stepped_kind (n : Thread → Nat) (es : List (Nat × Nat)) (s : State) (t : Nat) :
    ((es.foldl (stepped n) s).thread? t).map (·.kind) = (s.thread? t).map (·.kind) := by
  refine foldl_mapThread_kind (u := (·.1)) (fun e x => ?_) es s t
  split
  · exact setGen_kind ..
  · rfl

/-- The body of a conversion whose sources are read and whose destination is a register. -/
theorem cvtBody_converted {h : Hdr} {d : Dst} {xs : List (Src × Nat)} {n : Thread → Nat}
    {f : Thread → List W64 → List W32 → W64 × BitVec 5} {p : Ready} {vs : List Opd} {s2 : State}
    (hf : fetchSrcs p.c p.s1 xs = .ok vs s2) (hi : p.c.idle = false) (hd : isRegDst p.kind d = true) :
    cvtBody h d 32 xs n f p.c p.s1 = .adv (converted h d n f p vs s2) := by
  obtain ⟨th, th2, ht, ht2, hk2⟩ := fetchSrcs_kind hf
  have hkind : p.kind = th.kind := ready_kind ht
  obtain ⟨th3, ht3, hk3⟩ := thread_of_kind ht2 (foldl_stepped_kind n (convLanes p d) s2 p.c.t)
  have hk : p.kind = th3.kind := by rw [hkind, hk3, hk2]
  unfold cvtBody withSrcs converted
  simp only [hf, ht]
  rw [hk] at hd ⊢
  rw [← deliverDst_reg ht3 hi hd]
  simp only [dstFlags, ← hk, hkind, convLanes]
  rfl

/-- A ready conversion finishes with its result. -/
theorem conversion_finishes {h : Hdr} {d : Dst} {xs : List (Src × Nat)} {n : Thread → Nat}
    {f : Thread → List W64 → List W32 → W64 × BitVec 5} {p : Ready} {vs : List Opd} {s2 : State} {i : Instr} {s : State} {k : Checks}
    (hk : Instr.checks i s = some k) (hp : ready i s = some p)
    (he : exec i s = issueR k.op k.h k.reg k.us k.extra (cvtBody h d 32 xs n f) s)
    (hf : fetchSrcs p.c p.s1 xs = .ok vs s2) (hi : p.c.idle = false) (hd : isRegDst p.kind d = true) :
    Finishes i s p (converted h d n f p vs s2) := finishes_of hk hp he (cvtBody_converted hf hi hd)

theorem conversionResults : Claim.ConversionResults := by
  refine ⟨?cvtf, ?cvt8, ?cvt4, ?cvtw⟩
  case cvtf =>
    intro h pk hi dst src rm d a b s s2 p vs hp hf hidle hd one arg
    refine conversion_finishes rfl hp ?_ hf hidle hd
    change execCvtf h pk hi dst src rm d a b s = _
    simp only [execCvtf, beq_iff_eq]
    rfl
  case cvt8 =>
    intro h byte nosat t rm d a b s s2 p vs hp hf hidle hd
    exact conversion_finishes rfl hp rfl hf hidle hd
  case cvt4 =>
    intro h nib rm d a b s s2 p vs hp hf hidle hd
    exact conversion_finishes rfl hp rfl hf hidle hd
  case cvtw =>
    intro h t nosat rm d a b s s2 p vs hp hf hidle hd
    exact conversion_finishes rfl hp rfl hf hidle hd

theorem generatorResults : Claim.GeneratorResults := by
  refine ⟨?rseed, ?rnext⟩
  case rseed =>
    intro h a s s2 p v th hp hf hidle ht
    refine finishes_of (k := ⟨0x6C, h, none, _, _⟩) rfl hp rfl ?_
    simp only [withSrcs, hf, hidle, Bool.false_eq_true, if_false, mapThread_of_some ht]
    rfl
  case rnext =>
    intro h j f d s p th hp hidle ht hd idx s3
    obtain ⟨th3, ht3, hk3⟩ := thread_of_kind ht
      (foldl_mapThread_kind (u := fun _ => p.c.t) (fun l y => setGen_kind y (idx l) (genNext (y.genAt (idx l))))
        (lanesOf (p.c.active p.c.t)) p.s1 p.c.t)
    refine finishes_of (k := ⟨0x6D, h, none, _, _⟩) rfl hp rfl ?_
    simp only [ht]
    rw [← hk3] at hd
    exact (deliverDst_reg ht3 hidle hd).trans (by rw [hk3])

/-- Settles O11: the bodies of the conversions are `cvtBody`, whose effect is `converted`; RSEED and RNEXT change the generators of the one
issuing thread. -/
theorem conversionAndGeneratorResults : Obligations.ConversionAndGeneratorResults := ⟨conversionResults, generatorResults⟩

end Sys2Proof.Machine.NumberFormats
end

section
/-! Floating-point instructions of one result (R158-R172). -/

namespace Sys2Proof.Machine.FloatValues

/-- The word runs the checks of its row (R81), and its own effect is to read the sources of `k` and deliver the value of `k`. -/
def IssuesValue (i : Instr) (s : State) (k : Val) : Prop :=
  ∃ r, Instr.checks i s = some r ∧ exec i s = issueR r.op r.h r.reg r.us r.extra (valueBody k.h k.d k.w k.lat k.xs k.f) s

/-- Such a word, ready and with its sources read, finishes with the result of `k`. -/
theorem IssuesValue.finishes {i : Instr} {s s2 : State} {k : Val} {p : Ready} {vs : List Opd} (hv : IssuesValue i s k)
    (hp : ready i s = some p) (hf : fetchSrcs p.c p.s1 k.xs = .ok vs s2) (hi : p.c.idle = false) (hd : isRegDst p.kind k.d = true) :
    Finishes i s p (k.result p vs s2) := by
  obtain ⟨r, hr, he⟩ := hv
  exact val_finishes hr hp he hf hi hd

/-- Every floating-point instruction of one result issues its value. CVT8, CVT4 and CVTW give one only where they widen (UNPK): narrowing may
step a generator (R117), and is no value of the sources alone. -/
theorem floatValue_issues {i : Instr} {k : Val} (hk : Instr.floatValue i = some k) (s : State) : IssuesValue i s k := by
  cases i
  case fadd | fsub | fmul | ffma | fmin | fmax | fsgn | fclass | hadd2 | hmul2 | hfma2 | hmin2 | hmax2 | rcp | rsq | sqrt | exp2 | log2 |
      sin | cos | dot2 | dot4 | cvtfi | cvtif =>
    cases hk
    exact ⟨_, rfl, rfl⟩
  case cvt8 h unpk byte nosat t rm d a b =>
    cases unpk with
    | true => cases hk; exact ⟨_, rfl, rfl⟩
    | false => cases hk
  case cvt4 h unpk nib rm d a b =>
    cases unpk with
    | true => cases hk; exact ⟨_, rfl, rfl⟩
    | false => cases hk
  case cvtw h unpk t nosat rm d a b =>
    cases unpk with
    | true => cases hk; exact ⟨_, rfl, rfl⟩
    | false => cases hk
  all_goals cases hk

/-- Settles O5: each such word issues through its row with the value of its sources as its effect, and a ready one finishes with it. -/
theorem floatResults : Obligations.FloatResults :=
  fun _ s _ _ _ _ hk hp hf hi hd => (floatValue_issues hk s).finishes hp hf hi hd

end Sys2Proof.Machine.FloatValues
end

section
/-! Memory, gutter and boot steps (R281-R298, R436-R442, R452, R453, R493, R503-R508). -/

namespace Sys2Proof.Machine.MachineStepEffects

/-! ## The steps of memory -/

/-- A line without an error in LPDDR6 is read and left (R292). -/
theorem dramPatrolScrub_clean {s : State} {line : Nat} (h : s.latent.get 0 line ≠ 3) : exec (.dramPatrolScrub line) s = .next s := by
  change execDramPatrolScrub line s = _
  simp [execDramPatrolScrub, h]

/-- One that has an error there and no copy in the Mere is found, and its page is to be retired (R292, R297). -/
theorem dramPatrolScrub_error {s : State} {line : Nat} (h : s.latent.get 0 line = 3) (hw : s.findWay (128 * line) = none) :
    exec (.dramPatrolScrub line) s =
      .next { s with ue := s.ue ++ [{ pa := 128 * line, slot := none, owner := none, stage := 1 }] } := by
  change execDramPatrolScrub line s = _
  simp [execDramPatrolScrub, h, hw]

/-- With an entry in the log, the whole ring is in the flash, each entry at its place (R493). -/
theorem persist_of_mem {s : State} {e : Silt} (h : e ∈ s.silt) :
    let l := s.silt.map fun e => { e with persisted := true }
    s.persist = { s with silt := l, siltFlash := if l.length < 4096 then l else l.rotateLeft (s.siltCount % 4096) } := by
  have hne : ¬ s.silt.isEmpty = true := by simpa using List.ne_nil_of_mem h
  exact if_neg hne

@[simp] theorem ueNext_retired (s : State) (i : Nat) (stage : Option Nat) : (s.ueNext i stage).retired = s.retired := by
  unfold State.ueNext
  split <;> rfl

/-- The half of O45 about memory holds: each step is its row, run under its premises. -/
theorem memorySteps : Claim.MemorySteps := by
  refine ⟨fun s slot => ⟨fun h => ?_, fun l h => ?_⟩, fun s line => ⟨dramPatrolScrub_clean, dramPatrolScrub_error⟩, fun _ _ _ => rfl,
    fun s v pa bytes h => ?_, fun s i u h => ?_, fun s i u h => ⟨fun hn => ?_, fun hn => ?_⟩, fun s i u h => ?_, fun s h => ?_,
    fun s h => ?_⟩
  · change execMerePatrolScrub slot s = _
    simp only [execMerePatrolScrub, h]
  · change execMerePatrolScrub slot s = _
    simp only [execMerePatrolScrub, h]
  · change execSensorStreamWrite v pa bytes s = _
    simp only [execSensorStreamWrite, Nat.not_lt.2 h, if_false]
  · change execCtxKill s = _
    simp only [execCtxKill, h]
  · change execPageRetire s = _
    simp only [execPageRetire, h, hn, if_true, ueNext_retired]
  · change execPageRetire s = _
    simp only [execPageRetire, h, Nat.not_lt.2 hn, if_false]
  · change execWayQuar s = _
    simp only [execWayQuar, h]
    split <;> rfl
  · change execMereInjection s = _
    simp only [execMereInjection, h, if_true]
  · change execSiltPersist s = _
    obtain ⟨e, he, hf, hp⟩ := h
    have hwaits : (s.silt.any fun e => e.fatal && !e.persisted) = true := List.any_eq_true.2 ⟨e, he, by simp [hf, hp]⟩
    simp only [execSiltPersist, hwaits, if_true, persist_of_mem he]

/-! ## Flits (R440, R453) -/

/-- The three cases of a flit's header: no error, one that is corrected, and two or more. -/
theorem gutterFlitArrival_eq {st lane : Nat} (hst : st < 24) (hl : lane < 32) (west : Bool) (errs : Nat) (s : State) :
    exec (.gutterFlitArrival st west lane errs) s =
      if errs = 0 then .next s
      else if errs = 1 then .next (s.setCfg 0xFC010 ((s.cfgAt 0xFC010 &&& 0xFFFFFFFF00000000) ||| ((s.cfgAt 0xFC010 + 1) &&& 0xFFFFFFFF)))
      else .next (((s.setCfg 0xFC010 (s.cfgAt 0xFC010 + 0x100000000)).loseFlits true).log 0x0460 (0x4000 + st) 0xFFFF
        (BitVec.ofNat 64 (st * 256 + (if west then 32 else 0) + lane)) (s.openArg 0)) := by
  change execGutterFlitArrival st west lane errs s = _
  simp [execGutterFlitArrival, Nat.not_le.2 hst, Nat.not_le.2 hl]

/-! ## Dead lanes (R441, R452) -/

/-- Memory and, of every thread, all but its results in flight are as they were. -/
def OnlyInFlight (s t : State) : Prop :=
  t.mem = s.mem ∧ ∀ u th, s.thread? u = some th → ∃ th', t.thread? u = some th' ∧ { th' with pend := th.pend } = th

theorem OnlyInFlight.of_eq {s t : State} (hm : t.mem = s.mem) (ht : t.threads = s.threads) : OnlyInFlight s t :=
  ⟨hm, fun u th h => ⟨th, by rw [← h, State.thread?, ht]; rfl, rfl⟩⟩

theorem OnlyInFlight.refl (s : State) : OnlyInFlight s s := .of_eq rfl rfl

theorem OnlyInFlight.trans {s t w : State} (h : OnlyInFlight s t) (h' : OnlyInFlight t w) : OnlyInFlight s w := by
  refine ⟨h'.1.trans h.1, fun u th hu => ?_⟩
  obtain ⟨x, hx, hxth⟩ := h.2 u th hu
  obtain ⟨y, hy, hyx⟩ := h'.2 u x hx
  exact ⟨y, hy, (congrArg (fun z : Thread => { z with pend := th.pend }) hyx).trans hxth⟩

theorem OnlyInFlight.ite {s t : State} (h : OnlyInFlight s t) (c : Prop) [Decidable c] : OnlyInFlight s (if c then t else s) := by
  split
  · exact h
  · exact .refl s

theorem OnlyInFlight.foldl {α : Type} {f : State → α → State} (hf : ∀ s a, OnlyInFlight s (f s a)) (l : List α) (s : State) :
    OnlyInFlight s (l.foldl f s) := by
  induction l generalizing s with
  | nil => exact .refl s
  | cons a l ih => exact (hf s a).trans (ih (f s a))

theorem setPend_onlyInFlight (s : State) (t : Nat) (p : Pend) : OnlyInFlight s (s.setPend t p) := by
  refine ⟨by simp [State.setPend], fun u th h => ?_⟩
  rw [State.setPend, State.thread?_mapThread]
  split
  · refine ⟨_, by rw [h]; exact Option.map_some .., ?_⟩
    rfl
  · exact ⟨th, h, rfl⟩

theorem sendBatch_onlyInFlight (s : State) (key n : Nat) : OnlyInFlight s (s.sendBatch key n) := by
  unfold State.sendBatch
  split <;> exact .of_eq rfl rfl

theorem endSub_onlyInFlight (s : State) (key : Nat) : OnlyInFlight s (s.endSub key) := by
  unfold State.endSub
  split
  · split <;> exact .of_eq rfl rfl
  · exact .refl s

theorem removeSub_onlyInFlight (s : State) (key : Nat) : OnlyInFlight s (s.removeSub key) := by
  unfold State.removeSub
  split
  · exact .refl s
  · next x _ =>
    split
    · have herased (s : State) : OnlyInFlight s { s with subs := s.subs.erase key } := .of_eq rfl rfl
      exact ((sendBatch_onlyInFlight s key _).trans (herased _)).trans (.foldl (fun s p => endSub_onlyInFlight s _) x.peers _)
    · exact .of_eq rfl rfl

theorem undoSub_onlyInFlight (s : State) (p : Pend) : OnlyInFlight s (s.undoSub p) := by
  unfold State.undoSub
  split
  · split
    · exact (removeSub_onlyInFlight s _).ite _
    · exact .refl s
  · exact .refl s

theorem loseAccess_onlyInFlight (s : State) (n : Nat) (a : Nat × Nat) : OnlyInFlight s (s.loseAccess n a) := by
  unfold State.loseAccess
  split
  · exact .refl s
  · exact ((undoSub_onlyInFlight s _).ite _).trans (setPend_onlyInFlight ..)

theorem loseFlits_onlyInFlight (s : State) (one : Bool) : OnlyInFlight s (s.loseFlits one) :=
  OnlyInFlight.trans (t := { s with batches := _ }) (.of_eq rfl rfl)
    (.foldl (fun s _ => (loseAccess_onlyInFlight s _ _).ite _) _ _)

/-- What a halt of the dies leaves alone: the pause, the dying lanes, memory and the threads. -/
def SameLanes (s t : State) : Prop := t.pause = s.pause ∧ t.dying = s.dying ∧ t.mem = s.mem ∧ t.threads = s.threads

theorem SameLanes.trans {s t w : State} (h : SameLanes s t) (h' : SameLanes t w) : SameLanes s w := by
  obtain ⟨hp, hd, hm, ht⟩ := h
  obtain ⟨hp', hd', hm', ht'⟩ := h'
  exact ⟨hp'.trans hp, hd'.trans hd, hm'.trans hm, ht'.trans ht⟩

theorem logAs_sameLanes (s : State) (fatal : Bool) (code source ctx : Nat) (a0 a1 : W64) :
    SameLanes s (s.logAs fatal code source ctx a0 a1) := by
  unfold State.logAs
  split <;> exact ⟨rfl, rfl, rfl, rfl⟩

theorem persist_sameLanes (s : State) : SameLanes s s.persist := by
  unfold State.persist
  split <;> exact ⟨rfl, rfl, rfl, rfl⟩

theorem mapClusters_sameLanes (f : Cluster → Cluster) (l : List Nat) (s : State) :
    SameLanes s (l.foldl (fun s c => s.mapCluster c f) s) := by
  induction l generalizing s with
  | nil => exact ⟨rfl, rfl, rfl, rfl⟩
  | cons c l ih => exact SameLanes.trans (t := s.mapCluster c f) ⟨rfl, rfl, rfl, rfl⟩ (ih _)

theorem haltDies_sameLanes (s : State) : SameLanes s s.haltDies :=
  have hlog : SameLanes s s.fatalEntry := logAs_sameLanes ..
  ((hlog.trans (mapClusters_sameLanes ..)).trans (persist_sameLanes _)).trans ⟨rfl, rfl, rfl, rfl⟩

/-- What the step of a dead lane leaves while its gutter has a lane in service; `b` is the bit of the lane. -/
def lostLane (b : Nat) (s : State) : State :=
  let s := (s.setCfg 0xFC008 (s.cfgAt 0xFC008 ||| 1)).loseFlits false
  { s with pause := true, pausedAt := if s.pause then s.pausedAt else s.time, dying := s.dying ||| (1#64 <<< b) }

/-- A choice is one of its branches. -/
theorem ite_cases {α : Type} (c : Prop) [Decidable c] (a b : α) : (if c then a else b) = a ∨ (if c then a else b) = b := by
  by_cases h : c
  · exact .inl (if_pos h)
  · exact .inr (if_neg h)

/-- With the last lane of a gutter both dies halt as well (R452). -/
theorem deadLane_cases (s : State) (west : Bool) {lane : Nat} (h : lane < 32) :
    exec (.deadLane west lane) s = .next (lostLane (lane + if west then 32 else 0) s) ∨
    exec (.deadLane west lane) s = .next (lostLane (lane + if west then 32 else 0) s).haltDies := by
  change execDeadLane west lane s = _ ∨ execDeadLane west lane s = _
  rw [execDeadLane, if_neg (Nat.not_le.2 h)]
  exact (ite_cases _ _ _).symm.imp (congrArg _) (congrArg _)

theorem lostLane_onlyInFlight (b : Nat) (s : State) : OnlyInFlight s (lostLane b s) :=
  (loseFlits_onlyInFlight (s.setCfg 0xFC008 (s.cfgAt 0xFC008 ||| 1)) false).trans (.of_eq rfl rfl)

theorem lostLane_dying {b : Nat} (hb : b < 64) (s : State) : (lostLane b s).dying.getLsbD b = true := by
  simp [lostLane, hb]

/-- A dead lane pauses injection, is dying, and reaches no more of the threads than their results in flight. -/
theorem deadLane_effect (s : State) (west : Bool) {lane : Nat} (h : lane < 32) : ∃ t : State, exec (.deadLane west lane) s = .next t ∧
    t.pause = true ∧ t.dying.getLsbD (lane + if west then 32 else 0) = true ∧ OnlyInFlight s t := by
  have hb : lane + (if west then 32 else 0) < 64 := by split <;> omega
  have hlost := lostLane_onlyInFlight (lane + if west then 32 else 0) s
  have hdying := lostLane_dying hb s
  rcases deadLane_cases s west h with he | he
  · exact ⟨_, he, rfl, hdying, hlost⟩
  · obtain ⟨hp, hd, hm, ht⟩ := haltDies_sameLanes (lostLane (lane + if west then 32 else 0) s)
    exact ⟨_, he, hp, by rw [hd]; exact hdying, hlost.trans (.of_eq hm ht)⟩

/-! ## The compilation of the routes (R438, R442, R452) -/

theorem rafterRecompile_drained {s : State} (hp : s.pause = true) (hb : s.boot ≠ .stopped)
    (hm : ∀ m ∈ s.batches, s.entryInTransit m = false) (ht : s.inTransit = []) : exec .rafterRecompile s = .next s.compileRafter := by
  change execRafterRecompile s = _
  have hany : s.batches.any s.entryInTransit = false := List.any_eq_false.2 fun m hmem => by simp [hm m hmem]
  simp [execRafterRecompile, hp, hb, hany, ht]

/-- The compilation stores the lanes out of service, the complement of FAB_LIVE, and what else it writes leaves them. -/
theorem cfgAt_compileRafter (s : State) : s.compileRafter.cfgAt 0xFC000 = (s.setCfg 0xFC000 (s.cfgAt 0xFC000 ||| s.dying)).cfgAt 0xFC000 :=
  Tbl.get_set_ne 0 _ _ (by decide)

/-- Where the configuration space is in canonical form the entry reads as the lanes that were out of service and the dying ones. -/
theorem cfgAt_compileRafter_canonical {s : State} (h : Tbl.wf 0 s.cfg = true) :
    s.compileRafter.cfgAt 0xFC000 = s.cfgAt 0xFC000 ||| s.dying :=
  (cfgAt_compileRafter s).trans (Tbl.get_set_self _ _ h)

/-- The one clause of O45 that rests on the canonical form of the configuration space, which it does not ask for. -/
def LanesLeaveService : Prop :=
  ∀ s : State, s.pause = true → s.boot ≠ .stopped → (∀ m ∈ s.batches, s.entryInTransit m = false) → s.inTransit = [] →
    s.compileRafter.cfgAt 0xFC000 = s.cfgAt 0xFC000 ||| s.dying

/-! ## Boot (R506-R508) -/

/-- Without an inventory record the boot fails (R508). -/
theorem powerGoodBoot_noInventory {s : State} {flash : List Image} (ok : Bool) (hb : s.boot = .off)
    (h : s.powerGood.image flash 3 = none) : exec (.powerGoodBoot flash ok) s = .next s.powerGood.bootFail := by
  change execPowerGoodBoot flash ok s = _
  simp [execPowerGoodBoot, hb, h]

/-- With every image verified, the steps without an image decide whether the harts start (R507, R508). -/
theorem powerGoodBoot_images {s s1 : State} {flash : List Image} (ok : Bool) {inv a b i : Image} (hb : s.boot = .off)
    (h : s.powerGood.image flash 3 = some inv) (hs : s1 = { s.powerGood with inv := s.powerGood.inv.load (imageWords inv) })
    (h1 : s1.image flash 1 = some a) (h2 : s1.image flash 2 = some b) (h4 : s1.image flash 4 = some i) :
    exec (.powerGoodBoot flash ok) s = .next (if ok then
      { (s1.setCfg 0xFC000 (~~~((imageWords inv).getD 39 (BitVec.allOnes 64)))).compileRafter with boot := .up }.startImage i
      else s1.bootFail) := by
  subst hs
  change execPowerGoodBoot flash ok s = _
  cases ok <;> simp [execPowerGoodBoot, hb, h, h1, h2, h4]

theorem recoveryImage_failed {s : State} (img : Image) (h : s.boot = .failed) :
    exec (.recoveryImage img) s = .next (if s.accepts img then { s with boot := .off } else s) := by
  change execRecoveryImage img s = _
  simp [execRecoveryImage, h]

/-- Every clause of the gutter and of boot but `LanesLeaveService` holds. -/
theorem gutterAndBootSteps_iff : Claim.GutterAndBootSteps ↔ LanesLeaveService := by
  refine ⟨fun ⟨_, _, hrecompile, _⟩ s hp hb hm ht => ?_, fun hl => ⟨fun s st west lane errs hst hlane => ?_,
    fun s west lane h => deadLane_effect s west h, fun s hp hb hm ht => ⟨rafterRecompile_drained hp hb hm ht, rfl, rfl, hl s hp hb hm ht⟩,
    fun s flash ok hb => ⟨powerGoodBoot_noInventory ok hb, ?_⟩, fun s img => recoveryImage_failed img⟩⟩
  · obtain ⟨-, -, -, hlanes⟩ := hrecompile s hp hb hm ht
    exact hlanes
  · rw [gutterFlitArrival_eq hst hlane]
    refine ⟨fun h => if_pos h, fun h => by simp [h], fun h => ⟨s.openArg 0, ?_⟩⟩
    rw [if_neg (by omega), if_neg (by omega)]
  · intro inv a b i h3 s1 h1 h2 h4
    have hboot := powerGoodBoot_images ok hb h3 rfl h1 h2 h4
    exact ⟨fun h => by rw [hboot, h]; rfl, fun h => by rw [hboot, h]; rfl⟩

/-- So O45 says no more and no less than that clause. -/
theorem machineSteps_iff : Obligations.MachineSteps ↔ LanesLeaveService :=
  ⟨fun h => gutterAndBootSteps_iff.1 h.2, fun h => ⟨memorySteps, gutterAndBootSteps_iff.2 h⟩⟩

/-! ## The table that refutes the clause -/

/-- A paused part without a flit in transit, whose configuration space lists the entry of FAB_LIVE twice, as 0 and as 1. -/
def fabLiveTwice : State := { State.reset with pause := true, cfg := [(0xFC000, 0), (0xFC000, 1)] }

/-- The entry reads 0 and no lane is dying; but storing that 0 takes the first of the two out, and the other then reads 1. -/
theorem fabLiveTwice_compiled :
    fabLiveTwice.cfgAt 0xFC000 ||| fabLiveTwice.dying = 0 ∧ fabLiveTwice.compileRafter.cfgAt 0xFC000 = 1 :=
  ⟨rfl, (cfgAt_compileRafter _).trans rfl⟩

theorem not_lanesLeaveService : ¬ LanesLeaveService := by
  intro hlanes
  obtain ⟨hreads, hcompiled⟩ := fabLiveTwice_compiled
  have hclause : fabLiveTwice.compileRafter.cfgAt 0xFC000 = fabLiveTwice.cfgAt 0xFC000 ||| fabLiveTwice.dying :=
    hlanes fabLiveTwice rfl (by decide) (by intro m hm; cases hm) rfl
  rw [hreads, hcompiled] at hclause
  exact absurd hclause (by decide)

/-- Refutes O45: its clause on RAFTER_RECOMPILE speaks of every table of the configuration space, and that of `fabLiveTwice` is not in
canonical form. Every other clause holds of every state (`machineSteps_iff`), and that one of every canonical table
(`cfgAt_compileRafter_canonical`). -/
theorem not_machineSteps : ¬ Obligations.MachineSteps := fun h => not_lanesLeaveService (machineSteps_iff.1 h)

end Sys2Proof.Machine.MachineStepEffects
end
